-- ==== Sys2Proof/Word.lean ====
section
/-! DEFINITION. The byte and the 32-bit word of the engine (00_scope.md R9). -/

namespace Sys2Proof

/-- One byte of the engine's memories (20_memory.md R60). -/
abbrev Byte := BitVec 8

/-- A 32-bit register or raw integer (10_state.md R23, R42; 20_memory.md R64). -/
abbrev Word := BitVec 32

end Sys2Proof
end

