-- ==== Sys2Proof/Machine/Memory.lean ====
section
/-! DEFINITION. The byte memories of 20_memory.md R60 (`INSEG`, `WIN`, `OUT`) as sparse lists in one canonical form. -/

namespace Sys2Proof.Machine

/-- A byte memory: pairs (address, byte), addresses strictly rising, no byte equal to `unlistedByte`. -/
abbrev Memory := List Host.Cell

/-- What a byte nothing has written reads as (log 4). -/
def unlistedByte : Byte := 0

/-- The byte at an address. -/
def Memory.read : Memory → Nat → Byte
  | [], _ => unlistedByte
  | (c, x) :: m, a => if a < c then unlistedByte else if a = c then x else Memory.read m a

/-- The memory with the byte at an address replaced, in canonical form. -/
def Memory.write : Memory → Nat → Byte → Memory
  | [], a, b => if b = unlistedByte then [] else [(a, b)]
  | (c, x) :: m, a, b =>
    if a < c then
      if b = unlistedByte then (c, x) :: m else (a, b) :: (c, x) :: m
    else if a = c then
      if b = unlistedByte then m else (a, b) :: m
    else (c, x) :: Memory.write m a b

/-- Every listed address is above `lo` where given, addresses rise strictly, and no listed byte is `unlistedByte`. -/
def Memory.wfAbove : Option Nat → Memory → Bool
  | _, [] => true
  | lo, (c, x) :: m =>
    (match lo with
      | some l => decide (l < c)
      | none => true) && decide (x ≠ unlistedByte) && Memory.wfAbove (some c) m

/-- The canonical form. -/
def Memory.wf (m : Memory) : Bool := Memory.wfAbove none m

/-- `MemRead(space, a, n)`: `n` bytes from `a`, little-endian (20_memory.md R60). -/
def Memory.readLE (m : Memory) (a : Nat) : Nat → Nat
  | 0 => 0
  | n + 1 => (Memory.read m a).toNat + 256 * Memory.readLE m (a + 1) n

/-- `MemWrite(space, a, n, v)`: the low `n` bytes of `v` from `a`, little-endian (20_memory.md R60). -/
def Memory.writeLE (m : Memory) (a : Nat) : Nat → Nat → Memory
  | 0, _ => m
  | n + 1, v => Memory.writeLE (Memory.write m a (BitVec.ofNat 8 v)) (a + 1) n (v / 256)

/-- The bytes at `a`, `a + 1`, …, `a + n - 1`. -/
def Memory.bytes (m : Memory) (a : Nat) : Nat → List Byte
  | 0 => []
  | n + 1 => Memory.read m a :: Memory.bytes m (a + 1) n

/-- The memory with the bytes of a list written from `a` up. -/
def Memory.writeBytes (m : Memory) (a : Nat) : List Byte → Memory
  | [] => m
  | b :: bs => Memory.writeBytes (Memory.write m a b) (a + 1) bs

end Sys2Proof.Machine
end

