-- ==== Sys2Proof/Machine/BitReader.lean ====
section
/-! DEFINITION. The bit reader (40_bitreader.md): its registers, `InByte`, `Refill`, the bit reads and the raw reads. -/

namespace Sys2Proof.Machine

/-- The registers of the bit reader and the segment it reads (10_state.md R40). -/
structure Reader where
  /-- `INSEG`, the bytes the host has written. -/
  inseg : Memory
  /-- The length of the attached segment; 0 when there is none. -/
  segLen : Nat
  /-- The index of the next input byte to fetch. -/
  swath : Nat
  /-- The accumulator. -/
  buffer : Word
  /-- The number of valid bits in the accumulator. -/
  total : Nat
deriving DecidableEq, Repr

/-- `mask(n)` (00_scope.md R9), as a 32-bit word. -/
def maskWord (n : Nat) : Word := BitVec.ofNat 32 (2 ^ n - 1)

/-- `InByte()` (20_memory.md R61). -/
def inByte (r : Reader) : Byte × Reader :=
  if r.swath < r.segLen then (Memory.read r.inseg r.swath, { r with swath := r.swath + 1 }) else (0, r)

/-- `Refill()` (40_bitreader.md R131): its loop body runs at most once. -/
def refill (r : Reader) : Reader :=
  if r.total < 16 then
    let (b0, r0) := inByte r
    let (b1, r1) := inByte r0
    { r1 with
      buffer := (r.buffer <<< 16) ||| (b1.setWidth 32 <<< 8) ||| b0.setWidth 32
      total := r.total + 16 }
  else r

/-- `GetDesyncBits(n, r)`: peek `n` bits, consume `k` of them (40_bitreader.md R132). -/
def getDesyncBits (n k : Nat) (r : Reader) : Nat × Reader :=
  let r := refill r
  let v := (r.buffer >>> (r.total - n)) &&& maskWord n
  let total := r.total - k
  (v.toNat, { r with total := total, buffer := r.buffer &&& maskWord total })

/-- `GetSyncBits(n)` for `n <= 16` (40_bitreader.md R133, R135). -/
def getSyncBits16 (n : Nat) (r : Reader) : Nat × Reader :=
  if n = 0 then (0, r) else getDesyncBits n n r

/-- `GetSyncBits(n)` (40_bitreader.md R133), a width above 16 split high part first (R134). -/
def getSyncBits (n : Nat) (r : Reader) : Nat × Reader :=
  if n ≤ 16 then getSyncBits16 n r
  else
    let (hi, r) := getSyncBits16 (n - 16) r
    let (lo, r) := getSyncBits16 16 r
    (hi * 2 ^ 16 + lo, r)

/-- `CheckBit(i)` (40_bitreader.md R136). -/
def checkBit (i : Nat) (r : Reader) : Nat := ((r.buffer >>> (r.total - i)) &&& 1).toNat

/-- `StartSegment` (40_bitreader.md R138): `INSEG` stands where the host wrote it (20_memory.md R60). -/
def startSegment (len : Nat) (r : Reader) : Reader :=
  { r with segLen := len, swath := 0, buffer := 0, total := 0 }

/-- `ReadLE32()` (40_bitreader.md R140). -/
def readLE32 (r : Reader) : Word × Reader :=
  let (b0, r) := inByte r
  let (b1, r) := inByte r
  let (b2, r) := inByte r
  let (b3, r) := inByte r
  (b3 ++ b2 ++ b1 ++ b0, r)

/-- The resynchronisation before the raw bytes of an Uncompressed block (42_block_header.md R187). -/
def resync (rewind : Nat) (r : Reader) : Reader :=
  { r with swath := if r.total > 16 then r.swath - rewind else r.swath, buffer := 0, total := 0 }

/-- `count` fields of `n` bits each, in stream order. -/
def getFields (n : Nat) : Nat → Reader → List Nat × Reader
  | 0, r => ([], r)
  | count + 1, r =>
    let (v, r) := getSyncBits n r
    let (vs, r) := getFields n count r
    (v :: vs, r)

end Sys2Proof.Machine
end

