-- ==== Sys2Proof/Config.lean ====
section
/-! DEFINITION. The named implementation parameters of 00_scope.md R7 and 93_implementation_defined.md section 2.
A model takes them as arguments: they stand in State (`params`), no step writes them, and `State.reset` holds the
defaults (`Params.default` in Machine/Tables.lean). The spec leaves no value "any value" (93 section 1), so there is no
free-value constant here. -/

namespace Sys2Proof

/-- `BTYPE_MAP` (30_encoding.md R94): which 3-bit codes name the three block kinds. -/
inductive BtypeMap where
  /-- 1 VERBATIM, 2 ALIGNED, 3 UNCOMPRESSED: the default. -/
  | lzx
  /-- 0 VERBATIM, 1 ALIGNED, 2 UNCOMPRESSED: the document's "Values 0–2". -/
  | zeroBased
deriving DecidableEq, Repr

/-- `REP2_ROTATION` (43_symbols.md R215). -/
inductive Rep2Rotation where
  /-- R0 and R2 exchange: the default. -/
  | swap
  /-- R1 takes R0, R0 takes R2, R2 stays. -/
  | docLiteral
deriving DecidableEq, Repr

/-- `MATCH_OVERRUN` (44_match_copy.md R246). -/
inductive MatchOverrun where
  /-- The surplus of a match that runs past `outLen` is dropped: the default. -/
  | truncate
  /-- The surplus goes to `WIN` and becomes the first bytes of the next command's `OUT`. -/
  | carry
deriving DecidableEq, Repr

/-- `E8_TRIGGER` (45_e8_transform.md R269). -/
inductive E8Trigger where
  /-- One pass per DECODE_BLOCK: the default. -/
  | perBlock
  /-- The document's literal trigger, which a model refuses. -/
  | perSymbol
deriving DecidableEq, Repr

/-- The parameters of one implementation (00_scope.md R7). -/
structure Params where
  /-- `BTYPE_MAP`. -/
  btypeMap : BtypeMap
  /-- `UNC_REWIND_BYTES` (42_block_header.md R187). -/
  uncRewindBytes : Nat
  /-- `UNC_PAD` (43_symbols.md R221). -/
  uncPad : Bool
  /-- `REP2_ROTATION`. -/
  rep2Rotation : Rep2Rotation
  /-- `ALIGNED_AT_EXTRA3` (43_symbols.md R217). -/
  alignedAtExtra3 : Bool
  /-- `CHECK_SEQUENCE` (46_host_commands.md R282). -/
  checkSequence : Bool
  /-- `MAX_OUT_LEN`; `none` is unbounded. -/
  maxOutLen : Option Nat
  /-- `MATCH_OVERRUN`. -/
  matchOverrun : MatchOverrun
  /-- `E8_TRIGGER`. -/
  e8Trigger : E8Trigger
deriving DecidableEq, Repr

end Sys2Proof
end

