-- ==== Sys2Proof/Syntax.lean ====
section
/-! DEFINITION. The trees, the block kinds, the positions in the stream grammar, and the instructions: one constructor
per row of opcode_table.json (00_scope.md R13; 30_encoding.md). -/

namespace Sys2Proof

/-- The four trees (00_scope.md R12). -/
inductive Tree where
  | pre | main | length | aligned
deriving DecidableEq, Repr

/-- `blockType` (10_state.md R24). -/
inductive BlockType where
  | none | verbatim | aligned | uncompressed
deriving DecidableEq, Repr

/-- The three length runs of a Verbatim or Aligned header (30_encoding.md R90, R98). -/
inductive Run where
  /-- MAIN, indices [0, 256). -/
  | mainLiterals
  /-- MAIN, indices [256, MAIN_ELEMENTS). -/
  | mainMatches
  /-- LENGTH, indices [0, 249). -/
  | lengths
deriving DecidableEq, Repr

/-- Where the engine stands in the grammar of 30_encoding.md R90 between two elements. -/
inductive Phase where
  /-- No command runs; the engine waits for the host (46_host_commands.md R280). -/
  | idle
  /-- The head of `FillOut`'s loop (43_symbols.md R210). -/
  | fill
  /-- ALIGNED_LENGTHS is next (42_block_header.md R185). -/
  | alignedLengths
  /-- PRETREE_LENGTHS is next: a length run opens (41_huffman.md R160). -/
  | pretree
  /-- The loop of `ReadLengths`: a pretree operation is next (41_huffman.md R160). -/
  | ptop
  /-- UNC_REPEATS is next (42_block_header.md R187). -/
  | uncRepeats
  /-- UNC_PAD is next (43_symbols.md R221). -/
  | uncPad
  /-- A match with `lenHdr = 7` is under way: LEN_FOOTER is next (43_symbols.md R212). -/
  | footer
  /-- The length of a match is known: its offset fields are next (43_symbols.md R212). -/
  | offset
  /-- The raw part of an aligned offset has been read: ALIGNED_SYM is next (43_symbols.md R217). -/
  | alignedSym
  /-- Every field of an aligned match has been read; the match itself is next (43_symbols.md R217). -/
  | matchReady
deriving DecidableEq, Repr

/-- The instructions: host commands and stream elements, in the order of opcode_table.json. -/
inductive Instr where
  /-- OP 1 (46_host_commands.md R281). -/
  | init
  /-- OP 2 (R282). -/
  | decodeBlock
  /-- OP 3 (R283). -/
  | getContent
  /-- OP 4 (R284). -/
  | getContentFrom
  /-- OP 5 (R285). -/
  | getContentRange
  /-- The reserved OPs (R286). -/
  | reservedOp0
  | reservedOp6
  | reservedOp7
  | reservedOp8
  | reservedOp9
  | reservedOp10
  | reservedOp11
  | reservedOp12
  | reservedOp13
  | reservedOp14
  | reservedOp15
  /-- `'0'` before the first header (30_encoding.md R92). -/
  | e8PreambleOff
  /-- `'1'`, E8SIZE_HI, E8SIZE_LO before the first header (R92). -/
  | e8PreambleOn (hi lo : BitVec 16)
  /-- BTYPE, BLEN_HI, BLEN_LO (R93). -/
  | blockHeader (btype : BitVec 3) (hi : BitVec 16) (lo : BitVec 8)
  /-- Eight 3-bit lengths in symbol order (R95). -/
  | alignedLengths (ls : List (BitVec 3))
  /-- Twenty 4-bit lengths in symbol order (R96). -/
  | pretreeLengths (ps : List (BitVec 4))
  /-- Pretree symbol 0..16 (R97). -/
  | ptDelta (z : BitVec 5)
  /-- Pretree symbol 17 and its 4-bit count field. -/
  | ptZrun4 (c : BitVec 4)
  /-- Pretree symbol 18 and its 5-bit count field. -/
  | ptZrun5 (c : BitVec 5)
  /-- Pretree symbol 19, its count bit and the second pretree symbol. -/
  | ptSame (c : BitVec 1) (z2 : BitVec 5)
  /-- Main symbol 0..255 (R99). -/
  | literal (b : Byte)
  /-- Main symbols 256..263; `footer` is the LEN_FOOTER symbol, 0 where `lenHdr < 7` (R99, R100). -/
  | matchRep0 (lenHdr : BitVec 3) (footer : BitVec 8)
  /-- Main symbols 264..271. -/
  | matchRep1 (lenHdr : BitVec 3) (footer : BitVec 8)
  /-- Main symbols 272..279. -/
  | matchRep2 (lenHdr : BitVec 3) (footer : BitVec 8)
  /-- Main symbols 280..655 in a VERBATIM block; `e` is the extra-offset value (R103). -/
  | matchExplicitV (slot : BitVec 6) (lenHdr : BitVec 3) (footer : BitVec 8) (e : BitVec 17)
  /-- Main symbols 280..655 in an ALIGNED block; `e` is the value R104 assembles. -/
  | matchExplicitA (slot : BitVec 6) (lenHdr : BitVec 3) (footer : BitVec 8) (e : BitVec 17)
  /-- A LENGTH symbol inside a match (R100). -/
  | lenFooter (f : BitVec 8)
  /-- An ALIGNED symbol inside a MATCH_EXPLICIT_A (R104). -/
  | alignedSym (a : BitVec 3)
  /-- Three raw 32-bit integers (R105). -/
  | uncRepeats (r0 r1 r2 : Word)
  /-- One raw output byte (R105). -/
  | uncByte (b : Byte)
  /-- The pad byte, ignored (R105). -/
  | uncPad (x : Byte)
deriving DecidableEq, Repr

end Sys2Proof
end

