-- ==== Sys2Proof/Machine/Tables.lean ====
section
/-! DEFINITION. The numbers of the format: parameter defaults (00_scope.md R7), tree parameters (41_huffman.md R150),
position tables (30_encoding.md R102), position slots per window size (R109), length runs (R98). -/

namespace Sys2Proof

/-- The default parameter values (00_scope.md R7). -/
def Params.default : Params where
  btypeMap := .lzx
  uncRewindBytes := 1
  uncPad := true
  rep2Rotation := .swap
  alignedAtExtra3 := true
  checkSequence := true
  maxOutLen := none
  matchOverrun := .truncate
  e8Trigger := .perBlock

/-- `ms`, the alphabet size of a tree (41_huffman.md R150). -/
def Tree.maxSymbols : Tree → Nat
  | .pre => 20
  | .main => 656
  | .length => 250
  | .aligned => 8

/-- `tb`, the table-bit width of a tree (41_huffman.md R150). -/
def Tree.tableBits : Tree → Nat
  | .pre => 6
  | .main => 12
  | .length => 12
  | .aligned => 7

/-- The number of entries of a tree's decode table, `2^tb + 2*ms` (41_huffman.md R150). -/
def Tree.tableSize (t : Tree) : Nat := 2 ^ t.tableBits + 2 * t.maxSymbols

/-- The fault info code of a tree (41_huffman.md R150). -/
def Tree.infoCode : Tree → Nat
  | .pre => 0
  | .main => 1
  | .length => 2
  | .aligned => 3

/-- The storage encoding of `blockType` (10_state.md R24). -/
def BlockType.code : BlockType → Nat
  | .none => 0
  | .verbatim => 1
  | .aligned => 2
  | .uncompressed => 3

/-- `BTYPE_MAP[code]`; `none` is INVALID (30_encoding.md R94, 42_block_header.md R183). -/
def BtypeMap.kind : BtypeMap → Nat → Option BlockType
  | .lzx, 1 => some .verbatim
  | .lzx, 2 => some .aligned
  | .lzx, 3 => some .uncompressed
  | .lzx, _ => none
  | .zeroBased, 0 => some .verbatim
  | .zeroBased, 1 => some .aligned
  | .zeroBased, 2 => some .uncompressed
  | .zeroBased, _ => none

/-- The column `EXTRA_BITS` of 30_encoding.md R102, slots 0..50. -/
def extraBitsTable : List Nat :=
  [0, 0, 0, 0, 1, 1, 2, 2, 3, 3, 4, 4, 5, 5, 6, 6, 7, 7, 8, 8, 9, 9, 10, 10, 11, 11] ++
  [12, 12, 13, 13, 14, 14, 15, 15, 16, 16, 17, 17, 17, 17, 17, 17, 17, 17, 17, 17, 17, 17, 17, 17, 17]

/-- `EXTRA_BITS[slot]` (30_encoding.md R102). -/
def extraBits (slot : Nat) : Nat := extraBitsTable.getD slot 0

/-- `POSITION_BASE[slot]`: 0 at slot 0, and `2^EXTRA_BITS[k]` more at slot `k + 1` (30_encoding.md R102). -/
def positionBase : Nat → Nat
  | 0 => 0
  | k + 1 => positionBase k + 2 ^ extraBits k

/-- `NPS(windowBits)` (30_encoding.md R109); 0 for a window no stream has (log 17). -/
def numPositionSlots : Nat → Nat
  | 15 => 30
  | 16 => 32
  | 17 => 34
  | 18 => 36
  | 19 => 38
  | 20 => 42
  | 21 => 50
  | _ => 0

/-- `MAIN_ELEMENTS = 256 + 8*NPS` (30_encoding.md R98). -/
def mainElements (windowBits : Nat) : Nat := 256 + 8 * numPositionSlots windowBits

/-- The first index of a length run (42_block_header.md R186). -/
def Run.first : Run → Nat
  | .mainLiterals => 0
  | .mainMatches => 256
  | .lengths => 0

/-- The end index of a length run (42_block_header.md R186). -/
def Run.last (windowBits : Nat) : Run → Nat
  | .mainLiterals => 256
  | .mainMatches => mainElements windowBits
  | .lengths => 249

/-- The array a run rebuilds (42_block_header.md R186). -/
def Run.tree : Run → Tree
  | .mainLiterals => .main
  | .mainMatches => .main
  | .lengths => .length

/-- `MIN_MATCH` (30_encoding.md R100). -/
def minMatch : Nat := 2

/-- The limit on `frames` of the E8 condition (45_e8_transform.md R260). -/
def e8FrameLimit : Nat := 32768

/-- The bytes at the end of `OUT` that the E8 scan leaves out (45_e8_transform.md R261). -/
def e8ScanTail : Nat := 10

end Sys2Proof
end

