-- ==== Sys2Proof/Machine/Huffman.lean ====
section
/-! DEFINITION. The Huffman unit: the canonical table builder, the symbol decoder, and the canonical codes
(41_huffman.md R150 to R159; 30_encoding.md R106). -/

namespace Sys2Proof.Machine

/-- A decode table and its valid flag (10_state.md R37). -/
structure Book where
  table : List Nat
  valid : Bool
deriving DecidableEq, Repr

/-- `for k in [0, n): T[pos + k] <- v`. -/
def fillSlots (T : List Nat) (pos v : Nat) : Nat → List Nat
  | 0 => T
  | n + 1 => fillSlots (T.set pos v) (pos + 1) v n

/-- The working registers of the builder: the table, `pos` and `next`; `ok = false` after TABLE_OVERFLOW. -/
structure Build where
  table : List Nat
  pos : Nat
  next : Nat
  ok : Bool
deriving DecidableEq, Repr

/-- Phase 1 at one code length: the symbols `sym, sym + 1, …` whose lengths are listed (41_huffman.md R151, R154 (a)). -/
def directPass (tableMask bitMask bitNum : Nat) : List Nat → Nat → Build → Build
  | [], _, b => b
  | l :: ls, sym, b =>
    if b.ok = false then b
    else if l = bitNum then
      if b.pos + bitMask > tableMask then { b with ok := false }
      else
        directPass tableMask bitMask bitNum ls (sym + 1)
          { b with table := fillSlots b.table b.pos sym bitMask, pos := b.pos + bitMask }
    else directPass tableMask bitMask bitNum ls (sym + 1) b

/-- Phase 1 over the code lengths `bitNum, bitNum + 1, …` (`count` of them), `bitMask` halving (41_huffman.md R151). -/
def directPasses (lens : List Nat) (tableMask : Nat) : Nat → Nat → Nat → Build → Build
  | 0, _, _, b => b
  | count + 1, bitNum, bitMask, b =>
    directPasses lens tableMask count (bitNum + 1) (bitMask / 2) (directPass tableMask bitMask bitNum lens 0 b)

/-- One step of the walk of a long code: allocate a child pair where the path is not yet taken, then go down by `bit`
(41_huffman.md R153, R154 (b)). The new `leaf` is answered beside the builder's registers. -/
def threadStep (size bit leaf : Nat) (b : Build) : Nat × Build :=
  if b.table.getD leaf 0 = 0 then
    if 2 * b.next + 1 ≥ size then (leaf, { b with ok := false })
    else
      let T := ((b.table.set (2 * b.next) 0).set (2 * b.next + 1) 0).set leaf b.next
      (2 * T.getD leaf 0 + bit, { b with table := T, next := b.next + 1 })
  else (2 * b.table.getD leaf 0 + bit, b)

/-- The walk of a long code from its direct slot, `count` levels down, from level `fill` (41_huffman.md R153). -/
def threadCode (size : Nat) : Nat → Nat → Nat → Build → Nat × Build
  | 0, _, leaf, b => (leaf, b)
  | count + 1, fill, leaf, b =>
    let (leaf, b) := threadStep size ((b.pos >>> (15 - fill)) % 2) leaf b
    if b.ok then threadCode size count (fill + 1) leaf b else (leaf, b)

/-- Phase 2 for one symbol: walk, store the leaf, advance `pos` (41_huffman.md R153, R154 (c)). `tableMask` is already
in 16-bit fixed point. -/
def threadSymbol (size tableMask bitMask levels sym : Nat) (b : Build) : Build :=
  let (leaf, b) := threadCode size levels 0 (b.pos >>> 16) b
  if b.ok then
    let b := { b with table := b.table.set leaf sym, pos := b.pos + bitMask }
    if b.pos > tableMask then { b with ok := false } else b
  else b

/-- Phase 2 at one code length (41_huffman.md R153). -/
def threadPass (size tableMask bitMask bitNum tb : Nat) : List Nat → Nat → Build → Build
  | [], _, b => b
  | l :: ls, sym, b =>
    if b.ok = false then b
    else if l = bitNum then
      threadPass size tableMask bitMask bitNum tb ls (sym + 1) (threadSymbol size tableMask bitMask (bitNum - tb) sym b)
    else threadPass size tableMask bitMask bitNum tb ls (sym + 1) b

/-- Phase 2 over the code lengths `bitNum, bitNum + 1, …` (`count` of them), `bitMask` halving (41_huffman.md R153). -/
def threadPasses (lens : List Nat) (size tableMask tb : Nat) : Nat → Nat → Nat → Build → Build
  | 0, _, _, b => b
  | count + 1, bitNum, bitMask, b =>
    threadPasses lens size tableMask tb count (bitNum + 1) (bitMask / 2)
      (threadPass size tableMask bitMask bitNum tb lens 0 b)

/-- `BuildTable` as the function of `(lens, tb, ms)` that 41_huffman.md R156 says it is (R151 to R154). It starts from a
table of zeros (log 8). The answer's `ok` is false where TABLE_OVERFLOW is raised, with the entries written so far. -/
def buildTableOf (lens : List Nat) (tb ms : Nat) : Build :=
  let size := 2 ^ tb + 2 * ms
  let tableMask := 2 ^ tb
  let bitMask := tableMask / 2
  let b := directPasses lens tableMask tb 1 bitMask
    { table := List.replicate size 0, pos := 0, next := max bitMask ms, ok := true }
  if b.ok = false then b
  else if b.pos = tableMask then b
  else
    threadPasses lens size (tableMask * 2 ^ 16) tb (16 - tb) (tb + 1) (2 ^ 15)
      { b with table := fillSlots b.table b.pos 0 (tableMask - b.pos), pos := b.pos * 2 ^ 16 }

/-- `BuildTable(tree)` on a length array (41_huffman.md R150, R151). -/
def buildTable (t : Tree) (lens : List Nat) : Build := buildTableOf lens t.tableBits t.maxSymbols

/-- What `DecodeSymbol` answers. -/
inductive Symbol where
  /-- The symbol, and the reader after its code. -/
  | ok (s : Nat) (r : Reader)
  /-- WALK_OVERRUN, at the reader of the raise point (41_huffman.md R158). -/
  | overrun (r : Reader)
deriving DecidableEq, Repr

/-- The walk below a direct slot: `fuel` further levels may be tested, `x` bits have been (41_huffman.md R157, R158).
`none` where a bit deeper than 16 would be tested. -/
def walk (ms : Nat) (T : List Nat) (r : Reader) : Nat → Nat → Nat → Option Nat
  | 0, _, _ => none
  | fuel + 1, x, s =>
    let s := T.getD (2 * s + checkBit (x + 1) r) 0
    if s < ms then some s else walk ms T r fuel (x + 1) s

/-- `DecodeSymbol` over the parameters, lengths and table of a tree (41_huffman.md R157). -/
def decodeSymbolOf (tb ms : Nat) (lens T : List Nat) (r : Reader) : Symbol :=
  let (p, r) := getDesyncBits tb 0 r
  let s := T.getD p 0
  match (if s < ms then some s else walk ms T r (16 - tb) tb s) with
  | some s => .ok s (getSyncBits (lens.getD s 0) r).2
  | none => .overrun r

/-- `DecodeSymbol(tree)` (41_huffman.md R157). -/
def decodeSymbol (t : Tree) (lens T : List Nat) (r : Reader) : Symbol :=
  decodeSymbolOf t.tableBits t.maxSymbols lens T r

/-- The code space, in units of `2^-16`, that the codes of length `len` and symbols `< sym` take, among the listed
symbols from `k` on. -/
def codeSpaceAt (len sym : Nat) : List Nat → Nat → Nat
  | [], _ => 0
  | l :: ls, k => (if l = len ∧ k < sym then 2 ^ (16 - len) else 0) + codeSpaceAt len sym ls (k + 1)

/-- The code space, in units of `2^-16`, taken by all codes of lengths `1 … len`. -/
def codeSpaceBelow (lens : List Nat) : Nat → Nat
  | 0 => 0
  | len + 1 => codeSpaceBelow lens len + codeSpaceAt (len + 1) lens.length lens 0

/-- The canonical code of a symbol, as a number of its own length (30_encoding.md R106): codes are assigned in
increasing order of length, then of symbol index, as consecutive binary numbers. -/
def canonicalCode (lens : List Nat) (sym : Nat) : Nat :=
  let len := lens.getD sym 0
  (codeSpaceBelow lens (len - 1) + codeSpaceAt len sym lens 0) / 2 ^ (16 - len)

end Sys2Proof.Machine
end

