-- ==== Sys2Proof/WellFormed.lean ====
section
/-! DEFINITION. Which terms of `Instr` some stream or command word encodes: the field ranges of 30_encoding.md. -/

namespace Sys2Proof

/-- `lenHdr` and `footer` of a match: a footer below 250, and 0 where none is present (30_encoding.md R100). -/
def lengthWellFormed (lenHdr : BitVec 3) (footer : BitVec 8) : Bool :=
  decide (footer.toNat < 250) && (lenHdr == 7 || footer == 0)

/-- The slot of an explicit match is 3..49 and its extra value fits the slot's extra bits (30_encoding.md R99, R102). -/
def explicitWellFormed (slot : BitVec 6) (e : BitVec 17) : Bool :=
  decide (3 ≤ slot.toNat) && decide (slot.toNat ≤ 49) && decide (e.toNat < 2 ^ extraBits slot.toNat)

/-- The instruction has an encoding (30_encoding.md R92 to R107). -/
def Instr.wellFormed : Instr → Bool
  | .init => true
  | .decodeBlock => true
  | .getContent => true
  | .getContentFrom => true
  | .getContentRange => true
  | .reservedOp0 => true
  | .reservedOp6 => true
  | .reservedOp7 => true
  | .reservedOp8 => true
  | .reservedOp9 => true
  | .reservedOp10 => true
  | .reservedOp11 => true
  | .reservedOp12 => true
  | .reservedOp13 => true
  | .reservedOp14 => true
  | .reservedOp15 => true
  | .e8PreambleOff => true
  | .e8PreambleOn _ _ => true
  | .blockHeader _ _ _ => true
  | .alignedLengths ls => decide (ls.length = 8)
  | .pretreeLengths ps => decide (ps.length = 20)
  | .ptDelta z => decide (z.toNat ≤ 16)
  | .ptZrun4 _ => true
  | .ptZrun5 _ => true
  | .ptSame _ z2 => decide (z2.toNat ≤ 19)
  | .literal _ => true
  | .matchRep0 lenHdr footer => lengthWellFormed lenHdr footer
  | .matchRep1 lenHdr footer => lengthWellFormed lenHdr footer
  | .matchRep2 lenHdr footer => lengthWellFormed lenHdr footer
  | .matchExplicitV slot lenHdr footer e => lengthWellFormed lenHdr footer && explicitWellFormed slot e
  | .matchExplicitA slot lenHdr footer e => lengthWellFormed lenHdr footer && explicitWellFormed slot e
  | .lenFooter f => decide (f.toNat < 250)
  | .alignedSym _ => true
  | .uncRepeats _ _ _ => true
  | .uncByte _ => true
  | .uncPad _ => true

end Sys2Proof
end

