-- ==== Sys2Proof/Decode.lean ====
section
/-! DEFINITION. Decoding of command words and stream elements, and after it the encoder, written from the encoding
tables of 30_encoding.md. A stream element is read from the bit reader through the code books in effect; every bit
pattern decodes (R110), and what cannot be decoded is answered by a name of its own. -/

namespace Sys2Proof

open Sys2Proof.Machine (Reader Book Symbol getSyncBits getFields readLE32 inByte resync decodeSymbol canonicalCode)

/-- A code-length array with the decode table built from it. -/
structure CodeBook where
  lens : List Nat
  book : Book
deriving DecidableEq, Repr

/-- What decoding at one position of the grammar answers. -/
inductive Decoded where
  /-- An element, and the reader after it. -/
  | elem (i : Instr) (r : Reader)
  /-- The main symbol of a match whose LEN_FOOTER follows (43_symbols.md R212). -/
  | latchMatch (slot : BitVec 6) (lenHdr : BitVec 3) (r : Reader)
  /-- The raw part of an aligned offset, whose ALIGNED_SYM follows (43_symbols.md R217). -/
  | latchRaw (slot : BitVec 6) (lenHdr : BitVec 3) (footer : BitVec 8) (v : BitVec 14) (r : Reader)
  /-- WALK_OVERRUN of a tree (41_huffman.md R158). -/
  | overrun (t : Tree) (r : Reader)
  /-- A DecodeSymbol on a table that was never built (10_state.md R37). -/
  | unbuilt (t : Tree)
deriving DecidableEq, Repr

/-- The command a written `CMD` word selects by its `OP` field; bits [31:4] are ignored (30_encoding.md R107). -/
def decodeCommand (w : Word) : Instr :=
  match w.toNat % 16 with
  | 0 => .reservedOp0
  | 1 => .init
  | 2 => .decodeBlock
  | 3 => .getContent
  | 4 => .getContentFrom
  | 5 => .getContentRange
  | 6 => .reservedOp6
  | 7 => .reservedOp7
  | 8 => .reservedOp8
  | 9 => .reservedOp9
  | 10 => .reservedOp10
  | 11 => .reservedOp11
  | 12 => .reservedOp12
  | 13 => .reservedOp13
  | 14 => .reservedOp14
  | _ => .reservedOp15

/-- E8_PREAMBLE, in either form (30_encoding.md R92). -/
def decodePreamble (r : Reader) : Decoded :=
  let (flag, r) := getSyncBits 1 r
  if flag = 1 then
    let (hi, r) := getSyncBits 16 r
    let (lo, r) := getSyncBits 16 r
    .elem (.e8PreambleOn (BitVec.ofNat 16 hi) (BitVec.ofNat 16 lo)) r
  else .elem .e8PreambleOff r

/-- BLOCK_HEADER (30_encoding.md R93). -/
def decodeHeader (r : Reader) : Decoded :=
  let (btype, r) := getSyncBits 3 r
  let (hi, r) := getSyncBits 16 r
  let (lo, r) := getSyncBits 8 r
  .elem (.blockHeader (BitVec.ofNat 3 btype) (BitVec.ofNat 16 hi) (BitVec.ofNat 8 lo)) r

/-- ALIGNED_LENGTHS (30_encoding.md R95). -/
def decodeAlignedLengths (r : Reader) : Decoded :=
  let (ls, r) := getFields 3 8 r
  .elem (.alignedLengths (ls.map (BitVec.ofNat 3))) r

/-- PRETREE_LENGTHS (30_encoding.md R96). -/
def decodePretreeLengths (r : Reader) : Decoded :=
  let (ps, r) := getFields 4 20 r
  .elem (.pretreeLengths (ps.map (BitVec.ofNat 4))) r

/-- One symbol of a tree through its code book, then `k` on the symbol and the reader. -/
def withSymbol (t : Tree) (cb : CodeBook) (r : Reader) (k : Nat → Reader → Decoded) : Decoded :=
  if cb.book.valid then
    match decodeSymbol t cb.lens cb.book.table r with
    | .ok s r => k s r
    | .overrun r => .overrun t r
  else .unbuilt t

/-- A pretree operation (30_encoding.md R97). -/
def decodePtop (pre : CodeBook) (r : Reader) : Decoded :=
  withSymbol .pre pre r fun z r =>
    if z < 17 then .elem (.ptDelta (BitVec.ofNat 5 z)) r
    else if z = 17 then
      let (c, r) := getSyncBits 4 r
      .elem (.ptZrun4 (BitVec.ofNat 4 c)) r
    else if z = 18 then
      let (c, r) := getSyncBits 5 r
      .elem (.ptZrun5 (BitVec.ofNat 5 c)) r
    else
      let (c, r) := getSyncBits 1 r
      withSymbol .pre pre r fun z2 r => .elem (.ptSame (BitVec.ofNat 1 c) (BitVec.ofNat 5 z2)) r

/-- The offset fields of a match whose length is known, and the match itself where no ALIGNED_SYM follows
(30_encoding.md R99, R103, R104). -/
def decodeOffset (alignedAtExtra3 : Bool) (kind : BlockType) (slot : BitVec 6) (lenHdr : BitVec 3) (footer : BitVec 8)
    (r : Reader) : Decoded :=
  if slot = 0 then .elem (.matchRep0 lenHdr footer) r
  else if slot = 1 then .elem (.matchRep1 lenHdr footer) r
  else if slot = 2 then .elem (.matchRep2 lenHdr footer) r
  else
    let n := extraBits slot.toNat
    if kind = .aligned then
      if n > 3 then
        let (v, r) := getSyncBits (n - 3) r
        .latchRaw slot lenHdr footer (BitVec.ofNat 14 v) r
      else if n = 3 ∧ alignedAtExtra3 = true then .latchRaw slot lenHdr footer 0 r
      else
        let (e, r) := getSyncBits n r
        .elem (.matchExplicitA slot lenHdr footer (BitVec.ofNat 17 e)) r
    else
      let (e, r) := getSyncBits n r
      .elem (.matchExplicitV slot lenHdr footer (BitVec.ofNat 17 e)) r

/-- An item of a Verbatim or Aligned block (30_encoding.md R99). -/
def decodeItem (alignedAtExtra3 : Bool) (kind : BlockType) (main : CodeBook) (r : Reader) : Decoded :=
  withSymbol .main main r fun s r =>
    if s < 256 then .elem (.literal (BitVec.ofNat 8 s)) r
    else
      let slot := BitVec.ofNat 6 ((s - 256) / 8)
      let lenHdr := BitVec.ofNat 3 ((s - 256) % 8)
      if lenHdr = 7 then .latchMatch slot lenHdr r
      else decodeOffset alignedAtExtra3 kind slot lenHdr 0 r

/-- LEN_FOOTER (30_encoding.md R100). -/
def decodeFooter (length : CodeBook) (r : Reader) : Decoded :=
  withSymbol .length length r fun f r => .elem (.lenFooter (BitVec.ofNat 8 f)) r

/-- ALIGNED_SYM (30_encoding.md R104). -/
def decodeAlignedSym (aligned : CodeBook) (r : Reader) : Decoded :=
  withSymbol .aligned aligned r fun a r => .elem (.alignedSym (BitVec.ofNat 3 a)) r

/-- UNC_REPEATS, after the resynchronisation (30_encoding.md R105). -/
def decodeUncRepeats (rewind : Nat) (r : Reader) : Decoded :=
  let (r0, r) := readLE32 (resync rewind r)
  let (r1, r) := readLE32 r
  let (r2, r) := readLE32 r
  .elem (.uncRepeats r0 r1 r2) r

/-- UNC_BYTE (30_encoding.md R105). -/
def decodeUncByte (r : Reader) : Decoded :=
  let (b, r) := inByte r
  .elem (.uncByte b) r

/-- UNC_PAD (30_encoding.md R105). -/
def decodeUncPad (r : Reader) : Decoded :=
  let (x, r) := inByte r
  .elem (.uncPad x) r

/-! ### Words of the opcode table -/

/-- The `n` bits of a number, most significant first: a field in stream order (00_scope.md R10). -/
def fieldBits : Nat → Nat → List Bool
  | 0, _ => []
  | n + 1, v => v.testBit n :: fieldBits n v

/-- The number a list of bits writes, most significant first. -/
def bitsValue : List Bool → Nat
  | [] => 0
  | b :: bs => b.toNat * 2 ^ bs.length + bitsValue bs

/-- Stream bits packed into 16-bit little-endian words, the first bit the most significant of the first word, the last
word filled with zeros (20_memory.md R62, R63). `fuel` bounds the number of words. -/
def packBits : Nat → List Bool → List Byte
  | 0, _ => []
  | _ + 1, [] => []
  | fuel + 1, b :: bs =>
    let word := bitsValue ((b :: bs).take 16 ++ List.replicate (16 - ((b :: bs).take 16).length) false)
    BitVec.ofNat 8 word :: BitVec.ofNat 8 (word / 256) :: packBits fuel ((b :: bs).drop 16)

/-- A fresh reader on a segment of the given bytes (40_bitreader.md R138). -/
def freshReader (bytes : List Byte) : Reader where
  inseg := Machine.Memory.writeBytes [] 0 bytes
  segLen := bytes.length
  swath := 0
  buffer := 0
  total := 0

/-- The code book of a tree in which `'1'` is the code of one symbol and every other pattern is symbol 0: how a table
word, which gives a decoded symbol and no code, is laid out as stream bits (log 15). -/
def wordBook (t : Tree) (sym : Nat) : CodeBook where
  lens := (List.replicate t.maxSymbols 0).set sym 1
  book :=
    { table := (List.replicate t.tableSize 0).set (2 ^ (t.tableBits - 1)) sym
      valid := true }

/-- The bit `'1'` and then zeros. -/
def oneBitReader : Reader := { inseg := [], segLen := 0, swath := 0, buffer := 0x8000, total := 16 }

/-- The instruction a decoding answers, if it answers one. -/
def Decoded.instr? : Decoded → Option Instr
  | .elem i _ => some i
  | .latchMatch _ _ _ => none
  | .latchRaw _ _ _ _ _ => none
  | .overrun _ _ => none
  | .unbuilt _ => none

/-- The whole element a main symbol starts, its LEN_FOOTER being the symbol 0 of zero bits. -/
def decodeItemWord (main : CodeBook) (r : Reader) : Option Instr :=
  match decodeItem true .verbatim main r with
  | .latchMatch slot lenHdr r => (decodeOffset true .verbatim slot lenHdr 0 r).instr?
  | d => d.instr?

/-- The instruction read from a word of opcode_table.json (log 15): 32 bits, a command; 16 bits, a MAIN symbol in a
VERBATIM block; 8 bits below 20 (or 24 bits 17..19), a PRE symbol; and the fixed formats of their own width. -/
def decodeTableWord (nbits w : Nat) : Option Instr :=
  match nbits with
  | 32 => some (decodeCommand (BitVec.ofNat 32 w))
  | 16 => if w < 656 then decodeItemWord (wordBook .main w) oneBitReader else none
  | 8 =>
    if w < 20 then (decodePtop (wordBook .pre w) oneBitReader).instr?
    else (decodeUncByte (freshReader [BitVec.ofNat 8 w])).instr?
  | 24 =>
    if 17 ≤ w ∧ w < 20 then (decodePtop (wordBook .pre w) oneBitReader).instr?
    else (decodeAlignedLengths (freshReader (packBits 2 (fieldBits 24 w)))).instr?
  | 40 => (decodePreamble (freshReader (packBits 3 (fieldBits 33 w)))).instr?
  | 80 => (decodePretreeLengths (freshReader (packBits 5 (fieldBits 80 w)))).instr?
  | 96 =>
    (decodeUncRepeats 0 (freshReader ((List.range 12).map fun k => BitVec.ofNat 8 (w / 256 ^ k)))).instr?
  | _ => none

/-! ### The encoder -/

/-- An encoding: a `CMD` word, stream bits, or raw stream bytes. -/
inductive Code where
  | command (w : Word)
  | bits (bs : List Bool)
  | bytes (bs : List Byte)
deriving DecidableEq, Repr

/-- The bits of a Huffman-coded symbol: its canonical code, of its own length (30_encoding.md R106, R108). -/
def symbolBits (lens : List Nat) (sym : Nat) : List Bool := fieldBits (lens.getD sym 0) (canonicalCode lens sym)

/-- The main code of a match and, where `lenHdr = 7`, its LEN_FOOTER (30_encoding.md R99, R100). -/
def matchBits (mainLens lengthLens : List Nat) (slot : Nat) (lenHdr : BitVec 3) (footer : BitVec 8) : List Bool :=
  symbolBits mainLens (256 + 8 * slot + lenHdr.toNat) ++
    (if lenHdr = 7 then symbolBits lengthLens footer.toNat else [])

/-- The extra-offset fields of an aligned match (30_encoding.md R104). -/
def alignedOffsetBits (alignedAtExtra3 : Bool) (alignedLens : List Nat) (slot e : Nat) : List Bool :=
  let n := extraBits slot
  if n > 3 then fieldBits (n - 3) (e / 8) ++ symbolBits alignedLens (e % 8)
  else if n = 3 ∧ alignedAtExtra3 = true then symbolBits alignedLens e
  else fieldBits n e

/-- The four raw bytes of a little-endian 32-bit integer (20_memory.md R64). -/
def wordBytes (w : Word) : List Byte :=
  [w.extractLsb' 0 8, w.extractLsb' 8 8, w.extractLsb' 16 8, w.extractLsb' 24 8]

/-- The encoding of a well-formed instruction under the code-length arrays in effect (30_encoding.md R92 to R107). -/
def encode (alignedAtExtra3 : Bool) (lens : Tree → List Nat) : Instr → Code
  | .init => .command 1
  | .decodeBlock => .command 2
  | .getContent => .command 3
  | .getContentFrom => .command 4
  | .getContentRange => .command 5
  | .reservedOp0 => .command 0
  | .reservedOp6 => .command 6
  | .reservedOp7 => .command 7
  | .reservedOp8 => .command 8
  | .reservedOp9 => .command 9
  | .reservedOp10 => .command 10
  | .reservedOp11 => .command 11
  | .reservedOp12 => .command 12
  | .reservedOp13 => .command 13
  | .reservedOp14 => .command 14
  | .reservedOp15 => .command 15
  | .e8PreambleOff => .bits [false]
  | .e8PreambleOn hi lo => .bits (true :: (fieldBits 16 hi.toNat ++ fieldBits 16 lo.toNat))
  | .blockHeader btype hi lo => .bits (fieldBits 3 btype.toNat ++ (fieldBits 16 hi.toNat ++ fieldBits 8 lo.toNat))
  | .alignedLengths ls => .bits (ls.flatMap fun l => fieldBits 3 l.toNat)
  | .pretreeLengths ps => .bits (ps.flatMap fun p => fieldBits 4 p.toNat)
  | .ptDelta z => .bits (symbolBits (lens .pre) z.toNat)
  | .ptZrun4 c => .bits (symbolBits (lens .pre) 17 ++ fieldBits 4 c.toNat)
  | .ptZrun5 c => .bits (symbolBits (lens .pre) 18 ++ fieldBits 5 c.toNat)
  | .ptSame c z2 =>
    .bits (symbolBits (lens .pre) 19 ++ (fieldBits 1 c.toNat ++ symbolBits (lens .pre) z2.toNat))
  | .literal b => .bits (symbolBits (lens .main) b.toNat)
  | .matchRep0 lenHdr footer => .bits (matchBits (lens .main) (lens .length) 0 lenHdr footer)
  | .matchRep1 lenHdr footer => .bits (matchBits (lens .main) (lens .length) 1 lenHdr footer)
  | .matchRep2 lenHdr footer => .bits (matchBits (lens .main) (lens .length) 2 lenHdr footer)
  | .matchExplicitV slot lenHdr footer e =>
    .bits (matchBits (lens .main) (lens .length) slot.toNat lenHdr footer ++
      fieldBits (extraBits slot.toNat) e.toNat)
  | .matchExplicitA slot lenHdr footer e =>
    .bits (matchBits (lens .main) (lens .length) slot.toNat lenHdr footer ++
      alignedOffsetBits alignedAtExtra3 (lens .aligned) slot.toNat e.toNat)
  | .lenFooter f => .bits (symbolBits (lens .length) f.toNat)
  | .alignedSym a => .bits (symbolBits (lens .aligned) a.toNat)
  | .uncRepeats r0 r1 r2 => .bytes (wordBytes r0 ++ (wordBytes r1 ++ wordBytes r2))
  | .uncByte b => .bytes [b]
  | .uncPad x => .bytes [x]

end Sys2Proof
end

