-- ==== Sys2Proof/Machine/State.lean ====
section
/-! DEFINITION. The architectural state (10_state.md), the reasons a step can stop, and the power-on state
(70_reset_and_hazards.md R330, R331). -/

namespace Sys2Proof.Machine

/-- The engine's fault codes 0..12 (60_exceptions.md R301); 13..15 are never raised (R309). They are registers of the
machine, not stops of the model: raising one answers a next state (R300). -/
inductive FaultCode where
  | none
  | emptyInput
  | badOutLen
  | badBlockNo
  | outOfOrder
  | noStream
  | badWindow
  | tableOverflow
  | walkOverrun
  | badMatchOffset
  | invalidBlockType
  | streamDead
  | badCommand
deriving DecidableEq, Repr

/-- Why the model's machine stops. -/
inductive Fault where
  /-- Raised by a step whose DecodeSymbol would read the table of a tree whose valid flag is 0: the `stuck` of
  10_state.md R37 and 93_implementation_defined.md section 1. Safe: no state reached from reset does it (log 10). -/
  | unbuiltTable (t : Tree)
deriving DecidableEq, Repr

/-- What the model rejects outright. -/
inductive Refusal where
  /-- An instruction that has no meaning yet. Raised by no arm of this model. Safe. -/
  | notModelled (mnemonic : String)
  /-- Raised by DECODE_BLOCK where `E8_TRIGGER = PER_SYMBOL`: 45_e8_transform.md R269, "A model refuses `PER_SYMBOL`".
  Safe (log 11). -/
  | e8PerSymbol
  /-- Raised by a host access while a command runs (70_reset_and_hazards.md R334). Safe (log 12). -/
  | hostAccessDuringCommand
  /-- Raised by a host access to a register offset, or a byte address of `INSEG`, that the map of 10_state.md R42 or the
  size of 20_memory.md R60 does not give. Safe (log 12). -/
  | noSuchAddress (offset : Nat)
deriving DecidableEq, Repr

/-- The repeat-offset registers R0, R1, R2 (10_state.md R23). -/
structure Repeats where
  r0 : Word
  r1 : Word
  r2 : Word
deriving DecidableEq, Repr

/-- The fields of a match under way: the pseudocode variables of 43_symbols.md R212 and R217 (log 13). -/
structure PendingMatch where
  slot : BitVec 6
  lenHdr : BitVec 3
  footer : BitVec 8
  /-- The raw part of an aligned offset. -/
  raw : BitVec 14
  /-- The extra-offset value. -/
  extra : BitVec 17
deriving DecidableEq, Repr

/-- The state of one engine. -/
structure State where
  /-- The implementation parameters (00_scope.md R7); no step writes them. -/
  params : Params
  /-- The word written to `CMD` and not yet taken (10_state.md R42, 46_host_commands.md R280). -/
  cmd : Option Word
  argWBits : BitVec 5
  argSegLen : Word
  argOutLen : Word
  argBlockNo : Word
  argStart : Word
  argEnd : Word
  /-- The result of the last GET_CONTENT; `RESULT_LEN` is its length (46_host_commands.md R283). -/
  result : List Byte
  /-- R22. -/
  live : Bool
  /-- R22. -/
  faulted : Bool
  /-- R22. -/
  faultCode : FaultCode
  /-- R22. -/
  faultInfo : Word
  /-- R21. -/
  windowBits : BitVec 5
  /-- R23. -/
  reps : Repeats
  /-- R24. -/
  blockType : BlockType
  /-- R25. -/
  blockLength : BitVec 24
  /-- R26. -/
  blockRemaining : BitVec 24
  /-- R27. -/
  started : Bool
  /-- R28. -/
  intelFileSize : BitVec 31
  /-- R29. -/
  intelStarted : Bool
  /-- R30. -/
  frames : Nat
  /-- R31. -/
  streamPos : Nat
  /-- R32. -/
  nextBlockNo : Nat
  /-- R33: 656 entries. -/
  mainLengths : List (Fin 17)
  /-- R34: 250 entries. -/
  lengthLengths : List (Fin 17)
  /-- R35: 8 entries. -/
  alignedLengths : List (BitVec 3)
  /-- R36: 20 entries. -/
  preLengths : List (BitVec 4)
  /-- R37: `PRE_TABLE`, 104 entries, and `preValid`. -/
  preBook : Book
  /-- R37: `MAIN_TABLE`, 5408 entries, and `mainValid`. -/
  mainBook : Book
  /-- R37: `LENGTH_TABLE`, 4596 entries, and `lengthValid`. -/
  lengthBook : Book
  /-- R37: `ALIGNED_TABLE`, 144 entries, and `alignedValid`. -/
  alignedBook : Book
  /-- R38. -/
  win : Memory
  /-- R38. -/
  winPos : Nat
  /-- R39. -/
  out : Memory
  /-- R39. -/
  outLen : Nat
  /-- R39. -/
  outPos : Nat
  /-- R39. -/
  outValid : Bool
  /-- The surplus bytes a match left under `MATCH_OVERRUN = CARRY` (44_match_copy.md R246; log 14). -/
  carry : List Byte
  /-- R40: `INSEG`, `segLen`, `swath`, `buffer`, `total`. -/
  rd : Reader
  /-- Where the engine stands in the stream grammar (30_encoding.md R90; log 1). -/
  phase : Phase
  /-- The length run under way: the arguments of `ReadLengths` (41_huffman.md R160; log 13). -/
  run : Run
  /-- `x`, the index of `ReadLengths` (41_huffman.md R160; log 13). -/
  index : Nat
  /-- The match under way (log 13). -/
  pend : PendingMatch
deriving DecidableEq, Repr

/-- A table of zeros whose valid flag is 0. -/
def Book.unbuilt (t : Tree) : Book where
  table := List.replicate t.tableSize 0
  valid := false

/-- The bit reader with no segment attached (10_state.md R40). -/
def Reader.detached (inseg : Memory) : Reader where
  inseg := inseg
  segLen := 0
  swath := 0
  buffer := 0
  total := 0

/-- Power-on (70_reset_and_hazards.md R330, R331; logs 4 and 5 for what R331 calls undefined). -/
def State.reset : State where
  params := Params.default
  cmd := none
  argWBits := 0
  argSegLen := 0
  argOutLen := 0
  argBlockNo := 0
  argStart := 0
  argEnd := 0
  result := []
  live := false
  faulted := false
  faultCode := .none
  faultInfo := 0
  windowBits := 0
  reps := { r0 := 0, r1 := 0, r2 := 0 }
  blockType := .none
  blockLength := 0
  blockRemaining := 0
  started := false
  intelFileSize := 0
  intelStarted := false
  frames := 0
  streamPos := 0
  nextBlockNo := 0
  mainLengths := List.replicate 656 0
  lengthLengths := List.replicate 250 0
  alignedLengths := List.replicate 8 0
  preLengths := List.replicate 20 0
  preBook := Book.unbuilt .pre
  mainBook := Book.unbuilt .main
  lengthBook := Book.unbuilt .length
  alignedBook := Book.unbuilt .aligned
  win := []
  winPos := 0
  out := []
  outLen := 0
  outPos := 0
  outValid := false
  carry := []
  rd := Reader.detached []
  phase := .idle
  run := .mainLiterals
  index := 0
  pend := { slot := 0, lenHdr := 0, footer := 0, raw := 0, extra := 0 }

end Sys2Proof.Machine
end

