-- ==== Sys2Proof/Machine/Ops.lean ====
section
/-! DEFINITION. The named operations over memories and registers: raising a fault (60_exceptions.md R300), the code
books, the length arrays, producing a byte (44_match_copy.md R241), copying a match (R242 to R246). -/

namespace Sys2Proof.Machine

/-- The outcome of a meaning. -/
abbrev StepResult := Host.Outcome State Fault Refusal

/-- The code of a fault in `faultCode` (60_exceptions.md R301). -/
def FaultCode.code : FaultCode → Nat
  | .none => 0
  | .emptyInput => 1
  | .badOutLen => 2
  | .badBlockNo => 3
  | .outOfOrder => 4
  | .noStream => 5
  | .badWindow => 6
  | .tableOverflow => 7
  | .walkOverrun => 8
  | .badMatchOffset => 9
  | .invalidBlockType => 10
  | .streamDead => 11
  | .badCommand => 12

/-- `raise F(info)` (60_exceptions.md R300): the fault is recorded, `OUT` becomes null, the command ends; everything
else stays as it was at the raise point. -/
def raiseFault (f : FaultCode) (info : Word) (s : State) : State :=
  { s with faulted := true, faultCode := f, faultInfo := info, outValid := false, phase := .idle }

/-- `W` (10_state.md R21). -/
def windowSize (s : State) : Nat := 2 ^ s.windowBits.toNat

/-- The length array of a tree, as numbers (41_huffman.md R150). -/
def lensOf (t : Tree) (s : State) : List Nat :=
  match t with
  | .pre => s.preLengths.map BitVec.toNat
  | .main => s.mainLengths.map Fin.val
  | .length => s.lengthLengths.map Fin.val
  | .aligned => s.alignedLengths.map BitVec.toNat

/-- The decode table of a tree and its valid flag (10_state.md R37). -/
def bookOf (t : Tree) (s : State) : Book :=
  match t with
  | .pre => s.preBook
  | .main => s.mainBook
  | .length => s.lengthBook
  | .aligned => s.alignedBook

/-- The lengths and the table of a tree. -/
def codeBookOf (t : Tree) (s : State) : CodeBook where
  lens := lensOf t s
  book := bookOf t s

/-- The decode table of a tree replaced. -/
def setBook (t : Tree) (b : Book) (s : State) : State :=
  match t with
  | .pre => { s with preBook := b }
  | .main => { s with mainBook := b }
  | .length => { s with lengthBook := b }
  | .aligned => { s with alignedBook := b }

/-- `BuildTable(tree)`, then `k` on the state with the table built, or TABLE_OVERFLOW (41_huffman.md R151 to R154): on
a fault the entries written so far stay and the valid flag is 0 (60_exceptions.md R300; log 9). -/
def buildThen (t : Tree) (k : State → StepResult) (s : State) : StepResult :=
  let b := buildTable t (lensOf t s)
  let s' := setBook t { table := b.table, valid := b.ok } s
  if b.ok then k s' else .next (raiseFault .tableOverflow (BitVec.ofNat 32 t.infoCode) s')

/-- The array a length run rebuilds (41_huffman.md R160). -/
def runLengths (run : Run) (s : State) : List (Fin 17) :=
  match run with
  | .mainLiterals => s.mainLengths
  | .mainMatches => s.mainLengths
  | .lengths => s.lengthLengths

/-- The array a length run rebuilds, replaced. -/
def setRunLengths (run : Run) (ls : List (Fin 17)) (s : State) : State :=
  match run with
  | .mainLiterals => { s with mainLengths := ls }
  | .mainMatches => { s with mainLengths := ls }
  | .lengths => { s with lengthLengths := ls }

/-- `repeat count times: if x < n: lens[x] <- v; x <- x + 1` (41_huffman.md R161 to R165): a write at or past the end of
the array is dropped. -/
def writeRun (n : Nat) (v : Fin 17) : Nat → Nat → List (Fin 17) → List (Fin 17)
  | 0, _, lens => lens
  | count + 1, x, lens => writeRun n v count (x + 1) (if x < n then lens.set x v else lens)

/-- `Emit(b)` (44_match_copy.md R241). -/
def emit (b : Byte) (s : State) : State :=
  { s with
    out := Memory.write s.out s.outPos b
    win := Memory.write s.win s.winPos b
    winPos := (s.winPos + 1) % windowSize s
    outPos := s.outPos + 1 }

/-- The surplus byte of a match under `MATCH_OVERRUN = CARRY`: it goes to `WIN` and waits for the next `OUT`
(93_implementation_defined.md section 2; log 14). -/
def emitCarry (b : Byte) (s : State) : State :=
  { s with
    win := Memory.write s.win s.winPos b
    winPos := (s.winPos + 1) % windowSize s
    carry := s.carry ++ [b] }

/-- `WIN[(winPos - off) mod W]`, for `off` from 1 to `W` (44_match_copy.md R242, R245). -/
def windowByte (off : Nat) (s : State) : Byte :=
  Memory.read s.win ((s.winPos + windowSize s - off) % windowSize s)

/-- `n` bytes of a match, low to high, each read after the one before it is written (44_match_copy.md R242, R244). -/
def copyBytes (off : Nat) : Nat → State → State
  | 0, s => s
  | n + 1, s => copyBytes off n (emit (windowByte off s) s)

/-- `n` surplus bytes of a match under `MATCH_OVERRUN = CARRY` (log 14). -/
def copyCarry (off : Nat) : Nat → State → State
  | 0, s => s
  | n + 1, s => copyCarry off n (emitCarry (windowByte off s) s)

/-- The history: the bytes the stream has produced so far (44_match_copy.md R242). -/
def history (s : State) : Nat := s.streamPos + s.outPos

/-- The bytes of a match that fit in `OUT` (44_match_copy.md R246). -/
def copyLength (len : Nat) (s : State) : Nat := min len (s.outLen - s.outPos)

/-- An offset is legal iff `1 <= off <= min(W, streamPos + outPos)` (44_match_copy.md R243). -/
def legalOffset (off : Nat) (s : State) : Bool :=
  decide (1 ≤ off) && decide (off ≤ windowSize s) && decide (off ≤ history s)

/-- `blockRemaining` less the bytes an element produces, clamped at 0 (43_symbols.md R219). -/
def countProduced (n : Nat) (s : State) : State :=
  { s with blockRemaining := BitVec.ofNat 24 (s.blockRemaining.toNat - n) }

/-- `CopyMatch(off, len)` once the offset is legal (44_match_copy.md R242, R246). -/
def copyMatch (off len : Nat) (s : State) : State :=
  match s.params.matchOverrun with
  | .truncate => copyBytes off (copyLength len s) s
  | .carry => copyCarry off (len - copyLength len s) (copyBytes off (copyLength len s) s)

/-- The bytes of `carry` that open the `OUT` of a new command (log 14). -/
def openOut (outLen : Nat) (s : State) : State :=
  { s with
    out := Memory.writeBytes [] 0 (s.carry.take outLen)
    outLen := outLen
    outPos := (s.carry.take outLen).length
    outValid := false
    carry := s.carry.drop outLen }

end Sys2Proof.Machine
end

