-- ==== Sys2Proof/Machine/Operands.lean ====
section
/-! DEFINITION. The operand forms: match length, repeat and explicit offsets with their rotations, the aligned value,
raw pairs, length deltas, host arguments. -/

namespace Sys2Proof.Machine

/-- `matchLength` (43_symbols.md R212): `footer` is 0 where `lenHdr < 7`. -/
def matchLength (lenHdr : BitVec 3) (footer : BitVec 8) : Nat := lenHdr.toNat + footer.toNat + minMatch

/-- The explicit offset of a slot and its extra value (30_encoding.md R102), for slots 3 and up. -/
def explicitOffset (slot : BitVec 6) (e : BitVec 17) : Word :=
  BitVec.ofNat 32 (positionBase slot.toNat - 2 + e.toNat)

/-- REP0: nothing moves (43_symbols.md R213). -/
def rotateRep0 (p : Repeats) : Word × Repeats := (p.r0, p)

/-- REP1: R0 and R1 exchange (43_symbols.md R214). -/
def rotateRep1 (p : Repeats) : Word × Repeats := (p.r1, { p with r0 := p.r1, r1 := p.r0 })

/-- REP2 under `REP2_ROTATION` (43_symbols.md R215). -/
def rotateRep2 (rotation : Rep2Rotation) (p : Repeats) : Word × Repeats :=
  match rotation with
  | .swap => (p.r2, { p with r0 := p.r2, r2 := p.r0 })
  | .docLiteral => (p.r2, { p with r0 := p.r2, r1 := p.r0 })

/-- An explicit offset enters the cache (43_symbols.md R216, R217). -/
def rotateExplicit (off : Word) (p : Repeats) : Repeats where
  r0 := off
  r1 := p.r0
  r2 := p.r1

/-- The extra value of an aligned offset: the raw part above the aligned symbol (43_symbols.md R217). -/
def alignedExtra (raw : BitVec 14) (a : BitVec 3) : BitVec 17 := raw ++ a

/-- `(lens[x] - z) mod 17`, the mathematical remainder (41_huffman.md R161; 00_scope.md R9). -/
def subMod17 (old : Fin 17) (z : Nat) : Fin 17 := Fin.ofNat 17 (((old.val : Int) - (z : Int)) % 17).toNat

/-- The `blockLength` of a header (42_block_header.md R182). -/
def headerLength (hi : BitVec 16) (lo : BitVec 8) : BitVec 24 := hi ++ lo

/-- The file-size hint of a preamble: 0 where bit 31 is set (42_block_header.md R181). -/
def fileSizeHint (hi lo : BitVec 16) : BitVec 31 :=
  let v : Word := hi ++ lo
  if v.toNat < 2 ^ 31 then BitVec.ofNat 31 v.toNat else 0

/-- `clamp(x, lo, hi) = min(max(x, lo), hi)` (46_host_commands.md R284). -/
def clamp (x lo hi : Int) : Int := min (max x lo) hi

/-- `outLen = sext_32(ARG_OUT_LEN)` (46_host_commands.md R282). -/
def argOutLenInt (s : State) : Int := s.argOutLen.toInt

/-- `blockNo = sext_32(ARG_BLOCK_NO)` (46_host_commands.md R282). -/
def argBlockNoInt (s : State) : Int := s.argBlockNo.toInt

end Sys2Proof.Machine
end

