-- ==== Sys2Proof/Machine/Flags.lean ====
section
/-! DEFINITION. The 1-bit state and what is computed from it: the STATUS word and the register map (10_state.md R42),
the pad condition (43_symbols.md R221), the E8 condition (45_e8_transform.md R260), the E8 activation
(42_block_header.md R186), and the host's accesses. -/

namespace Sys2Proof.Machine

/-- The STATUS register (10_state.md R42). -/
def statusWord (s : State) : Word :=
  BitVec.ofNat 32
    (s.live.toNat + 2 * s.faulted.toNat + 4 * s.outValid.toNat + 8 * s.started.toNat + 16 * s.intelStarted.toNat +
      32 * s.blockType.code + 256 * s.faultCode.code)

/-- `min(n, 2^32-1)`: the view of an unbounded counter (10_state.md R42). -/
def saturate (n : Nat) : Word := BitVec.ofNat 32 (min n (2 ^ 32 - 1))

/-- What a read of the register at a byte offset gives; `none` where the map has no register (10_state.md R42). -/
def readReg (s : State) (offset : Nat) : Option Word :=
  match offset with
  | 0x00 => some 0
  | 0x04 => some (statusWord s)
  | 0x08 => some s.faultInfo
  | 0x0C => some (s.argWBits.setWidth 32)
  | 0x10 => some s.argSegLen
  | 0x14 => some s.argOutLen
  | 0x18 => some s.argBlockNo
  | 0x1C => some s.argStart
  | 0x20 => some s.argEnd
  | 0x24 => some (BitVec.ofNat 32 s.result.length)
  | 0x40 => some s.reps.r0
  | 0x44 => some s.reps.r1
  | 0x48 => some s.reps.r2
  | 0x4C => some (s.blockLength.setWidth 32)
  | 0x50 => some (s.blockRemaining.setWidth 32)
  | 0x54 => some (s.intelFileSize.setWidth 32)
  | 0x58 => some (saturate s.frames)
  | 0x5C => some (saturate s.streamPos)
  | 0x60 => some (saturate s.nextBlockNo)
  | 0x64 => some (if s.live then s.windowBits.setWidth 32 else 0)
  | _ => none

/-- The state after a write of the register at a byte offset; writes of read-only registers are ignored, and `none`
where the map has no register (10_state.md R42). -/
def writeReg (offset : Nat) (v : Word) (s : State) : Option State :=
  match offset with
  | 0x00 => some { s with cmd := some v }
  | 0x04 => some s
  | 0x08 => some s
  | 0x0C => some { s with argWBits := v.setWidth 5 }
  | 0x10 => some { s with argSegLen := v }
  | 0x14 => some { s with argOutLen := v }
  | 0x18 => some { s with argBlockNo := v }
  | 0x1C => some { s with argStart := v }
  | 0x20 => some { s with argEnd := v }
  | 0x24 => some s
  | 0x40 => some s
  | 0x44 => some s
  | 0x48 => some s
  | 0x4C => some s
  | 0x50 => some s
  | 0x54 => some s
  | 0x58 => some s
  | 0x5C => some s
  | 0x60 => some s
  | 0x64 => some s
  | _ => none

/-- A command runs: from the write of `CMD` until the command ends (70_reset_and_hazards.md R334). -/
def busy (s : State) : Bool := s.cmd.isSome || decide (s.phase ≠ .idle)

/-- The host reads a register (10_state.md R42), which R334 excludes while a command runs. -/
def hostRead (offset : Nat) (s : State) : Host.Outcome Word Fault Refusal :=
  if busy s then .refused .hostAccessDuringCommand
  else
    match readReg s offset with
    | some v => .next v
    | none => .refused (.noSuchAddress offset)

/-- The host writes a register (10_state.md R42). A write of `CMD` starts a command (46_host_commands.md R280). -/
def hostWrite (offset : Nat) (v : Word) (s : State) : StepResult :=
  if busy s then .refused .hostAccessDuringCommand
  else
    match writeReg offset v s with
    | some s => .next s
    | none => .refused (.noSuchAddress offset)

/-- The host writes a byte of `INSEG` (20_memory.md R60). -/
def hostWriteInseg (a : Nat) (b : Byte) (s : State) : StepResult :=
  if busy s then .refused .hostAccessDuringCommand
  else if a < 2 ^ 31 - 1 then .next { s with rd := { s.rd with inseg := Memory.write s.rd.inseg a b } }
  else .refused (.noSuchAddress a)

/-- The host reads the result of the last GET_CONTENT (10_state.md R42). -/
def hostReadResult (s : State) : Host.Outcome (List Byte) Fault Refusal :=
  if busy s then .refused .hostAccessDuringCommand else .next s.result

/-- A pad byte follows the last byte of the block (43_symbols.md R221). -/
def padDue (s : State) : Bool := s.params.uncPad && decide (s.blockLength.toNat % 2 = 1)

/-- `E8Enabled()` (45_e8_transform.md R260). -/
def e8Enabled (s : State) : Bool :=
  decide (s.frames < e8FrameLimit) && decide (s.intelFileSize.toNat ≠ 0) && s.intelStarted &&
    decide (s.outLen > Tree.pre.tableBits)

/-- `if mainLengths[0xE8] ≠ 0: intelStarted <- 1` (42_block_header.md R186). -/
def activateIntel (s : State) : State :=
  if s.mainLengths.getD 0xE8 0 ≠ 0 then { s with intelStarted := true } else s

end Sys2Proof.Machine
end

