-- ==== Sys2Proof/Machine/Commands.lean ====
section
/-! DEFINITION. The host commands (46_host_commands.md R281 to R286). -/

namespace Sys2Proof.Machine

/-- Every register at its power-on value (70_reset_and_hazards.md R330, R331); the parameters are no registers, and the
bytes the host wrote to `INSEG` stay, with no segment attached (10_state.md R43; log 7). -/
def powerOn (s : State) : State := { State.reset with params := s.params, rd := Reader.detached s.rd.inseg }

/-- The stream context at its power-on values; the host's registers stay (70_reset_and_hazards.md R331; log 6). -/
def clearContext (s : State) : State :=
  { powerOn s with
    cmd := s.cmd
    argWBits := s.argWBits
    argSegLen := s.argSegLen
    argOutLen := s.argOutLen
    argBlockNo := s.argBlockNo
    argStart := s.argStart
    argEnd := s.argEnd }

/-- The window sizes INIT accepts (46_host_commands.md R281). -/
def legalWindow (wb : BitVec 5) : Bool := decide (15 ≤ wb.toNat) && decide (wb.toNat ≤ 21)

/-- INIT: with any other window every register takes its power-on value, the `ARG_*` registers as well
(46_host_commands.md R281). -/
def execInit (s : State) : StepResult :=
  if legalWindow s.argWBits then
    .next { clearContext s with windowBits := s.argWBits, live := true, reps := { r0 := 1, r1 := 1, r2 := 1 } }
  else .next (raiseFault .badWindow (s.argWBits.setWidth 32) (powerOn s))

/-- `outLen > MAX_OUT_LEN` (46_host_commands.md R282). -/
def exceedsMaxOutLen (s : State) : Bool :=
  match s.params.maxOutLen with
  | some m => decide ((m : Int) < argOutLenInt s)
  | none => false

/-- The first of DECODE_BLOCK's six checks that fails, with its info, in the order of 60_exceptions.md R310. -/
def structuralFault (s : State) : Option (FaultCode × Word) :=
  if s.faulted then some (.streamDead, BitVec.ofNat 32 s.faultCode.code)
  else if s.live = false then some (.noStream, 0)
  else if s.argSegLen = 0 then some (.emptyInput, 0)
  else if argOutLenInt s ≤ 0 ∨ exceedsMaxOutLen s = true then some (.badOutLen, s.argOutLen)
  else if argBlockNoInt s < 0 then some (.badBlockNo, s.argBlockNo)
  else if s.params.checkSequence = true ∧ argBlockNoInt s ≠ (s.nextBlockNo : Int) then
    some (.outOfOrder, s.argBlockNo)
  else none

/-- `StartSegment`, and `OUT` of `outLen` bytes (46_host_commands.md R282, 40_bitreader.md R138): the engine enters
`FillOut`. -/
def beginBlock (s : State) : State :=
  openOut (argOutLenInt s).toNat { s with rd := startSegment s.argSegLen.toNat s.rd, phase := .fill }

/-- DECODE_BLOCK (46_host_commands.md R282). Its decode runs in the steps that follow (log 1). -/
def execDecodeBlock (s : State) : StepResult :=
  match structuralFault s with
  | some (f, info) => .next (raiseFault f info s)
  | none =>
    match s.params.e8Trigger with
    | .perBlock => .next (beginBlock s)
    | .perSymbol => .refused .e8PerSymbol

/-- `OUT[a..b)`, or the single byte `00` where `OUT` is null (46_host_commands.md R283 to R285). -/
def contentRange (a b : Nat) (s : State) : List Byte :=
  if s.outValid then Memory.bytes s.out a (b - a) else [0]

/-- GET_CONTENT (46_host_commands.md R283). -/
def execGetContent (s : State) : StepResult := .next { s with result := contentRange 0 s.outLen s }

/-- GET_CONTENT_FROM (46_host_commands.md R284). -/
def execGetContentFrom (s : State) : StepResult :=
  .next { s with result := contentRange (clamp s.argStart.toInt 0 s.outLen).toNat s.outLen s }

/-- GET_CONTENT_RANGE (46_host_commands.md R285). -/
def execGetContentRange (s : State) : StepResult :=
  let a := clamp s.argStart.toInt 0 s.outLen
  let b := clamp s.argEnd.toInt a s.outLen
  .next { s with result := contentRange a.toNat b.toNat s }

/-- A reserved OP (46_host_commands.md R286). -/
def badCommand (op : Word) (s : State) : StepResult := .next (raiseFault .badCommand op s)

/-- OP 0 (46_host_commands.md R286). -/
def execReservedOp0 (s : State) : StepResult := badCommand 0 s

/-- OP 6 (R286). -/
def execReservedOp6 (s : State) : StepResult := badCommand 6 s

/-- OP 7 (R286). -/
def execReservedOp7 (s : State) : StepResult := badCommand 7 s

/-- OP 8 (R286). -/
def execReservedOp8 (s : State) : StepResult := badCommand 8 s

/-- OP 9 (R286). -/
def execReservedOp9 (s : State) : StepResult := badCommand 9 s

/-- OP 10 (R286). -/
def execReservedOp10 (s : State) : StepResult := badCommand 10 s

/-- OP 11 (R286). -/
def execReservedOp11 (s : State) : StepResult := badCommand 11 s

/-- OP 12 (R286). -/
def execReservedOp12 (s : State) : StepResult := badCommand 12 s

/-- OP 13 (R286). -/
def execReservedOp13 (s : State) : StepResult := badCommand 13 s

/-- OP 14 (R286). -/
def execReservedOp14 (s : State) : StepResult := badCommand 14 s

/-- OP 15 (R286). -/
def execReservedOp15 (s : State) : StepResult := badCommand 15 s

end Sys2Proof.Machine
end

