-- ==== Sys2Proof/Machine/Header.lean ====
section
/-! DEFINITION. The header elements (42_block_header.md R181 to R188). -/

namespace Sys2Proof.Machine

/-- E8_PREAMBLE with flag 0 (42_block_header.md R181). -/
def execE8PreambleOff (s : State) : StepResult := .next { s with started := true }

/-- E8_PREAMBLE with flag 1 (42_block_header.md R181). -/
def execE8PreambleOn (hi lo : BitVec 16) (s : State) : StepResult :=
  .next { s with started := true, intelFileSize := fileSizeHint hi lo }

/-- `BlockKind(code)`: the map, else the preceding kind; `none` where there is none (42_block_header.md R183). -/
def blockKind (code : BitVec 3) (s : State) : Option BlockType :=
  match s.params.btypeMap.kind code.toNat with
  | some k => some k
  | none => if s.blockType = .none then none else some s.blockType

/-- The tree setup of a Verbatim or Aligned header begins with the first main run (42_block_header.md R186). -/
def startTrees (s : State) : State := { s with run := .mainLiterals, phase := .pretree }

/-- The body setup of a kind (42_block_header.md R189). -/
def startBody (kind : BlockType) (s : State) : State :=
  match kind with
  | .verbatim => startTrees s
  | .aligned => { s with phase := .alignedLengths }
  | .uncompressed => { s with phase := .uncRepeats }
  | .none => { s with phase := .fill }

/-- The length of a header, stored before its kind is checked (42_block_header.md R182). -/
def storeLength (hi : BitVec 16) (lo : BitVec 8) (s : State) : State :=
  { s with blockLength := headerLength hi lo, blockRemaining := headerLength hi lo }

/-- The kind of a header, its storage and its body setup, or INVALID_BLOCK_TYPE (42_block_header.md R182 to R184). -/
def enterBlock (btype : BitVec 3) (s : State) : StepResult :=
  match blockKind btype s with
  | some kind => .next (startBody kind { s with blockType := kind })
  | none => .next (raiseFault .invalidBlockType (btype.setWidth 32) s)

/-- BLOCK_HEADER (42_block_header.md R182 to R184). -/
def execBlockHeader (btype : BitVec 3) (hi : BitVec 16) (lo : BitVec 8) (s : State) : StepResult :=
  enterBlock btype (storeLength hi lo s)

/-- ALIGNED_LENGTHS (42_block_header.md R185). -/
def execAlignedLengths (ls : List (BitVec 3)) (s : State) : StepResult :=
  buildThen .aligned (fun s => .next (startTrees s)) { s with alignedLengths := ls }

/-- UNC_REPEATS (42_block_header.md R187); the resynchronisation is part of reading the element. -/
def execUncRepeats (r0 r1 r2 : Word) (s : State) : StepResult :=
  .next { s with intelStarted := true, reps := { r0 := r0, r1 := r1, r2 := r2 }, phase := .fill }

end Sys2Proof.Machine
end

