-- ==== Sys2Proof/Machine/Lengths.lean ====
section
/-! DEFINITION. The length-array elements: PRETREE_LENGTHS and the pretree operations (41_huffman.md R160 to R166). -/

namespace Sys2Proof.Machine

/-- What follows the end of a length run (42_block_header.md R186). -/
def endRun (s : State) : StepResult :=
  match s.run with
  | .mainLiterals => .next { s with run := .mainMatches, phase := .pretree }
  | .mainMatches => buildThen .main (fun s => .next { activateIntel s with run := .lengths, phase := .pretree }) s
  | .lengths => buildThen .length (fun s => .next { s with phase := .fill }) s

/-- The loop condition of `ReadLengths` (41_huffman.md R160, R166). -/
def continueRun (s : State) : StepResult :=
  if s.index < s.run.last s.windowBits.toNat then .next { s with phase := .ptop } else endRun s

/-- `lens[x]`, 0 past the end of the array (41_huffman.md R164). -/
def currentLength (s : State) : Fin 17 := (runLengths s.run s).getD s.index 0

/-- `count` entries from `x` on set to `v`, and `x` moved past them (41_huffman.md R161 to R165). -/
def writeEntries (v : Fin 17) (count : Nat) (s : State) : State :=
  { setRunLengths s.run (writeRun s.run.tree.maxSymbols v count s.index (runLengths s.run s)) s with
    index := s.index + count }

/-- PRETREE_LENGTHS (41_huffman.md R160). -/
def execPretreeLengths (ps : List (BitVec 4)) (s : State) : StepResult :=
  buildThen .pre (fun s => continueRun { s with index := s.run.first }) { s with preLengths := ps }

/-- PT_DELTA (41_huffman.md R161). -/
def execPtDelta (z : BitVec 5) (s : State) : StepResult :=
  continueRun (writeEntries (subMod17 (currentLength s) z.toNat) 1 s)

/-- PT_ZRUN4 (41_huffman.md R162). -/
def execPtZrun4 (c : BitVec 4) (s : State) : StepResult := continueRun (writeEntries 0 (c.toNat + 4) s)

/-- PT_ZRUN5 (41_huffman.md R163). -/
def execPtZrun5 (c : BitVec 5) (s : State) : StepResult := continueRun (writeEntries 0 (c.toNat + 20) s)

/-- PT_SAME (41_huffman.md R164). -/
def execPtSame (c : BitVec 1) (z2 : BitVec 5) (s : State) : StepResult :=
  continueRun (writeEntries (subMod17 (currentLength s) z2.toNat) (c.toNat + 4) s)

end Sys2Proof.Machine
end

