-- ==== Sys2Proof/Machine/Raw.lean ====
section
/-! DEFINITION. The raw elements of an Uncompressed block (43_symbols.md R220, R221). -/

namespace Sys2Proof.Machine

/-- After a raw byte: UNC_PAD where the block is empty and a pad is due, else the loop (43_symbols.md R220, R221). -/
def afterRawByte (s : State) : State :=
  { s with phase := if s.blockRemaining = 0 ∧ padDue s = true then .uncPad else .fill }

/-- UNC_BYTE (43_symbols.md R220). -/
def execUncByte (b : Byte) (s : State) : StepResult := .next (afterRawByte (countProduced 1 (emit b s)))

/-- UNC_PAD (43_symbols.md R221): the byte is ignored. -/
def execUncPad (_x : Byte) (s : State) : StepResult := .next { s with phase := .fill }

end Sys2Proof.Machine
end

