-- ==== Sys2Proof/Machine/Symbols.lean ====
section
/-! DEFINITION. The symbol elements: literals, matches and their sub-elements (43_symbols.md R211 to R219). -/

namespace Sys2Proof.Machine

/-- LITERAL (43_symbols.md R211). -/
def execLiteral (b : Byte) (s : State) : StepResult := .next (countProduced 1 { emit b s with phase := .fill })

/-- `CopyMatch`, then the count, or BAD_MATCH_OFFSET before any byte is copied (43_symbols.md R212; 44_match_copy.md
R242, R243). -/
def copyOrFault (off : Word) (len : Nat) (s : State) : StepResult :=
  if legalOffset off.toNat s then .next (countProduced len (copyMatch off.toNat len s))
  else .next (raiseFault .badMatchOffset off s)

/-- The end of `MATCH(s)` once the offset is resolved: the rotation stands whatever the copy does (43_symbols.md R212,
R216). -/
def finishMatch (off : Word) (reps : Repeats) (len : Nat) (s : State) : StepResult :=
  copyOrFault off len { s with reps := reps, phase := .fill }

/-- MATCH_REP0 (43_symbols.md R213). -/
def execMatchRep0 (lenHdr : BitVec 3) (footer : BitVec 8) (s : State) : StepResult :=
  finishMatch (rotateRep0 s.reps).1 (rotateRep0 s.reps).2 (matchLength lenHdr footer) s

/-- MATCH_REP1 (43_symbols.md R214). -/
def execMatchRep1 (lenHdr : BitVec 3) (footer : BitVec 8) (s : State) : StepResult :=
  finishMatch (rotateRep1 s.reps).1 (rotateRep1 s.reps).2 (matchLength lenHdr footer) s

/-- MATCH_REP2 (43_symbols.md R215). -/
def execMatchRep2 (lenHdr : BitVec 3) (footer : BitVec 8) (s : State) : StepResult :=
  finishMatch (rotateRep2 s.params.rep2Rotation s.reps).1 (rotateRep2 s.params.rep2Rotation s.reps).2
    (matchLength lenHdr footer) s

/-- MATCH_EXPLICIT_V (43_symbols.md R216). -/
def execMatchExplicitV (slot : BitVec 6) (lenHdr : BitVec 3) (footer : BitVec 8) (e : BitVec 17) (s : State) :
    StepResult :=
  finishMatch (explicitOffset slot e) (rotateExplicit (explicitOffset slot e) s.reps) (matchLength lenHdr footer) s

/-- MATCH_EXPLICIT_A (43_symbols.md R217); `e` has been assembled from its raw part and ALIGNED_SYM. -/
def execMatchExplicitA (slot : BitVec 6) (lenHdr : BitVec 3) (footer : BitVec 8) (e : BitVec 17) (s : State) :
    StepResult :=
  finishMatch (explicitOffset slot e) (rotateExplicit (explicitOffset slot e) s.reps) (matchLength lenHdr footer) s

/-- LEN_FOOTER (43_symbols.md R212, R218): the length of the match under way is complete. -/
def execLenFooter (f : BitVec 8) (s : State) : StepResult :=
  .next { s with pend := { s.pend with footer := f }, phase := .offset }

/-- ALIGNED_SYM (43_symbols.md R217, R218): the extra value of the match under way is complete. -/
def execAlignedSym (a : BitVec 3) (s : State) : StepResult :=
  .next { s with pend := { s.pend with extra := alignedExtra s.pend.raw a }, phase := .matchReady }

end Sys2Proof.Machine
end

