-- ==== Sys2Proof/Machine/Dispatch.lean ====
section
/-! DEFINITION. One arm per instruction. -/

namespace Sys2Proof.Machine

def exec (i : Instr) (s : State) : Host.Outcome State Fault Refusal :=
  match i with
  | .init => Sys2Proof.Machine.execInit s
  | .decodeBlock => Sys2Proof.Machine.execDecodeBlock s
  | .getContent => Sys2Proof.Machine.execGetContent s
  | .getContentFrom => Sys2Proof.Machine.execGetContentFrom s
  | .getContentRange => Sys2Proof.Machine.execGetContentRange s
  | .reservedOp0 => Sys2Proof.Machine.execReservedOp0 s
  | .reservedOp6 => Sys2Proof.Machine.execReservedOp6 s
  | .reservedOp7 => Sys2Proof.Machine.execReservedOp7 s
  | .reservedOp8 => Sys2Proof.Machine.execReservedOp8 s
  | .reservedOp9 => Sys2Proof.Machine.execReservedOp9 s
  | .reservedOp10 => Sys2Proof.Machine.execReservedOp10 s
  | .reservedOp11 => Sys2Proof.Machine.execReservedOp11 s
  | .reservedOp12 => Sys2Proof.Machine.execReservedOp12 s
  | .reservedOp13 => Sys2Proof.Machine.execReservedOp13 s
  | .reservedOp14 => Sys2Proof.Machine.execReservedOp14 s
  | .reservedOp15 => Sys2Proof.Machine.execReservedOp15 s
  | .e8PreambleOff => Sys2Proof.Machine.execE8PreambleOff s
  | .e8PreambleOn hi lo => Sys2Proof.Machine.execE8PreambleOn hi lo s
  | .blockHeader btype hi lo => Sys2Proof.Machine.execBlockHeader btype hi lo s
  | .alignedLengths ls => Sys2Proof.Machine.execAlignedLengths ls s
  | .pretreeLengths ps => Sys2Proof.Machine.execPretreeLengths ps s
  | .ptDelta z => Sys2Proof.Machine.execPtDelta z s
  | .ptZrun4 c => Sys2Proof.Machine.execPtZrun4 c s
  | .ptZrun5 c => Sys2Proof.Machine.execPtZrun5 c s
  | .ptSame c z2 => Sys2Proof.Machine.execPtSame c z2 s
  | .literal b => Sys2Proof.Machine.execLiteral b s
  | .matchRep0 lenHdr footer => Sys2Proof.Machine.execMatchRep0 lenHdr footer s
  | .matchRep1 lenHdr footer => Sys2Proof.Machine.execMatchRep1 lenHdr footer s
  | .matchRep2 lenHdr footer => Sys2Proof.Machine.execMatchRep2 lenHdr footer s
  | .matchExplicitV slot lenHdr footer e => Sys2Proof.Machine.execMatchExplicitV slot lenHdr footer e s
  | .matchExplicitA slot lenHdr footer e => Sys2Proof.Machine.execMatchExplicitA slot lenHdr footer e s
  | .lenFooter f => Sys2Proof.Machine.execLenFooter f s
  | .alignedSym a => Sys2Proof.Machine.execAlignedSym a s
  | .uncRepeats r0 r1 r2 => Sys2Proof.Machine.execUncRepeats r0 r1 r2 s
  | .uncByte b => Sys2Proof.Machine.execUncByte b s
  | .uncPad x => Sys2Proof.Machine.execUncPad x s

end Sys2Proof.Machine
end

