-- ==== Sys2Proof/Machine/E8.lean ====
section
/-! DEFINITION. The Intel E8 stage and the completion of a successful DECODE_BLOCK (45_e8_transform.md R260 to R268). -/

namespace Sys2Proof.Machine

/-- The operand after an E8 byte at `i` (45_e8_transform.md R262). -/
def e8Operand (out : Memory) (i : Nat) : Word := BitVec.ofNat 32 (Memory.readLE out (i + 1) 4)

/-- The range test of 45_e8_transform.md R263, in mathematical integers. -/
def e8InRange (cp fileSize : Nat) (abs : Int) : Bool := decide (-(cp : Int) ≤ abs) && decide (abs < (fileSize : Int))

/-- The rewritten operand (45_e8_transform.md R263). -/
def e8Relative (cp fileSize : Nat) (abs : Int) : Int := if 0 ≤ abs then abs - cp else abs + fileSize

/-- What the stage does at an E8 byte (45_e8_transform.md R261, R263). -/
def e8Rewrite (streamPos fileSize i : Nat) (out : Memory) : Memory :=
  if e8InRange (streamPos + i) fileSize (e8Operand out i).toInt then
    Memory.writeLE out (i + 1) 4 (BitVec.ofInt 32 (e8Relative (streamPos + i) fileSize (e8Operand out i).toInt)).toNat
  else out

/-- The scan from `i` up to `limit`, with `fuel` at least `limit - i` (45_e8_transform.md R261, R264). -/
def e8Scan (streamPos fileSize limit : Nat) : Nat → Nat → Memory → Memory
  | 0, _, out => out
  | fuel + 1, i, out =>
    if i < limit then
      if Memory.read out i = 0xE8 then
        e8Scan streamPos fileSize limit fuel (i + 5) (e8Rewrite streamPos fileSize i out)
      else e8Scan streamPos fileSize limit fuel (i + 1) out
    else out

/-- `E8Stage()` (45_e8_transform.md R261): it rewrites `OUT` only (R266, R267). -/
def e8Stage (s : State) : State :=
  if e8Enabled s then
    { s with
      out := e8Scan s.streamPos s.intelFileSize.toNat (s.outLen - e8ScanTail) (s.outLen - e8ScanTail) 0 s.out }
  else s

/-- The end of a successful DECODE_BLOCK: the E8 stage, then the counters (45_e8_transform.md R265). -/
def finishBlock (s : State) : State :=
  { e8Stage s with
    frames := s.frames + 1
    streamPos := s.streamPos + s.outLen
    nextBlockNo := s.nextBlockNo + 1
    outValid := true
    phase := .idle }

end Sys2Proof.Machine
end

