-- ==== Sys2Proof/Machine/Fetch.lean ====
section
/-! DEFINITION. Fetching: what is read next at the engine's place in the grammar (30_encoding.md R90, 43_symbols.md R210),
and how a word of the opcode table is laid where it is read next. -/

namespace Sys2Proof.Machine

/-- What a step finds to do. -/
inductive Fetched where
  /-- The engine is idle and no command has been written. -/
  | wait
  /-- `OUT` is full: the command completes. -/
  | complete
  /-- An instruction, and the state after it has been read. -/
  | elem (i : Instr) (s : State)
  /-- A part of a match has been read and latched; its next field follows. -/
  | latch (s : State)
  /-- WALK_OVERRUN: the state after the raise (41_huffman.md R158). -/
  | raised (s : State)
  /-- A DecodeSymbol on a table that was never built (10_state.md R37). -/
  | stuck (t : Tree)
deriving DecidableEq, Repr

/-- The state after a decoding. -/
def settle (s : State) : Decoded → Fetched
  | .elem i r => .elem i { s with rd := r }
  | .latchMatch slot lenHdr r =>
    .latch { s with
      rd := r
      pend := { slot := slot, lenHdr := lenHdr, footer := 0, raw := 0, extra := 0 }
      phase := .footer }
  | .latchRaw slot lenHdr footer v r =>
    .latch { s with
      rd := r
      pend := { slot := slot, lenHdr := lenHdr, footer := footer, raw := v, extra := 0 }
      phase := .alignedSym }
  | .overrun t r => .raised (raiseFault .walkOverrun (BitVec.ofNat 32 t.infoCode) { s with rd := r })
  | .unbuilt t => .stuck t

/-- The element at the head of `FillOut`'s loop (43_symbols.md R210, 42_block_header.md R180, R181). -/
def decodeFill (s : State) : Decoded :=
  if s.blockRemaining = 0 then
    if s.started then decodeHeader s.rd else decodePreamble s.rd
  else if s.blockType = .uncompressed then decodeUncByte s.rd
  else decodeItem s.params.alignedAtExtra3 s.blockType (codeBookOf .main s) s.rd

/-- What the next step reads. -/
def fetch (s : State) : Fetched :=
  match s.phase with
  | .idle =>
    match s.cmd with
    | none => .wait
    | some w => .elem (decodeCommand w) { s with cmd := none }
  | .fill => if s.outLen ≤ s.outPos then .complete else settle s (decodeFill s)
  | .alignedLengths => settle s (decodeAlignedLengths s.rd)
  | .pretree => settle s (decodePretreeLengths s.rd)
  | .ptop => settle s (decodePtop (codeBookOf .pre s) s.rd)
  | .uncRepeats => settle s (decodeUncRepeats s.params.uncRewindBytes s.rd)
  | .uncPad => settle s (decodeUncPad s.rd)
  | .footer => settle s (decodeFooter (codeBookOf .length s) s.rd)
  | .offset =>
    settle s (decodeOffset s.params.alignedAtExtra3 s.blockType s.pend.slot s.pend.lenHdr s.pend.footer s.rd)
  | .alignedSym => settle s (decodeAlignedSym (codeBookOf .aligned s) s.rd)
  | .matchReady => .elem (.matchExplicitA s.pend.slot s.pend.lenHdr s.pend.footer s.pend.extra) s

/-! ### Laying a word of the opcode table -/

/-- `FillOut`'s loop with room in `OUT` and a block of the given kind under way. -/
def placeInBlock (kind : BlockType) (s : State) : State :=
  { s with
    phase := .fill
    blockType := kind
    blockRemaining := if s.blockRemaining = 0 then 1 else s.blockRemaining
    outLen := max s.outLen (s.outPos + 1) }

/-- A main symbol in a Verbatim block. Its code is `'1'`, zero bits follow, and where a LEN_FOOTER would follow it the
match waits at its offset fields with the footer 0. -/
def placeMainSymbol (sym : Nat) (s : State) : State :=
  if 256 ≤ sym ∧ sym % 8 = 7 then
    { placeInBlock .verbatim s with
      phase := .offset
      pend := { slot := BitVec.ofNat 6 ((sym - 256) / 8), lenHdr := 7, footer := 0, raw := 0, extra := 0 }
      rd := { oneBitReader with inseg := s.rd.inseg, buffer := 0 } }
  else
    { placeInBlock .verbatim s with
      mainLengths := s.mainLengths.set sym 1
      mainBook := { table := s.mainBook.table.set (2 ^ (Tree.main.tableBits - 1)) sym, valid := true }
      rd := { oneBitReader with inseg := s.rd.inseg } }

/-- A pretree operation whose code is `'1'`; zero bits follow, and they are the code of symbol 0. -/
def placePreSymbol (sym : Nat) (s : State) : State :=
  { s with
    phase := .ptop
    preLengths := s.preLengths.set sym 1
    preBook :=
      { table := (s.preBook.table.set 0 0).set (2 ^ (Tree.pre.tableBits - 1)) sym
        valid := true }
    rd := { oneBitReader with inseg := s.rd.inseg } }

/-- The state in which the next step reads a word of the opcode table (log 15). -/
def placeWord (nbits w : Nat) (s : State) : State :=
  match nbits with
  | 32 => { s with phase := .idle, cmd := some (BitVec.ofNat 32 w) }
  | 16 => placeMainSymbol w s
  | 8 =>
    if w < 20 then placePreSymbol w s
    else { placeInBlock .uncompressed s with rd := freshReader [BitVec.ofNat 8 w] }
  | 24 =>
    if 17 ≤ w ∧ w < 20 then placePreSymbol w s
    else { s with phase := .alignedLengths, rd := freshReader (packBits 2 (fieldBits 24 w)) }
  | 40 =>
    { s with
      phase := .fill
      started := false
      blockRemaining := 0
      outLen := max s.outLen (s.outPos + 1)
      rd := freshReader (packBits 3 (fieldBits 33 w)) }
  | 80 => { s with phase := .pretree, rd := freshReader (packBits 5 (fieldBits 80 w)) }
  | 96 =>
    { s with
      phase := .uncRepeats
      rd := freshReader ((List.range 12).map fun k => BitVec.ofNat 8 (w / 256 ^ k)) }
  | _ => s

end Sys2Proof.Machine
end

