-- ==== Sys2Proof/Machine/Step.lean ====
section
/-! DEFINITION. One step of the engine (log 1). -/

namespace Sys2Proof.Machine

/-- One step: an idle engine waits for the host or takes the written command; inside a DECODE_BLOCK it reads the next
stream element and executes it, latches a part of a match, or completes the command. -/
def step (s : State) : Host.Outcome State Fault Refusal :=
  match fetch s with
  | .wait => .next s
  | .complete => .next (finishBlock s)
  | .elem i s' => exec i s'
  | .latch s' => .next s'
  | .raised s' => .next s'
  | .stuck t => .fault (.unbuiltTable t)

/-- `s` with an instruction of the opcode table laid where `step` reads its next one (log 15). -/
def State.withFetchWord (s : State) (nbits w : Nat) : State := placeWord nbits w s

end Sys2Proof.Machine
end

