-- ==== Sys2Proof/Safety.lean ====
section
/-! DEFINITION. The terms claims use: what a well-kept state is, the stream a reader still has to give, and which
instructions belong together. -/

namespace Sys2Proof.Safety

open Sys2Proof.Machine

/-! ### The stream ahead of a reader -/

/-- The byte `k` places past the input cursor; 0 at and past the end of the segment (20_memory.md R61). -/
def inputByte (r : Reader) (k : Nat) : Byte :=
  if r.swath + k < r.segLen then Memory.read r.inseg (r.swath + k) else 0

/-- The `k`-th bit ahead of a reader: first the valid bits of the accumulator, then the bits of the 16-bit
little-endian words at the cursor, each from bit 15 down (20_memory.md R62, R63; 40_bitreader.md R130). -/
def bitAhead (r : Reader) (k : Nat) : Bool :=
  if k < r.total then r.buffer.getLsbD (r.total - 1 - k)
  else
    let j := k - r.total
    if j % 16 < 8 then (inputByte r (2 * (j / 16) + 1)).getLsbD (7 - j % 16)
    else (inputByte r (2 * (j / 16))).getLsbD (15 - j % 16)

/-- The next `n` bits ahead of a reader. -/
def bitsAhead (r : Reader) (n : Nat) : List Bool := (List.range n).map (bitAhead r)

/-- The stream of `r'` is the stream of `r` less its first `n` bits. -/
def Consumed (n : Nat) (r r' : Reader) : Prop := ∀ k, bitAhead r' k = bitAhead r (n + k)

/-! ### Well-kept states -/

/-- The invariants of the bit reader (40_bitreader.md R130; 10_state.md R40), with `INSEG` in canonical form. -/
structure ReaderOk (r : Reader) : Prop where
  total_le : r.total ≤ 31
  buffer_lt : r.buffer.toNat < 2 ^ r.total
  swath_le : r.swath ≤ r.segLen
  segLen_lt : r.segLen < 2 ^ 32
  inseg_wf : Memory.wf r.inseg = true

/-- A decode table has its tree's size and 16-bit entries (10_state.md R37). -/
structure BookOk (t : Tree) (b : Book) : Prop where
  size : b.table.length = t.tableSize
  entries : ∀ e ∈ b.table, e < 2 ^ 16

/-- The memories are in canonical form, and the arrays and tables have their sizes (10_state.md R33 to R37). -/
structure StorageOk (s : State) : Prop where
  reader : ReaderOk s.rd
  win_wf : Memory.wf s.win = true
  out_wf : Memory.wf s.out = true
  main_length : s.mainLengths.length = 656
  length_length : s.lengthLengths.length = 250
  aligned_length : s.alignedLengths.length = 8
  pre_length : s.preLengths.length = 20
  pre_book : BookOk .pre s.preBook
  main_book : BookOk .main s.mainBook
  length_book : BookOk .length s.lengthBook
  aligned_book : BookOk .aligned s.alignedBook

/-- The window position as a function of the history (44_match_copy.md R249). Between commands the history is
`streamPos`; inside one it is `streamPos + outPos`; surplus bytes of `MATCH_OVERRUN = CARRY` come on top (log 14). -/
def windowClock (s : State) : Nat :=
  s.streamPos + (if s.phase = .idle then 0 else s.outPos) + s.carry.length

/-- The registers keep the relations the spec gives them. -/
structure RegistersOk (s : State) : Prop where
  /-- R21. -/
  window_legal : s.live = true → 15 ≤ s.windowBits.toNat ∧ s.windowBits.toNat ≤ 21
  /-- R38. -/
  winPos_lt : s.winPos < windowSize s
  /-- R249. -/
  winPos_clock : s.live = true → s.faulted = false → s.winPos = windowClock s % windowSize s
  /-- R26. -/
  remaining_le : s.blockRemaining.toNat ≤ s.blockLength.toNat
  /-- R39. -/
  outPos_le : s.outPos ≤ s.outLen
  /-- R39. -/
  outLen_lt : s.outLen < 2 ^ 31
  /-- R39, R300: a valid `OUT` is full, and belongs to a live stream with no fault, between commands. -/
  out_valid : s.outValid = true → s.outPos = s.outLen ∧ s.live = true ∧ s.faulted = false ∧ s.phase = .idle
  /-- R22, R301. -/
  fault_code : s.faulted = true ↔ s.faultCode ≠ .none
  /-- R265. -/
  counters : s.frames = s.nextBlockNo
  /-- R246: without CARRY nothing is carried. -/
  carry_empty : s.params.matchOverrun = .truncate → s.carry = []
  /-- R280: inside a command the stream is live and not faulted, and no other command waits. -/
  running : s.phase ≠ .idle →
    s.live = true ∧ s.faulted = false ∧ s.cmd = none ∧ 1 ≤ s.outLen ∧ s.params.e8Trigger = .perBlock

/-- The tables the symbol loop of a kind reads are built (42_block_header.md R185, R186). -/
def TreesBuilt (s : State) : Prop :=
  s.mainBook.valid = true ∧ s.lengthBook.valid = true ∧ (s.blockType = .aligned → s.alignedBook.valid = true)

/-- A block under way has a kind, and the tables its loop reads are built (10_state.md R37). -/
def BlockReady (s : State) : Prop :=
  s.blockRemaining ≠ 0 → s.blockType ≠ .none ∧ (s.blockType ≠ .uncompressed → TreesBuilt s)

/-- The kinds with trees. -/
def TreeKind (s : State) : Prop := s.blockType = .verbatim ∨ s.blockType = .aligned

/-- The tables that stand when a length run of a header begins. -/
def TreesSoFar (s : State) : Prop :=
  (s.blockType = .aligned → s.alignedBook.valid = true) ∧ (s.run = .lengths → s.mainBook.valid = true)

/-- The latched fields of a match are fields some main symbol gives (30_encoding.md R99, R100). -/
def PendingOk (s : State) : Prop :=
  s.pend.slot.toNat ≤ 49 ∧ lengthWellFormed s.pend.lenHdr s.pend.footer = true

/-- What holds at each place of the stream grammar (30_encoding.md R90). -/
def PhaseOk (s : State) : Prop :=
  match s.phase with
  | .idle => s.faulted = false → BlockReady s
  | .fill => BlockReady s
  | .alignedLengths => s.blockType = .aligned
  | .pretree => TreeKind s ∧ TreesSoFar s
  | .ptop => TreeKind s ∧ TreesSoFar s ∧ s.preBook.valid = true ∧ s.index < s.run.last s.windowBits.toNat
  | .uncRepeats => s.blockType = .uncompressed
  | .uncPad => s.blockRemaining = 0
  | .footer => TreeKind s ∧ TreesBuilt s ∧ s.pend.slot.toNat ≤ 49 ∧ s.pend.lenHdr = 7
  | .offset => TreeKind s ∧ TreesBuilt s ∧ PendingOk s
  | .alignedSym =>
    TreeKind s ∧ TreesBuilt s ∧ PendingOk s ∧ s.blockType = .aligned ∧ 3 ≤ extraBits s.pend.slot.toNat ∧
      s.pend.raw.toNat < 2 ^ (extraBits s.pend.slot.toNat - 3)
  | .matchReady =>
    TreeKind s ∧ TreesBuilt s ∧ PendingOk s ∧ s.blockType = .aligned ∧
      explicitWellFormed s.pend.slot s.pend.extra = true

/-- The machine's invariant. -/
structure Inv (s : State) : Prop where
  storage : StorageOk s
  registers : RegistersOk s
  phase : PhaseOk s

/-- Without CARRY and before the E8 stage, `WIN` holds the last `min(W, outPos)` bytes of `OUT` (44_match_copy.md R240,
R249). -/
def WindowMirrorsOut (s : State) : Prop :=
  s.phase ≠ .idle → ∀ k, 1 ≤ k → k ≤ windowSize s → k ≤ s.outPos →
    windowByte k s = Memory.read s.out (s.outPos - k)

/-! ### Families of instructions -/

/-- A host command: an instruction with a row of format "CMD register write". -/
def isCommand : Instr → Bool
  | .init => true
  | .decodeBlock => true
  | .getContent => true
  | .getContentFrom => true
  | .getContentRange => true
  | .reservedOp0 => true
  | .reservedOp6 => true
  | .reservedOp7 => true
  | .reservedOp8 => true
  | .reservedOp9 => true
  | .reservedOp10 => true
  | .reservedOp11 => true
  | .reservedOp12 => true
  | .reservedOp13 => true
  | .reservedOp14 => true
  | .reservedOp15 => true
  | .e8PreambleOff => false
  | .e8PreambleOn _ _ => false
  | .blockHeader _ _ _ => false
  | .alignedLengths _ => false
  | .pretreeLengths _ => false
  | .ptDelta _ => false
  | .ptZrun4 _ => false
  | .ptZrun5 _ => false
  | .ptSame _ _ => false
  | .literal _ => false
  | .matchRep0 _ _ => false
  | .matchRep1 _ _ => false
  | .matchRep2 _ _ => false
  | .matchExplicitV _ _ _ _ => false
  | .matchExplicitA _ _ _ _ => false
  | .lenFooter _ => false
  | .alignedSym _ => false
  | .uncRepeats _ _ _ => false
  | .uncByte _ => false
  | .uncPad _ => false

/-- The OP of a reserved command (46_host_commands.md R286). -/
def reservedOp? : Instr → Option Nat
  | .reservedOp0 => some 0
  | .reservedOp6 => some 6
  | .reservedOp7 => some 7
  | .reservedOp8 => some 8
  | .reservedOp9 => some 9
  | .reservedOp10 => some 10
  | .reservedOp11 => some 11
  | .reservedOp12 => some 12
  | .reservedOp13 => some 13
  | .reservedOp14 => some 14
  | .reservedOp15 => some 15
  | _ => none

/-- `(old - z) mod 17` for a `z` below 32, with 34 added so that nothing goes below 0 (41_huffman.md R161). -/
def lessDelta (old : Fin 17) (z : BitVec 5) : Fin 17 := Fin.ofNat 17 (old.val + 34 - z.toNat)

/-- The pretree operations: the entries each writes, as a count, and the value computed from the entry at the index
(30_encoding.md R97). -/
def pretreeOp? : Instr → Option (Nat × (Fin 17 → Fin 17))
  | .ptDelta z => some (1, fun old => lessDelta old z)
  | .ptZrun4 c => some (c.toNat + 4, fun _ => 0)
  | .ptZrun5 c => some (c.toNat + 20, fun _ => 0)
  | .ptSame c z2 => some (c.toNat + 4, fun old => lessDelta old z2)
  | _ => none

/-- The explicit offset of a slot: `POSITION_BASE[slot] - 2 + e` (30_encoding.md R102). -/
def slotOffset (slot : BitVec 6) (e : BitVec 17) : Word := BitVec.ofNat 32 (positionBase slot.toNat + e.toNat - 2)

/-- The repeat registers after REP2 (43_symbols.md R215). -/
def afterRep2 (s : State) : Repeats :=
  match s.params.rep2Rotation with
  | .swap => { r0 := s.reps.r2, r1 := s.reps.r1, r2 := s.reps.r0 }
  | .docLiteral => { r0 := s.reps.r2, r1 := s.reps.r0, r2 := s.reps.r2 }

/-- The matches of slots whose offset the tables give or a repeat register holds: the resolved offset, the repeat
registers after the rotation, and the match length `lenHdr + footer + 2` (43_symbols.md R212 to R217). -/
def match? (s : State) : Instr → Option (Word × Repeats × Nat)
  | .matchRep0 lenHdr footer => some (s.reps.r0, s.reps, lenHdr.toNat + footer.toNat + 2)
  | .matchRep1 lenHdr footer =>
    some (s.reps.r1, { r0 := s.reps.r1, r1 := s.reps.r0, r2 := s.reps.r2 }, lenHdr.toNat + footer.toNat + 2)
  | .matchRep2 lenHdr footer => some (s.reps.r2, afterRep2 s, lenHdr.toNat + footer.toNat + 2)
  | .matchExplicitV slot lenHdr footer e =>
    some
      (slotOffset slot e, { r0 := slotOffset slot e, r1 := s.reps.r0, r2 := s.reps.r1 },
        lenHdr.toNat + footer.toNat + 2)
  | .matchExplicitA slot lenHdr footer e =>
    some
      (slotOffset slot e, { r0 := slotOffset slot e, r1 := s.reps.r0, r2 := s.reps.r1 },
        lenHdr.toNat + footer.toNat + 2)
  | _ => none

/-- An item of a Verbatim or Aligned block (30_encoding.md R90, R99). -/
def isItem (kind : BlockType) : Instr → Bool
  | .literal _ => true
  | .matchRep0 _ _ => true
  | .matchRep1 _ _ => true
  | .matchRep2 _ _ => true
  | .matchExplicitV _ _ _ _ => decide (kind = .verbatim)
  | .matchExplicitA _ _ _ _ => decide (kind = .aligned)
  | _ => false

/-- A pretree operation. -/
def isPretreeOp : Instr → Bool
  | .ptDelta _ => true
  | .ptZrun4 _ => true
  | .ptZrun5 _ => true
  | .ptSame _ _ => true
  | _ => false

/-! ### Codes -/

/-- A code-length array of a tree: an entry for every symbol, none above 16 (41_huffman.md R150). -/
structure LengthsOk (t : Tree) (lens : List Nat) : Prop where
  size : lens.length = t.maxSymbols
  le : ∀ l ∈ lens, l ≤ 16

/-- The codes of an array do not overfill the code space: `sum of 2^(-lens[s]) ≤ 1` (41_huffman.md R156). -/
def CodeFits (lens : List Nat) : Prop := codeSpaceBelow lens 16 ≤ 2 ^ 16

/-- The node pairs that the codes longer than `tb` bits need: at each level from `tb` to 15 the blocks of code space that
codes longer than the level reach into (41_huffman.md R153). -/
def nodePairs (lens : List Nat) (tb : Nat) : Nat :=
  ((List.range (16 - tb)).map fun j =>
    (codeSpaceBelow lens 16 - codeSpaceBelow lens (tb + j) + (2 ^ (16 - tb - j) - 1)) / 2 ^ (16 - tb - j)).sum

/-- A code book as a header leaves it: the array fits and its table is the one the builder built without a fault. -/
structure CodeReady (t : Tree) (cb : CodeBook) : Prop where
  lengths : LengthsOk t cb.lens
  fits : CodeFits cb.lens
  built : (buildTable t cb.lens).ok = true
  book : cb.book = { table := (buildTable t cb.lens).table, valid := true }

/-- The Huffman symbols in the encoding of an instruction (30_encoding.md R97, R99, R100, R104). -/
def symbolsOf (alignedAtExtra3 : Bool) : Instr → List (Tree × Nat)
  | .ptDelta z => [(.pre, z.toNat)]
  | .ptZrun4 _ => [(.pre, 17)]
  | .ptZrun5 _ => [(.pre, 18)]
  | .ptSame _ z2 => [(.pre, 19), (.pre, z2.toNat)]
  | .literal b => [(.main, b.toNat)]
  | .matchRep0 lenHdr footer => matchSymbols 0 lenHdr footer
  | .matchRep1 lenHdr footer => matchSymbols 1 lenHdr footer
  | .matchRep2 lenHdr footer => matchSymbols 2 lenHdr footer
  | .matchExplicitV slot lenHdr footer _ => matchSymbols slot.toNat lenHdr footer
  | .matchExplicitA slot lenHdr footer e =>
    matchSymbols slot.toNat lenHdr footer ++
      (if 3 < extraBits slot.toNat ∨ (extraBits slot.toNat = 3 ∧ alignedAtExtra3 = true) then [(.aligned, e.toNat % 8)]
        else [])
  | .lenFooter f => [(.length, f.toNat)]
  | .alignedSym a => [(.aligned, a.toNat)]
  | _ => []
where
  /-- The main symbol of a match and its LEN_FOOTER. -/
  matchSymbols (slot : Nat) (lenHdr : BitVec 3) (footer : BitVec 8) : List (Tree × Nat) :=
    (.main, 256 + 8 * slot + lenHdr.toNat) :: (if lenHdr = 7 then [(.length, footer.toNat)] else [])

/-- Every symbol of an instruction's encoding has a code (00_scope.md R12). -/
def Assigned (alignedAtExtra3 : Bool) (lens : Tree → List Nat) (i : Instr) : Prop :=
  ∀ p ∈ symbolsOf alignedAtExtra3 i, (lens p.1).getD p.2 0 ≠ 0

/-! ### Reading -/

/-- The next `n` bytes at the input cursor. -/
def bytesAhead (r : Reader) (n : Nat) : List Byte := (List.range n).map (inputByte r)

/-- The element decoding at the place of the grammar where the engine stands inside a command (30_encoding.md R90;
43_symbols.md R210). -/
def ReadsElement (s : State) (d : Decoded) : Prop :=
  (s.phase = .fill ∧ s.outPos < s.outLen ∧ s.blockRemaining = 0 ∧ s.started = false ∧ d = decodePreamble s.rd) ∨
  (s.phase = .fill ∧ s.outPos < s.outLen ∧ s.blockRemaining = 0 ∧ s.started = true ∧ d = decodeHeader s.rd) ∨
  (s.phase = .fill ∧ s.outPos < s.outLen ∧ s.blockRemaining ≠ 0 ∧ s.blockType = .uncompressed ∧
    d = decodeUncByte s.rd) ∨
  (s.phase = .fill ∧ s.outPos < s.outLen ∧ s.blockRemaining ≠ 0 ∧ s.blockType ≠ .uncompressed ∧
    d = decodeItem s.params.alignedAtExtra3 s.blockType (codeBookOf .main s) s.rd) ∨
  (s.phase = .alignedLengths ∧ d = decodeAlignedLengths s.rd) ∨
  (s.phase = .pretree ∧ d = decodePretreeLengths s.rd) ∨
  (s.phase = .ptop ∧ d = decodePtop (codeBookOf .pre s) s.rd) ∨
  (s.phase = .uncRepeats ∧ d = decodeUncRepeats s.params.uncRewindBytes s.rd) ∨
  (s.phase = .uncPad ∧ d = decodeUncPad s.rd) ∨
  (s.phase = .footer ∧ d = decodeFooter (codeBookOf .length s) s.rd) ∨
  (s.phase = .offset ∧
    d = decodeOffset s.params.alignedAtExtra3 s.blockType s.pend.slot s.pend.lenHdr s.pend.footer s.rd) ∨
  (s.phase = .alignedSym ∧ d = decodeAlignedSym (codeBookOf .aligned s) s.rd)

/-! ### The end of a command -/

/-- The four conditions of `E8Enabled` (45_e8_transform.md R260). -/
def E8Conditions (s : State) : Prop :=
  s.frames < 32768 ∧ s.intelFileSize.toNat ≠ 0 ∧ s.intelStarted = true ∧ 6 < s.outLen

/-- `OUT` is full, so the command completes at the next step (43_symbols.md R210). -/
def OutFull (s : State) : Prop := s.phase = .fill ∧ s.outLen ≤ s.outPos

/-- The step takes INIT (46_host_commands.md R281). -/
def TakesInit (s : State) : Prop := s.phase = .idle ∧ ∃ w, s.cmd = some w ∧ w.toNat % 16 = 1

/-- The step takes the command of an OP (46_host_commands.md R280). -/
def TakesOp (op : Nat) (s : State) : Prop := s.phase = .idle ∧ ∃ w, s.cmd = some w ∧ w.toNat % 16 = op

end Sys2Proof.Safety
end

