-- ==== Sys2Proof/Certificates/Slice0/Obligations.lean ====
section
/-! DEFINITION. The statements for the provers. Each names the rule of spec/ it formalises; OBLIGATIONS.json lists them. -/

open Sys2Proof Sys2Proof.Machine Sys2Proof.Safety

/-! ### Steps, fetching, decoding and encoding -/

/-- A step runs what the engine's place in the grammar gives it: an idle engine takes the written command, a full `OUT`
completes the command, and an element that decodes is executed at the reader after it (46_host_commands.md R280;
43_symbols.md R210; 30_encoding.md R90). The model's choices, not the spec's: one element a step (log 1), an idle engine
that waits (log 2), and a match that waits in `pend` until its last field has been read (log 13). -/
def Obligations.StepRunsTheDecodedInstruction : Prop :=
  ∀ s : State,
    (s.phase = .idle → s.cmd = none → step s = .next s) ∧
    (∀ w, s.phase = .idle → s.cmd = some w → step s = exec (decodeCommand w) { s with cmd := none }) ∧
    (OutFull s → step s = .next (finishBlock s)) ∧
    (∀ i r, ReadsElement s (.elem i r) → step s = exec i { s with rd := r }) ∧
    (s.phase = .matchReady →
      step s = exec (.matchExplicitA s.pend.slot s.pend.lenHdr s.pend.footer s.pend.extra) s)

/-- What a step does where the decoding answers no element: WALK_OVERRUN is raised (41_huffman.md R158), and by the
model's choices a part of a match is latched in `pend` and `phase` (logs 1 and 13; the fields themselves are those of
43_symbols.md R212 and R217), and a table that was never built stops the machine (log 10, which takes the treatment that
10_state.md R37 allows). -/
def Obligations.StepLatchesRaisesOrStops : Prop :=
  ∀ s : State,
    (∀ slot lenHdr r, ReadsElement s (.latchMatch slot lenHdr r) →
      step s = .next { s with
        rd := r
        pend := { slot := slot, lenHdr := lenHdr, footer := 0, raw := 0, extra := 0 }
        phase := .footer }) ∧
    (∀ slot lenHdr footer v r, ReadsElement s (.latchRaw slot lenHdr footer v r) →
      step s = .next { s with
        rd := r
        pend := { slot := slot, lenHdr := lenHdr, footer := footer, raw := v, extra := 0 }
        phase := .alignedSym }) ∧
    (∀ t r, ReadsElement s (.overrun t r) →
      step s = .next { s with
        rd := r
        faulted := true
        faultCode := .walkOverrun
        faultInfo := BitVec.ofNat 32 t.infoCode
        outValid := false
        phase := .idle }) ∧
    (∀ t, ReadsElement s (.unbuilt t) → step s = .fault (.unbuiltTable t))

/-- A command word selects its command by bits [3:0] alone, as the table of 30_encoding.md R107 gives them, and every
word selects one. -/
def Obligations.CommandWordSelectsByOp : Prop :=
  (List.range 16).map (fun op => decodeCommand (BitVec.ofNat 32 op)) =
      [.reservedOp0, .init, .decodeBlock, .getContent, .getContentFrom, .getContentRange, .reservedOp6, .reservedOp7,
        .reservedOp8, .reservedOp9, .reservedOp10, .reservedOp11, .reservedOp12, .reservedOp13, .reservedOp14,
        .reservedOp15] ∧
    (∀ w : Word, isCommand (decodeCommand w) = true) ∧
    ∀ (alignedAtExtra3 : Bool) (lens : Tree → List Nat) (i : Instr), isCommand i = true →
      ∃ c : Word, encode alignedAtExtra3 lens i = .command c ∧ c.toNat < 16 ∧
        ∀ w : Word, w.toNat % 16 = c.toNat → decodeCommand w = i

/-- Stream words written out from the spec decode to their elements: P4's preamble, the header V-H4 (code 3, length 5),
P3's aligned lengths, P1's repeat registers, V-B10's pretree symbol 7 (95_test_vectors.md). -/
def Obligations.SpecWordsDecode : Prop :=
  (decodePreamble (freshReader [0x00, 0x80, 0x00, 0x80, 0x00, 0x30, 0x50, 0x01])).instr? =
    some (.e8PreambleOn 1 0) ∧
  (decodeHeader (freshReader [0x00, 0x60, 0xA0, 0x00])).instr? = some (.blockHeader 3 0 5) ∧
  (decodeAlignedLengths (freshReader [0x80, 0x04, 0x00, 0x00])).instr? =
    some (.alignedLengths [0, 1, 1, 0, 0, 0, 0, 0]) ∧
  (decodeUncRepeats 1 (freshReader [7, 0, 0, 0, 8, 0, 0, 0, 9, 0, 0, 0])).instr? = some (.uncRepeats 7 8 9) ∧
  (decodePtop
      { lens := [1, 2, 3, 4, 5, 6, 7, 7, 0, 0, 0, 0, 0, 0, 0, 0, 0, 0, 0, 0]
        book :=
          { table := (buildTable .pre [1, 2, 3, 4, 5, 6, 7, 7, 0, 0, 0, 0, 0, 0, 0, 0, 0, 0, 0, 0]).table
            valid := true } }
      (freshReader [0xFF, 0xFE])).instr? = some (.ptDelta 7)

/-- Decode and encode agree on the elements of fixed fields, at every operand, wherever the bits stand in the stream:
the element is read back, exactly its own bits are consumed, and the reader stays well kept (30_encoding.md R92, R93,
R95, R96, R108). -/
def Obligations.FixedFieldElementsRoundTrip : Prop :=
  ∀ (alignedAtExtra3 : Bool) (lens : Tree → List Nat) (i : Instr) (r : Reader) (bs : List Bool),
    ReaderOk r → i.wellFormed = true → encode alignedAtExtra3 lens i = .bits bs → bitsAhead r bs.length = bs →
    (∀ hi lo, i = .e8PreambleOff ∨ i = .e8PreambleOn hi lo →
      ∃ r', decodePreamble r = .elem i r' ∧ Consumed bs.length r r' ∧ ReaderOk r') ∧
    (∀ btype hi lo, i = .blockHeader btype hi lo →
      ∃ r', decodeHeader r = .elem i r' ∧ Consumed bs.length r r' ∧ ReaderOk r') ∧
    (∀ ls, i = .alignedLengths ls →
      ∃ r', decodeAlignedLengths r = .elem i r' ∧ Consumed bs.length r r' ∧ ReaderOk r') ∧
    (∀ ps, i = .pretreeLengths ps →
      ∃ r', decodePretreeLengths r = .elem i r' ∧ Consumed bs.length r r' ∧ ReaderOk r')

/-- Decode and encode agree on the raw elements: UNC_REPEATS after the resynchronisation, UNC_BYTE and UNC_PAD, with the
input cursor moved past exactly their bytes (30_encoding.md R105; 20_memory.md R64). -/
def Obligations.RawElementsRoundTrip : Prop :=
  ∀ (alignedAtExtra3 : Bool) (lens : Tree → List Nat) (i : Instr) (r : Reader) (rewind : Nat) (bs : List Byte),
    encode alignedAtExtra3 lens i = .bytes bs →
    (∀ r0 r1 r2, i = .uncRepeats r0 r1 r2 → bytesAhead (resync rewind r) bs.length = bs →
      ∃ r', decodeUncRepeats rewind r = .elem i r' ∧
        ∀ k, inputByte r' k = inputByte (resync rewind r) (bs.length + k)) ∧
    (∀ b, i = .uncByte b → bytesAhead r bs.length = bs →
      ∃ r', decodeUncByte r = .elem i r' ∧ ∀ k, inputByte r' k = inputByte r (bs.length + k)) ∧
    (∀ x, i = .uncPad x → bytesAhead r bs.length = bs →
      ∃ r', decodeUncPad r = .elem i r' ∧ ∀ k, inputByte r' k = inputByte r (bs.length + k))

/-- A symbol decodes from its canonical code, consuming exactly its length, whatever bits follow: for every tree and
every array of fitting codes whose build raised no fault (41_huffman.md R156, R157; 30_encoding.md R106). -/
def Obligations.CanonicalCodesDecode : Prop :=
  ∀ (t : Tree) (lens : List Nat) (sym : Nat) (r : Reader),
    LengthsOk t lens → CodeFits lens → (buildTable t lens).ok = true → lens.getD sym 0 ≠ 0 → ReaderOk r →
    bitsAhead r (lens.getD sym 0) = symbolBits lens sym →
    ∃ r', decodeSymbol t lens (buildTable t lens).table r = .ok sym r' ∧ Consumed (lens.getD sym 0) r r' ∧ ReaderOk r'

/-- Decode and encode agree on the pretree operations, at every operand (30_encoding.md R97, R108). -/
def Obligations.PretreeOpsRoundTrip : Prop :=
  ∀ (alignedAtExtra3 : Bool) (lens : Tree → List Nat) (cb : CodeBook) (i : Instr) (r : Reader) (bs : List Bool),
    CodeReady .pre cb → lens .pre = cb.lens → ReaderOk r → isPretreeOp i = true → i.wellFormed = true →
    Assigned alignedAtExtra3 lens i → encode alignedAtExtra3 lens i = .bits bs → bitsAhead r bs.length = bs →
    ∃ r', decodePtop cb r = .elem i r' ∧ Consumed bs.length r r' ∧ ReaderOk r'

/-- Decode and encode agree on the items of Verbatim and Aligned blocks, at every operand (30_encoding.md R99, R100, R103,
R104; 43_symbols.md R212, R217, R218): from the head of the loop the whole item is read, and then exactly that item is
fetched, its bits consumed and nothing else changed. That it takes at most four steps, which latch its parts in `pend` and
`phase`, is the model's choice (logs 1 and 13). -/
def Obligations.ItemsRoundTrip : Prop :=
  ∀ (s : State) (i : Instr) (bs : List Bool),
    s.phase = .fill → s.outPos < s.outLen → s.blockRemaining ≠ 0 → TreeKind s → isItem s.blockType i = true →
    i.wellFormed = true → ReaderOk s.rd → CodeReady .main (codeBookOf .main s) →
    CodeReady .length (codeBookOf .length s) → (s.blockType = .aligned → CodeReady .aligned (codeBookOf .aligned s)) →
    Assigned s.params.alignedAtExtra3 (fun t => lensOf t s) i →
    encode s.params.alignedAtExtra3 (fun t => lensOf t s) i = .bits bs → bitsAhead s.rd bs.length = bs →
    ∃ (n : Nat) (u w : State), n ≤ 4 ∧ Sys2Proof.core.run n s = .next u ∧ fetch u = .elem i w ∧
      Consumed bs.length s.rd w.rd ∧ ReaderOk w.rd ∧ w = { s with rd := w.rd, pend := w.pend, phase := w.phase }

/-! ### The bit reader -/

/-- Every primitive of the bit reader keeps `total ≤ 31` and `buffer < 2^total`, and leaves `INSEG` and `segLen`; but for
`StartSegment`, which sets `segLen` (40_bitreader.md R130, R138). -/
def Obligations.ReaderInvariantsKept : Prop :=
  ∀ (r : Reader) (n k : Nat), ReaderOk r →
    (∀ r' ∈ [refill r, (getDesyncBits n k r).2, (getSyncBits n r).2, (inByte r).2, (readLE32 r).2, resync n r],
      ReaderOk r' ∧ r'.inseg = r.inseg ∧ r'.segLen = r.segLen) ∧
    (n < 2 ^ 32 →
      ReaderOk (startSegment n r) ∧ (startSegment n r).inseg = r.inseg ∧ (startSegment n r).segLen = n)

/-- `GetSyncBits(n)` gives the next `n` stream bits, first bit most significant, and consumes exactly those, for the
split widths above 16 as well (40_bitreader.md R133, R134). -/
def Obligations.GetSyncBitsReadsTheNextBits : Prop :=
  ∀ (r : Reader) (n : Nat), ReaderOk r → n ≤ 32 →
    (getSyncBits n r).1 = bitsValue (bitsAhead r n) ∧ Consumed n r (getSyncBits n r).2

/-- `GetDesyncBits(n, k)` gives the next `n` bits and consumes `k` of them, and `CheckBit(i)` gives the `i`-th bit ahead
without consuming any: for every `i` up to `total`, and up to 16 right after `GetDesyncBits(n, 0)` (40_bitreader.md R132,
R136). -/
def Obligations.DesyncBitsAndCheckBitReadAhead : Prop :=
  ∀ (r : Reader) (n k i : Nat), ReaderOk r → 1 ≤ n → n ≤ 16 → k ≤ n → 1 ≤ i →
    (getDesyncBits n k r).1 = bitsValue (bitsAhead r n) ∧ Consumed k r (getDesyncBits n k r).2 ∧
      (i ≤ r.total → checkBit i r = (bitAhead r (i - 1)).toNat) ∧
      (i ≤ 16 → checkBit i (getDesyncBits n 0 r).2 = (bitAhead r (i - 1)).toNat)

/-- `GetSyncBits(0)` returns 0, performs no refill and changes no state (40_bitreader.md R135). -/
def Obligations.GetSyncBitsZeroChangesNothing : Prop := ∀ r : Reader, getSyncBits 0 r = (0, r)

/-- Past the end of the segment every byte and every bit reads 0, and the cursor holds (40_bitreader.md R137;
20_memory.md R61). -/
def Obligations.PastTheEndReadsZero : Prop :=
  ∀ r : Reader, ReaderOk r → r.segLen ≤ r.swath →
    inByte r = (0, r) ∧ (∀ k, r.total ≤ k → bitAhead r k = false) ∧
      ∀ n, (getSyncBits n r).2.swath = r.swath

/-- The stream bits of a fresh segment: bit `k` is bit `15 - k mod 16` of the little-endian word `k div 16`, bytes past
the end counting as 0 (20_memory.md R62, R63). -/
def Obligations.FreshSegmentBitOrder : Prop :=
  ∀ (r : Reader) (len k : Nat),
    bitAhead (startSegment len r) k =
      ((if 2 * (k / 16) < len then (Memory.read r.inseg (2 * (k / 16))).toNat else 0) +
        256 * (if 2 * (k / 16) + 1 < len then (Memory.read r.inseg (2 * (k / 16) + 1)).toNat else 0)).testBit
          (15 - k % 16)

/-! ### The Huffman unit -/

/-- When TABLE_OVERFLOW is raised, in terms of the code space: direct codes that overfill it (check (a)); an incomplete
direct region with long codes that overfill it (checks (b) and (c)); an incomplete direct region whose codes fit, exactly
where the long codes need more node pairs than the tree has symbols (check (b)); and never for a complete direct region
(41_huffman.md R152, R153, R154). The third follows the procedure of R153 and R154, where R156 would have no fault:
log 18. -/
def Obligations.OverfullCodesOverflow : Prop :=
  ∀ (t : Tree) (lens : List Nat), LengthsOk t lens →
    (2 ^ 16 < codeSpaceBelow lens t.tableBits → (buildTable t lens).ok = false) ∧
    (codeSpaceBelow lens t.tableBits < 2 ^ 16 → 2 ^ 16 < codeSpaceBelow lens 16 → (buildTable t lens).ok = false) ∧
    (codeSpaceBelow lens t.tableBits < 2 ^ 16 → CodeFits lens →
      ((buildTable t lens).ok = true ↔ nodePairs lens t.tableBits ≤ t.maxSymbols)) ∧
    (codeSpaceBelow lens t.tableBits = 2 ^ 16 → (buildTable t lens).ok = true)

/-- An array whose codes are all direct and fit builds without a fault, and so does the array of zeros, whose table is
all zeros (41_huffman.md R151, R152, R155). -/
def Obligations.FittingDirectCodesBuild : Prop :=
  ∀ (t : Tree) (lens : List Nat), LengthsOk t lens →
    ((∀ l ∈ lens, l ≤ t.tableBits) → CodeFits lens → (buildTable t lens).ok = true) ∧
    ((∀ l ∈ lens, l = 0) →
      (buildTable t lens).ok = true ∧ (buildTable t lens).table = List.replicate t.tableSize 0)

/-- The direct slots: a code of length `L ≤ tb` owns exactly the slots whose top `L` bits equal the code, and the slots
above all direct codes hold 0 where no long code is threaded (41_huffman.md R151, R152, R155). -/
def Obligations.DirectSlotsHoldTheirSymbols : Prop :=
  ∀ (t : Tree) (lens : List Nat), LengthsOk t lens → (buildTable t lens).ok = true →
    (∀ sym p, 1 ≤ lens.getD sym 0 → lens.getD sym 0 ≤ t.tableBits → p < 2 ^ t.tableBits →
      p / 2 ^ (t.tableBits - lens.getD sym 0) = canonicalCode lens sym →
      (buildTable t lens).table[p]? = some sym) ∧
    ((∀ l ∈ lens, l ≤ t.tableBits) → ∀ p, p < 2 ^ t.tableBits →
      codeSpaceBelow lens t.tableBits ≤ p * 2 ^ (16 - t.tableBits) → (buildTable t lens).table[p]? = some 0)

/-- No table that the builder completes lets a walk pass bit 16, and every decoded symbol is one of the tree's: for
every tree, every array and every reader (41_huffman.md R158; 60_exceptions.md R305). Where no code stands ahead the
symbol is 0, and its own length is consumed: no bit where that length is 0 (41_huffman.md R155, R159). -/
def Obligations.CompletedTablesNeverOverrun : Prop :=
  ∀ (t : Tree) (lens : List Nat) (r : Reader), LengthsOk t lens → (buildTable t lens).ok = true → ReaderOk r →
    (∃ sym r', decodeSymbol t lens (buildTable t lens).table r = .ok sym r' ∧ sym < t.maxSymbols ∧
      Consumed (lens.getD sym 0) r r') ∧
    ((∀ sym, lens.getD sym 0 ≠ 0 → bitsAhead r (lens.getD sym 0) ≠ symbolBits lens sym) →
      ∃ r', decodeSymbol t lens (buildTable t lens).table r = .ok 0 r' ∧ Consumed (lens.getD 0 0) r r')

/-! ### Headers -/

/-- E8_PREAMBLE: `started` is set; the hint is stored, or 0 where bit 31 is set (42_block_header.md R181). -/
def Obligations.E8PreambleStoresTheHint : Prop :=
  ∀ (s : State) (hi lo : BitVec 16),
    exec .e8PreambleOff s = .next { s with started := true } ∧
    ∃ t, exec (.e8PreambleOn hi lo) s = .next t ∧
      t = { s with started := true, intelFileSize := t.intelFileSize } ∧
      t.intelFileSize.toNat =
        if hi.toNat * 2 ^ 16 + lo.toNat < 2 ^ 31 then hi.toNat * 2 ^ 16 + lo.toNat else 0

/-- BLOCK_HEADER where the code names a kind, or an earlier kind is reused: the 24-bit length, the resolved kind and the
body that follows it (42_block_header.md R182, R183, R184, R189). -/
def Obligations.BlockHeaderResolvesItsKind : Prop :=
  ∀ (s : State) (btype : BitVec 3) (hi : BitVec 16) (lo : BitVec 8) (kind : BlockType),
    kind ≠ .none →
    ((s.params.btypeMap = .lzx ∧ 1 ≤ btype.toNat ∧ btype.toNat ≤ 3 ∧ btype.toNat = kind.code) ∨
      (s.params.btypeMap = .zeroBased ∧ btype.toNat ≤ 2 ∧ btype.toNat + 1 = kind.code) ∨
      (s.params.btypeMap = .lzx ∧ (btype.toNat = 0 ∨ 4 ≤ btype.toNat) ∧ s.blockType = kind) ∨
      (s.params.btypeMap = .zeroBased ∧ 3 ≤ btype.toNat ∧ s.blockType = kind)) →
    ∃ t, exec (.blockHeader btype hi lo) s = .next t ∧
      t = { s with
        blockLength := t.blockLength
        blockRemaining := t.blockRemaining
        blockType := kind
        run := t.run
        phase := t.phase } ∧
      t.blockLength.toNat = hi.toNat * 256 + lo.toNat ∧ t.blockRemaining = t.blockLength ∧
      (kind = .verbatim → t.phase = .pretree ∧ t.run = .mainLiterals) ∧
      (kind = .aligned → t.phase = .alignedLengths ∧ t.run = s.run) ∧
      (kind = .uncompressed → t.phase = .uncRepeats ∧ t.run = s.run)

/-- BLOCK_HEADER with an invalid code and no earlier kind raises INVALID_BLOCK_TYPE; the length is stored before
(42_block_header.md R182, R183; 60_exceptions.md R300, R307). -/
def Obligations.InvalidFirstBlockTypeFaults : Prop :=
  ∀ (s : State) (btype : BitVec 3) (hi : BitVec 16) (lo : BitVec 8),
    s.blockType = .none →
    ((s.params.btypeMap = .lzx ∧ (btype.toNat = 0 ∨ 4 ≤ btype.toNat)) ∨
      (s.params.btypeMap = .zeroBased ∧ 3 ≤ btype.toNat)) →
    ∃ t, exec (.blockHeader btype hi lo) s = .next t ∧
      t = { s with
        blockLength := t.blockLength
        blockRemaining := t.blockLength
        faulted := true
        faultCode := .invalidBlockType
        faultInfo := t.faultInfo
        outValid := false
        phase := .idle } ∧
      t.blockLength.toNat = hi.toNat * 256 + lo.toNat ∧ t.faultInfo.toNat = btype.toNat

/-- ALIGNED_LENGTHS: the lengths are replaced outright; where they fit the table is built and the main run begins, and
where they do not TABLE_OVERFLOW(3) is raised (42_block_header.md R185; 41_huffman.md R154). That the valid flag is then 0
even where an earlier build had set it is the model's reading (log 9). -/
def Obligations.AlignedLengthsBuildOrOverflow : Prop :=
  ∀ (s : State) (ls : List (BitVec 3)), ls.length = 8 →
    (CodeFits (ls.map BitVec.toNat) →
      exec (.alignedLengths ls) s = .next { s with
        alignedLengths := ls
        alignedBook := { table := (buildTable .aligned (ls.map BitVec.toNat)).table, valid := true }
        run := .mainLiterals
        phase := .pretree }) ∧
    (¬ CodeFits (ls.map BitVec.toNat) →
      ∃ t, exec (.alignedLengths ls) s = .next t ∧
        t = { s with
          alignedLengths := ls
          alignedBook := t.alignedBook
          faulted := true
          faultCode := .tableOverflow
          faultInfo := 3
          outValid := false
          phase := .idle } ∧
        t.alignedBook.valid = false)

/-- UNC_REPEATS, executed: `intelStarted` is set and the registers take the raw values, whatever they are. Read and
executed in one step: the cursor moves back where `total > 16`, the accumulator is emptied, and R0, R1, R2 are the next
twelve bytes, little-endian (42_block_header.md R187; 30_encoding.md R105; 40_bitreader.md R139, R140). -/
def Obligations.UncompressedSetupReadsTheRepeats : Prop :=
  ∀ s : State,
    (∀ r0 r1 r2 : Word, exec (.uncRepeats r0 r1 r2) s =
      .next { s with intelStarted := true, reps := { r0 := r0, r1 := r1, r2 := r2 }, phase := .fill }) ∧
    (s.phase = .uncRepeats → ∃ t, step s = .next t ∧
      t = { s with intelStarted := true, reps := t.reps, rd := t.rd, phase := .fill } ∧
      t.rd.buffer = 0 ∧ t.rd.total = 0 ∧ t.rd.inseg = s.rd.inseg ∧ t.rd.segLen = s.rd.segLen ∧
      ∃ r : Reader, r = { s.rd with swath := r.swath, buffer := 0, total := 0 } ∧
        (16 < s.rd.total → r.swath = s.rd.swath - s.params.uncRewindBytes) ∧
        (s.rd.total ≤ 16 → r.swath = s.rd.swath) ∧
        (∀ k, inputByte t.rd k = inputByte r (12 + k)) ∧
        t.reps.r0.toNat = (inputByte r 0).toNat + 2 ^ 8 * (inputByte r 1).toNat + 2 ^ 16 * (inputByte r 2).toNat +
          2 ^ 24 * (inputByte r 3).toNat ∧
        t.reps.r1.toNat = (inputByte r 4).toNat + 2 ^ 8 * (inputByte r 5).toNat + 2 ^ 16 * (inputByte r 6).toNat +
          2 ^ 24 * (inputByte r 7).toNat ∧
        t.reps.r2.toNat = (inputByte r 8).toNat + 2 ^ 8 * (inputByte r 9).toNat + 2 ^ 16 * (inputByte r 10).toNat +
          2 ^ 24 * (inputByte r 11).toNat)

/-! ### Length arrays -/

/-- PRETREE_LENGTHS: the lengths are stored; where the pretree builds, the run starts at its first index, and where it
overflows TABLE_OVERFLOW(0) is raised (41_huffman.md R160, R154). That the valid flag is then 0 even where an earlier
build had set it is the model's reading (log 9). -/
def Obligations.PretreeLengthsStartTheRun : Prop :=
  ∀ (s : State) (ps : List (BitVec 4)), ps.length = 20 → 15 ≤ s.windowBits.toNat → s.windowBits.toNat ≤ 21 →
    ((buildTable .pre (ps.map BitVec.toNat)).ok = true →
      exec (.pretreeLengths ps) s = .next { s with
        preLengths := ps
        preBook := { table := (buildTable .pre (ps.map BitVec.toNat)).table, valid := true }
        index := if s.run = .mainMatches then 256 else 0
        phase := .ptop }) ∧
    ((buildTable .pre (ps.map BitVec.toNat)).ok = false →
      ∃ t, exec (.pretreeLengths ps) s = .next t ∧
        t = { s with
          preLengths := ps
          preBook := t.preBook
          faulted := true
          faultCode := .tableOverflow
          faultInfo := 0
          outValid := false
          phase := .idle } ∧
        t.preBook.valid = false)

/-- A pretree operation inside its run: `count` entries from `x` on take the one value computed from the entry at `x`,
writes past the array are dropped, `x` moves on by `count`, and the run goes on (41_huffman.md R161, R162, R163, R164,
R165; 30_encoding.md R97). -/
def Obligations.PretreeOpsWriteTheirEntries : Prop :=
  ∀ (s : State) (i : Instr) (count : Nat) (value : Fin 17 → Fin 17),
    pretreeOp? i = some (count, value) → s.mainLengths.length = 656 → s.lengthLengths.length = 250 →
    s.index + count < s.run.last s.windowBits.toNat →
    ∃ t, exec i s = .next t ∧
      t = { s with
        mainLengths := t.mainLengths
        lengthLengths := t.lengthLengths
        index := s.index + count
        phase := .ptop } ∧
      (s.run = .lengths → t.mainLengths = s.mainLengths) ∧ (s.run ≠ .lengths → t.lengthLengths = s.lengthLengths) ∧
      ∀ j, (runLengths s.run t)[j]? =
        if s.index ≤ j ∧ j < s.index + count ∧ j < s.run.tree.maxSymbols then
          some (value ((runLengths s.run s).getD s.index 0))
        else (runLengths s.run s)[j]?

/-- The operation that ends a run: its entries are written up to the end of the array, past the run's end as well; then
the next run opens, or the tree is built. After the main runs `intelStarted` is set where symbol 0xE8 has a code
(41_huffman.md R165, R166; 42_block_header.md R186). -/
def Obligations.LastPretreeOpEndsTheRun : Prop :=
  ∀ (s : State) (i : Instr) (count : Nat) (value : Fin 17 → Fin 17),
    pretreeOp? i = some (count, value) → s.mainLengths.length = 656 → s.lengthLengths.length = 250 →
    s.index < s.run.last s.windowBits.toNat → s.run.last s.windowBits.toNat ≤ s.index + count →
    ∀ lens : List (Fin 17),
      (∀ j, lens[j]? =
        if s.index ≤ j ∧ j < s.index + count ∧ j < s.run.tree.maxSymbols then
          some (value ((runLengths s.run s).getD s.index 0))
        else (runLengths s.run s)[j]?) →
      (s.run = .mainLiterals →
        exec i s = .next { s with
          mainLengths := lens
          index := s.index + count
          run := .mainMatches
          phase := .pretree }) ∧
      (s.run = .mainMatches → (buildTable .main (lens.map Fin.val)).ok = true →
        exec i s = .next { s with
          mainLengths := lens
          mainBook := { table := (buildTable .main (lens.map Fin.val)).table, valid := true }
          index := s.index + count
          intelStarted := s.intelStarted || decide (lens[0xE8]? ≠ some 0)
          run := .lengths
          phase := .pretree }) ∧
      (s.run = .lengths → (buildTable .length (lens.map Fin.val)).ok = true →
        exec i s = .next { s with
          lengthLengths := lens
          lengthBook := { table := (buildTable .length (lens.map Fin.val)).table, valid := true }
          index := s.index + count
          phase := .fill })

/-- The operation that ends a run over lengths that overflow their table raises TABLE_OVERFLOW with the tree's code; the
lengths stay written (41_huffman.md R154; 60_exceptions.md R300, R304). That the table's flag is then 0 even where an
earlier build had set it is the model's reading (log 9). -/
def Obligations.OverflowingRunFaults : Prop :=
  ∀ (s : State) (i : Instr) (count : Nat) (value : Fin 17 → Fin 17),
    pretreeOp? i = some (count, value) → s.mainLengths.length = 656 → s.lengthLengths.length = 250 →
    s.index < s.run.last s.windowBits.toNat → s.run.last s.windowBits.toNat ≤ s.index + count →
    ∀ lens : List (Fin 17),
      (∀ j, lens[j]? =
        if s.index ≤ j ∧ j < s.index + count ∧ j < s.run.tree.maxSymbols then
          some (value ((runLengths s.run s).getD s.index 0))
        else (runLengths s.run s)[j]?) →
      (s.run = .mainMatches → (buildTable .main (lens.map Fin.val)).ok = false →
        ∃ t, exec i s = .next t ∧ t.mainBook.valid = false ∧
          t = { s with
            mainLengths := lens
            mainBook := t.mainBook
            index := s.index + count
            faulted := true
            faultCode := .tableOverflow
            faultInfo := 1
            outValid := false
            phase := .idle }) ∧
      (s.run = .lengths → (buildTable .length (lens.map Fin.val)).ok = false →
        ∃ t, exec i s = .next t ∧ t.lengthBook.valid = false ∧
          t = { s with
            lengthLengths := lens
            lengthBook := t.lengthBook
            index := s.index + count
            faulted := true
            faultCode := .tableOverflow
            faultInfo := 2
            outValid := false
            phase := .idle })

/-- A zero delta leaves every length as it was (41_huffman.md R161, R167). -/
def Obligations.ZeroDeltaIsIdempotent : Prop :=
  ∀ s : State, s.mainLengths.length = 656 → s.lengthLengths.length = 250 →
    s.index + 1 < s.run.last s.windowBits.toNat →
    exec (.ptDelta 0) s = .next { s with index := s.index + 1, phase := .ptop }

/-! ### Literals, matches and raw bytes -/

/-- LITERAL: one byte to `OUT` at `outPos` and to `WIN` at `winPos`, both positions moved on, `winPos` modulo `W`, and
`blockRemaining` less by one; every other byte and register stays (43_symbols.md R211; 44_match_copy.md R241). -/
def Obligations.LiteralProducesItsByte : Prop :=
  ∀ (b : Byte) (s : State), Memory.wf s.out = true → Memory.wf s.win = true →
    ∃ t, exec (.literal b) s = .next t ∧
      t = { s with
        out := t.out
        win := t.win
        winPos := (s.winPos + 1) % 2 ^ s.windowBits.toNat
        outPos := s.outPos + 1
        blockRemaining := t.blockRemaining
        phase := .fill } ∧
      t.blockRemaining.toNat = s.blockRemaining.toNat - 1 ∧
      (∀ a, Memory.read t.out a = if a = s.outPos then b else Memory.read s.out a) ∧
      ∀ a, Memory.read t.win a = if a = s.winPos then b else Memory.read s.win a

/-- A match whose offset is legal, under `MATCH_OVERRUN = TRUNCATE`: the rotation, `n = min(len, outLen - outPos)` bytes
copied low to high so that each equals the byte `off` positions before it, and `blockRemaining` less by the full length,
clamped; every other byte and register stays (43_symbols.md R212, R213, R214, R215, R216, R217, R219; 44_match_copy.md
R242, R244, R245, R246). -/
def Obligations.LegalMatchCopies : Prop :=
  ∀ (s : State) (i : Instr) (off : Word) (reps : Repeats) (len : Nat),
    match? s i = some (off, reps, len) → i.wellFormed = true → s.params.matchOverrun = .truncate →
    15 ≤ s.windowBits.toNat → s.winPos < 2 ^ s.windowBits.toNat → s.outPos ≤ s.outLen →
    Memory.wf s.out = true → Memory.wf s.win = true →
    1 ≤ off.toNat → off.toNat ≤ 2 ^ s.windowBits.toNat → off.toNat ≤ s.streamPos + s.outPos →
    ∃ t, exec i s = .next t ∧
      t = { s with
        reps := reps
        out := t.out
        win := t.win
        winPos := (s.winPos + min len (s.outLen - s.outPos)) % 2 ^ s.windowBits.toNat
        outPos := s.outPos + min len (s.outLen - s.outPos)
        blockRemaining := t.blockRemaining
        phase := .fill } ∧
      t.blockRemaining.toNat = s.blockRemaining.toNat - len ∧
      (∀ k, k < min len (s.outLen - s.outPos) →
        Memory.read t.out (s.outPos + k) =
          (if k < off.toNat then
            Memory.read s.win
              ((s.winPos + k + 2 ^ s.windowBits.toNat - off.toNat) % 2 ^ s.windowBits.toNat)
          else Memory.read t.out (s.outPos + k - off.toNat)) ∧
        Memory.read t.win ((s.winPos + k) % 2 ^ s.windowBits.toNat) = Memory.read t.out (s.outPos + k)) ∧
      (∀ a, a < s.outPos ∨ s.outPos + min len (s.outLen - s.outPos) ≤ a →
        Memory.read t.out a = Memory.read s.out a) ∧
      ∀ a, (∀ k, k < min len (s.outLen - s.outPos) → a ≠ (s.winPos + k) % 2 ^ s.windowBits.toNat) →
        Memory.read t.win a = Memory.read s.win a

/-- A match whose offset is 0, past the window or past the history raises BAD_MATCH_OFFSET before any byte is copied; the
rotation of the repeat registers has happened (44_match_copy.md R243; 60_exceptions.md R300, R306). -/
def Obligations.IllegalMatchOffsetFaults : Prop :=
  ∀ (s : State) (i : Instr) (off : Word) (reps : Repeats) (len : Nat),
    match? s i = some (off, reps, len) → i.wellFormed = true →
    off.toNat = 0 ∨ 2 ^ s.windowBits.toNat < off.toNat ∨ s.streamPos + s.outPos < off.toNat →
    exec i s = .next { s with
      reps := reps
      faulted := true
      faultCode := .badMatchOffset
      faultInfo := off
      outValid := false
      phase := .idle }

/-- Under `MATCH_OVERRUN = CARRY` a match with a legal offset makes all its `len` bytes, each the one `off` positions
before it: they go to `WIN`, those that fit to `OUT`, and the surplus to the end of `carry`; every other byte and register
stays. So a match that fits does what it does under TRUNCATE (44_match_copy.md R242, R244, R246;
93_implementation_defined.md section 2; how the surplus is kept is the model's, log 14). -/
def Obligations.CarriedMatchKeepsItsSurplus : Prop :=
  ∀ (s : State) (i : Instr) (off : Word) (reps : Repeats) (len : Nat),
    match? s i = some (off, reps, len) → i.wellFormed = true → s.params.matchOverrun = .carry →
    15 ≤ s.windowBits.toNat → s.winPos < 2 ^ s.windowBits.toNat → s.outPos ≤ s.outLen →
    Memory.wf s.out = true → Memory.wf s.win = true →
    1 ≤ off.toNat → off.toNat ≤ 2 ^ s.windowBits.toNat → off.toNat ≤ s.streamPos + s.outPos →
    ∃ (t : State) (made : List Byte), exec i s = .next t ∧
      t = { s with
        reps := reps
        out := t.out
        win := t.win
        winPos := (s.winPos + len) % 2 ^ s.windowBits.toNat
        outPos := s.outPos + min len (s.outLen - s.outPos)
        carry := s.carry ++ made.drop (s.outLen - s.outPos)
        blockRemaining := t.blockRemaining
        phase := .fill } ∧
      t.blockRemaining.toNat = s.blockRemaining.toNat - len ∧
      made.length = len ∧
      (∀ k, k < len → made[k]? =
        if k < off.toNat then
          some (Memory.read s.win ((s.winPos + k + 2 ^ s.windowBits.toNat - off.toNat) % 2 ^ s.windowBits.toNat))
        else made[k - off.toNat]?) ∧
      (∀ k, k < min len (s.outLen - s.outPos) → made[k]? = some (Memory.read t.out (s.outPos + k))) ∧
      (∀ a, a < s.outPos ∨ s.outPos + min len (s.outLen - s.outPos) ≤ a →
        Memory.read t.out a = Memory.read s.out a) ∧
      (∀ k, k < len → made[k]? = some (Memory.read t.win ((s.winPos + k) % 2 ^ s.windowBits.toNat))) ∧
      ∀ a, (∀ k, k < len → a ≠ (s.winPos + k) % 2 ^ s.windowBits.toNat) →
        Memory.read t.win a = Memory.read s.win a

/-- LEN_FOOTER and ALIGNED_SYM complete the match under way: the footer, and the extra value `(v << 3) + a`
(43_symbols.md R212, R217, R218; where the fields wait is the model's, log 13). -/
def Obligations.SubElementsCompleteTheMatch : Prop :=
  ∀ (s : State) (f : BitVec 8) (a : BitVec 3),
    exec (.lenFooter f) s = .next { s with pend := { s.pend with footer := f }, phase := .offset } ∧
    ∃ t, exec (.alignedSym a) s = .next t ∧
      t = { s with pend := { s.pend with extra := t.pend.extra }, phase := .matchReady } ∧
      t.pend.extra.toNat = s.pend.raw.toNat * 2 ^ 3 + a.toNat

/-- UNC_BYTE: one raw byte to `OUT` and `WIN`; the pad follows exactly when the block's last byte has been produced, its
length is odd and `UNC_PAD` is set (43_symbols.md R220, R221; 44_match_copy.md R241). -/
def Obligations.UncByteProducesItsByte : Prop :=
  ∀ (b : Byte) (s : State), Memory.wf s.out = true → Memory.wf s.win = true →
    ∃ t, exec (.uncByte b) s = .next t ∧
      t = { s with
        out := t.out
        win := t.win
        winPos := (s.winPos + 1) % 2 ^ s.windowBits.toNat
        outPos := s.outPos + 1
        blockRemaining := t.blockRemaining
        phase := t.phase } ∧
      t.blockRemaining.toNat = s.blockRemaining.toNat - 1 ∧
      (t.phase = if t.blockRemaining.toNat = 0 ∧ s.params.uncPad = true ∧ s.blockLength.toNat % 2 = 1 then .uncPad
        else .fill) ∧
      (∀ a, Memory.read t.out a = if a = s.outPos then b else Memory.read s.out a) ∧
      ∀ a, Memory.read t.win a = if a = s.winPos then b else Memory.read s.win a

/-- UNC_PAD: one byte is taken from the input and ignored; nothing else changes (43_symbols.md R221). -/
def Obligations.UncPadDiscardsOneByte : Prop :=
  ∀ (s : State) (x : Byte),
    exec (.uncPad x) s = .next { s with phase := .fill } ∧
    (s.phase = .uncPad → step s = .next { s with rd := (inByte s.rd).2, phase := .fill })

/-! ### The end of a command, and the E8 stage -/

/-- The completion of a DECODE_BLOCK: the counters advance by one command and `outLen` bytes, `OUT` becomes valid, and
only `OUT` may have been rewritten: not its first byte, not its last six, and nothing of it unless the four E8
conditions hold (45_e8_transform.md R260, R261, R265, R266, R267). -/
def Obligations.CompletionAdvancesTheCounters : Prop :=
  ∀ s : State, OutFull s → Memory.wf s.out = true →
    ∃ t, step s = .next t ∧
      t = { s with
        out := t.out
        frames := s.frames + 1
        streamPos := s.streamPos + s.outLen
        nextBlockNo := s.nextBlockNo + 1
        outValid := true
        phase := .idle } ∧
      (¬ E8Conditions s → t.out = s.out) ∧
      ∀ a, a = 0 ∨ s.outLen ≤ a + 6 → Memory.read t.out a = Memory.read s.out a

/-- The E8 scan, with the stage enabled: it stops at exactly the E8 bytes before `outLen - 10` that no operand of an
earlier stop covers, in rising order, and rewrites the operand of each (45_e8_transform.md R261, R264). So with no E8 byte
before `outLen - 10` nothing changes, even where one stands at `outLen - 10`, and a lone one before it has its operand
rewritten (R268). -/
def Obligations.E8BoundaryIsExclusive : Prop :=
  ∀ s : State, OutFull s → E8Conditions s → Memory.wf s.out = true →
    (∃ (t : State) (stops : List Nat), step s = .next t ∧ stops.Pairwise (· < ·) ∧
      (∀ j, j ∈ stops ↔
        j + 10 < s.outLen ∧ Memory.read s.out j = 0xE8 ∧ ∀ i ∈ stops, ¬ (i < j ∧ j ≤ i + 4)) ∧
      t.out = stops.foldl (fun out i => e8Rewrite s.streamPos s.intelFileSize.toNat i out) s.out) ∧
    ((∀ j, j + 10 < s.outLen → Memory.read s.out j ≠ 0xE8) → ∃ t, step s = .next t ∧ t.out = s.out) ∧
    (∀ i, i + 10 < s.outLen → (∀ j, j + 10 < s.outLen → (Memory.read s.out j = 0xE8 ↔ j = i)) →
      ∃ t, step s = .next t ∧ t.out = e8Rewrite s.streamPos s.intelFileSize.toNat i s.out)

/-- What the stage does at an E8 byte: a signed little-endian operand in `[-cp, intelFileSize)` becomes `abs - cp`, or
`abs + intelFileSize` where negative, modulo 2^32; an operand outside stays; no other byte changes
(45_e8_transform.md R262, R263). -/
def Obligations.E8OperandIsRewritten : Prop :=
  ∀ (streamPos fileSize i : Nat) (out : Memory) (abs : Int), Memory.wf out = true →
    abs = (Memory.read out (i + 4) ++ Memory.read out (i + 3) ++ Memory.read out (i + 2) ++
      Memory.read out (i + 1)).toInt →
    (-((streamPos + i : Nat) : Int) ≤ abs ∧ abs < (fileSize : Int) →
      ∃ rel : Int, rel = (if 0 ≤ abs then abs - ((streamPos + i : Nat) : Int) else abs + (fileSize : Int)) ∧
        (∀ k, k < 4 → (Memory.read (e8Rewrite streamPos fileSize i out) (i + 1 + k)).toNat =
          ((rel % 2 ^ 32).toNat / 256 ^ k) % 256) ∧
        ∀ a, a ≤ i ∨ i + 5 ≤ a → Memory.read (e8Rewrite streamPos fileSize i out) a = Memory.read out a) ∧
    (abs < -((streamPos + i : Nat) : Int) ∨ (fileSize : Int) ≤ abs → e8Rewrite streamPos fileSize i out = out)

/-! ### Host commands -/

/-- INIT with a legal window: every register of the stream context at its INIT value, and the arguments kept
(46_host_commands.md R281; 70_reset_and_hazards.md R331). That the parameters stay is log 3, and that the bytes the host
wrote to `INSEG` stay, with no segment attached, is the model's reading of "no segment" (log 7). -/
def Obligations.InitSetsTheInitValues : Prop :=
  ∀ s : State, 15 ≤ s.argWBits.toNat → s.argWBits.toNat ≤ 21 →
    ∃ t, exec .init s = .next t ∧
      t.windowBits = s.argWBits ∧ t.live = true ∧ t.faulted = false ∧ t.faultCode = .none ∧ t.faultInfo = 0 ∧
      t.reps = { r0 := 1, r1 := 1, r2 := 1 } ∧ t.blockType = .none ∧ t.blockLength = 0 ∧ t.blockRemaining = 0 ∧
      t.started = false ∧ t.intelFileSize = 0 ∧ t.intelStarted = false ∧
      t.frames = 0 ∧ t.streamPos = 0 ∧ t.nextBlockNo = 0 ∧
      t.mainLengths = List.replicate 656 0 ∧ t.lengthLengths = List.replicate 250 0 ∧
      t.alignedLengths = List.replicate 8 0 ∧
      (∀ tree, (bookOf tree t).valid = false) ∧ t.winPos = 0 ∧
      t.outLen = 0 ∧ t.outPos = 0 ∧ t.outValid = false ∧
      t.rd = { s.rd with segLen := 0, swath := 0, buffer := 0, total := 0 } ∧ t.result.length = 0 ∧
      t.params = s.params ∧ t.cmd = s.cmd ∧ t.argWBits = s.argWBits ∧ t.argSegLen = s.argSegLen ∧
      t.argOutLen = s.argOutLen ∧ t.argBlockNo = s.argBlockNo ∧ t.argStart = s.argStart ∧ t.argEnd = s.argEnd ∧
      t.phase = .idle

/-- INIT with any other window raises BAD_WINDOW and leaves no stream: every other register reads its power-on value, the
`ARG_*` registers and the bit reader as well (46_host_commands.md R281; 60_exceptions.md R303; 70_reset_and_hazards.md
R330, R331; the contents R330 calls undefined are not spoken of). That the parameters stay is log 3, and that the bytes
of the `INSEG` port stay is the model's reading (log 7). -/
def Obligations.InitRejectsOtherWindows : Prop :=
  ∀ s : State, s.argWBits.toNat < 15 ∨ 21 < s.argWBits.toNat →
    ∃ t, exec .init s = .next t ∧
      t.live = false ∧ t.faulted = true ∧ t.faultCode = .badWindow ∧ t.faultInfo.toNat = s.argWBits.toNat ∧
      t.outValid = false ∧ t.windowBits = 0 ∧ t.reps = { r0 := 0, r1 := 0, r2 := 0 } ∧ t.blockType = .none ∧
      t.blockLength = 0 ∧ t.blockRemaining = 0 ∧ t.started = false ∧ t.intelFileSize = 0 ∧ t.intelStarted = false ∧
      t.frames = 0 ∧ t.streamPos = 0 ∧ t.nextBlockNo = 0 ∧ (∀ tree, (bookOf tree t).valid = false) ∧
      t.winPos = 0 ∧ t.outLen = 0 ∧ t.outPos = 0 ∧ t.result.length = 0 ∧
      t.rd = { s.rd with segLen := 0, swath := 0, buffer := 0, total := 0 } ∧
      t.cmd = none ∧ t.argWBits = 0 ∧ t.argSegLen = 0 ∧ t.argOutLen = 0 ∧ t.argBlockNo = 0 ∧ t.argStart = 0 ∧
      t.argEnd = 0 ∧ t.params = s.params ∧ t.phase = .idle

/-- DECODE_BLOCK's six checks, in their order, each with its code and info, and nothing else changed but the fault's
fields (46_host_commands.md R282; 60_exceptions.md R300, R302, R310). -/
def Obligations.StructuralChecksInOrder : Prop :=
  ∀ (s : State) (code : FaultCode) (info : Word),
    ((s.faulted = true ∧ code = .streamDead ∧ info = BitVec.ofNat 32 s.faultCode.code) ∨
      (s.faulted = false ∧ s.live = false ∧ code = .noStream ∧ info = 0) ∨
      (s.faulted = false ∧ s.live = true ∧ s.argSegLen = 0 ∧ code = .emptyInput ∧ info = 0) ∨
      (s.faulted = false ∧ s.live = true ∧ s.argSegLen ≠ 0 ∧
        (s.argOutLen.toInt ≤ 0 ∨ ∃ m, s.params.maxOutLen = some m ∧ (m : Int) < s.argOutLen.toInt) ∧
        code = .badOutLen ∧ info = s.argOutLen) ∨
      (s.faulted = false ∧ s.live = true ∧ s.argSegLen ≠ 0 ∧ 1 ≤ s.argOutLen.toInt ∧
        (∀ m, s.params.maxOutLen = some m → s.argOutLen.toInt ≤ (m : Int)) ∧
        s.argBlockNo.toInt < 0 ∧ code = .badBlockNo ∧ info = s.argBlockNo) ∨
      (s.faulted = false ∧ s.live = true ∧ s.argSegLen ≠ 0 ∧ 1 ≤ s.argOutLen.toInt ∧
        (∀ m, s.params.maxOutLen = some m → s.argOutLen.toInt ≤ (m : Int)) ∧
        0 ≤ s.argBlockNo.toInt ∧ s.params.checkSequence = true ∧ s.argBlockNo.toInt ≠ (s.nextBlockNo : Int) ∧
        code = .outOfOrder ∧ info = s.argBlockNo)) →
    exec .decodeBlock s = .next { s with
      faulted := true
      faultCode := code
      faultInfo := info
      outValid := false
      phase := .idle }

/-- DECODE_BLOCK that passes its checks: the bit reader empty at byte 0 of the segment, a new `OUT` of `outLen` bytes,
and the loop entered; the stream context stays (46_host_commands.md R282; 40_bitreader.md R138). `OUT` is empty, or under
`MATCH_OVERRUN = CARRY` opens with the surplus bytes that wait, as many as fit, and the rest goes on waiting
(93_implementation_defined.md section 2; the form is the model's, log 14). A segment length above 2^31 - 1 is taken as it
stands (log 19), and `E8_TRIGGER = PER_SYMBOL` is refused here (45_e8_transform.md R269; the place is log 11). -/
def Obligations.DecodeBlockOpensTheSegment : Prop :=
  ∀ s : State, s.faulted = false → s.live = true → s.argSegLen ≠ 0 → 1 ≤ s.argOutLen.toInt →
    (∀ m, s.params.maxOutLen = some m → s.argOutLen.toInt ≤ (m : Int)) → 0 ≤ s.argBlockNo.toInt →
    (s.params.checkSequence = true → s.argBlockNo.toInt = (s.nextBlockNo : Int)) →
    (s.params.e8Trigger = .perBlock →
      ∃ t, exec .decodeBlock s = .next t ∧
        t = { s with
          rd := { s.rd with segLen := s.argSegLen.toNat, swath := 0, buffer := 0, total := 0 }
          out := t.out
          outLen := s.argOutLen.toNat
          outPos := min s.carry.length s.argOutLen.toNat
          outValid := false
          carry := s.carry.drop s.argOutLen.toNat
          phase := .fill } ∧
        (s.carry = [] → t.out = []) ∧
        (∀ k, k < min s.carry.length s.argOutLen.toNat → s.carry[k]? = some (Memory.read t.out k)) ∧
        ∀ k, min s.carry.length s.argOutLen.toNat ≤ k → Memory.read t.out k = Memory.read [] k) ∧
    (s.params.e8Trigger = .perSymbol → exec .decodeBlock s = .refused .e8PerSymbol)

/-- The three GET_CONTENT commands: the result is the clamped range of `OUT`, or the single byte 00 where `OUT` is null,
`RESULT_LEN` is its length, and nothing else changes, in any state (46_host_commands.md R283, R284, R285). -/
def Obligations.GetContentReadsOut : Prop :=
  ∀ (s : State) (i : Instr) (a b : Nat),
    ((i = .getContent ∧ a = 0 ∧ b = s.outLen) ∨
      (i = .getContentFrom ∧ (a : Int) = min (max s.argStart.toInt 0) s.outLen ∧ b = s.outLen) ∨
      (i = .getContentRange ∧ (a : Int) = min (max s.argStart.toInt 0) s.outLen ∧
        (b : Int) = min (max s.argEnd.toInt a) s.outLen)) →
    ∃ t, exec i s = .next t ∧ t = { s with result := t.result } ∧
      readReg t 0x24 = some (BitVec.ofNat 32 t.result.length) ∧
      (s.outValid = false → t.result = [0]) ∧
      (s.outValid = true → t.result.length = b - a ∧ ∀ k, k < b - a → t.result[k]? = some (Memory.read s.out (a + k)))

/-- A reserved OP raises BAD_COMMAND with its number, in every state, over an earlier fault as well
(46_host_commands.md R286; 60_exceptions.md R300, R308). -/
def Obligations.ReservedOpsRaiseBadCommand : Prop :=
  ∀ (s : State) (i : Instr) (op : Nat), reservedOp? i = some op →
    exec i s = .next { s with
      faulted := true
      faultCode := .badCommand
      faultInfo := BitVec.ofNat 32 op
      outValid := false
      phase := .idle }

/-- The engine at power-on: no stream, no fault, and every register of the map reads 0 (70_reset_and_hazards.md R330). -/
def Obligations.PowerOnReadsZero : Prop :=
  State.reset.live = false ∧ State.reset.faulted = false ∧ State.reset.faultCode = .none ∧
    State.reset.outValid = false ∧ State.reset.windowBits = 0 ∧
    (∀ tree, (bookOf tree State.reset).valid = false) ∧
    ∀ offset ∈ [0x00, 0x04, 0x08, 0x0C, 0x10, 0x14, 0x18, 0x1C, 0x20, 0x24, 0x40, 0x44, 0x48, 0x4C, 0x50, 0x54, 0x58,
        0x5C, 0x60, 0x64],
      hostRead offset State.reset = .next 0

/-- The host writes of an engine at rest: `CMD` and the `ARG_*` registers, each its own field; writes of read-only
registers are ignored; an argument reads back what was written, `ARG_WBITS` its low five bits; a write of `INSEG` changes
that byte and nothing else; and the result port gives the result (10_state.md R42, R43; 20_memory.md R60). -/
def Obligations.HostWritesOnlyItsRegisters : Prop :=
  ∀ (s : State) (v : Word), busy s = false →
    hostWrite 0x00 v s = .next { s with cmd := some v } ∧
    (∀ offset ∈ [0x04, 0x08, 0x24, 0x40, 0x44, 0x48, 0x4C, 0x50, 0x54, 0x58, 0x5C, 0x60, 0x64],
      hostWrite offset v s = .next s) ∧
    (∀ offset ∈ [0x10, 0x14, 0x18, 0x1C, 0x20], ∃ t, hostWrite offset v s = .next t ∧ readReg t offset = some v) ∧
    (∃ t, hostWrite 0x0C v s = .next t ∧ readReg t 0x0C = some (v &&& 0x1F)) ∧
    (∀ offset ∈ [0x0C, 0x10, 0x14, 0x18, 0x1C, 0x20], ∀ t, hostWrite offset v s = .next t →
      t = { s with
        argWBits := t.argWBits
        argSegLen := t.argSegLen
        argOutLen := t.argOutLen
        argBlockNo := t.argBlockNo
        argStart := t.argStart
        argEnd := t.argEnd } ∧
      ∀ other ∈ [0x0C, 0x10, 0x14, 0x18, 0x1C, 0x20], other ≠ offset → readReg t other = readReg s other) ∧
    (∀ (a : Nat) (b : Byte), a < 2 ^ 31 - 1 → Memory.wf s.rd.inseg = true →
      ∃ t, hostWriteInseg a b s = .next t ∧ t = { s with rd := { s.rd with inseg := t.rd.inseg } } ∧
        ∀ c, Memory.read t.rd.inseg c = if c = a then b else Memory.read s.rd.inseg c) ∧
    hostReadResult s = .next s.result

/-- The register map as the host reads it from an engine at rest: `CMD` reads 0, the counters saturate, `WINDOW_BITS`
reads 0 where there is no stream, and `STATUS` shows its fields (10_state.md R42; 60_exceptions.md R323). -/
def Obligations.StatusShowsItsFields : Prop :=
  ∀ s : State,
    (busy s = false →
      hostRead 0x00 s = .next 0 ∧ hostRead 0x04 s = .next (statusWord s) ∧ hostRead 0x08 s = .next s.faultInfo ∧
        (∃ v, hostRead 0x0C s = .next v ∧ v.toNat = s.argWBits.toNat) ∧ hostRead 0x10 s = .next s.argSegLen ∧
        hostRead 0x14 s = .next s.argOutLen ∧ hostRead 0x18 s = .next s.argBlockNo ∧
        hostRead 0x1C s = .next s.argStart ∧ hostRead 0x20 s = .next s.argEnd ∧
        hostRead 0x24 s = .next (BitVec.ofNat 32 s.result.length) ∧ hostRead 0x40 s = .next s.reps.r0 ∧
        hostRead 0x44 s = .next s.reps.r1 ∧ hostRead 0x48 s = .next s.reps.r2 ∧
        (∃ v, hostRead 0x4C s = .next v ∧ v.toNat = s.blockLength.toNat) ∧
        (∃ v, hostRead 0x50 s = .next v ∧ v.toNat = s.blockRemaining.toNat) ∧
        (∃ v, hostRead 0x54 s = .next v ∧ v.toNat = s.intelFileSize.toNat) ∧
        (∃ v, hostRead 0x58 s = .next v ∧ v.toNat = min s.frames (2 ^ 32 - 1)) ∧
        (∃ v, hostRead 0x5C s = .next v ∧ v.toNat = min s.streamPos (2 ^ 32 - 1)) ∧
        (∃ v, hostRead 0x60 s = .next v ∧ v.toNat = min s.nextBlockNo (2 ^ 32 - 1)) ∧
        ∃ v, hostRead 0x64 s = .next v ∧ v.toNat = if s.live = true then s.windowBits.toNat else 0) ∧
    (statusWord s).getLsbD 0 = s.live ∧ (statusWord s).getLsbD 1 = s.faulted ∧
      (statusWord s).getLsbD 2 = s.outValid ∧ (statusWord s).getLsbD 3 = s.started ∧
      (statusWord s).getLsbD 4 = s.intelStarted ∧ (statusWord s).getLsbD 7 = false ∧
      ((statusWord s).extractLsb' 5 2).toNat = s.blockType.code ∧
      ((statusWord s).extractLsb' 8 4).toNat = s.faultCode.code ∧ (statusWord s).toNat < 2 ^ 12

/-- From the write of `CMD` until the command ends every host access is refused (70_reset_and_hazards.md R334;
20_memory.md R73). -/
def Obligations.BusyEngineRefusesTheHost : Prop :=
  ∀ (s : State) (offset a : Nat) (v : Word) (b : Byte),
    (∃ w, s.cmd = some w) ∨ s.phase ≠ .idle →
    hostRead offset s = .refused .hostAccessDuringCommand ∧ hostWrite offset v s = .refused .hostAccessDuringCommand ∧
      hostWriteInseg a b s = .refused .hostAccessDuringCommand ∧
      hostReadResult s = .refused .hostAccessDuringCommand

/-! ### The whole machine -/

/-- The invariant holds at power-on. -/
def Obligations.ResetIsWellKept : Prop := Inv State.reset

/-- Every step keeps the invariant: the memories stay canonical, the arrays, tables and reader within their bounds, the
window position follows the history, `blockRemaining ≤ blockLength`, `outPos ≤ outLen`, a valid `OUT` is full, and the
tables a place of the grammar reads are built (10_state.md R26, R37, R39; 40_bitreader.md R130; 44_match_copy.md R249). -/
def Obligations.StepKeepsTheEngineWellKept : Prop := ∀ s t : State, Inv s → step s = .next t → Inv t

/-- The host's accesses keep the invariant (10_state.md R42, R43). -/
def Obligations.HostKeepsTheEngineWellKept : Prop :=
  ∀ (s t : State) (offset a : Nat) (v : Word) (b : Byte), Inv s →
    (hostWrite offset v s = .next t ∨ hostWriteInseg a b s = .next t) → Inv t

/-- A well-kept engine never stops: every step of it answers a next state, so no table is read before it is built and no
input, however malformed, ends the machine. Under `E8_TRIGGER = PER_BLOCK` (10_state.md R37; 30_encoding.md R110;
60_exceptions.md R320). -/
def Obligations.WellKeptEngineNeverStops : Prop :=
  ∀ s : State, Inv s → s.params.e8Trigger = .perBlock → ∃ t, step s = .next t

/-- What a well-kept engine fetches is always an instruction with an encoding (30_encoding.md R110). -/
def Obligations.FetchedInstructionsAreWellFormed : Prop :=
  ∀ (s u : State) (i : Instr), Inv s → fetch s = .elem i u → i.wellFormed = true

/-- The window mirrors the output: inside a command `WIN` holds the last `min(W, outPos)` bytes of `OUT`, and every step
keeps it so, with matches truncated (44_match_copy.md R240, R249). -/
def Obligations.StepKeepsTheWindowMirror : Prop :=
  ∀ s t : State, Inv s → s.params.matchOverrun = .truncate → WindowMirrorsOut s → step s = .next t → WindowMirrorsOut t

/-- A fault is left only by INIT (60_exceptions.md R312). -/
def Obligations.OnlyInitLeavesAFault : Prop :=
  ∀ s t : State, step s = .next t → s.faulted = true → t.faulted = false → TakesInit s

/-- A fault ends the command where it is raised: the engine is idle, `OUT` is null, the counters have not advanced, and
the history is as it was (60_exceptions.md R300). -/
def Obligations.AFaultEndsTheCommand : Prop :=
  ∀ s t : State, step s = .next t → s.faulted = false → t.faulted = true → ¬ TakesInit s →
    t.phase = .idle ∧ t.outValid = false ∧ t.faultCode ≠ .none ∧ t.frames = s.frames ∧ t.streamPos = s.streamPos ∧
      t.nextBlockNo = s.nextBlockNo ∧ t.win = s.win ∧ t.winPos = s.winPos ∧ t.out = s.out ∧ t.outPos = s.outPos

/-- Who writes what: only INIT writes `windowBits` and `live`, and clears `intelStarted` and `started`; only GET_CONTENT and
INIT write the result; no step writes `INSEG`; and the `ARG_*` registers change only where INIT is rejected
(10_state.md R21, R27, R29, R43; 46_host_commands.md R281). That INIT leaves the bytes of `INSEG` is log 7, and that no
step writes the parameters is log 3. -/
def Obligations.OnlyInitReplacesTheContext : Prop :=
  ∀ s t : State, step s = .next t →
    t.params = s.params ∧ t.rd.inseg = s.rd.inseg ∧
      (¬ TakesInit s ∨ (15 ≤ s.argWBits.toNat ∧ s.argWBits.toNat ≤ 21) →
        t.argWBits = s.argWBits ∧ t.argSegLen = s.argSegLen ∧ t.argOutLen = s.argOutLen ∧
          t.argBlockNo = s.argBlockNo ∧ t.argStart = s.argStart ∧ t.argEnd = s.argEnd) ∧
      (¬ TakesInit s →
        t.windowBits = s.windowBits ∧ t.live = s.live ∧ (s.started = true → t.started = true) ∧
          (s.intelStarted = true → t.intelStarted = true)) ∧
      ((∀ op ∈ [1, 3, 4, 5], ¬ TakesOp op s) → t.result = s.result)

/-- The command that never ends: after a block of any kind, with the input used up, every header is a zero-length block
of code 0 that takes the kind before it, and `OUT` is never filled, however many steps run (43_symbols.md R222;
42_block_header.md R188; 60_exceptions.md R321). That a command that never ends is an unbounded run of next states, where
the rules say `stuck`, is the model's choice (log 1). -/
def Obligations.ZeroHeadersNeverEnd : Prop :=
  ∀ (s : State) (n : Nat),
    s.phase = .fill → s.started = true → s.blockRemaining = 0 → s.outPos < s.outLen → s.params.btypeMap = .lzx →
    ReaderOk s.rd → s.rd.swath = s.rd.segLen → s.rd.buffer = 0 →
    (s.blockType = .uncompressed ∧ s.params.uncRewindBytes ≤ 12) ∨
      (TreeKind s ∧ 15 ≤ s.windowBits.toNat ∧ s.windowBits.toNat ≤ 21 ∧ s.mainLengths.length = 656 ∧
        s.lengthLengths.length = 250 ∧ (buildTable .main (lensOf .main s)).ok = true ∧
        (buildTable .length (lensOf .length s)).ok = true) →
    ∃ t, Sys2Proof.core.run n s = .next t ∧ t.phase ≠ .idle ∧ t.outPos = s.outPos ∧ t.outLen = s.outLen ∧
      t.outPos < t.outLen

/-- The position tables: `POSITION_BASE` of every slot, the number of slots of every window size, and the window size as
the base past the last slot, so that the largest explicit offset is `W - 3` (30_encoding.md R102, R109). -/
def Obligations.PositionTablesMatch : Prop :=
  (List.range 51).map positionBase =
    [0, 1, 2, 3, 4, 6, 8, 12, 16, 24, 32, 48, 64, 96, 128, 192, 256, 384, 512, 768, 1024, 1536, 2048, 3072, 4096,
      6144] ++
    [8192, 12288, 16384, 24576, 32768, 49152, 65536, 98304, 131072, 196608, 262144, 393216, 524288, 655360, 786432,
      917504, 1048576, 1179648, 1310720, 1441792, 1572864, 1703936, 1835008, 1966080, 2097152] ∧
  [15, 16, 17, 18, 19, 20, 21].map numPositionSlots = [30, 32, 34, 36, 38, 42, 50] ∧
  ∀ wb ∈ [15, 16, 17, 18, 19, 20, 21], positionBase (numPositionSlots wb) = 2 ^ wb
end

