-- ==== Sys2Proof/Laws/Memory.lean ====
section
/-! SUPPORT. The laws of the sparse byte memories: read after write, and the canonical form (20_memory.md R60). -/

namespace Sys2Proof.Machine

@[simp] theorem Memory.read_nil (a : Nat) : Memory.read [] a = unlistedByte := rfl

theorem Memory.wfAbove_of_lt {lo c : Nat} {x : Byte} {m : Memory}
    (h : Memory.wfAbove (some lo) ((c, x) :: m) = true) : lo < c ∧ x ≠ unlistedByte ∧ Memory.wfAbove (some c) m = true := by
  simpa [Memory.wfAbove, and_assoc] using h

/-- Below its bound a canonical memory lists nothing. -/
theorem Memory.read_of_le {lo a : Nat} {m : Memory} (h : Memory.wfAbove (some lo) m = true) (ha : a ≤ lo) :
    Memory.read m a = unlistedByte := by
  cases m with
  | nil => rfl
  | cons p m =>
    obtain ⟨c, x⟩ := p
    have := (Memory.wfAbove_of_lt h).1
    simp [Memory.read, show a < c by omega]

/-- Read after write, at any address, over a memory whose tail is canonical above its head. -/
theorem Memory.read_write_above {lo : Nat} {m : Memory} (h : Memory.wfAbove (some lo) m = true) (a : Nat) (b : Byte)
    (a' : Nat) (ha : lo < a) :
    Memory.read (Memory.write m a b) a' = if a' = a then b else Memory.read m a' := by
  induction m generalizing lo with
  | nil =>
    by_cases hb : b = unlistedByte
    · by_cases haa : a' = a <;> simp [Memory.write, hb, Memory.read, haa]
    · by_cases haa : a' = a
      · simp [Memory.write, hb, Memory.read, haa]
      · simp [Memory.write, hb, Memory.read, haa]
  | cons p m ih =>
    obtain ⟨c, x⟩ := p
    obtain ⟨hc, hx, hm⟩ := Memory.wfAbove_of_lt h
    unfold Memory.write
    split
    · rename_i hac
      by_cases hb : b = unlistedByte
      · by_cases haa : a' = a
        · subst haa; simp [hb, Memory.read, hac]
        · simp [hb, haa]
      · by_cases haa : a' = a
        · subst haa; simp [hb, Memory.read]
        · simp only [hb, if_false, haa]
          by_cases h1 : a' < a
          · simp [Memory.read, h1, show a' < c by omega]
          · simp [Memory.read, h1, haa]
    · split
      · rename_i h1 h2
        subst h2
        by_cases hb : b = unlistedByte
        · by_cases haa : a' = a
          · subst haa; simp [hb, Memory.read_of_le hm (Nat.le_refl _)]
          · simp only [hb, if_true, haa, if_false]
            by_cases h3 : a' < a
            · simp [Memory.read, h3, Memory.read_of_le hm (Nat.le_of_lt h3)]
            · simp [Memory.read, h3, haa]
        · by_cases haa : a' = a
          · subst haa; simp [hb, Memory.read]
          · simp [hb, Memory.read, haa]
      · rename_i h1 h2
        have := ih hm (by omega)
        by_cases h3 : a' < c
        · simp [Memory.read, h3, show a' ≠ a by omega]
        · by_cases h4 : a' = c
          · subst h4; simp [Memory.read, show ¬ a' = a by omega]
          · simp [Memory.read, h3, h4, this]

theorem Memory.wfAbove_none_of_cons {c : Nat} {x : Byte} {m : Memory}
    (h : Memory.wfAbove none ((c, x) :: m) = true) : x ≠ unlistedByte ∧ Memory.wfAbove (some c) m = true := by
  simpa [Memory.wfAbove] using h

/-- A canonical memory reads back what was last written at an address, and elsewhere what it read before. -/
theorem Memory.read_write {m : Memory} (h : Memory.wf m = true) (a : Nat) (b : Byte) (a' : Nat) :
    Memory.read (Memory.write m a b) a' = if a' = a then b else Memory.read m a' := by
  cases m with
  | nil =>
    by_cases hb : b = unlistedByte <;> by_cases haa : a' = a <;> simp [Memory.write, hb, Memory.read, haa]
  | cons p m =>
    obtain ⟨c, x⟩ := p
    obtain ⟨hx, hm⟩ := Memory.wfAbove_none_of_cons h
    unfold Memory.write
    split
    · rename_i hac
      by_cases hb : b = unlistedByte
      · by_cases haa : a' = a
        · subst haa; simp [hb, Memory.read, hac]
        · simp [hb, haa]
      · by_cases haa : a' = a
        · subst haa; simp [hb, Memory.read]
        · by_cases h1 : a' < a
          · simp [hb, haa, Memory.read, h1, show a' < c by omega]
          · simp [hb, Memory.read, h1, haa]
    · split
      · rename_i h1 h2
        subst h2
        by_cases hb : b = unlistedByte
        · by_cases haa : a' = a
          · subst haa; simp [hb, Memory.read_of_le hm (Nat.le_refl _)]
          · by_cases h3 : a' < a
            · simp [hb, haa, Memory.read, h3, Memory.read_of_le hm (Nat.le_of_lt h3)]
            · simp [hb, Memory.read, h3, haa]
        · by_cases haa : a' = a
          · subst haa; simp [hb, Memory.read]
          · simp [hb, Memory.read, haa]
      · rename_i h1 h2
        have := Memory.read_write_above hm a b a' (by omega)
        by_cases h3 : a' < c
        · simp [Memory.read, h3, show a' ≠ a by omega]
        · by_cases h4 : a' = c
          · subst h4; simp [Memory.read, show ¬ a' = a by omega]
          · simp [Memory.read, h3, h4, this]

theorem Memory.read_write_same {m : Memory} (h : Memory.wf m = true) (a : Nat) (b : Byte) :
    Memory.read (Memory.write m a b) a = b := by
  simp [Memory.read_write h]

theorem Memory.read_write_other {m : Memory} (h : Memory.wf m = true) (a : Nat) (b : Byte) {a' : Nat} (ha : a' ≠ a) :
    Memory.read (Memory.write m a b) a' = Memory.read m a' := by
  simp [Memory.read_write h, ha]

theorem Memory.wfAbove_write {lo : Nat} {m : Memory} (h : Memory.wfAbove (some lo) m = true) (a : Nat) (b : Byte)
    (ha : lo < a) : Memory.wfAbove (some lo) (Memory.write m a b) = true := by
  induction m generalizing lo with
  | nil => by_cases hb : b = unlistedByte <;> simp [Memory.write, hb, Memory.wfAbove, ha]
  | cons p m ih =>
    obtain ⟨c, x⟩ := p
    obtain ⟨hc, hx, hm⟩ := Memory.wfAbove_of_lt h
    unfold Memory.write
    split
    · rename_i hac
      by_cases hb : b = unlistedByte
      · simpa [hb] using h
      · simp [hb, Memory.wfAbove, ha, hac, hx, hm]
    · split
      · rename_i h1 h2
        subst h2
        by_cases hb : b = unlistedByte
        · simp only [hb, if_true]
          cases m with
          | nil => rfl
          | cons q m =>
            obtain ⟨d, y⟩ := q
            obtain ⟨hd, hy, hm'⟩ := Memory.wfAbove_of_lt hm
            simp [Memory.wfAbove, show lo < d by omega, hy, hm']
        · simp [hb, Memory.wfAbove, ha, hm]
      · rename_i h1 h2
        simp [Memory.wfAbove, hc, hx, ih hm (by omega)]

/-- A write keeps the canonical form. -/
theorem Memory.wf_write {m : Memory} (h : Memory.wf m = true) (a : Nat) (b : Byte) :
    Memory.wf (Memory.write m a b) = true := by
  unfold Memory.wf at *
  cases m with
  | nil => by_cases hb : b = unlistedByte <;> simp [Memory.write, hb, Memory.wfAbove]
  | cons p m =>
    obtain ⟨c, x⟩ := p
    obtain ⟨hx, hm⟩ := Memory.wfAbove_none_of_cons h
    unfold Memory.write
    split
    · rename_i hac
      by_cases hb : b = unlistedByte
      · simpa [hb] using h
      · simp [hb, Memory.wfAbove, hac, hx, hm]
    · split
      · rename_i h1 h2
        subst h2
        by_cases hb : b = unlistedByte
        · simp only [hb, if_true]
          cases m with
          | nil => rfl
          | cons q m =>
            obtain ⟨d, y⟩ := q
            obtain ⟨hd, hy, hm'⟩ := Memory.wfAbove_of_lt hm
            simp [Memory.wfAbove, hy, hm']
        · simp [hb, Memory.wfAbove, hm]
      · rename_i h1 h2
        simp [Memory.wfAbove, hx, Memory.wfAbove_write hm a b (by omega)]

/-- A multi-byte write keeps the canonical form. -/
theorem Memory.wf_writeLE {m : Memory} (h : Memory.wf m = true) (a n v : Nat) :
    Memory.wf (Memory.writeLE m a n v) = true := by
  induction n generalizing m a v with
  | zero => exact h
  | succ n ih => exact ih (Memory.wf_write h _ _) _ _

/-- A run of byte writes keeps the canonical form. -/
theorem Memory.wf_writeBytes {m : Memory} (h : Memory.wf m = true) (a : Nat) (bs : List Byte) :
    Memory.wf (Memory.writeBytes m a bs) = true := by
  induction bs generalizing m a with
  | nil => exact h
  | cons b bs ih => exact ih (Memory.wf_write h _ _) _

/-- A run of bytes written one after the other reads back, and every other address reads as before. -/
theorem Memory.read_writeBytes {m : Memory} (h : Memory.wf m = true) (a : Nat) (bs : List Byte) (a' : Nat) :
    Memory.read (Memory.writeBytes m a bs) a' =
      if a ≤ a' ∧ a' < a + bs.length then bs.getD (a' - a) 0 else Memory.read m a' := by
  induction bs generalizing m a with
  | nil => rw [if_neg (by simp only [List.length_nil]; omega)]; rfl
  | cons b bs ih =>
    rw [Memory.writeBytes, ih (Memory.wf_write h a b), Memory.read_write h, List.length_cons]
    by_cases h1 : a' = a
    · subst h1
      rw [if_neg (by omega), if_pos rfl, if_pos (by omega), Nat.sub_self]
      rfl
    · rw [if_neg h1]
      by_cases h2 : a + 1 ≤ a' ∧ a' < a + 1 + bs.length
      · rw [if_pos h2, if_pos (by omega), show a' - a = a' - (a + 1) + 1 by omega, List.getD_cons_succ]
      · rw [if_neg h2, if_neg (by omega)]

/-- A multi-byte write leaves the bytes outside its range. -/
theorem Memory.read_writeLE_outside {m : Memory} (h : Memory.wf m = true) (a n v : Nat) {a' : Nat}
    (ha : a' < a ∨ a + n ≤ a') : Memory.read (Memory.writeLE m a n v) a' = Memory.read m a' := by
  induction n generalizing m a v with
  | zero => rfl
  | succ n ih =>
    rw [Memory.writeLE, ih (Memory.wf_write h _ _) _ _ (by omega),
      Memory.read_write_other h _ _ (by omega)]

/-- A multi-byte write puts the bytes of its value in ascending order of significance. -/
theorem Memory.read_writeLE_inside {m : Memory} (h : Memory.wf m = true) (a n v : Nat) {k : Nat} (hk : k < n) :
    Memory.read (Memory.writeLE m a n v) (a + k) = BitVec.ofNat 8 (v / 256 ^ k) := by
  induction n generalizing m a v k with
  | zero => omega
  | succ n ih =>
    cases k with
    | zero =>
      rw [Memory.writeLE, Memory.read_writeLE_outside (Memory.wf_write h _ _) _ _ _ (by omega)]
      simp [Memory.read_write_same h]
    | succ k =>
      rw [Memory.writeLE, show a + (k + 1) = a + 1 + k by omega, ih (Memory.wf_write h _ _) _ _ (by omega),
        Nat.div_div_eq_div_mul, Nat.pow_succ, Nat.mul_comm]

@[simp] theorem Memory.bytes_length (m : Memory) (a n : Nat) : (Memory.bytes m a n).length = n := by
  induction n generalizing a with
  | zero => rfl
  | succ n ih => simp [Memory.bytes, ih]

theorem Memory.bytes_getElem (m : Memory) (a n : Nat) {k : Nat} (hk : k < n) :
    (Memory.bytes m a n)[k]? = some (Memory.read m (a + k)) := by
  induction n generalizing a k with
  | zero => omega
  | succ n ih =>
    cases k with
    | zero => simp [Memory.bytes]
    | succ k => simp [Memory.bytes, ih (a + 1) (show k < n by omega), show a + 1 + k = a + (k + 1) by omega]

end Sys2Proof.Machine
end

