-- ==== Sys2Proof/Laws/State.lean ====
section
/-! SUPPORT. What each shared update of State does to each field: one lemma per field, so that no later proof unfolds a
record update. -/

namespace Sys2Proof.Machine

/-! ### raiseFault -/

@[simp] theorem raiseFault_params (f : FaultCode) (info : Word) (s : State) : (raiseFault f info s).params = s.params := rfl
@[simp] theorem raiseFault_cmd (f : FaultCode) (info : Word) (s : State) : (raiseFault f info s).cmd = s.cmd := rfl
@[simp] theorem raiseFault_argWBits (f : FaultCode) (info : Word) (s : State) : (raiseFault f info s).argWBits = s.argWBits := rfl
@[simp] theorem raiseFault_argSegLen (f : FaultCode) (info : Word) (s : State) : (raiseFault f info s).argSegLen = s.argSegLen := rfl
@[simp] theorem raiseFault_argOutLen (f : FaultCode) (info : Word) (s : State) : (raiseFault f info s).argOutLen = s.argOutLen := rfl
@[simp] theorem raiseFault_argBlockNo (f : FaultCode) (info : Word) (s : State) : (raiseFault f info s).argBlockNo = s.argBlockNo := rfl
@[simp] theorem raiseFault_argStart (f : FaultCode) (info : Word) (s : State) : (raiseFault f info s).argStart = s.argStart := rfl
@[simp] theorem raiseFault_argEnd (f : FaultCode) (info : Word) (s : State) : (raiseFault f info s).argEnd = s.argEnd := rfl
@[simp] theorem raiseFault_result (f : FaultCode) (info : Word) (s : State) : (raiseFault f info s).result = s.result := rfl
@[simp] theorem raiseFault_live (f : FaultCode) (info : Word) (s : State) : (raiseFault f info s).live = s.live := rfl
@[simp] theorem raiseFault_faulted (f : FaultCode) (info : Word) (s : State) : (raiseFault f info s).faulted = true := rfl
@[simp] theorem raiseFault_faultCode (f : FaultCode) (info : Word) (s : State) : (raiseFault f info s).faultCode = f := rfl
@[simp] theorem raiseFault_faultInfo (f : FaultCode) (info : Word) (s : State) : (raiseFault f info s).faultInfo = info := rfl
@[simp] theorem raiseFault_windowBits (f : FaultCode) (info : Word) (s : State) : (raiseFault f info s).windowBits = s.windowBits := rfl
@[simp] theorem raiseFault_reps (f : FaultCode) (info : Word) (s : State) : (raiseFault f info s).reps = s.reps := rfl
@[simp] theorem raiseFault_blockType (f : FaultCode) (info : Word) (s : State) : (raiseFault f info s).blockType = s.blockType := rfl
@[simp] theorem raiseFault_blockLength (f : FaultCode) (info : Word) (s : State) : (raiseFault f info s).blockLength = s.blockLength := rfl
@[simp] theorem raiseFault_blockRemaining (f : FaultCode) (info : Word) (s : State) : (raiseFault f info s).blockRemaining = s.blockRemaining := rfl
@[simp] theorem raiseFault_started (f : FaultCode) (info : Word) (s : State) : (raiseFault f info s).started = s.started := rfl
@[simp] theorem raiseFault_intelFileSize (f : FaultCode) (info : Word) (s : State) : (raiseFault f info s).intelFileSize = s.intelFileSize := rfl
@[simp] theorem raiseFault_intelStarted (f : FaultCode) (info : Word) (s : State) : (raiseFault f info s).intelStarted = s.intelStarted := rfl
@[simp] theorem raiseFault_frames (f : FaultCode) (info : Word) (s : State) : (raiseFault f info s).frames = s.frames := rfl
@[simp] theorem raiseFault_streamPos (f : FaultCode) (info : Word) (s : State) : (raiseFault f info s).streamPos = s.streamPos := rfl
@[simp] theorem raiseFault_nextBlockNo (f : FaultCode) (info : Word) (s : State) : (raiseFault f info s).nextBlockNo = s.nextBlockNo := rfl
@[simp] theorem raiseFault_mainLengths (f : FaultCode) (info : Word) (s : State) : (raiseFault f info s).mainLengths = s.mainLengths := rfl
@[simp] theorem raiseFault_lengthLengths (f : FaultCode) (info : Word) (s : State) : (raiseFault f info s).lengthLengths = s.lengthLengths := rfl
@[simp] theorem raiseFault_alignedLengths (f : FaultCode) (info : Word) (s : State) : (raiseFault f info s).alignedLengths = s.alignedLengths := rfl
@[simp] theorem raiseFault_preLengths (f : FaultCode) (info : Word) (s : State) : (raiseFault f info s).preLengths = s.preLengths := rfl
@[simp] theorem raiseFault_preBook (f : FaultCode) (info : Word) (s : State) : (raiseFault f info s).preBook = s.preBook := rfl
@[simp] theorem raiseFault_mainBook (f : FaultCode) (info : Word) (s : State) : (raiseFault f info s).mainBook = s.mainBook := rfl
@[simp] theorem raiseFault_lengthBook (f : FaultCode) (info : Word) (s : State) : (raiseFault f info s).lengthBook = s.lengthBook := rfl
@[simp] theorem raiseFault_alignedBook (f : FaultCode) (info : Word) (s : State) : (raiseFault f info s).alignedBook = s.alignedBook := rfl
@[simp] theorem raiseFault_win (f : FaultCode) (info : Word) (s : State) : (raiseFault f info s).win = s.win := rfl
@[simp] theorem raiseFault_winPos (f : FaultCode) (info : Word) (s : State) : (raiseFault f info s).winPos = s.winPos := rfl
@[simp] theorem raiseFault_out (f : FaultCode) (info : Word) (s : State) : (raiseFault f info s).out = s.out := rfl
@[simp] theorem raiseFault_outLen (f : FaultCode) (info : Word) (s : State) : (raiseFault f info s).outLen = s.outLen := rfl
@[simp] theorem raiseFault_outPos (f : FaultCode) (info : Word) (s : State) : (raiseFault f info s).outPos = s.outPos := rfl
@[simp] theorem raiseFault_outValid (f : FaultCode) (info : Word) (s : State) : (raiseFault f info s).outValid = false := rfl
@[simp] theorem raiseFault_carry (f : FaultCode) (info : Word) (s : State) : (raiseFault f info s).carry = s.carry := rfl
@[simp] theorem raiseFault_rd (f : FaultCode) (info : Word) (s : State) : (raiseFault f info s).rd = s.rd := rfl
@[simp] theorem raiseFault_phase (f : FaultCode) (info : Word) (s : State) : (raiseFault f info s).phase = .idle := rfl
@[simp] theorem raiseFault_run (f : FaultCode) (info : Word) (s : State) : (raiseFault f info s).run = s.run := rfl
@[simp] theorem raiseFault_index (f : FaultCode) (info : Word) (s : State) : (raiseFault f info s).index = s.index := rfl
@[simp] theorem raiseFault_pend (f : FaultCode) (info : Word) (s : State) : (raiseFault f info s).pend = s.pend := rfl

/-! ### emit -/

@[simp] theorem emit_params (b : Byte) (s : State) : (emit b s).params = s.params := rfl
@[simp] theorem emit_cmd (b : Byte) (s : State) : (emit b s).cmd = s.cmd := rfl
@[simp] theorem emit_argWBits (b : Byte) (s : State) : (emit b s).argWBits = s.argWBits := rfl
@[simp] theorem emit_argSegLen (b : Byte) (s : State) : (emit b s).argSegLen = s.argSegLen := rfl
@[simp] theorem emit_argOutLen (b : Byte) (s : State) : (emit b s).argOutLen = s.argOutLen := rfl
@[simp] theorem emit_argBlockNo (b : Byte) (s : State) : (emit b s).argBlockNo = s.argBlockNo := rfl
@[simp] theorem emit_argStart (b : Byte) (s : State) : (emit b s).argStart = s.argStart := rfl
@[simp] theorem emit_argEnd (b : Byte) (s : State) : (emit b s).argEnd = s.argEnd := rfl
@[simp] theorem emit_result (b : Byte) (s : State) : (emit b s).result = s.result := rfl
@[simp] theorem emit_live (b : Byte) (s : State) : (emit b s).live = s.live := rfl
@[simp] theorem emit_faulted (b : Byte) (s : State) : (emit b s).faulted = s.faulted := rfl
@[simp] theorem emit_faultCode (b : Byte) (s : State) : (emit b s).faultCode = s.faultCode := rfl
@[simp] theorem emit_faultInfo (b : Byte) (s : State) : (emit b s).faultInfo = s.faultInfo := rfl
@[simp] theorem emit_windowBits (b : Byte) (s : State) : (emit b s).windowBits = s.windowBits := rfl
@[simp] theorem emit_reps (b : Byte) (s : State) : (emit b s).reps = s.reps := rfl
@[simp] theorem emit_blockType (b : Byte) (s : State) : (emit b s).blockType = s.blockType := rfl
@[simp] theorem emit_blockLength (b : Byte) (s : State) : (emit b s).blockLength = s.blockLength := rfl
@[simp] theorem emit_blockRemaining (b : Byte) (s : State) : (emit b s).blockRemaining = s.blockRemaining := rfl
@[simp] theorem emit_started (b : Byte) (s : State) : (emit b s).started = s.started := rfl
@[simp] theorem emit_intelFileSize (b : Byte) (s : State) : (emit b s).intelFileSize = s.intelFileSize := rfl
@[simp] theorem emit_intelStarted (b : Byte) (s : State) : (emit b s).intelStarted = s.intelStarted := rfl
@[simp] theorem emit_frames (b : Byte) (s : State) : (emit b s).frames = s.frames := rfl
@[simp] theorem emit_streamPos (b : Byte) (s : State) : (emit b s).streamPos = s.streamPos := rfl
@[simp] theorem emit_nextBlockNo (b : Byte) (s : State) : (emit b s).nextBlockNo = s.nextBlockNo := rfl
@[simp] theorem emit_mainLengths (b : Byte) (s : State) : (emit b s).mainLengths = s.mainLengths := rfl
@[simp] theorem emit_lengthLengths (b : Byte) (s : State) : (emit b s).lengthLengths = s.lengthLengths := rfl
@[simp] theorem emit_alignedLengths (b : Byte) (s : State) : (emit b s).alignedLengths = s.alignedLengths := rfl
@[simp] theorem emit_preLengths (b : Byte) (s : State) : (emit b s).preLengths = s.preLengths := rfl
@[simp] theorem emit_preBook (b : Byte) (s : State) : (emit b s).preBook = s.preBook := rfl
@[simp] theorem emit_mainBook (b : Byte) (s : State) : (emit b s).mainBook = s.mainBook := rfl
@[simp] theorem emit_lengthBook (b : Byte) (s : State) : (emit b s).lengthBook = s.lengthBook := rfl
@[simp] theorem emit_alignedBook (b : Byte) (s : State) : (emit b s).alignedBook = s.alignedBook := rfl
@[simp] theorem emit_win (b : Byte) (s : State) : (emit b s).win = Memory.write s.win s.winPos b := rfl
@[simp] theorem emit_winPos (b : Byte) (s : State) : (emit b s).winPos = (s.winPos + 1) % windowSize s := rfl
@[simp] theorem emit_out (b : Byte) (s : State) : (emit b s).out = Memory.write s.out s.outPos b := rfl
@[simp] theorem emit_outLen (b : Byte) (s : State) : (emit b s).outLen = s.outLen := rfl
@[simp] theorem emit_outPos (b : Byte) (s : State) : (emit b s).outPos = s.outPos + 1 := rfl
@[simp] theorem emit_outValid (b : Byte) (s : State) : (emit b s).outValid = s.outValid := rfl
@[simp] theorem emit_carry (b : Byte) (s : State) : (emit b s).carry = s.carry := rfl
@[simp] theorem emit_rd (b : Byte) (s : State) : (emit b s).rd = s.rd := rfl
@[simp] theorem emit_phase (b : Byte) (s : State) : (emit b s).phase = s.phase := rfl
@[simp] theorem emit_run (b : Byte) (s : State) : (emit b s).run = s.run := rfl
@[simp] theorem emit_index (b : Byte) (s : State) : (emit b s).index = s.index := rfl
@[simp] theorem emit_pend (b : Byte) (s : State) : (emit b s).pend = s.pend := rfl

/-! ### emitCarry -/

@[simp] theorem emitCarry_params (b : Byte) (s : State) : (emitCarry b s).params = s.params := rfl
@[simp] theorem emitCarry_cmd (b : Byte) (s : State) : (emitCarry b s).cmd = s.cmd := rfl
@[simp] theorem emitCarry_argWBits (b : Byte) (s : State) : (emitCarry b s).argWBits = s.argWBits := rfl
@[simp] theorem emitCarry_argSegLen (b : Byte) (s : State) : (emitCarry b s).argSegLen = s.argSegLen := rfl
@[simp] theorem emitCarry_argOutLen (b : Byte) (s : State) : (emitCarry b s).argOutLen = s.argOutLen := rfl
@[simp] theorem emitCarry_argBlockNo (b : Byte) (s : State) : (emitCarry b s).argBlockNo = s.argBlockNo := rfl
@[simp] theorem emitCarry_argStart (b : Byte) (s : State) : (emitCarry b s).argStart = s.argStart := rfl
@[simp] theorem emitCarry_argEnd (b : Byte) (s : State) : (emitCarry b s).argEnd = s.argEnd := rfl
@[simp] theorem emitCarry_result (b : Byte) (s : State) : (emitCarry b s).result = s.result := rfl
@[simp] theorem emitCarry_live (b : Byte) (s : State) : (emitCarry b s).live = s.live := rfl
@[simp] theorem emitCarry_faulted (b : Byte) (s : State) : (emitCarry b s).faulted = s.faulted := rfl
@[simp] theorem emitCarry_faultCode (b : Byte) (s : State) : (emitCarry b s).faultCode = s.faultCode := rfl
@[simp] theorem emitCarry_faultInfo (b : Byte) (s : State) : (emitCarry b s).faultInfo = s.faultInfo := rfl
@[simp] theorem emitCarry_windowBits (b : Byte) (s : State) : (emitCarry b s).windowBits = s.windowBits := rfl
@[simp] theorem emitCarry_reps (b : Byte) (s : State) : (emitCarry b s).reps = s.reps := rfl
@[simp] theorem emitCarry_blockType (b : Byte) (s : State) : (emitCarry b s).blockType = s.blockType := rfl
@[simp] theorem emitCarry_blockLength (b : Byte) (s : State) : (emitCarry b s).blockLength = s.blockLength := rfl
@[simp] theorem emitCarry_blockRemaining (b : Byte) (s : State) : (emitCarry b s).blockRemaining = s.blockRemaining := rfl
@[simp] theorem emitCarry_started (b : Byte) (s : State) : (emitCarry b s).started = s.started := rfl
@[simp] theorem emitCarry_intelFileSize (b : Byte) (s : State) : (emitCarry b s).intelFileSize = s.intelFileSize := rfl
@[simp] theorem emitCarry_intelStarted (b : Byte) (s : State) : (emitCarry b s).intelStarted = s.intelStarted := rfl
@[simp] theorem emitCarry_frames (b : Byte) (s : State) : (emitCarry b s).frames = s.frames := rfl
@[simp] theorem emitCarry_streamPos (b : Byte) (s : State) : (emitCarry b s).streamPos = s.streamPos := rfl
@[simp] theorem emitCarry_nextBlockNo (b : Byte) (s : State) : (emitCarry b s).nextBlockNo = s.nextBlockNo := rfl
@[simp] theorem emitCarry_mainLengths (b : Byte) (s : State) : (emitCarry b s).mainLengths = s.mainLengths := rfl
@[simp] theorem emitCarry_lengthLengths (b : Byte) (s : State) : (emitCarry b s).lengthLengths = s.lengthLengths := rfl
@[simp] theorem emitCarry_alignedLengths (b : Byte) (s : State) : (emitCarry b s).alignedLengths = s.alignedLengths := rfl
@[simp] theorem emitCarry_preLengths (b : Byte) (s : State) : (emitCarry b s).preLengths = s.preLengths := rfl
@[simp] theorem emitCarry_preBook (b : Byte) (s : State) : (emitCarry b s).preBook = s.preBook := rfl
@[simp] theorem emitCarry_mainBook (b : Byte) (s : State) : (emitCarry b s).mainBook = s.mainBook := rfl
@[simp] theorem emitCarry_lengthBook (b : Byte) (s : State) : (emitCarry b s).lengthBook = s.lengthBook := rfl
@[simp] theorem emitCarry_alignedBook (b : Byte) (s : State) : (emitCarry b s).alignedBook = s.alignedBook := rfl
@[simp] theorem emitCarry_win (b : Byte) (s : State) : (emitCarry b s).win = Memory.write s.win s.winPos b := rfl
@[simp] theorem emitCarry_winPos (b : Byte) (s : State) : (emitCarry b s).winPos = (s.winPos + 1) % windowSize s := rfl
@[simp] theorem emitCarry_out (b : Byte) (s : State) : (emitCarry b s).out = s.out := rfl
@[simp] theorem emitCarry_outLen (b : Byte) (s : State) : (emitCarry b s).outLen = s.outLen := rfl
@[simp] theorem emitCarry_outPos (b : Byte) (s : State) : (emitCarry b s).outPos = s.outPos := rfl
@[simp] theorem emitCarry_outValid (b : Byte) (s : State) : (emitCarry b s).outValid = s.outValid := rfl
@[simp] theorem emitCarry_carry (b : Byte) (s : State) : (emitCarry b s).carry = s.carry ++ [b] := rfl
@[simp] theorem emitCarry_rd (b : Byte) (s : State) : (emitCarry b s).rd = s.rd := rfl
@[simp] theorem emitCarry_phase (b : Byte) (s : State) : (emitCarry b s).phase = s.phase := rfl
@[simp] theorem emitCarry_run (b : Byte) (s : State) : (emitCarry b s).run = s.run := rfl
@[simp] theorem emitCarry_index (b : Byte) (s : State) : (emitCarry b s).index = s.index := rfl
@[simp] theorem emitCarry_pend (b : Byte) (s : State) : (emitCarry b s).pend = s.pend := rfl

/-! ### countProduced -/

@[simp] theorem countProduced_params (n : Nat) (s : State) : (countProduced n s).params = s.params := rfl
@[simp] theorem countProduced_cmd (n : Nat) (s : State) : (countProduced n s).cmd = s.cmd := rfl
@[simp] theorem countProduced_argWBits (n : Nat) (s : State) : (countProduced n s).argWBits = s.argWBits := rfl
@[simp] theorem countProduced_argSegLen (n : Nat) (s : State) : (countProduced n s).argSegLen = s.argSegLen := rfl
@[simp] theorem countProduced_argOutLen (n : Nat) (s : State) : (countProduced n s).argOutLen = s.argOutLen := rfl
@[simp] theorem countProduced_argBlockNo (n : Nat) (s : State) : (countProduced n s).argBlockNo = s.argBlockNo := rfl
@[simp] theorem countProduced_argStart (n : Nat) (s : State) : (countProduced n s).argStart = s.argStart := rfl
@[simp] theorem countProduced_argEnd (n : Nat) (s : State) : (countProduced n s).argEnd = s.argEnd := rfl
@[simp] theorem countProduced_result (n : Nat) (s : State) : (countProduced n s).result = s.result := rfl
@[simp] theorem countProduced_live (n : Nat) (s : State) : (countProduced n s).live = s.live := rfl
@[simp] theorem countProduced_faulted (n : Nat) (s : State) : (countProduced n s).faulted = s.faulted := rfl
@[simp] theorem countProduced_faultCode (n : Nat) (s : State) : (countProduced n s).faultCode = s.faultCode := rfl
@[simp] theorem countProduced_faultInfo (n : Nat) (s : State) : (countProduced n s).faultInfo = s.faultInfo := rfl
@[simp] theorem countProduced_windowBits (n : Nat) (s : State) : (countProduced n s).windowBits = s.windowBits := rfl
@[simp] theorem countProduced_reps (n : Nat) (s : State) : (countProduced n s).reps = s.reps := rfl
@[simp] theorem countProduced_blockType (n : Nat) (s : State) : (countProduced n s).blockType = s.blockType := rfl
@[simp] theorem countProduced_blockLength (n : Nat) (s : State) : (countProduced n s).blockLength = s.blockLength := rfl
@[simp] theorem countProduced_blockRemaining (n : Nat) (s : State) : (countProduced n s).blockRemaining = BitVec.ofNat 24 (s.blockRemaining.toNat - n) := rfl
@[simp] theorem countProduced_started (n : Nat) (s : State) : (countProduced n s).started = s.started := rfl
@[simp] theorem countProduced_intelFileSize (n : Nat) (s : State) : (countProduced n s).intelFileSize = s.intelFileSize := rfl
@[simp] theorem countProduced_intelStarted (n : Nat) (s : State) : (countProduced n s).intelStarted = s.intelStarted := rfl
@[simp] theorem countProduced_frames (n : Nat) (s : State) : (countProduced n s).frames = s.frames := rfl
@[simp] theorem countProduced_streamPos (n : Nat) (s : State) : (countProduced n s).streamPos = s.streamPos := rfl
@[simp] theorem countProduced_nextBlockNo (n : Nat) (s : State) : (countProduced n s).nextBlockNo = s.nextBlockNo := rfl
@[simp] theorem countProduced_mainLengths (n : Nat) (s : State) : (countProduced n s).mainLengths = s.mainLengths := rfl
@[simp] theorem countProduced_lengthLengths (n : Nat) (s : State) : (countProduced n s).lengthLengths = s.lengthLengths := rfl
@[simp] theorem countProduced_alignedLengths (n : Nat) (s : State) : (countProduced n s).alignedLengths = s.alignedLengths := rfl
@[simp] theorem countProduced_preLengths (n : Nat) (s : State) : (countProduced n s).preLengths = s.preLengths := rfl
@[simp] theorem countProduced_preBook (n : Nat) (s : State) : (countProduced n s).preBook = s.preBook := rfl
@[simp] theorem countProduced_mainBook (n : Nat) (s : State) : (countProduced n s).mainBook = s.mainBook := rfl
@[simp] theorem countProduced_lengthBook (n : Nat) (s : State) : (countProduced n s).lengthBook = s.lengthBook := rfl
@[simp] theorem countProduced_alignedBook (n : Nat) (s : State) : (countProduced n s).alignedBook = s.alignedBook := rfl
@[simp] theorem countProduced_win (n : Nat) (s : State) : (countProduced n s).win = s.win := rfl
@[simp] theorem countProduced_winPos (n : Nat) (s : State) : (countProduced n s).winPos = s.winPos := rfl
@[simp] theorem countProduced_out (n : Nat) (s : State) : (countProduced n s).out = s.out := rfl
@[simp] theorem countProduced_outLen (n : Nat) (s : State) : (countProduced n s).outLen = s.outLen := rfl
@[simp] theorem countProduced_outPos (n : Nat) (s : State) : (countProduced n s).outPos = s.outPos := rfl
@[simp] theorem countProduced_outValid (n : Nat) (s : State) : (countProduced n s).outValid = s.outValid := rfl
@[simp] theorem countProduced_carry (n : Nat) (s : State) : (countProduced n s).carry = s.carry := rfl
@[simp] theorem countProduced_rd (n : Nat) (s : State) : (countProduced n s).rd = s.rd := rfl
@[simp] theorem countProduced_phase (n : Nat) (s : State) : (countProduced n s).phase = s.phase := rfl
@[simp] theorem countProduced_run (n : Nat) (s : State) : (countProduced n s).run = s.run := rfl
@[simp] theorem countProduced_index (n : Nat) (s : State) : (countProduced n s).index = s.index := rfl
@[simp] theorem countProduced_pend (n : Nat) (s : State) : (countProduced n s).pend = s.pend := rfl

/-! ### openOut -/

@[simp] theorem openOut_params (n : Nat) (s : State) : (openOut n s).params = s.params := rfl
@[simp] theorem openOut_cmd (n : Nat) (s : State) : (openOut n s).cmd = s.cmd := rfl
@[simp] theorem openOut_argWBits (n : Nat) (s : State) : (openOut n s).argWBits = s.argWBits := rfl
@[simp] theorem openOut_argSegLen (n : Nat) (s : State) : (openOut n s).argSegLen = s.argSegLen := rfl
@[simp] theorem openOut_argOutLen (n : Nat) (s : State) : (openOut n s).argOutLen = s.argOutLen := rfl
@[simp] theorem openOut_argBlockNo (n : Nat) (s : State) : (openOut n s).argBlockNo = s.argBlockNo := rfl
@[simp] theorem openOut_argStart (n : Nat) (s : State) : (openOut n s).argStart = s.argStart := rfl
@[simp] theorem openOut_argEnd (n : Nat) (s : State) : (openOut n s).argEnd = s.argEnd := rfl
@[simp] theorem openOut_result (n : Nat) (s : State) : (openOut n s).result = s.result := rfl
@[simp] theorem openOut_live (n : Nat) (s : State) : (openOut n s).live = s.live := rfl
@[simp] theorem openOut_faulted (n : Nat) (s : State) : (openOut n s).faulted = s.faulted := rfl
@[simp] theorem openOut_faultCode (n : Nat) (s : State) : (openOut n s).faultCode = s.faultCode := rfl
@[simp] theorem openOut_faultInfo (n : Nat) (s : State) : (openOut n s).faultInfo = s.faultInfo := rfl
@[simp] theorem openOut_windowBits (n : Nat) (s : State) : (openOut n s).windowBits = s.windowBits := rfl
@[simp] theorem openOut_reps (n : Nat) (s : State) : (openOut n s).reps = s.reps := rfl
@[simp] theorem openOut_blockType (n : Nat) (s : State) : (openOut n s).blockType = s.blockType := rfl
@[simp] theorem openOut_blockLength (n : Nat) (s : State) : (openOut n s).blockLength = s.blockLength := rfl
@[simp] theorem openOut_blockRemaining (n : Nat) (s : State) : (openOut n s).blockRemaining = s.blockRemaining := rfl
@[simp] theorem openOut_started (n : Nat) (s : State) : (openOut n s).started = s.started := rfl
@[simp] theorem openOut_intelFileSize (n : Nat) (s : State) : (openOut n s).intelFileSize = s.intelFileSize := rfl
@[simp] theorem openOut_intelStarted (n : Nat) (s : State) : (openOut n s).intelStarted = s.intelStarted := rfl
@[simp] theorem openOut_frames (n : Nat) (s : State) : (openOut n s).frames = s.frames := rfl
@[simp] theorem openOut_streamPos (n : Nat) (s : State) : (openOut n s).streamPos = s.streamPos := rfl
@[simp] theorem openOut_nextBlockNo (n : Nat) (s : State) : (openOut n s).nextBlockNo = s.nextBlockNo := rfl
@[simp] theorem openOut_mainLengths (n : Nat) (s : State) : (openOut n s).mainLengths = s.mainLengths := rfl
@[simp] theorem openOut_lengthLengths (n : Nat) (s : State) : (openOut n s).lengthLengths = s.lengthLengths := rfl
@[simp] theorem openOut_alignedLengths (n : Nat) (s : State) : (openOut n s).alignedLengths = s.alignedLengths := rfl
@[simp] theorem openOut_preLengths (n : Nat) (s : State) : (openOut n s).preLengths = s.preLengths := rfl
@[simp] theorem openOut_preBook (n : Nat) (s : State) : (openOut n s).preBook = s.preBook := rfl
@[simp] theorem openOut_mainBook (n : Nat) (s : State) : (openOut n s).mainBook = s.mainBook := rfl
@[simp] theorem openOut_lengthBook (n : Nat) (s : State) : (openOut n s).lengthBook = s.lengthBook := rfl
@[simp] theorem openOut_alignedBook (n : Nat) (s : State) : (openOut n s).alignedBook = s.alignedBook := rfl
@[simp] theorem openOut_win (n : Nat) (s : State) : (openOut n s).win = s.win := rfl
@[simp] theorem openOut_winPos (n : Nat) (s : State) : (openOut n s).winPos = s.winPos := rfl
@[simp] theorem openOut_out (n : Nat) (s : State) : (openOut n s).out = Memory.writeBytes [] 0 (s.carry.take n) := rfl
@[simp] theorem openOut_outLen (n : Nat) (s : State) : (openOut n s).outLen = n := rfl
@[simp] theorem openOut_outPos (n : Nat) (s : State) : (openOut n s).outPos = (s.carry.take n).length := rfl
@[simp] theorem openOut_outValid (n : Nat) (s : State) : (openOut n s).outValid = false := rfl
@[simp] theorem openOut_carry (n : Nat) (s : State) : (openOut n s).carry = s.carry.drop n := rfl
@[simp] theorem openOut_rd (n : Nat) (s : State) : (openOut n s).rd = s.rd := rfl
@[simp] theorem openOut_phase (n : Nat) (s : State) : (openOut n s).phase = s.phase := rfl
@[simp] theorem openOut_run (n : Nat) (s : State) : (openOut n s).run = s.run := rfl
@[simp] theorem openOut_index (n : Nat) (s : State) : (openOut n s).index = s.index := rfl
@[simp] theorem openOut_pend (n : Nat) (s : State) : (openOut n s).pend = s.pend := rfl

/-! ### startTrees -/

@[simp] theorem startTrees_params (s : State) : (startTrees s).params = s.params := rfl
@[simp] theorem startTrees_cmd (s : State) : (startTrees s).cmd = s.cmd := rfl
@[simp] theorem startTrees_argWBits (s : State) : (startTrees s).argWBits = s.argWBits := rfl
@[simp] theorem startTrees_argSegLen (s : State) : (startTrees s).argSegLen = s.argSegLen := rfl
@[simp] theorem startTrees_argOutLen (s : State) : (startTrees s).argOutLen = s.argOutLen := rfl
@[simp] theorem startTrees_argBlockNo (s : State) : (startTrees s).argBlockNo = s.argBlockNo := rfl
@[simp] theorem startTrees_argStart (s : State) : (startTrees s).argStart = s.argStart := rfl
@[simp] theorem startTrees_argEnd (s : State) : (startTrees s).argEnd = s.argEnd := rfl
@[simp] theorem startTrees_result (s : State) : (startTrees s).result = s.result := rfl
@[simp] theorem startTrees_live (s : State) : (startTrees s).live = s.live := rfl
@[simp] theorem startTrees_faulted (s : State) : (startTrees s).faulted = s.faulted := rfl
@[simp] theorem startTrees_faultCode (s : State) : (startTrees s).faultCode = s.faultCode := rfl
@[simp] theorem startTrees_faultInfo (s : State) : (startTrees s).faultInfo = s.faultInfo := rfl
@[simp] theorem startTrees_windowBits (s : State) : (startTrees s).windowBits = s.windowBits := rfl
@[simp] theorem startTrees_reps (s : State) : (startTrees s).reps = s.reps := rfl
@[simp] theorem startTrees_blockType (s : State) : (startTrees s).blockType = s.blockType := rfl
@[simp] theorem startTrees_blockLength (s : State) : (startTrees s).blockLength = s.blockLength := rfl
@[simp] theorem startTrees_blockRemaining (s : State) : (startTrees s).blockRemaining = s.blockRemaining := rfl
@[simp] theorem startTrees_started (s : State) : (startTrees s).started = s.started := rfl
@[simp] theorem startTrees_intelFileSize (s : State) : (startTrees s).intelFileSize = s.intelFileSize := rfl
@[simp] theorem startTrees_intelStarted (s : State) : (startTrees s).intelStarted = s.intelStarted := rfl
@[simp] theorem startTrees_frames (s : State) : (startTrees s).frames = s.frames := rfl
@[simp] theorem startTrees_streamPos (s : State) : (startTrees s).streamPos = s.streamPos := rfl
@[simp] theorem startTrees_nextBlockNo (s : State) : (startTrees s).nextBlockNo = s.nextBlockNo := rfl
@[simp] theorem startTrees_mainLengths (s : State) : (startTrees s).mainLengths = s.mainLengths := rfl
@[simp] theorem startTrees_lengthLengths (s : State) : (startTrees s).lengthLengths = s.lengthLengths := rfl
@[simp] theorem startTrees_alignedLengths (s : State) : (startTrees s).alignedLengths = s.alignedLengths := rfl
@[simp] theorem startTrees_preLengths (s : State) : (startTrees s).preLengths = s.preLengths := rfl
@[simp] theorem startTrees_preBook (s : State) : (startTrees s).preBook = s.preBook := rfl
@[simp] theorem startTrees_mainBook (s : State) : (startTrees s).mainBook = s.mainBook := rfl
@[simp] theorem startTrees_lengthBook (s : State) : (startTrees s).lengthBook = s.lengthBook := rfl
@[simp] theorem startTrees_alignedBook (s : State) : (startTrees s).alignedBook = s.alignedBook := rfl
@[simp] theorem startTrees_win (s : State) : (startTrees s).win = s.win := rfl
@[simp] theorem startTrees_winPos (s : State) : (startTrees s).winPos = s.winPos := rfl
@[simp] theorem startTrees_out (s : State) : (startTrees s).out = s.out := rfl
@[simp] theorem startTrees_outLen (s : State) : (startTrees s).outLen = s.outLen := rfl
@[simp] theorem startTrees_outPos (s : State) : (startTrees s).outPos = s.outPos := rfl
@[simp] theorem startTrees_outValid (s : State) : (startTrees s).outValid = s.outValid := rfl
@[simp] theorem startTrees_carry (s : State) : (startTrees s).carry = s.carry := rfl
@[simp] theorem startTrees_rd (s : State) : (startTrees s).rd = s.rd := rfl
@[simp] theorem startTrees_phase (s : State) : (startTrees s).phase = .pretree := rfl
@[simp] theorem startTrees_run (s : State) : (startTrees s).run = .mainLiterals := rfl
@[simp] theorem startTrees_index (s : State) : (startTrees s).index = s.index := rfl
@[simp] theorem startTrees_pend (s : State) : (startTrees s).pend = s.pend := rfl

/-! ### afterRawByte -/

@[simp] theorem afterRawByte_params (s : State) : (afterRawByte s).params = s.params := rfl
@[simp] theorem afterRawByte_cmd (s : State) : (afterRawByte s).cmd = s.cmd := rfl
@[simp] theorem afterRawByte_argWBits (s : State) : (afterRawByte s).argWBits = s.argWBits := rfl
@[simp] theorem afterRawByte_argSegLen (s : State) : (afterRawByte s).argSegLen = s.argSegLen := rfl
@[simp] theorem afterRawByte_argOutLen (s : State) : (afterRawByte s).argOutLen = s.argOutLen := rfl
@[simp] theorem afterRawByte_argBlockNo (s : State) : (afterRawByte s).argBlockNo = s.argBlockNo := rfl
@[simp] theorem afterRawByte_argStart (s : State) : (afterRawByte s).argStart = s.argStart := rfl
@[simp] theorem afterRawByte_argEnd (s : State) : (afterRawByte s).argEnd = s.argEnd := rfl
@[simp] theorem afterRawByte_result (s : State) : (afterRawByte s).result = s.result := rfl
@[simp] theorem afterRawByte_live (s : State) : (afterRawByte s).live = s.live := rfl
@[simp] theorem afterRawByte_faulted (s : State) : (afterRawByte s).faulted = s.faulted := rfl
@[simp] theorem afterRawByte_faultCode (s : State) : (afterRawByte s).faultCode = s.faultCode := rfl
@[simp] theorem afterRawByte_faultInfo (s : State) : (afterRawByte s).faultInfo = s.faultInfo := rfl
@[simp] theorem afterRawByte_windowBits (s : State) : (afterRawByte s).windowBits = s.windowBits := rfl
@[simp] theorem afterRawByte_reps (s : State) : (afterRawByte s).reps = s.reps := rfl
@[simp] theorem afterRawByte_blockType (s : State) : (afterRawByte s).blockType = s.blockType := rfl
@[simp] theorem afterRawByte_blockLength (s : State) : (afterRawByte s).blockLength = s.blockLength := rfl
@[simp] theorem afterRawByte_blockRemaining (s : State) : (afterRawByte s).blockRemaining = s.blockRemaining := rfl
@[simp] theorem afterRawByte_started (s : State) : (afterRawByte s).started = s.started := rfl
@[simp] theorem afterRawByte_intelFileSize (s : State) : (afterRawByte s).intelFileSize = s.intelFileSize := rfl
@[simp] theorem afterRawByte_intelStarted (s : State) : (afterRawByte s).intelStarted = s.intelStarted := rfl
@[simp] theorem afterRawByte_frames (s : State) : (afterRawByte s).frames = s.frames := rfl
@[simp] theorem afterRawByte_streamPos (s : State) : (afterRawByte s).streamPos = s.streamPos := rfl
@[simp] theorem afterRawByte_nextBlockNo (s : State) : (afterRawByte s).nextBlockNo = s.nextBlockNo := rfl
@[simp] theorem afterRawByte_mainLengths (s : State) : (afterRawByte s).mainLengths = s.mainLengths := rfl
@[simp] theorem afterRawByte_lengthLengths (s : State) : (afterRawByte s).lengthLengths = s.lengthLengths := rfl
@[simp] theorem afterRawByte_alignedLengths (s : State) : (afterRawByte s).alignedLengths = s.alignedLengths := rfl
@[simp] theorem afterRawByte_preLengths (s : State) : (afterRawByte s).preLengths = s.preLengths := rfl
@[simp] theorem afterRawByte_preBook (s : State) : (afterRawByte s).preBook = s.preBook := rfl
@[simp] theorem afterRawByte_mainBook (s : State) : (afterRawByte s).mainBook = s.mainBook := rfl
@[simp] theorem afterRawByte_lengthBook (s : State) : (afterRawByte s).lengthBook = s.lengthBook := rfl
@[simp] theorem afterRawByte_alignedBook (s : State) : (afterRawByte s).alignedBook = s.alignedBook := rfl
@[simp] theorem afterRawByte_win (s : State) : (afterRawByte s).win = s.win := rfl
@[simp] theorem afterRawByte_winPos (s : State) : (afterRawByte s).winPos = s.winPos := rfl
@[simp] theorem afterRawByte_out (s : State) : (afterRawByte s).out = s.out := rfl
@[simp] theorem afterRawByte_outLen (s : State) : (afterRawByte s).outLen = s.outLen := rfl
@[simp] theorem afterRawByte_outPos (s : State) : (afterRawByte s).outPos = s.outPos := rfl
@[simp] theorem afterRawByte_outValid (s : State) : (afterRawByte s).outValid = s.outValid := rfl
@[simp] theorem afterRawByte_carry (s : State) : (afterRawByte s).carry = s.carry := rfl
@[simp] theorem afterRawByte_rd (s : State) : (afterRawByte s).rd = s.rd := rfl
@[simp] theorem afterRawByte_phase (s : State) : (afterRawByte s).phase = if s.blockRemaining = 0 ∧ padDue s = true then .uncPad else .fill := rfl
@[simp] theorem afterRawByte_run (s : State) : (afterRawByte s).run = s.run := rfl
@[simp] theorem afterRawByte_index (s : State) : (afterRawByte s).index = s.index := rfl
@[simp] theorem afterRawByte_pend (s : State) : (afterRawByte s).pend = s.pend := rfl

/-! ### setBook -/

@[simp] theorem setBook_params (t : Tree) (b : Book) (s : State) : (setBook t b s).params = s.params := by cases t <;> rfl
@[simp] theorem setBook_cmd (t : Tree) (b : Book) (s : State) : (setBook t b s).cmd = s.cmd := by cases t <;> rfl
@[simp] theorem setBook_argWBits (t : Tree) (b : Book) (s : State) : (setBook t b s).argWBits = s.argWBits := by cases t <;> rfl
@[simp] theorem setBook_argSegLen (t : Tree) (b : Book) (s : State) : (setBook t b s).argSegLen = s.argSegLen := by cases t <;> rfl
@[simp] theorem setBook_argOutLen (t : Tree) (b : Book) (s : State) : (setBook t b s).argOutLen = s.argOutLen := by cases t <;> rfl
@[simp] theorem setBook_argBlockNo (t : Tree) (b : Book) (s : State) : (setBook t b s).argBlockNo = s.argBlockNo := by cases t <;> rfl
@[simp] theorem setBook_argStart (t : Tree) (b : Book) (s : State) : (setBook t b s).argStart = s.argStart := by cases t <;> rfl
@[simp] theorem setBook_argEnd (t : Tree) (b : Book) (s : State) : (setBook t b s).argEnd = s.argEnd := by cases t <;> rfl
@[simp] theorem setBook_result (t : Tree) (b : Book) (s : State) : (setBook t b s).result = s.result := by cases t <;> rfl
@[simp] theorem setBook_live (t : Tree) (b : Book) (s : State) : (setBook t b s).live = s.live := by cases t <;> rfl
@[simp] theorem setBook_faulted (t : Tree) (b : Book) (s : State) : (setBook t b s).faulted = s.faulted := by cases t <;> rfl
@[simp] theorem setBook_faultCode (t : Tree) (b : Book) (s : State) : (setBook t b s).faultCode = s.faultCode := by cases t <;> rfl
@[simp] theorem setBook_faultInfo (t : Tree) (b : Book) (s : State) : (setBook t b s).faultInfo = s.faultInfo := by cases t <;> rfl
@[simp] theorem setBook_windowBits (t : Tree) (b : Book) (s : State) : (setBook t b s).windowBits = s.windowBits := by cases t <;> rfl
@[simp] theorem setBook_reps (t : Tree) (b : Book) (s : State) : (setBook t b s).reps = s.reps := by cases t <;> rfl
@[simp] theorem setBook_blockType (t : Tree) (b : Book) (s : State) : (setBook t b s).blockType = s.blockType := by cases t <;> rfl
@[simp] theorem setBook_blockLength (t : Tree) (b : Book) (s : State) : (setBook t b s).blockLength = s.blockLength := by cases t <;> rfl
@[simp] theorem setBook_blockRemaining (t : Tree) (b : Book) (s : State) : (setBook t b s).blockRemaining = s.blockRemaining := by cases t <;> rfl
@[simp] theorem setBook_started (t : Tree) (b : Book) (s : State) : (setBook t b s).started = s.started := by cases t <;> rfl
@[simp] theorem setBook_intelFileSize (t : Tree) (b : Book) (s : State) : (setBook t b s).intelFileSize = s.intelFileSize := by cases t <;> rfl
@[simp] theorem setBook_intelStarted (t : Tree) (b : Book) (s : State) : (setBook t b s).intelStarted = s.intelStarted := by cases t <;> rfl
@[simp] theorem setBook_frames (t : Tree) (b : Book) (s : State) : (setBook t b s).frames = s.frames := by cases t <;> rfl
@[simp] theorem setBook_streamPos (t : Tree) (b : Book) (s : State) : (setBook t b s).streamPos = s.streamPos := by cases t <;> rfl
@[simp] theorem setBook_nextBlockNo (t : Tree) (b : Book) (s : State) : (setBook t b s).nextBlockNo = s.nextBlockNo := by cases t <;> rfl
@[simp] theorem setBook_mainLengths (t : Tree) (b : Book) (s : State) : (setBook t b s).mainLengths = s.mainLengths := by cases t <;> rfl
@[simp] theorem setBook_lengthLengths (t : Tree) (b : Book) (s : State) : (setBook t b s).lengthLengths = s.lengthLengths := by cases t <;> rfl
@[simp] theorem setBook_alignedLengths (t : Tree) (b : Book) (s : State) : (setBook t b s).alignedLengths = s.alignedLengths := by cases t <;> rfl
@[simp] theorem setBook_preLengths (t : Tree) (b : Book) (s : State) : (setBook t b s).preLengths = s.preLengths := by cases t <;> rfl
@[simp] theorem setBook_win (t : Tree) (b : Book) (s : State) : (setBook t b s).win = s.win := by cases t <;> rfl
@[simp] theorem setBook_winPos (t : Tree) (b : Book) (s : State) : (setBook t b s).winPos = s.winPos := by cases t <;> rfl
@[simp] theorem setBook_out (t : Tree) (b : Book) (s : State) : (setBook t b s).out = s.out := by cases t <;> rfl
@[simp] theorem setBook_outLen (t : Tree) (b : Book) (s : State) : (setBook t b s).outLen = s.outLen := by cases t <;> rfl
@[simp] theorem setBook_outPos (t : Tree) (b : Book) (s : State) : (setBook t b s).outPos = s.outPos := by cases t <;> rfl
@[simp] theorem setBook_outValid (t : Tree) (b : Book) (s : State) : (setBook t b s).outValid = s.outValid := by cases t <;> rfl
@[simp] theorem setBook_carry (t : Tree) (b : Book) (s : State) : (setBook t b s).carry = s.carry := by cases t <;> rfl
@[simp] theorem setBook_rd (t : Tree) (b : Book) (s : State) : (setBook t b s).rd = s.rd := by cases t <;> rfl
@[simp] theorem setBook_phase (t : Tree) (b : Book) (s : State) : (setBook t b s).phase = s.phase := by cases t <;> rfl
@[simp] theorem setBook_run (t : Tree) (b : Book) (s : State) : (setBook t b s).run = s.run := by cases t <;> rfl
@[simp] theorem setBook_index (t : Tree) (b : Book) (s : State) : (setBook t b s).index = s.index := by cases t <;> rfl
@[simp] theorem setBook_pend (t : Tree) (b : Book) (s : State) : (setBook t b s).pend = s.pend := by cases t <;> rfl

/-! ### setRunLengths -/

@[simp] theorem setRunLengths_params (run : Run) (ls : List (Fin 17)) (s : State) : (setRunLengths run ls s).params = s.params := by cases run <;> rfl
@[simp] theorem setRunLengths_cmd (run : Run) (ls : List (Fin 17)) (s : State) : (setRunLengths run ls s).cmd = s.cmd := by cases run <;> rfl
@[simp] theorem setRunLengths_argWBits (run : Run) (ls : List (Fin 17)) (s : State) : (setRunLengths run ls s).argWBits = s.argWBits := by cases run <;> rfl
@[simp] theorem setRunLengths_argSegLen (run : Run) (ls : List (Fin 17)) (s : State) : (setRunLengths run ls s).argSegLen = s.argSegLen := by cases run <;> rfl
@[simp] theorem setRunLengths_argOutLen (run : Run) (ls : List (Fin 17)) (s : State) : (setRunLengths run ls s).argOutLen = s.argOutLen := by cases run <;> rfl
@[simp] theorem setRunLengths_argBlockNo (run : Run) (ls : List (Fin 17)) (s : State) : (setRunLengths run ls s).argBlockNo = s.argBlockNo := by cases run <;> rfl
@[simp] theorem setRunLengths_argStart (run : Run) (ls : List (Fin 17)) (s : State) : (setRunLengths run ls s).argStart = s.argStart := by cases run <;> rfl
@[simp] theorem setRunLengths_argEnd (run : Run) (ls : List (Fin 17)) (s : State) : (setRunLengths run ls s).argEnd = s.argEnd := by cases run <;> rfl
@[simp] theorem setRunLengths_result (run : Run) (ls : List (Fin 17)) (s : State) : (setRunLengths run ls s).result = s.result := by cases run <;> rfl
@[simp] theorem setRunLengths_live (run : Run) (ls : List (Fin 17)) (s : State) : (setRunLengths run ls s).live = s.live := by cases run <;> rfl
@[simp] theorem setRunLengths_faulted (run : Run) (ls : List (Fin 17)) (s : State) : (setRunLengths run ls s).faulted = s.faulted := by cases run <;> rfl
@[simp] theorem setRunLengths_faultCode (run : Run) (ls : List (Fin 17)) (s : State) : (setRunLengths run ls s).faultCode = s.faultCode := by cases run <;> rfl
@[simp] theorem setRunLengths_faultInfo (run : Run) (ls : List (Fin 17)) (s : State) : (setRunLengths run ls s).faultInfo = s.faultInfo := by cases run <;> rfl
@[simp] theorem setRunLengths_windowBits (run : Run) (ls : List (Fin 17)) (s : State) : (setRunLengths run ls s).windowBits = s.windowBits := by cases run <;> rfl
@[simp] theorem setRunLengths_reps (run : Run) (ls : List (Fin 17)) (s : State) : (setRunLengths run ls s).reps = s.reps := by cases run <;> rfl
@[simp] theorem setRunLengths_blockType (run : Run) (ls : List (Fin 17)) (s : State) : (setRunLengths run ls s).blockType = s.blockType := by cases run <;> rfl
@[simp] theorem setRunLengths_blockLength (run : Run) (ls : List (Fin 17)) (s : State) : (setRunLengths run ls s).blockLength = s.blockLength := by cases run <;> rfl
@[simp] theorem setRunLengths_blockRemaining (run : Run) (ls : List (Fin 17)) (s : State) : (setRunLengths run ls s).blockRemaining = s.blockRemaining := by cases run <;> rfl
@[simp] theorem setRunLengths_started (run : Run) (ls : List (Fin 17)) (s : State) : (setRunLengths run ls s).started = s.started := by cases run <;> rfl
@[simp] theorem setRunLengths_intelFileSize (run : Run) (ls : List (Fin 17)) (s : State) : (setRunLengths run ls s).intelFileSize = s.intelFileSize := by cases run <;> rfl
@[simp] theorem setRunLengths_intelStarted (run : Run) (ls : List (Fin 17)) (s : State) : (setRunLengths run ls s).intelStarted = s.intelStarted := by cases run <;> rfl
@[simp] theorem setRunLengths_frames (run : Run) (ls : List (Fin 17)) (s : State) : (setRunLengths run ls s).frames = s.frames := by cases run <;> rfl
@[simp] theorem setRunLengths_streamPos (run : Run) (ls : List (Fin 17)) (s : State) : (setRunLengths run ls s).streamPos = s.streamPos := by cases run <;> rfl
@[simp] theorem setRunLengths_nextBlockNo (run : Run) (ls : List (Fin 17)) (s : State) : (setRunLengths run ls s).nextBlockNo = s.nextBlockNo := by cases run <;> rfl
@[simp] theorem setRunLengths_alignedLengths (run : Run) (ls : List (Fin 17)) (s : State) : (setRunLengths run ls s).alignedLengths = s.alignedLengths := by cases run <;> rfl
@[simp] theorem setRunLengths_preLengths (run : Run) (ls : List (Fin 17)) (s : State) : (setRunLengths run ls s).preLengths = s.preLengths := by cases run <;> rfl
@[simp] theorem setRunLengths_preBook (run : Run) (ls : List (Fin 17)) (s : State) : (setRunLengths run ls s).preBook = s.preBook := by cases run <;> rfl
@[simp] theorem setRunLengths_mainBook (run : Run) (ls : List (Fin 17)) (s : State) : (setRunLengths run ls s).mainBook = s.mainBook := by cases run <;> rfl
@[simp] theorem setRunLengths_lengthBook (run : Run) (ls : List (Fin 17)) (s : State) : (setRunLengths run ls s).lengthBook = s.lengthBook := by cases run <;> rfl
@[simp] theorem setRunLengths_alignedBook (run : Run) (ls : List (Fin 17)) (s : State) : (setRunLengths run ls s).alignedBook = s.alignedBook := by cases run <;> rfl
@[simp] theorem setRunLengths_win (run : Run) (ls : List (Fin 17)) (s : State) : (setRunLengths run ls s).win = s.win := by cases run <;> rfl
@[simp] theorem setRunLengths_winPos (run : Run) (ls : List (Fin 17)) (s : State) : (setRunLengths run ls s).winPos = s.winPos := by cases run <;> rfl
@[simp] theorem setRunLengths_out (run : Run) (ls : List (Fin 17)) (s : State) : (setRunLengths run ls s).out = s.out := by cases run <;> rfl
@[simp] theorem setRunLengths_outLen (run : Run) (ls : List (Fin 17)) (s : State) : (setRunLengths run ls s).outLen = s.outLen := by cases run <;> rfl
@[simp] theorem setRunLengths_outPos (run : Run) (ls : List (Fin 17)) (s : State) : (setRunLengths run ls s).outPos = s.outPos := by cases run <;> rfl
@[simp] theorem setRunLengths_outValid (run : Run) (ls : List (Fin 17)) (s : State) : (setRunLengths run ls s).outValid = s.outValid := by cases run <;> rfl
@[simp] theorem setRunLengths_carry (run : Run) (ls : List (Fin 17)) (s : State) : (setRunLengths run ls s).carry = s.carry := by cases run <;> rfl
@[simp] theorem setRunLengths_rd (run : Run) (ls : List (Fin 17)) (s : State) : (setRunLengths run ls s).rd = s.rd := by cases run <;> rfl
@[simp] theorem setRunLengths_phase (run : Run) (ls : List (Fin 17)) (s : State) : (setRunLengths run ls s).phase = s.phase := by cases run <;> rfl
@[simp] theorem setRunLengths_run (run : Run) (ls : List (Fin 17)) (s : State) : (setRunLengths run ls s).run = s.run := by cases run <;> rfl
@[simp] theorem setRunLengths_index (run : Run) (ls : List (Fin 17)) (s : State) : (setRunLengths run ls s).index = s.index := by cases run <;> rfl
@[simp] theorem setRunLengths_pend (run : Run) (ls : List (Fin 17)) (s : State) : (setRunLengths run ls s).pend = s.pend := by cases run <;> rfl

/-! ### writeEntries -/

@[simp] theorem writeEntries_params (v : Fin 17) (count : Nat) (s : State) : (writeEntries v count s).params = s.params := by simp [writeEntries]
@[simp] theorem writeEntries_cmd (v : Fin 17) (count : Nat) (s : State) : (writeEntries v count s).cmd = s.cmd := by simp [writeEntries]
@[simp] theorem writeEntries_argWBits (v : Fin 17) (count : Nat) (s : State) : (writeEntries v count s).argWBits = s.argWBits := by simp [writeEntries]
@[simp] theorem writeEntries_argSegLen (v : Fin 17) (count : Nat) (s : State) : (writeEntries v count s).argSegLen = s.argSegLen := by simp [writeEntries]
@[simp] theorem writeEntries_argOutLen (v : Fin 17) (count : Nat) (s : State) : (writeEntries v count s).argOutLen = s.argOutLen := by simp [writeEntries]
@[simp] theorem writeEntries_argBlockNo (v : Fin 17) (count : Nat) (s : State) : (writeEntries v count s).argBlockNo = s.argBlockNo := by simp [writeEntries]
@[simp] theorem writeEntries_argStart (v : Fin 17) (count : Nat) (s : State) : (writeEntries v count s).argStart = s.argStart := by simp [writeEntries]
@[simp] theorem writeEntries_argEnd (v : Fin 17) (count : Nat) (s : State) : (writeEntries v count s).argEnd = s.argEnd := by simp [writeEntries]
@[simp] theorem writeEntries_result (v : Fin 17) (count : Nat) (s : State) : (writeEntries v count s).result = s.result := by simp [writeEntries]
@[simp] theorem writeEntries_live (v : Fin 17) (count : Nat) (s : State) : (writeEntries v count s).live = s.live := by simp [writeEntries]
@[simp] theorem writeEntries_faulted (v : Fin 17) (count : Nat) (s : State) : (writeEntries v count s).faulted = s.faulted := by simp [writeEntries]
@[simp] theorem writeEntries_faultCode (v : Fin 17) (count : Nat) (s : State) : (writeEntries v count s).faultCode = s.faultCode := by simp [writeEntries]
@[simp] theorem writeEntries_faultInfo (v : Fin 17) (count : Nat) (s : State) : (writeEntries v count s).faultInfo = s.faultInfo := by simp [writeEntries]
@[simp] theorem writeEntries_windowBits (v : Fin 17) (count : Nat) (s : State) : (writeEntries v count s).windowBits = s.windowBits := by simp [writeEntries]
@[simp] theorem writeEntries_reps (v : Fin 17) (count : Nat) (s : State) : (writeEntries v count s).reps = s.reps := by simp [writeEntries]
@[simp] theorem writeEntries_blockType (v : Fin 17) (count : Nat) (s : State) : (writeEntries v count s).blockType = s.blockType := by simp [writeEntries]
@[simp] theorem writeEntries_blockLength (v : Fin 17) (count : Nat) (s : State) : (writeEntries v count s).blockLength = s.blockLength := by simp [writeEntries]
@[simp] theorem writeEntries_blockRemaining (v : Fin 17) (count : Nat) (s : State) : (writeEntries v count s).blockRemaining = s.blockRemaining := by simp [writeEntries]
@[simp] theorem writeEntries_started (v : Fin 17) (count : Nat) (s : State) : (writeEntries v count s).started = s.started := by simp [writeEntries]
@[simp] theorem writeEntries_intelFileSize (v : Fin 17) (count : Nat) (s : State) : (writeEntries v count s).intelFileSize = s.intelFileSize := by simp [writeEntries]
@[simp] theorem writeEntries_intelStarted (v : Fin 17) (count : Nat) (s : State) : (writeEntries v count s).intelStarted = s.intelStarted := by simp [writeEntries]
@[simp] theorem writeEntries_frames (v : Fin 17) (count : Nat) (s : State) : (writeEntries v count s).frames = s.frames := by simp [writeEntries]
@[simp] theorem writeEntries_streamPos (v : Fin 17) (count : Nat) (s : State) : (writeEntries v count s).streamPos = s.streamPos := by simp [writeEntries]
@[simp] theorem writeEntries_nextBlockNo (v : Fin 17) (count : Nat) (s : State) : (writeEntries v count s).nextBlockNo = s.nextBlockNo := by simp [writeEntries]
@[simp] theorem writeEntries_alignedLengths (v : Fin 17) (count : Nat) (s : State) : (writeEntries v count s).alignedLengths = s.alignedLengths := by simp [writeEntries]
@[simp] theorem writeEntries_preLengths (v : Fin 17) (count : Nat) (s : State) : (writeEntries v count s).preLengths = s.preLengths := by simp [writeEntries]
@[simp] theorem writeEntries_preBook (v : Fin 17) (count : Nat) (s : State) : (writeEntries v count s).preBook = s.preBook := by simp [writeEntries]
@[simp] theorem writeEntries_mainBook (v : Fin 17) (count : Nat) (s : State) : (writeEntries v count s).mainBook = s.mainBook := by simp [writeEntries]
@[simp] theorem writeEntries_lengthBook (v : Fin 17) (count : Nat) (s : State) : (writeEntries v count s).lengthBook = s.lengthBook := by simp [writeEntries]
@[simp] theorem writeEntries_alignedBook (v : Fin 17) (count : Nat) (s : State) : (writeEntries v count s).alignedBook = s.alignedBook := by simp [writeEntries]
@[simp] theorem writeEntries_win (v : Fin 17) (count : Nat) (s : State) : (writeEntries v count s).win = s.win := by simp [writeEntries]
@[simp] theorem writeEntries_winPos (v : Fin 17) (count : Nat) (s : State) : (writeEntries v count s).winPos = s.winPos := by simp [writeEntries]
@[simp] theorem writeEntries_out (v : Fin 17) (count : Nat) (s : State) : (writeEntries v count s).out = s.out := by simp [writeEntries]
@[simp] theorem writeEntries_outLen (v : Fin 17) (count : Nat) (s : State) : (writeEntries v count s).outLen = s.outLen := by simp [writeEntries]
@[simp] theorem writeEntries_outPos (v : Fin 17) (count : Nat) (s : State) : (writeEntries v count s).outPos = s.outPos := by simp [writeEntries]
@[simp] theorem writeEntries_outValid (v : Fin 17) (count : Nat) (s : State) : (writeEntries v count s).outValid = s.outValid := by simp [writeEntries]
@[simp] theorem writeEntries_carry (v : Fin 17) (count : Nat) (s : State) : (writeEntries v count s).carry = s.carry := by simp [writeEntries]
@[simp] theorem writeEntries_rd (v : Fin 17) (count : Nat) (s : State) : (writeEntries v count s).rd = s.rd := by simp [writeEntries]
@[simp] theorem writeEntries_phase (v : Fin 17) (count : Nat) (s : State) : (writeEntries v count s).phase = s.phase := by simp [writeEntries]
@[simp] theorem writeEntries_run (v : Fin 17) (count : Nat) (s : State) : (writeEntries v count s).run = s.run := by simp [writeEntries]
@[simp] theorem writeEntries_index (v : Fin 17) (count : Nat) (s : State) : (writeEntries v count s).index = s.index + count := rfl
@[simp] theorem writeEntries_pend (v : Fin 17) (count : Nat) (s : State) : (writeEntries v count s).pend = s.pend := by simp [writeEntries]

/-! ### activateIntel -/

@[simp] theorem activateIntel_params (s : State) : (activateIntel s).params = s.params := by unfold activateIntel; split <;> rfl
@[simp] theorem activateIntel_cmd (s : State) : (activateIntel s).cmd = s.cmd := by unfold activateIntel; split <;> rfl
@[simp] theorem activateIntel_argWBits (s : State) : (activateIntel s).argWBits = s.argWBits := by unfold activateIntel; split <;> rfl
@[simp] theorem activateIntel_argSegLen (s : State) : (activateIntel s).argSegLen = s.argSegLen := by unfold activateIntel; split <;> rfl
@[simp] theorem activateIntel_argOutLen (s : State) : (activateIntel s).argOutLen = s.argOutLen := by unfold activateIntel; split <;> rfl
@[simp] theorem activateIntel_argBlockNo (s : State) : (activateIntel s).argBlockNo = s.argBlockNo := by unfold activateIntel; split <;> rfl
@[simp] theorem activateIntel_argStart (s : State) : (activateIntel s).argStart = s.argStart := by unfold activateIntel; split <;> rfl
@[simp] theorem activateIntel_argEnd (s : State) : (activateIntel s).argEnd = s.argEnd := by unfold activateIntel; split <;> rfl
@[simp] theorem activateIntel_result (s : State) : (activateIntel s).result = s.result := by unfold activateIntel; split <;> rfl
@[simp] theorem activateIntel_live (s : State) : (activateIntel s).live = s.live := by unfold activateIntel; split <;> rfl
@[simp] theorem activateIntel_faulted (s : State) : (activateIntel s).faulted = s.faulted := by unfold activateIntel; split <;> rfl
@[simp] theorem activateIntel_faultCode (s : State) : (activateIntel s).faultCode = s.faultCode := by unfold activateIntel; split <;> rfl
@[simp] theorem activateIntel_faultInfo (s : State) : (activateIntel s).faultInfo = s.faultInfo := by unfold activateIntel; split <;> rfl
@[simp] theorem activateIntel_windowBits (s : State) : (activateIntel s).windowBits = s.windowBits := by unfold activateIntel; split <;> rfl
@[simp] theorem activateIntel_reps (s : State) : (activateIntel s).reps = s.reps := by unfold activateIntel; split <;> rfl
@[simp] theorem activateIntel_blockType (s : State) : (activateIntel s).blockType = s.blockType := by unfold activateIntel; split <;> rfl
@[simp] theorem activateIntel_blockLength (s : State) : (activateIntel s).blockLength = s.blockLength := by unfold activateIntel; split <;> rfl
@[simp] theorem activateIntel_blockRemaining (s : State) : (activateIntel s).blockRemaining = s.blockRemaining := by unfold activateIntel; split <;> rfl
@[simp] theorem activateIntel_started (s : State) : (activateIntel s).started = s.started := by unfold activateIntel; split <;> rfl
@[simp] theorem activateIntel_intelFileSize (s : State) : (activateIntel s).intelFileSize = s.intelFileSize := by unfold activateIntel; split <;> rfl
@[simp] theorem activateIntel_frames (s : State) : (activateIntel s).frames = s.frames := by unfold activateIntel; split <;> rfl
@[simp] theorem activateIntel_streamPos (s : State) : (activateIntel s).streamPos = s.streamPos := by unfold activateIntel; split <;> rfl
@[simp] theorem activateIntel_nextBlockNo (s : State) : (activateIntel s).nextBlockNo = s.nextBlockNo := by unfold activateIntel; split <;> rfl
@[simp] theorem activateIntel_mainLengths (s : State) : (activateIntel s).mainLengths = s.mainLengths := by unfold activateIntel; split <;> rfl
@[simp] theorem activateIntel_lengthLengths (s : State) : (activateIntel s).lengthLengths = s.lengthLengths := by unfold activateIntel; split <;> rfl
@[simp] theorem activateIntel_alignedLengths (s : State) : (activateIntel s).alignedLengths = s.alignedLengths := by unfold activateIntel; split <;> rfl
@[simp] theorem activateIntel_preLengths (s : State) : (activateIntel s).preLengths = s.preLengths := by unfold activateIntel; split <;> rfl
@[simp] theorem activateIntel_preBook (s : State) : (activateIntel s).preBook = s.preBook := by unfold activateIntel; split <;> rfl
@[simp] theorem activateIntel_mainBook (s : State) : (activateIntel s).mainBook = s.mainBook := by unfold activateIntel; split <;> rfl
@[simp] theorem activateIntel_lengthBook (s : State) : (activateIntel s).lengthBook = s.lengthBook := by unfold activateIntel; split <;> rfl
@[simp] theorem activateIntel_alignedBook (s : State) : (activateIntel s).alignedBook = s.alignedBook := by unfold activateIntel; split <;> rfl
@[simp] theorem activateIntel_win (s : State) : (activateIntel s).win = s.win := by unfold activateIntel; split <;> rfl
@[simp] theorem activateIntel_winPos (s : State) : (activateIntel s).winPos = s.winPos := by unfold activateIntel; split <;> rfl
@[simp] theorem activateIntel_out (s : State) : (activateIntel s).out = s.out := by unfold activateIntel; split <;> rfl
@[simp] theorem activateIntel_outLen (s : State) : (activateIntel s).outLen = s.outLen := by unfold activateIntel; split <;> rfl
@[simp] theorem activateIntel_outPos (s : State) : (activateIntel s).outPos = s.outPos := by unfold activateIntel; split <;> rfl
@[simp] theorem activateIntel_outValid (s : State) : (activateIntel s).outValid = s.outValid := by unfold activateIntel; split <;> rfl
@[simp] theorem activateIntel_carry (s : State) : (activateIntel s).carry = s.carry := by unfold activateIntel; split <;> rfl
@[simp] theorem activateIntel_rd (s : State) : (activateIntel s).rd = s.rd := by unfold activateIntel; split <;> rfl
@[simp] theorem activateIntel_phase (s : State) : (activateIntel s).phase = s.phase := by unfold activateIntel; split <;> rfl
@[simp] theorem activateIntel_run (s : State) : (activateIntel s).run = s.run := by unfold activateIntel; split <;> rfl
@[simp] theorem activateIntel_index (s : State) : (activateIntel s).index = s.index := by unfold activateIntel; split <;> rfl
@[simp] theorem activateIntel_pend (s : State) : (activateIntel s).pend = s.pend := by unfold activateIntel; split <;> rfl

/-! ### e8Stage -/

@[simp] theorem e8Stage_params (s : State) : (e8Stage s).params = s.params := by unfold e8Stage; split <;> rfl
@[simp] theorem e8Stage_cmd (s : State) : (e8Stage s).cmd = s.cmd := by unfold e8Stage; split <;> rfl
@[simp] theorem e8Stage_argWBits (s : State) : (e8Stage s).argWBits = s.argWBits := by unfold e8Stage; split <;> rfl
@[simp] theorem e8Stage_argSegLen (s : State) : (e8Stage s).argSegLen = s.argSegLen := by unfold e8Stage; split <;> rfl
@[simp] theorem e8Stage_argOutLen (s : State) : (e8Stage s).argOutLen = s.argOutLen := by unfold e8Stage; split <;> rfl
@[simp] theorem e8Stage_argBlockNo (s : State) : (e8Stage s).argBlockNo = s.argBlockNo := by unfold e8Stage; split <;> rfl
@[simp] theorem e8Stage_argStart (s : State) : (e8Stage s).argStart = s.argStart := by unfold e8Stage; split <;> rfl
@[simp] theorem e8Stage_argEnd (s : State) : (e8Stage s).argEnd = s.argEnd := by unfold e8Stage; split <;> rfl
@[simp] theorem e8Stage_result (s : State) : (e8Stage s).result = s.result := by unfold e8Stage; split <;> rfl
@[simp] theorem e8Stage_live (s : State) : (e8Stage s).live = s.live := by unfold e8Stage; split <;> rfl
@[simp] theorem e8Stage_faulted (s : State) : (e8Stage s).faulted = s.faulted := by unfold e8Stage; split <;> rfl
@[simp] theorem e8Stage_faultCode (s : State) : (e8Stage s).faultCode = s.faultCode := by unfold e8Stage; split <;> rfl
@[simp] theorem e8Stage_faultInfo (s : State) : (e8Stage s).faultInfo = s.faultInfo := by unfold e8Stage; split <;> rfl
@[simp] theorem e8Stage_windowBits (s : State) : (e8Stage s).windowBits = s.windowBits := by unfold e8Stage; split <;> rfl
@[simp] theorem e8Stage_reps (s : State) : (e8Stage s).reps = s.reps := by unfold e8Stage; split <;> rfl
@[simp] theorem e8Stage_blockType (s : State) : (e8Stage s).blockType = s.blockType := by unfold e8Stage; split <;> rfl
@[simp] theorem e8Stage_blockLength (s : State) : (e8Stage s).blockLength = s.blockLength := by unfold e8Stage; split <;> rfl
@[simp] theorem e8Stage_blockRemaining (s : State) : (e8Stage s).blockRemaining = s.blockRemaining := by unfold e8Stage; split <;> rfl
@[simp] theorem e8Stage_started (s : State) : (e8Stage s).started = s.started := by unfold e8Stage; split <;> rfl
@[simp] theorem e8Stage_intelFileSize (s : State) : (e8Stage s).intelFileSize = s.intelFileSize := by unfold e8Stage; split <;> rfl
@[simp] theorem e8Stage_intelStarted (s : State) : (e8Stage s).intelStarted = s.intelStarted := by unfold e8Stage; split <;> rfl
@[simp] theorem e8Stage_frames (s : State) : (e8Stage s).frames = s.frames := by unfold e8Stage; split <;> rfl
@[simp] theorem e8Stage_streamPos (s : State) : (e8Stage s).streamPos = s.streamPos := by unfold e8Stage; split <;> rfl
@[simp] theorem e8Stage_nextBlockNo (s : State) : (e8Stage s).nextBlockNo = s.nextBlockNo := by unfold e8Stage; split <;> rfl
@[simp] theorem e8Stage_mainLengths (s : State) : (e8Stage s).mainLengths = s.mainLengths := by unfold e8Stage; split <;> rfl
@[simp] theorem e8Stage_lengthLengths (s : State) : (e8Stage s).lengthLengths = s.lengthLengths := by unfold e8Stage; split <;> rfl
@[simp] theorem e8Stage_alignedLengths (s : State) : (e8Stage s).alignedLengths = s.alignedLengths := by unfold e8Stage; split <;> rfl
@[simp] theorem e8Stage_preLengths (s : State) : (e8Stage s).preLengths = s.preLengths := by unfold e8Stage; split <;> rfl
@[simp] theorem e8Stage_preBook (s : State) : (e8Stage s).preBook = s.preBook := by unfold e8Stage; split <;> rfl
@[simp] theorem e8Stage_mainBook (s : State) : (e8Stage s).mainBook = s.mainBook := by unfold e8Stage; split <;> rfl
@[simp] theorem e8Stage_lengthBook (s : State) : (e8Stage s).lengthBook = s.lengthBook := by unfold e8Stage; split <;> rfl
@[simp] theorem e8Stage_alignedBook (s : State) : (e8Stage s).alignedBook = s.alignedBook := by unfold e8Stage; split <;> rfl
@[simp] theorem e8Stage_win (s : State) : (e8Stage s).win = s.win := by unfold e8Stage; split <;> rfl
@[simp] theorem e8Stage_winPos (s : State) : (e8Stage s).winPos = s.winPos := by unfold e8Stage; split <;> rfl
@[simp] theorem e8Stage_outLen (s : State) : (e8Stage s).outLen = s.outLen := by unfold e8Stage; split <;> rfl
@[simp] theorem e8Stage_outPos (s : State) : (e8Stage s).outPos = s.outPos := by unfold e8Stage; split <;> rfl
@[simp] theorem e8Stage_outValid (s : State) : (e8Stage s).outValid = s.outValid := by unfold e8Stage; split <;> rfl
@[simp] theorem e8Stage_carry (s : State) : (e8Stage s).carry = s.carry := by unfold e8Stage; split <;> rfl
@[simp] theorem e8Stage_rd (s : State) : (e8Stage s).rd = s.rd := by unfold e8Stage; split <;> rfl
@[simp] theorem e8Stage_phase (s : State) : (e8Stage s).phase = s.phase := by unfold e8Stage; split <;> rfl
@[simp] theorem e8Stage_run (s : State) : (e8Stage s).run = s.run := by unfold e8Stage; split <;> rfl
@[simp] theorem e8Stage_index (s : State) : (e8Stage s).index = s.index := by unfold e8Stage; split <;> rfl
@[simp] theorem e8Stage_pend (s : State) : (e8Stage s).pend = s.pend := by unfold e8Stage; split <;> rfl

@[simp] theorem windowSize_emit (b : Byte) (s : State) : windowSize (emit b s) = windowSize s := rfl
@[simp] theorem windowSize_emitCarry (b : Byte) (s : State) : windowSize (emitCarry b s) = windowSize s := rfl

/-! ### copyBytes -/

@[simp] theorem copyBytes_params (off n : Nat) (s : State) : (copyBytes off n s).params = s.params := by induction n generalizing s with
  | zero => rfl
  | succ n ih => simp [copyBytes, ih]
@[simp] theorem copyBytes_cmd (off n : Nat) (s : State) : (copyBytes off n s).cmd = s.cmd := by induction n generalizing s with
  | zero => rfl
  | succ n ih => simp [copyBytes, ih]
@[simp] theorem copyBytes_argWBits (off n : Nat) (s : State) : (copyBytes off n s).argWBits = s.argWBits := by induction n generalizing s with
  | zero => rfl
  | succ n ih => simp [copyBytes, ih]
@[simp] theorem copyBytes_argSegLen (off n : Nat) (s : State) : (copyBytes off n s).argSegLen = s.argSegLen := by induction n generalizing s with
  | zero => rfl
  | succ n ih => simp [copyBytes, ih]
@[simp] theorem copyBytes_argOutLen (off n : Nat) (s : State) : (copyBytes off n s).argOutLen = s.argOutLen := by induction n generalizing s with
  | zero => rfl
  | succ n ih => simp [copyBytes, ih]
@[simp] theorem copyBytes_argBlockNo (off n : Nat) (s : State) : (copyBytes off n s).argBlockNo = s.argBlockNo := by induction n generalizing s with
  | zero => rfl
  | succ n ih => simp [copyBytes, ih]
@[simp] theorem copyBytes_argStart (off n : Nat) (s : State) : (copyBytes off n s).argStart = s.argStart := by induction n generalizing s with
  | zero => rfl
  | succ n ih => simp [copyBytes, ih]
@[simp] theorem copyBytes_argEnd (off n : Nat) (s : State) : (copyBytes off n s).argEnd = s.argEnd := by induction n generalizing s with
  | zero => rfl
  | succ n ih => simp [copyBytes, ih]
@[simp] theorem copyBytes_result (off n : Nat) (s : State) : (copyBytes off n s).result = s.result := by induction n generalizing s with
  | zero => rfl
  | succ n ih => simp [copyBytes, ih]
@[simp] theorem copyBytes_live (off n : Nat) (s : State) : (copyBytes off n s).live = s.live := by induction n generalizing s with
  | zero => rfl
  | succ n ih => simp [copyBytes, ih]
@[simp] theorem copyBytes_faulted (off n : Nat) (s : State) : (copyBytes off n s).faulted = s.faulted := by induction n generalizing s with
  | zero => rfl
  | succ n ih => simp [copyBytes, ih]
@[simp] theorem copyBytes_faultCode (off n : Nat) (s : State) : (copyBytes off n s).faultCode = s.faultCode := by induction n generalizing s with
  | zero => rfl
  | succ n ih => simp [copyBytes, ih]
@[simp] theorem copyBytes_faultInfo (off n : Nat) (s : State) : (copyBytes off n s).faultInfo = s.faultInfo := by induction n generalizing s with
  | zero => rfl
  | succ n ih => simp [copyBytes, ih]
@[simp] theorem copyBytes_windowBits (off n : Nat) (s : State) : (copyBytes off n s).windowBits = s.windowBits := by induction n generalizing s with
  | zero => rfl
  | succ n ih => simp [copyBytes, ih]
@[simp] theorem copyBytes_reps (off n : Nat) (s : State) : (copyBytes off n s).reps = s.reps := by induction n generalizing s with
  | zero => rfl
  | succ n ih => simp [copyBytes, ih]
@[simp] theorem copyBytes_blockType (off n : Nat) (s : State) : (copyBytes off n s).blockType = s.blockType := by induction n generalizing s with
  | zero => rfl
  | succ n ih => simp [copyBytes, ih]
@[simp] theorem copyBytes_blockLength (off n : Nat) (s : State) : (copyBytes off n s).blockLength = s.blockLength := by induction n generalizing s with
  | zero => rfl
  | succ n ih => simp [copyBytes, ih]
@[simp] theorem copyBytes_blockRemaining (off n : Nat) (s : State) : (copyBytes off n s).blockRemaining = s.blockRemaining := by induction n generalizing s with
  | zero => rfl
  | succ n ih => simp [copyBytes, ih]
@[simp] theorem copyBytes_started (off n : Nat) (s : State) : (copyBytes off n s).started = s.started := by induction n generalizing s with
  | zero => rfl
  | succ n ih => simp [copyBytes, ih]
@[simp] theorem copyBytes_intelFileSize (off n : Nat) (s : State) : (copyBytes off n s).intelFileSize = s.intelFileSize := by induction n generalizing s with
  | zero => rfl
  | succ n ih => simp [copyBytes, ih]
@[simp] theorem copyBytes_intelStarted (off n : Nat) (s : State) : (copyBytes off n s).intelStarted = s.intelStarted := by induction n generalizing s with
  | zero => rfl
  | succ n ih => simp [copyBytes, ih]
@[simp] theorem copyBytes_frames (off n : Nat) (s : State) : (copyBytes off n s).frames = s.frames := by induction n generalizing s with
  | zero => rfl
  | succ n ih => simp [copyBytes, ih]
@[simp] theorem copyBytes_streamPos (off n : Nat) (s : State) : (copyBytes off n s).streamPos = s.streamPos := by induction n generalizing s with
  | zero => rfl
  | succ n ih => simp [copyBytes, ih]
@[simp] theorem copyBytes_nextBlockNo (off n : Nat) (s : State) : (copyBytes off n s).nextBlockNo = s.nextBlockNo := by induction n generalizing s with
  | zero => rfl
  | succ n ih => simp [copyBytes, ih]
@[simp] theorem copyBytes_mainLengths (off n : Nat) (s : State) : (copyBytes off n s).mainLengths = s.mainLengths := by induction n generalizing s with
  | zero => rfl
  | succ n ih => simp [copyBytes, ih]
@[simp] theorem copyBytes_lengthLengths (off n : Nat) (s : State) : (copyBytes off n s).lengthLengths = s.lengthLengths := by induction n generalizing s with
  | zero => rfl
  | succ n ih => simp [copyBytes, ih]
@[simp] theorem copyBytes_alignedLengths (off n : Nat) (s : State) : (copyBytes off n s).alignedLengths = s.alignedLengths := by induction n generalizing s with
  | zero => rfl
  | succ n ih => simp [copyBytes, ih]
@[simp] theorem copyBytes_preLengths (off n : Nat) (s : State) : (copyBytes off n s).preLengths = s.preLengths := by induction n generalizing s with
  | zero => rfl
  | succ n ih => simp [copyBytes, ih]
@[simp] theorem copyBytes_preBook (off n : Nat) (s : State) : (copyBytes off n s).preBook = s.preBook := by induction n generalizing s with
  | zero => rfl
  | succ n ih => simp [copyBytes, ih]
@[simp] theorem copyBytes_mainBook (off n : Nat) (s : State) : (copyBytes off n s).mainBook = s.mainBook := by induction n generalizing s with
  | zero => rfl
  | succ n ih => simp [copyBytes, ih]
@[simp] theorem copyBytes_lengthBook (off n : Nat) (s : State) : (copyBytes off n s).lengthBook = s.lengthBook := by induction n generalizing s with
  | zero => rfl
  | succ n ih => simp [copyBytes, ih]
@[simp] theorem copyBytes_alignedBook (off n : Nat) (s : State) : (copyBytes off n s).alignedBook = s.alignedBook := by induction n generalizing s with
  | zero => rfl
  | succ n ih => simp [copyBytes, ih]
@[simp] theorem copyBytes_outLen (off n : Nat) (s : State) : (copyBytes off n s).outLen = s.outLen := by induction n generalizing s with
  | zero => rfl
  | succ n ih => simp [copyBytes, ih]
@[simp] theorem copyBytes_outValid (off n : Nat) (s : State) : (copyBytes off n s).outValid = s.outValid := by induction n generalizing s with
  | zero => rfl
  | succ n ih => simp [copyBytes, ih]
@[simp] theorem copyBytes_carry (off n : Nat) (s : State) : (copyBytes off n s).carry = s.carry := by induction n generalizing s with
  | zero => rfl
  | succ n ih => simp [copyBytes, ih]
@[simp] theorem copyBytes_rd (off n : Nat) (s : State) : (copyBytes off n s).rd = s.rd := by induction n generalizing s with
  | zero => rfl
  | succ n ih => simp [copyBytes, ih]
@[simp] theorem copyBytes_phase (off n : Nat) (s : State) : (copyBytes off n s).phase = s.phase := by induction n generalizing s with
  | zero => rfl
  | succ n ih => simp [copyBytes, ih]
@[simp] theorem copyBytes_run (off n : Nat) (s : State) : (copyBytes off n s).run = s.run := by induction n generalizing s with
  | zero => rfl
  | succ n ih => simp [copyBytes, ih]
@[simp] theorem copyBytes_index (off n : Nat) (s : State) : (copyBytes off n s).index = s.index := by induction n generalizing s with
  | zero => rfl
  | succ n ih => simp [copyBytes, ih]
@[simp] theorem copyBytes_pend (off n : Nat) (s : State) : (copyBytes off n s).pend = s.pend := by induction n generalizing s with
  | zero => rfl
  | succ n ih => simp [copyBytes, ih]

/-! ### copyCarry -/

@[simp] theorem copyCarry_params (off n : Nat) (s : State) : (copyCarry off n s).params = s.params := by induction n generalizing s with
  | zero => rfl
  | succ n ih => simp [copyCarry, ih]
@[simp] theorem copyCarry_cmd (off n : Nat) (s : State) : (copyCarry off n s).cmd = s.cmd := by induction n generalizing s with
  | zero => rfl
  | succ n ih => simp [copyCarry, ih]
@[simp] theorem copyCarry_argWBits (off n : Nat) (s : State) : (copyCarry off n s).argWBits = s.argWBits := by induction n generalizing s with
  | zero => rfl
  | succ n ih => simp [copyCarry, ih]
@[simp] theorem copyCarry_argSegLen (off n : Nat) (s : State) : (copyCarry off n s).argSegLen = s.argSegLen := by induction n generalizing s with
  | zero => rfl
  | succ n ih => simp [copyCarry, ih]
@[simp] theorem copyCarry_argOutLen (off n : Nat) (s : State) : (copyCarry off n s).argOutLen = s.argOutLen := by induction n generalizing s with
  | zero => rfl
  | succ n ih => simp [copyCarry, ih]
@[simp] theorem copyCarry_argBlockNo (off n : Nat) (s : State) : (copyCarry off n s).argBlockNo = s.argBlockNo := by induction n generalizing s with
  | zero => rfl
  | succ n ih => simp [copyCarry, ih]
@[simp] theorem copyCarry_argStart (off n : Nat) (s : State) : (copyCarry off n s).argStart = s.argStart := by induction n generalizing s with
  | zero => rfl
  | succ n ih => simp [copyCarry, ih]
@[simp] theorem copyCarry_argEnd (off n : Nat) (s : State) : (copyCarry off n s).argEnd = s.argEnd := by induction n generalizing s with
  | zero => rfl
  | succ n ih => simp [copyCarry, ih]
@[simp] theorem copyCarry_result (off n : Nat) (s : State) : (copyCarry off n s).result = s.result := by induction n generalizing s with
  | zero => rfl
  | succ n ih => simp [copyCarry, ih]
@[simp] theorem copyCarry_live (off n : Nat) (s : State) : (copyCarry off n s).live = s.live := by induction n generalizing s with
  | zero => rfl
  | succ n ih => simp [copyCarry, ih]
@[simp] theorem copyCarry_faulted (off n : Nat) (s : State) : (copyCarry off n s).faulted = s.faulted := by induction n generalizing s with
  | zero => rfl
  | succ n ih => simp [copyCarry, ih]
@[simp] theorem copyCarry_faultCode (off n : Nat) (s : State) : (copyCarry off n s).faultCode = s.faultCode := by induction n generalizing s with
  | zero => rfl
  | succ n ih => simp [copyCarry, ih]
@[simp] theorem copyCarry_faultInfo (off n : Nat) (s : State) : (copyCarry off n s).faultInfo = s.faultInfo := by induction n generalizing s with
  | zero => rfl
  | succ n ih => simp [copyCarry, ih]
@[simp] theorem copyCarry_windowBits (off n : Nat) (s : State) : (copyCarry off n s).windowBits = s.windowBits := by induction n generalizing s with
  | zero => rfl
  | succ n ih => simp [copyCarry, ih]
@[simp] theorem copyCarry_reps (off n : Nat) (s : State) : (copyCarry off n s).reps = s.reps := by induction n generalizing s with
  | zero => rfl
  | succ n ih => simp [copyCarry, ih]
@[simp] theorem copyCarry_blockType (off n : Nat) (s : State) : (copyCarry off n s).blockType = s.blockType := by induction n generalizing s with
  | zero => rfl
  | succ n ih => simp [copyCarry, ih]
@[simp] theorem copyCarry_blockLength (off n : Nat) (s : State) : (copyCarry off n s).blockLength = s.blockLength := by induction n generalizing s with
  | zero => rfl
  | succ n ih => simp [copyCarry, ih]
@[simp] theorem copyCarry_blockRemaining (off n : Nat) (s : State) : (copyCarry off n s).blockRemaining = s.blockRemaining := by induction n generalizing s with
  | zero => rfl
  | succ n ih => simp [copyCarry, ih]
@[simp] theorem copyCarry_started (off n : Nat) (s : State) : (copyCarry off n s).started = s.started := by induction n generalizing s with
  | zero => rfl
  | succ n ih => simp [copyCarry, ih]
@[simp] theorem copyCarry_intelFileSize (off n : Nat) (s : State) : (copyCarry off n s).intelFileSize = s.intelFileSize := by induction n generalizing s with
  | zero => rfl
  | succ n ih => simp [copyCarry, ih]
@[simp] theorem copyCarry_intelStarted (off n : Nat) (s : State) : (copyCarry off n s).intelStarted = s.intelStarted := by induction n generalizing s with
  | zero => rfl
  | succ n ih => simp [copyCarry, ih]
@[simp] theorem copyCarry_frames (off n : Nat) (s : State) : (copyCarry off n s).frames = s.frames := by induction n generalizing s with
  | zero => rfl
  | succ n ih => simp [copyCarry, ih]
@[simp] theorem copyCarry_streamPos (off n : Nat) (s : State) : (copyCarry off n s).streamPos = s.streamPos := by induction n generalizing s with
  | zero => rfl
  | succ n ih => simp [copyCarry, ih]
@[simp] theorem copyCarry_nextBlockNo (off n : Nat) (s : State) : (copyCarry off n s).nextBlockNo = s.nextBlockNo := by induction n generalizing s with
  | zero => rfl
  | succ n ih => simp [copyCarry, ih]
@[simp] theorem copyCarry_mainLengths (off n : Nat) (s : State) : (copyCarry off n s).mainLengths = s.mainLengths := by induction n generalizing s with
  | zero => rfl
  | succ n ih => simp [copyCarry, ih]
@[simp] theorem copyCarry_lengthLengths (off n : Nat) (s : State) : (copyCarry off n s).lengthLengths = s.lengthLengths := by induction n generalizing s with
  | zero => rfl
  | succ n ih => simp [copyCarry, ih]
@[simp] theorem copyCarry_alignedLengths (off n : Nat) (s : State) : (copyCarry off n s).alignedLengths = s.alignedLengths := by induction n generalizing s with
  | zero => rfl
  | succ n ih => simp [copyCarry, ih]
@[simp] theorem copyCarry_preLengths (off n : Nat) (s : State) : (copyCarry off n s).preLengths = s.preLengths := by induction n generalizing s with
  | zero => rfl
  | succ n ih => simp [copyCarry, ih]
@[simp] theorem copyCarry_preBook (off n : Nat) (s : State) : (copyCarry off n s).preBook = s.preBook := by induction n generalizing s with
  | zero => rfl
  | succ n ih => simp [copyCarry, ih]
@[simp] theorem copyCarry_mainBook (off n : Nat) (s : State) : (copyCarry off n s).mainBook = s.mainBook := by induction n generalizing s with
  | zero => rfl
  | succ n ih => simp [copyCarry, ih]
@[simp] theorem copyCarry_lengthBook (off n : Nat) (s : State) : (copyCarry off n s).lengthBook = s.lengthBook := by induction n generalizing s with
  | zero => rfl
  | succ n ih => simp [copyCarry, ih]
@[simp] theorem copyCarry_alignedBook (off n : Nat) (s : State) : (copyCarry off n s).alignedBook = s.alignedBook := by induction n generalizing s with
  | zero => rfl
  | succ n ih => simp [copyCarry, ih]
@[simp] theorem copyCarry_out (off n : Nat) (s : State) : (copyCarry off n s).out = s.out := by induction n generalizing s with
  | zero => rfl
  | succ n ih => simp [copyCarry, ih]
@[simp] theorem copyCarry_outLen (off n : Nat) (s : State) : (copyCarry off n s).outLen = s.outLen := by induction n generalizing s with
  | zero => rfl
  | succ n ih => simp [copyCarry, ih]
@[simp] theorem copyCarry_outPos (off n : Nat) (s : State) : (copyCarry off n s).outPos = s.outPos := by induction n generalizing s with
  | zero => rfl
  | succ n ih => simp [copyCarry, ih]
@[simp] theorem copyCarry_outValid (off n : Nat) (s : State) : (copyCarry off n s).outValid = s.outValid := by induction n generalizing s with
  | zero => rfl
  | succ n ih => simp [copyCarry, ih]
@[simp] theorem copyCarry_rd (off n : Nat) (s : State) : (copyCarry off n s).rd = s.rd := by induction n generalizing s with
  | zero => rfl
  | succ n ih => simp [copyCarry, ih]
@[simp] theorem copyCarry_phase (off n : Nat) (s : State) : (copyCarry off n s).phase = s.phase := by induction n generalizing s with
  | zero => rfl
  | succ n ih => simp [copyCarry, ih]
@[simp] theorem copyCarry_run (off n : Nat) (s : State) : (copyCarry off n s).run = s.run := by induction n generalizing s with
  | zero => rfl
  | succ n ih => simp [copyCarry, ih]
@[simp] theorem copyCarry_index (off n : Nat) (s : State) : (copyCarry off n s).index = s.index := by induction n generalizing s with
  | zero => rfl
  | succ n ih => simp [copyCarry, ih]
@[simp] theorem copyCarry_pend (off n : Nat) (s : State) : (copyCarry off n s).pend = s.pend := by induction n generalizing s with
  | zero => rfl
  | succ n ih => simp [copyCarry, ih]

/-! ### copyMatch -/

@[simp] theorem copyMatch_params (off len : Nat) (s : State) : (copyMatch off len s).params = s.params := by unfold copyMatch; split <;> simp
@[simp] theorem copyMatch_cmd (off len : Nat) (s : State) : (copyMatch off len s).cmd = s.cmd := by unfold copyMatch; split <;> simp
@[simp] theorem copyMatch_argWBits (off len : Nat) (s : State) : (copyMatch off len s).argWBits = s.argWBits := by unfold copyMatch; split <;> simp
@[simp] theorem copyMatch_argSegLen (off len : Nat) (s : State) : (copyMatch off len s).argSegLen = s.argSegLen := by unfold copyMatch; split <;> simp
@[simp] theorem copyMatch_argOutLen (off len : Nat) (s : State) : (copyMatch off len s).argOutLen = s.argOutLen := by unfold copyMatch; split <;> simp
@[simp] theorem copyMatch_argBlockNo (off len : Nat) (s : State) : (copyMatch off len s).argBlockNo = s.argBlockNo := by unfold copyMatch; split <;> simp
@[simp] theorem copyMatch_argStart (off len : Nat) (s : State) : (copyMatch off len s).argStart = s.argStart := by unfold copyMatch; split <;> simp
@[simp] theorem copyMatch_argEnd (off len : Nat) (s : State) : (copyMatch off len s).argEnd = s.argEnd := by unfold copyMatch; split <;> simp
@[simp] theorem copyMatch_result (off len : Nat) (s : State) : (copyMatch off len s).result = s.result := by unfold copyMatch; split <;> simp
@[simp] theorem copyMatch_live (off len : Nat) (s : State) : (copyMatch off len s).live = s.live := by unfold copyMatch; split <;> simp
@[simp] theorem copyMatch_faulted (off len : Nat) (s : State) : (copyMatch off len s).faulted = s.faulted := by unfold copyMatch; split <;> simp
@[simp] theorem copyMatch_faultCode (off len : Nat) (s : State) : (copyMatch off len s).faultCode = s.faultCode := by unfold copyMatch; split <;> simp
@[simp] theorem copyMatch_faultInfo (off len : Nat) (s : State) : (copyMatch off len s).faultInfo = s.faultInfo := by unfold copyMatch; split <;> simp
@[simp] theorem copyMatch_windowBits (off len : Nat) (s : State) : (copyMatch off len s).windowBits = s.windowBits := by unfold copyMatch; split <;> simp
@[simp] theorem copyMatch_reps (off len : Nat) (s : State) : (copyMatch off len s).reps = s.reps := by unfold copyMatch; split <;> simp
@[simp] theorem copyMatch_blockType (off len : Nat) (s : State) : (copyMatch off len s).blockType = s.blockType := by unfold copyMatch; split <;> simp
@[simp] theorem copyMatch_blockLength (off len : Nat) (s : State) : (copyMatch off len s).blockLength = s.blockLength := by unfold copyMatch; split <;> simp
@[simp] theorem copyMatch_blockRemaining (off len : Nat) (s : State) : (copyMatch off len s).blockRemaining = s.blockRemaining := by unfold copyMatch; split <;> simp
@[simp] theorem copyMatch_started (off len : Nat) (s : State) : (copyMatch off len s).started = s.started := by unfold copyMatch; split <;> simp
@[simp] theorem copyMatch_intelFileSize (off len : Nat) (s : State) : (copyMatch off len s).intelFileSize = s.intelFileSize := by unfold copyMatch; split <;> simp
@[simp] theorem copyMatch_intelStarted (off len : Nat) (s : State) : (copyMatch off len s).intelStarted = s.intelStarted := by unfold copyMatch; split <;> simp
@[simp] theorem copyMatch_frames (off len : Nat) (s : State) : (copyMatch off len s).frames = s.frames := by unfold copyMatch; split <;> simp
@[simp] theorem copyMatch_streamPos (off len : Nat) (s : State) : (copyMatch off len s).streamPos = s.streamPos := by unfold copyMatch; split <;> simp
@[simp] theorem copyMatch_nextBlockNo (off len : Nat) (s : State) : (copyMatch off len s).nextBlockNo = s.nextBlockNo := by unfold copyMatch; split <;> simp
@[simp] theorem copyMatch_mainLengths (off len : Nat) (s : State) : (copyMatch off len s).mainLengths = s.mainLengths := by unfold copyMatch; split <;> simp
@[simp] theorem copyMatch_lengthLengths (off len : Nat) (s : State) : (copyMatch off len s).lengthLengths = s.lengthLengths := by unfold copyMatch; split <;> simp
@[simp] theorem copyMatch_alignedLengths (off len : Nat) (s : State) : (copyMatch off len s).alignedLengths = s.alignedLengths := by unfold copyMatch; split <;> simp
@[simp] theorem copyMatch_preLengths (off len : Nat) (s : State) : (copyMatch off len s).preLengths = s.preLengths := by unfold copyMatch; split <;> simp
@[simp] theorem copyMatch_preBook (off len : Nat) (s : State) : (copyMatch off len s).preBook = s.preBook := by unfold copyMatch; split <;> simp
@[simp] theorem copyMatch_mainBook (off len : Nat) (s : State) : (copyMatch off len s).mainBook = s.mainBook := by unfold copyMatch; split <;> simp
@[simp] theorem copyMatch_lengthBook (off len : Nat) (s : State) : (copyMatch off len s).lengthBook = s.lengthBook := by unfold copyMatch; split <;> simp
@[simp] theorem copyMatch_alignedBook (off len : Nat) (s : State) : (copyMatch off len s).alignedBook = s.alignedBook := by unfold copyMatch; split <;> simp
@[simp] theorem copyMatch_outLen (off len : Nat) (s : State) : (copyMatch off len s).outLen = s.outLen := by unfold copyMatch; split <;> simp
@[simp] theorem copyMatch_outValid (off len : Nat) (s : State) : (copyMatch off len s).outValid = s.outValid := by unfold copyMatch; split <;> simp
@[simp] theorem copyMatch_rd (off len : Nat) (s : State) : (copyMatch off len s).rd = s.rd := by unfold copyMatch; split <;> simp
@[simp] theorem copyMatch_phase (off len : Nat) (s : State) : (copyMatch off len s).phase = s.phase := by unfold copyMatch; split <;> simp
@[simp] theorem copyMatch_run (off len : Nat) (s : State) : (copyMatch off len s).run = s.run := by unfold copyMatch; split <;> simp
@[simp] theorem copyMatch_index (off len : Nat) (s : State) : (copyMatch off len s).index = s.index := by unfold copyMatch; split <;> simp
@[simp] theorem copyMatch_pend (off len : Nat) (s : State) : (copyMatch off len s).pend = s.pend := by unfold copyMatch; split <;> simp

end Sys2Proof.Machine
end

