-- ==== Sys2Proof/Laws/Copy.lean ====
section
/-! SUPPORT. The laws of the match-copy unit: what `Emit` and a copy do to `OUT`, `WIN` and the positions
(44_match_copy.md R241 to R249). -/

namespace Sys2Proof.Machine

open Sys2Proof.Safety

theorem windowSize_pos (s : State) : 0 < windowSize s := Nat.two_pow_pos _

/-! ### Positions modulo the window -/

theorem step_back_succ {w W k : Nat} (hw : w < W) (hk : 1 ≤ k) (hkW : k ≤ W) :
    ((w + 1) % W + W - k) % W = (w + W - (k - 1)) % W := by
  by_cases h : w + 1 = W
  · rw [h, Nat.mod_self, show w + W - (k - 1) = 0 + W - k + W by omega, Nat.add_mod_right]
  · rw [Nat.mod_eq_of_lt (show w + 1 < W by omega)]
    congr 1
    omega

theorem step_back_ne {w W k : Nat} (hw : w < W) (hk : 1 ≤ k) (hkW : k < W) : (w + W - k) % W ≠ w := by
  by_cases h : k ≤ w
  · rw [show w + W - k = w - k + W by omega, Nat.add_mod_right, Nat.mod_eq_of_lt (by omega)]
    omega
  · rw [Nat.mod_eq_of_lt (by omega)]
    omega

/-! ### `Emit` -/

theorem read_out_emit {s : State} (h : Memory.wf s.out = true) (b : Byte) (a : Nat) :
    Memory.read (emit b s).out a = if a = s.outPos then b else Memory.read s.out a := by
  simp [Memory.read_write h]

theorem read_win_emit {s : State} (h : Memory.wf s.win = true) (b : Byte) (a : Nat) :
    Memory.read (emit b s).win a = if a = s.winPos then b else Memory.read s.win a := by
  simp [Memory.read_write h]

theorem wf_out_emit {s : State} (h : Memory.wf s.out = true) (b : Byte) : Memory.wf (emit b s).out = true := by
  simpa using Memory.wf_write h _ _

theorem wf_win_emit {s : State} (h : Memory.wf s.win = true) (b : Byte) : Memory.wf (emit b s).win = true := by
  simpa using Memory.wf_write h _ _

theorem winPos_emit_lt (b : Byte) (s : State) : (emit b s).winPos < windowSize s := by
  simpa using Nat.mod_lt _ (windowSize_pos s)

/-! ### `copyBytes` -/

@[simp] theorem windowSize_copyBytes (off n : Nat) (s : State) : windowSize (copyBytes off n s) = windowSize s := by
  simp [windowSize]

/-- The last byte of a copy is emitted after all the others. -/
theorem copyBytes_succ (off n : Nat) (s : State) :
    copyBytes off (n + 1) s = emit (windowByte off (copyBytes off n s)) (copyBytes off n s) := by
  induction n generalizing s with
  | zero => rfl
  | succ n ih => rw [copyBytes, ih]; rfl

@[simp] theorem outPos_copyBytes (off n : Nat) (s : State) : (copyBytes off n s).outPos = s.outPos + n := by
  induction n with
  | zero => rfl
  | succ n ih => rw [copyBytes_succ, emit_outPos, ih, Nat.add_assoc]

theorem winPos_copyBytes {off n : Nat} {s : State} (h : s.winPos < windowSize s) :
    (copyBytes off n s).winPos = (s.winPos + n) % windowSize s := by
  induction n with
  | zero => exact (Nat.mod_eq_of_lt h).symm
  | succ n ih => rw [copyBytes_succ, emit_winPos, ih, windowSize_copyBytes, Nat.mod_add_mod, Nat.add_assoc]

theorem wf_out_copyBytes {off n : Nat} {s : State} (h : Memory.wf s.out = true) :
    Memory.wf (copyBytes off n s).out = true := by
  induction n with
  | zero => exact h
  | succ n ih => rw [copyBytes_succ]; exact wf_out_emit ih _

theorem wf_win_copyBytes {off n : Nat} {s : State} (h : Memory.wf s.win = true) :
    Memory.wf (copyBytes off n s).win = true := by
  induction n with
  | zero => exact h
  | succ n ih => rw [copyBytes_succ]; exact wf_win_emit ih _

/-- A copy changes `OUT`, `WIN` and the two positions only. -/
theorem copyBytes_eq (off n : Nat) (s : State) :
    copyBytes off n s = { s with
      out := (copyBytes off n s).out
      win := (copyBytes off n s).win
      winPos := (copyBytes off n s).winPos
      outPos := s.outPos + n } := by
  induction n with
  | zero => rfl
  | succ n ih =>
    rw [copyBytes_succ]
    generalize windowByte off (copyBytes off n s) = b
    rw [ih]
    rfl

/-- Outside its range a copy leaves `OUT`. -/
theorem read_out_copyBytes_outside {off n : Nat} {s : State} (h : Memory.wf s.out = true) {a : Nat}
    (ha : a < s.outPos ∨ s.outPos + n ≤ a) : Memory.read (copyBytes off n s).out a = Memory.read s.out a := by
  induction n with
  | zero => rfl
  | succ n ih =>
    rw [copyBytes_succ, read_out_emit (wf_out_copyBytes h), outPos_copyBytes, if_neg (by omega)]
    exact ih (by omega)

/-- Outside the window positions it passes a copy leaves `WIN`. -/
theorem read_win_copyBytes_outside {off n : Nat} {s : State} (h : Memory.wf s.win = true) (hw : s.winPos < windowSize s)
    {a : Nat} (ha : ∀ k, k < n → a ≠ (s.winPos + k) % windowSize s) :
    Memory.read (copyBytes off n s).win a = Memory.read s.win a := by
  induction n with
  | zero => rfl
  | succ n ih =>
    rw [copyBytes_succ, read_win_emit (wf_win_copyBytes h), winPos_copyBytes hw, if_neg (ha n (by omega))]
    exact ih fun k hk => ha k (by omega)

theorem add_mod_ne {w W j k : Nat} (hjk : j < k) (hk : k - j < W) : (w + j) % W ≠ (w + k) % W := by
  intro h
  have : (w + k) % W = (w + j + (k - j)) % W := by congr 1; omega
  have h2 : (k - j) % W = 0 := (Nat.add_left_cancel_iff (n := 0)).mp <| by
    have h3 : W ∣ (w + j + (k - j)) - (w + j) := (Nat.modEq_iff_dvd' (by omega)).mp (h.trans this)
    rw [show w + j + (k - j) - (w + j) = k - j by omega] at h3
    simpa using Nat.mod_eq_zero_of_dvd h3
  rw [Nat.mod_eq_of_lt hk] at h2
  omega

/-- Every byte of a copy no longer than the window stands in `WIN` as in `OUT`. -/
theorem read_win_copyBytes_inside {off n : Nat} {s : State} (hout : Memory.wf s.out = true) (hwin : Memory.wf s.win = true)
    (hw : s.winPos < windowSize s) (hn : n ≤ windowSize s) {k : Nat} (hk : k < n) :
    Memory.read (copyBytes off n s).win ((s.winPos + k) % windowSize s) =
      Memory.read (copyBytes off n s).out (s.outPos + k) := by
  induction n with
  | zero => omega
  | succ n ih =>
    rw [copyBytes_succ, read_win_emit (wf_win_copyBytes hwin), read_out_emit (wf_out_copyBytes hout),
      winPos_copyBytes hw, outPos_copyBytes]
    by_cases h : k = n
    · subst h; simp
    · rw [if_neg (add_mod_ne (by omega) (by omega)), if_neg (by omega)]
      exact ih (by omega) (by omega)

/-- Every byte of a copy is the one `off` positions before it: from the old `WIN` for the first `off` of them, and then
from the copy itself (44_match_copy.md R242, R244, R245). -/
theorem read_out_copyBytes_inside {off n : Nat} {s : State} (hout : Memory.wf s.out = true) (hwin : Memory.wf s.win = true)
    (hw : s.winPos < windowSize s) (hn : n ≤ windowSize s) (h1 : 1 ≤ off) (hoff : off ≤ windowSize s) {k : Nat}
    (hk : k < n) :
    Memory.read (copyBytes off n s).out (s.outPos + k) =
      if k < off then Memory.read s.win ((s.winPos + k + windowSize s - off) % windowSize s)
      else Memory.read (copyBytes off n s).out (s.outPos + k - off) := by
  induction n with
  | zero => omega
  | succ n ih =>
    have hprev : Memory.read (copyBytes off (n + 1) s).out (s.outPos + k - off) =
        if k < off then Memory.read (copyBytes off (n + 1) s).out (s.outPos + k - off)
        else Memory.read (copyBytes off n s).out (s.outPos + k - off) := by
      split
      · rfl
      · rw [copyBytes_succ, read_out_emit (wf_out_copyBytes hout), outPos_copyBytes, if_neg (by omega)]
    by_cases h : k = n
    · subst h
      have hval : Memory.read (copyBytes off (k + 1) s).out (s.outPos + k) = windowByte off (copyBytes off k s) := by
        rw [copyBytes_succ, read_out_emit (wf_out_copyBytes hout), outPos_copyBytes, if_pos rfl]
      have hidx : ((s.winPos + k) % windowSize s + windowSize s - off) % windowSize s =
          (s.winPos + k + windowSize s - off) % windowSize s := by
        rw [show (s.winPos + k) % windowSize s + windowSize s - off =
            (s.winPos + k) % windowSize s + (windowSize s - off) by omega, Nat.mod_add_mod,
          show s.winPos + k + (windowSize s - off) = s.winPos + k + windowSize s - off by omega]
      rw [hval, windowByte, winPos_copyBytes hw, windowSize_copyBytes, hidx]
      by_cases hko : k < off
      · rw [if_pos hko]
        refine read_win_copyBytes_outside hwin hw fun j hj => ?_
        rw [show s.winPos + k + windowSize s - off = s.winPos + (k + windowSize s - off) by omega]
        exact fun e => add_mod_ne (w := s.winPos) (j := j) (k := k + windowSize s - off) (W := windowSize s) (by omega)
          (by omega) e.symm
      · rw [if_neg hko, hprev, if_neg hko]
        rw [show s.winPos + k + windowSize s - off = s.winPos + (k - off) + windowSize s by omega, Nat.add_mod_right,
          read_win_copyBytes_inside hout hwin hw (by omega) (show k - off < k by omega)]
        congr 1
        omega
    · rw [hprev]
      have hlast : Memory.read (copyBytes off (n + 1) s).out (s.outPos + k) =
          Memory.read (copyBytes off n s).out (s.outPos + k) := by
        rw [copyBytes_succ, read_out_emit (wf_out_copyBytes hout), outPos_copyBytes, if_neg (by omega)]
      rw [hlast, ih (by omega) (by omega)]
      split <;> rfl

/-! ### The window mirrors the output -/

/-- The bytes of `OUT` stand at the end of `WIN` (44_match_copy.md R249), wherever the engine is. -/
def Mirror (s : State) : Prop :=
  ∀ k, 1 ≤ k → k ≤ windowSize s → k ≤ s.outPos → windowByte k s = Memory.read s.out (s.outPos - k)

theorem mirror_emit {s : State} (hout : Memory.wf s.out = true) (hwin : Memory.wf s.win = true)
    (hw : s.winPos < windowSize s) (h : Mirror s) (b : Byte) : Mirror (emit b s) := by
  intro k h1 hkW hkp
  rw [windowSize_emit] at hkW
  rw [emit_outPos] at hkp
  rw [windowByte, windowSize_emit, emit_winPos, emit_outPos, step_back_succ hw h1 hkW, read_win_emit hwin,
    read_out_emit hout]
  by_cases hk : k = 1
  · subst hk
    simp [Nat.mod_eq_of_lt hw]
  · rw [if_neg (step_back_ne hw (by omega) (by omega)), if_neg (by omega)]
    rw [show s.outPos + 1 - k = s.outPos - (k - 1) by omega]
    exact h (k - 1) (by omega) (by omega) (by omega)

theorem mirror_copyBytes {off n : Nat} {s : State} (hout : Memory.wf s.out = true) (hwin : Memory.wf s.win = true)
    (hw : s.winPos < windowSize s) (h : Mirror s) : Mirror (copyBytes off n s) := by
  induction n with
  | zero => exact h
  | succ n ih =>
    rw [copyBytes_succ]
    refine mirror_emit (wf_out_copyBytes hout) (wf_win_copyBytes hwin) ?_ ih _
    rw [winPos_copyBytes hw, windowSize_copyBytes]
    exact Nat.mod_lt _ (windowSize_pos s)

/-! ### The surplus of a match -/

@[simp] theorem windowSize_copyCarry (off n : Nat) (s : State) : windowSize (copyCarry off n s) = windowSize s := by
  simp [windowSize]

theorem copyCarry_eq (off n : Nat) (s : State) :
    copyCarry off n s = { s with
      win := (copyCarry off n s).win
      winPos := (copyCarry off n s).winPos
      carry := (copyCarry off n s).carry } := by
  induction n generalizing s with
  | zero => rfl
  | succ n ih => rw [copyCarry, ih]; rfl

theorem wf_win_copyCarry {off n : Nat} {s : State} (h : Memory.wf s.win = true) :
    Memory.wf (copyCarry off n s).win = true := by
  induction n generalizing s with
  | zero => exact h
  | succ n ih => exact ih (by simpa using Memory.wf_write h _ _)

theorem winPos_copyCarry {off n : Nat} {s : State} (h : s.winPos < windowSize s) :
    (copyCarry off n s).winPos = (s.winPos + n) % windowSize s := by
  induction n generalizing s with
  | zero => exact (Nat.mod_eq_of_lt h).symm
  | succ n ih =>
    rw [copyCarry, ih (by simpa using Nat.mod_lt _ (windowSize_pos s))]
    simp only [emitCarry_winPos, windowSize_emitCarry, Nat.mod_add_mod]
    congr 1
    omega

/-- The last surplus byte is made after all the others. -/
theorem copyCarry_succ (off n : Nat) (s : State) :
    copyCarry off (n + 1) s = emitCarry (windowByte off (copyCarry off n s)) (copyCarry off n s) := by
  induction n generalizing s with
  | zero => rfl
  | succ n ih => rw [copyCarry, ih]; rfl

theorem copyBytes_add (off m n : Nat) (s : State) : copyBytes off n (copyBytes off m s) = copyBytes off (m + n) s := by
  induction m generalizing s with
  | zero => rw [Nat.zero_add]; rfl
  | succ m ih => rw [Nat.succ_add, copyBytes, copyBytes, ih]

/-- The surplus of a match goes to `WIN` as the bytes before it did. -/
theorem window_copyCarry (off n : Nat) (s : State) :
    (copyCarry off n s).win = (copyBytes off n s).win ∧ (copyCarry off n s).winPos = (copyBytes off n s).winPos := by
  induction n with
  | zero => exact ⟨rfl, rfl⟩
  | succ n ih =>
    have hbyte : windowByte off (copyCarry off n s) = windowByte off (copyBytes off n s) := by
      simp only [windowByte, ih.1, ih.2, windowSize_copyCarry, windowSize_copyBytes]
    rw [copyCarry_succ, copyBytes_succ, hbyte]
    simp only [emitCarry_win, emitCarry_winPos, emit_win, emit_winPos, ih.1, ih.2, windowSize_copyCarry,
      windowSize_copyBytes, and_self]

/-- The surplus of a match is what a copy with room for it would have made (44_match_copy.md R246; log 14). -/
theorem carry_copyCarry {off n : Nat} {s : State} (hout : Memory.wf s.out = true) :
    (copyCarry off n s).carry =
      s.carry ++ (List.range n).map fun k => Memory.read (copyBytes off n s).out (s.outPos + k) := by
  induction n with
  | zero => simp [copyCarry]
  | succ n ih =>
    have hbyte : windowByte off (copyCarry off n s) = windowByte off (copyBytes off n s) := by
      simp only [windowByte, (window_copyCarry off n s).1, (window_copyCarry off n s).2, windowSize_copyCarry,
        windowSize_copyBytes]
    rw [copyCarry_succ, emitCarry_carry, ih, hbyte, List.range_succ, List.map_append, List.append_assoc, copyBytes_succ]
    congr 2
    · refine List.map_congr_left fun k hk => ?_
      have := List.mem_range.1 hk
      rw [read_out_emit (wf_out_copyBytes hout), outPos_copyBytes, if_neg (by omega)]
    · rw [List.map_singleton, read_out_emit (wf_out_copyBytes hout), outPos_copyBytes, if_pos rfl]

theorem length_carry_copyCarry (off n : Nat) (s : State) :
    (copyCarry off n s).carry.length = s.carry.length + n := by
  induction n generalizing s with
  | zero => rfl
  | succ n ih => rw [copyCarry, ih]; simp; omega

theorem take_carry_copyCarry (off n : Nat) (s : State) : (copyCarry off n s).carry.take s.carry.length = s.carry := by
  induction n generalizing s with
  | zero => simp [copyCarry]
  | succ n ih =>
    have h := ih (emitCarry (windowByte off s) s)
    rw [copyCarry]
    have h2 := congrArg (List.take s.carry.length) h
    rw [List.take_take] at h2
    simpa [Nat.min_eq_left] using h2

end Sys2Proof.Machine
end

