-- ==== Sys2Proof/Laws/Reader.lean ====
section
/-! SUPPORT. The laws of the bit reader (40_bitreader.md): what each primitive keeps, and which stream bits it gives. -/

namespace Sys2Proof.Machine

open Sys2Proof.Safety

theorem toNat_lt_iff_getLsbD {w : Nat} (x : BitVec w) (n : Nat) :
    x.toNat < 2 ^ n ↔ ∀ i, n ≤ i → x.getLsbD i = false := by
  constructor
  · intro h i hi
    exact Nat.testBit_lt_two_pow (Nat.lt_of_lt_of_le h (Nat.pow_le_pow_right (by omega) hi))
  · intro h
    exact Nat.lt_pow_two_of_testBit _ h

theorem maskWord_getLsbD (n i : Nat) : (maskWord n).getLsbD i = decide (i < n ∧ i < 32) := by
  simp only [maskWord, BitVec.getLsbD_ofNat, Nat.testBit_two_pow_sub_one]
  by_cases h : i < 32 <;> by_cases h' : i < n <;> simp [h, h']

/-! ### `InByte` -/

theorem inByte_fst (r : Reader) : (inByte r).1 = inputByte r 0 := by
  unfold inByte inputByte; split <;> simp_all

@[simp] theorem inByte_inseg (r : Reader) : (inByte r).2.inseg = r.inseg := by unfold inByte; split <;> rfl
@[simp] theorem inByte_segLen (r : Reader) : (inByte r).2.segLen = r.segLen := by unfold inByte; split <;> rfl
@[simp] theorem inByte_buffer (r : Reader) : (inByte r).2.buffer = r.buffer := by unfold inByte; split <;> rfl
@[simp] theorem inByte_total (r : Reader) : (inByte r).2.total = r.total := by unfold inByte; split <;> rfl

theorem inByte_swath (r : Reader) : (inByte r).2.swath = if r.swath < r.segLen then r.swath + 1 else r.swath := by
  unfold inByte; split <;> rfl

/-- After a byte is read, the byte `k` places ahead is the one that was `k + 1` places ahead. -/
theorem inputByte_inByte (r : Reader) (k : Nat) : inputByte (inByte r).2 k = inputByte r (k + 1) := by
  unfold inputByte
  rw [inByte_swath]
  by_cases h : r.swath < r.segLen
  · simp [h, show r.swath + 1 + k = r.swath + (k + 1) by omega]
  · simp [h, show ¬ r.swath + k < r.segLen by omega, show ¬ r.swath + (k + 1) < r.segLen by omega]

theorem readerOk_inByte {r : Reader} (h : ReaderOk r) : ReaderOk (inByte r).2 := by
  refine ⟨by simpa using h.total_le, by simpa using h.buffer_lt, ?_, by simpa using h.segLen_lt, by simpa using h.inseg_wf⟩
  have := h.swath_le
  rw [inByte_swath, inByte_segLen]
  split <;> omega

/-! ### `Refill` -/

theorem refill_of_ge {r : Reader} (h : 16 ≤ r.total) : refill r = r := by
  unfold refill; rw [if_neg (by omega)]

theorem refill_total (r : Reader) : (refill r).total = if r.total < 16 then r.total + 16 else r.total := by
  unfold refill; split <;> simp

@[simp] theorem refill_inseg (r : Reader) : (refill r).inseg = r.inseg := by unfold refill; split <;> simp
@[simp] theorem refill_segLen (r : Reader) : (refill r).segLen = r.segLen := by unfold refill; split <;> simp

theorem refill_swath {r : Reader} (h : r.total < 16) : (refill r).swath = (inByte (inByte r).2).2.swath := by
  unfold refill; rw [if_pos h]

theorem sixteen_le_refill_total (r : Reader) : 16 ≤ (refill r).total := by
  rw [refill_total]; split <;> omega

/-- The bits of a refilled accumulator: the old ones above, then the second byte, then the first
(40_bitreader.md R131). -/
theorem refill_getLsbD {r : Reader} (h : r.total < 16) (i : Nat) :
    (refill r).buffer.getLsbD i =
      if i < 8 then (inputByte r 0).getLsbD i
      else if i < 16 then (inputByte r 1).getLsbD (i - 8)
      else decide (i < 32) && r.buffer.getLsbD (i - 16) := by
  have e : (refill r).buffer =
      (r.buffer <<< 16) ||| ((inputByte r 1).setWidth 32 <<< 8) ||| (inputByte r 0).setWidth 32 := by
    unfold refill
    rw [if_pos h]
    simp only [inByte_fst, inputByte_inByte]
  rw [e]
  simp only [BitVec.getLsbD_or, BitVec.getLsbD_shiftLeft, BitVec.getLsbD_setWidth]
  by_cases h1 : i < 8
  · simp [h1, show i < 16 by omega, show i < 32 by omega]
  · have h0 : (inputByte r 0).getLsbD i = false := BitVec.getLsbD_of_ge _ _ (by omega)
    by_cases h2 : i < 16
    · simp [h1, h2, show i < 32 by omega, show i - 8 < 32 by omega, h0]
    · have : (inputByte r 1).getLsbD (i - 8) = false := BitVec.getLsbD_of_ge _ _ (by omega)
      simp [h1, h2, h0, this]

theorem readerOk_refill {r : Reader} (h : ReaderOk r) : ReaderOk (refill r) := by
  by_cases ht : r.total < 16
  · refine ⟨?_, ?_, ?_, by simpa using h.segLen_lt, by simpa using h.inseg_wf⟩
    · rw [refill_total, if_pos ht]; omega
    · rw [refill_total, if_pos ht, toNat_lt_iff_getLsbD]
      intro i hi
      rw [refill_getLsbD ht, if_neg (by omega), if_neg (by omega),
        (toNat_lt_iff_getLsbD _ _).1 h.buffer_lt _ (by omega)]
      simp
    · rw [refill_swath ht, refill_segLen]
      have := (readerOk_inByte (readerOk_inByte h)).swath_le
      simpa using this
  · rw [refill_of_ge (by omega)]; exact h

/-- A refill leaves the stream ahead as it is (40_bitreader.md R130, R131). -/
theorem bitAhead_refill {r : Reader} (k : Nat) : bitAhead (refill r) k = bitAhead r k := by
  by_cases ht : r.total < 16
  · have htot : (refill r).total = r.total + 16 := by rw [refill_total, if_pos ht]
    have hin : ∀ j, inputByte (refill r) j = inputByte r (j + 2) := by
      intro j
      have : inputByte (refill r) j = inputByte (inByte (inByte r).2).2 j := by
        unfold inputByte
        simp only [refill_swath ht, refill_segLen, refill_inseg, inByte_segLen, inByte_inseg]
      rw [this, inputByte_inByte, inputByte_inByte]
    unfold bitAhead
    simp only [htot]
    by_cases h1 : k < r.total
    · rw [if_pos (by omega), if_pos h1, refill_getLsbD ht, if_neg (by omega), if_neg (by omega)]
      rw [show r.total + 16 - 1 - k - 16 = r.total - 1 - k by omega]
      simp; intro; omega
    · rw [if_neg h1]
      by_cases h2 : k < r.total + 16
      · rw [if_pos h2, refill_getLsbD ht]
        have hd : (k - r.total) / 16 = 0 := by omega
        have hm : (k - r.total) % 16 = k - r.total := by omega
        simp only [hd, hm]
        by_cases h3 : k - r.total < 8
        · rw [if_neg (by omega), if_pos (by omega), if_pos h3]
          congr 1; omega
        · rw [if_pos (by omega), if_neg h3]
          congr 1; omega
      · rw [if_neg h2]
        have hm : (k - (r.total + 16)) % 16 = (k - r.total) % 16 := by omega
        have hd : (k - (r.total + 16)) / 16 + 1 = (k - r.total) / 16 := by omega
        simp only [hin, hm]
        rw [show 2 * ((k - (r.total + 16)) / 16) + 1 + 2 = 2 * ((k - r.total) / 16) + 1 by omega,
          show 2 * ((k - (r.total + 16)) / 16) + 2 = 2 * ((k - r.total) / 16) by omega]
  · rw [refill_of_ge (by omega)]

/-! ### Bit reads -/

@[simp] theorem getDesyncBits_inseg (n k : Nat) (r : Reader) : (getDesyncBits n k r).2.inseg = r.inseg := by
  simp [getDesyncBits]
@[simp] theorem getDesyncBits_segLen (n k : Nat) (r : Reader) : (getDesyncBits n k r).2.segLen = r.segLen := by
  simp [getDesyncBits]

theorem getDesyncBits_swath (n k : Nat) (r : Reader) : (getDesyncBits n k r).2.swath = (refill r).swath := rfl
theorem getDesyncBits_total (n k : Nat) (r : Reader) : (getDesyncBits n k r).2.total = (refill r).total - k := rfl
theorem getDesyncBits_buffer (n k : Nat) (r : Reader) :
    (getDesyncBits n k r).2.buffer = (refill r).buffer &&& maskWord ((refill r).total - k) := rfl

theorem readerOk_getDesyncBits {r : Reader} (h : ReaderOk r) (n k : Nat) : ReaderOk (getDesyncBits n k r).2 := by
  have hr := readerOk_refill h
  refine ⟨?_, ?_, ?_, by simpa using h.segLen_lt, by simpa using h.inseg_wf⟩
  · rw [getDesyncBits_total]; have := hr.total_le; omega
  · rw [getDesyncBits_buffer, getDesyncBits_total, toNat_lt_iff_getLsbD]
    intro i hi
    rw [BitVec.getLsbD_and, maskWord_getLsbD]
    simp [show ¬ i < (refill r).total - k by omega]
  · rw [getDesyncBits_swath, getDesyncBits_segLen]
    simpa using hr.swath_le

/-- A read that consumes `k` of the bits a refill guarantees moves the stream on by `k` bits (40_bitreader.md R132). -/
theorem consumed_getDesyncBits {r : Reader} (h : ReaderOk r) (n : Nat) {k : Nat} (hk : k ≤ 16) :
    Consumed k r (getDesyncBits n k r).2 := by
  intro j
  have hr := readerOk_refill h
  have h16 := sixteen_le_refill_total r
  have h31 := hr.total_le
  rw [← bitAhead_refill (r := r)]
  have hin : ∀ i, inputByte (getDesyncBits n k r).2 i = inputByte (refill r) i := by
    intro i; simp [inputByte, getDesyncBits_swath]
  unfold bitAhead
  simp only [hin, getDesyncBits_total, getDesyncBits_buffer]
  by_cases h1 : j < (refill r).total - k
  · rw [if_pos h1, if_pos (by omega), BitVec.getLsbD_and, maskWord_getLsbD]
    rw [show (refill r).total - k - 1 - j = (refill r).total - 1 - (k + j) by omega]
    simp [show (refill r).total - 1 - (k + j) < (refill r).total - k by omega,
      show (refill r).total - 1 - (k + j) < 32 by omega]
  · rw [if_neg h1, show j - ((refill r).total - k) = k + j - (refill r).total by omega,
      if_neg (show ¬ k + j < (refill r).total by omega)]

/-! ### Lists of bits -/

@[simp] theorem length_fieldBits (n v : Nat) : (fieldBits n v).length = n := by
  induction n with
  | zero => rfl
  | succ n ih => simp [fieldBits, ih]

@[simp] theorem length_symbolBits (lens : List Nat) (sym : Nat) : (symbolBits lens sym).length = lens.getD sym 0 :=
  length_fieldBits _ _

/-- The bits of a field, the most significant first. -/
theorem getElem?_fieldBits {n : Nat} (v : Nat) {i : Nat} (hi : i < n) :
    (fieldBits n v)[i]? = some (v.testBit (n - 1 - i)) := by
  induction n generalizing i with
  | zero => omega
  | succ n ih =>
    cases i with
    | zero => rfl
    | succ i =>
      rw [fieldBits, List.getElem?_cons_succ, ih (by omega)]
      congr 2
      omega

@[simp] theorem length_bitsAhead (r : Reader) (n : Nat) : (bitsAhead r n).length = n := by simp [bitsAhead]

theorem getElem?_bitsAhead (r : Reader) {n i : Nat} (hi : i < n) : (bitsAhead r n)[i]? = some (bitAhead r i) := by
  simp [bitsAhead, hi]

theorem bitsValue_range_testBit (f : Nat → Bool) (n i : Nat) :
    (bitsValue ((List.range n).map f)).testBit i = (decide (i < n) && f (n - 1 - i)) := by
  induction n generalizing i with
  | zero => simp [bitsValue]
  | succ n ih =>
    have step : bitsValue ((List.range (n + 1)).map f) = 2 * bitsValue ((List.range n).map f) + (f n).toNat := by
      have app : ∀ (bs : List Bool) (b : Bool), bitsValue (bs ++ [b]) = 2 * bitsValue bs + b.toNat := by
        intro bs b
        induction bs with
        | nil => simp [bitsValue]
        | cons c bs ih =>
          simp only [List.cons_append, bitsValue, ih, List.length_append, List.length_singleton, Nat.pow_succ]
          ring
      rw [List.range_succ, List.map_append, List.map_singleton, app]
    rw [step]
    cases i with
    | zero =>
      rw [Nat.testBit_zero]
      cases hf : f n <;> simp [Nat.add_mod, hf]
    | succ i =>
      rw [Nat.testBit_succ, show (2 * bitsValue ((List.range n).map f) + (f n).toNat) / 2 = bitsValue ((List.range n).map f) by
        cases f n <;> simp <;> omega, ih]
      by_cases hi : i < n
      · simp [hi, show n - 1 - i = n - (i + 1) by omega]
      · simp [hi]

/-- The value of a read of `n` bits is the number the next `n` stream bits write, first bit most significant
(40_bitreader.md R132; 00_scope.md R10). -/
theorem getDesyncBits_value {r : Reader} (h : ReaderOk r) {n : Nat} (k : Nat) (hn : n ≤ 16) :
    (getDesyncBits n k r).1 = bitsValue (bitsAhead r n) := by
  have h16 := sixteen_le_refill_total r
  have h31 := (readerOk_refill h).total_le
  apply Nat.eq_of_testBit_eq
  intro i
  rw [bitsAhead, bitsValue_range_testBit]
  have e : (getDesyncBits n k r).1.testBit i =
      (((refill r).buffer >>> ((refill r).total - n)) &&& maskWord n).getLsbD i := rfl
  rw [e, BitVec.getLsbD_and, maskWord_getLsbD, BitVec.getLsbD_ushiftRight]
  by_cases hi : i < n
  · rw [← bitAhead_refill (r := r)]
    unfold bitAhead
    rw [if_pos (by omega)]
    simp [hi, show i < 32 by omega, show (refill r).total - n + i = (refill r).total - 1 - (n - 1 - i) by omega]
  · simp [hi]

/-- `CheckBit(i)` is the `i`-th bit ahead, for `i` up to `total` (40_bitreader.md R136). -/
theorem checkBit_eq_bitAhead (r : Reader) {i : Nat} (h1 : 1 ≤ i) (h : i ≤ r.total) :
    checkBit i r = (bitAhead r (i - 1)).toNat := by
  have hi : r.total - 1 - (i - 1) = r.total - i := by omega
  simp only [checkBit, bitAhead, show i - 1 < r.total by omega, if_true, hi]
  rw [BitVec.toNat_and, BitVec.toNat_ushiftRight, Nat.shiftRight_eq_div_pow]
  simp only [BitVec.getLsbD, Nat.testBit, Nat.shiftRight_eq_div_pow]
  rcases Nat.mod_two_eq_zero_or_one (r.buffer.toNat / 2 ^ (r.total - i)) with h | h <;> simp [h]

theorem Consumed.trans {m n : Nat} {a b c : Reader} (h1 : Consumed m a b) (h2 : Consumed n b c) : Consumed (m + n) a c := by
  intro k; rw [h2 k, h1 (n + k), Nat.add_assoc]

theorem getSyncBits_of_le {n : Nat} (hn : n ≤ 16) (r : Reader) :
    getSyncBits n r = if n = 0 then (0, r) else getDesyncBits n n r := by
  unfold getSyncBits; rw [if_pos hn]; rfl

theorem readerOk_getSyncBits {r : Reader} (h : ReaderOk r) (n : Nat) : ReaderOk (getSyncBits n r).2 := by
  have g16 : ∀ m {r : Reader}, ReaderOk r → ReaderOk (getSyncBits16 m r).2 := by
    intro m r h
    unfold getSyncBits16
    split
    · exact h
    · exact readerOk_getDesyncBits h _ _
  unfold Machine.getSyncBits
  split
  · exact g16 _ h
  · exact g16 _ (g16 _ h)

/-! ### Raw reads -/

theorem readerOk_readLE32 {r : Reader} (h : ReaderOk r) : ReaderOk (readLE32 r).2 :=
  readerOk_inByte (readerOk_inByte (readerOk_inByte (readerOk_inByte h)))

theorem readerOk_resync {r : Reader} (h : ReaderOk r) (n : Nat) : ReaderOk (resync n r) := by
  refine ⟨by simp [Machine.resync], by simp [Machine.resync], ?_, h.segLen_lt, h.inseg_wf⟩
  have := h.swath_le
  simp only [Machine.resync]
  split <;> omega

theorem readerOk_startSegment {r : Reader} (h : ReaderOk r) {n : Nat} (hn : n < 2 ^ 32) : ReaderOk (startSegment n r) :=
  ⟨by simp [Machine.startSegment], by simp [Machine.startSegment], by simp [Machine.startSegment], hn, h.inseg_wf⟩

theorem readerOk_getFields {r : Reader} (h : ReaderOk r) (n count : Nat) : ReaderOk (getFields n count r).2 := by
  induction count generalizing r with
  | zero => exact h
  | succ count ih => exact ih (readerOk_getSyncBits h n)

theorem getFields_length (n count : Nat) (r : Reader) : (getFields n count r).1.length = count := by
  induction count generalizing r with
  | zero => rfl
  | succ count ih => simp [getFields, ih]

/-! ### Which registers of the reader a read leaves -/

@[simp] theorem getSyncBits_inseg (n : Nat) (r : Reader) : (getSyncBits n r).2.inseg = r.inseg := by
  have g : ∀ m (r : Reader), (getSyncBits16 m r).2.inseg = r.inseg := by
    intro m r; unfold getSyncBits16; split <;> simp
  unfold getSyncBits; split <;> simp [g]

@[simp] theorem getSyncBits_segLen (n : Nat) (r : Reader) : (getSyncBits n r).2.segLen = r.segLen := by
  have g : ∀ m (r : Reader), (getSyncBits16 m r).2.segLen = r.segLen := by
    intro m r; unfold getSyncBits16; split <;> simp
  unfold getSyncBits; split <;> simp [g]

@[simp] theorem readLE32_inseg (r : Reader) : (readLE32 r).2.inseg = r.inseg := by simp [readLE32]
@[simp] theorem readLE32_segLen (r : Reader) : (readLE32 r).2.segLen = r.segLen := by simp [readLE32]

@[simp] theorem getFields_inseg (n count : Nat) (r : Reader) : (getFields n count r).2.inseg = r.inseg := by
  induction count generalizing r with
  | zero => rfl
  | succ count ih => simp [getFields, ih]

@[simp] theorem getFields_segLen (n count : Nat) (r : Reader) : (getFields n count r).2.segLen = r.segLen := by
  induction count generalizing r with
  | zero => rfl
  | succ count ih => simp [getFields, ih]

/-! ### Fields and the bits ahead -/

@[simp] theorem fieldBits_length (n v : Nat) : (fieldBits n v).length = n := by
  induction n with
  | zero => rfl
  | succ n ih => simp [fieldBits, ih]

theorem fieldBits_getElem? {n k : Nat} (v : Nat) (h : k < n) : (fieldBits n v)[k]? = some (v.testBit (n - 1 - k)) := by
  induction n generalizing k with
  | zero => omega
  | succ n ih =>
    cases k with
    | zero => simp [fieldBits]
    | succ k =>
      rw [fieldBits, List.getElem?_cons_succ, ih (by omega)]
      congr 2
      omega

/-- A field holds its value: `n` bits, most significant first (00_scope.md R10). -/
theorem bitsValue_fieldBits {n v : Nat} (h : v < 2 ^ n) : bitsValue (fieldBits n v) = v := by
  have hf : fieldBits n v = (List.range n).map fun k => v.testBit (n - 1 - k) := by
    apply List.ext_getElem?
    intro k
    by_cases hk : k < n
    · rw [fieldBits_getElem? v hk]; simp [hk]
    · rw [List.getElem?_eq_none (by simp; omega), List.getElem?_eq_none (by simp; omega)]
  rw [hf]
  apply Nat.eq_of_testBit_eq
  intro i
  rw [bitsValue_range_testBit (fun k => v.testBit (n - 1 - k))]
  by_cases hi : i < n
  · simp [hi, show n - 1 - (n - 1 - i) = i by omega]
  · simp only [hi, decide_false, Bool.false_and]
    exact (Nat.testBit_eq_false_of_lt (Nat.lt_of_lt_of_le h (Nat.pow_le_pow_right (by decide) (by omega)))).symm

@[simp] theorem bitsAhead_length (r : Reader) (n : Nat) : (bitsAhead r n).length = n := by simp [bitsAhead]

/-- The bits ahead, cut where a read stops. -/
theorem bitsAhead_append {m : Nat} {r r' : Reader} (h : Consumed m r r') (n : Nat) :
    bitsAhead r (m + n) = bitsAhead r m ++ bitsAhead r' n := by
  unfold bitsAhead
  rw [List.range_add, List.map_append, List.map_map]
  congr 1
  exact List.map_congr_left fun k _ => (h k).symm

end Sys2Proof.Machine
end

