-- ==== Sys2Proof/Laws/Huffman.lean ====
section
/-! SUPPORT. The laws of the Huffman unit: the size and the entries of a built table, and what `DecodeSymbol` answers
(41_huffman.md R151 to R158). -/

namespace Sys2Proof.Machine

open Sys2Proof.Safety

/-! ### The size and the entries of a table under construction -/

@[simp] theorem fillSlots_length (T : List Nat) (pos v n : Nat) : (fillSlots T pos v n).length = T.length := by
  induction n generalizing T pos with
  | zero => rfl
  | succ n ih => simp [fillSlots, ih]

theorem mem_set_lt {T : List Nat} {B i v : Nat} (h : ∀ e ∈ T, e < B) (hv : v < B) : ∀ e ∈ T.set i v, e < B := by
  intro e he
  rcases List.mem_or_eq_of_mem_set he with h' | rfl
  · exact h e h'
  · exact hv

theorem fillSlots_lt {T : List Nat} {B : Nat} (pos v n : Nat) (h : ∀ e ∈ T, e < B) (hv : v < B) :
    ∀ e ∈ fillSlots T pos v n, e < B := by
  induction n generalizing T pos with
  | zero => exact h
  | succ n ih => exact ih _ (mem_set_lt h hv)

/-- What every pass of the builder keeps: the table's size, entries below `B`. -/
def TableBound (size B : Nat) (b : Build) : Prop := b.table.length = size ∧ ∀ e ∈ b.table, e < B

theorem tableBound_directPass {size B tableMask bitMask bitNum : Nat} {ls : List Nat} {sym : Nat} {b : Build}
    (h : TableBound size B b) (hs : sym + ls.length ≤ B) :
    TableBound size B (directPass tableMask bitMask bitNum ls sym b) := by
  induction ls generalizing sym b with
  | nil => exact h
  | cons l ls ih =>
    simp only [List.length_cons] at hs
    unfold directPass
    split
    · exact h
    · split
      · split
        · exact h
        · exact ih ⟨by simpa using h.1, fillSlots_lt _ _ _ h.2 (by omega)⟩ (by omega)
      · exact ih h (by omega)

theorem tableBound_directPasses {size B tableMask : Nat} {lens : List Nat} (hs : lens.length ≤ B) (count bitNum bitMask : Nat)
    {b : Build} (h : TableBound size B b) : TableBound size B (directPasses lens tableMask count bitNum bitMask b) := by
  induction count generalizing bitNum bitMask b with
  | zero => exact h
  | succ count ih => exact ih _ _ (tableBound_directPass h (by omega))

theorem tableBound_threadStep {size B bit leaf : Nat} {b : Build} (h : TableBound size B b) (hB : size ≤ B) :
    TableBound size B (threadStep size bit leaf b).2 := by
  unfold threadStep
  split
  · split
    · exact h
    · refine ⟨by simpa using h.1, ?_⟩
      exact mem_set_lt (mem_set_lt (mem_set_lt h.2 (by omega)) (by omega)) (by omega)
  · exact h

theorem tableBound_threadCode {size B : Nat} (hB : size ≤ B) (count fill leaf : Nat) {b : Build}
    (h : TableBound size B b) : TableBound size B (threadCode size count fill leaf b).2 := by
  induction count generalizing fill leaf b with
  | zero => exact h
  | succ count ih =>
    simp only [threadCode]
    split
    · exact ih _ _ (tableBound_threadStep h hB)
    · exact tableBound_threadStep h hB

theorem tableBound_threadSymbol {size B tableMask bitMask levels sym : Nat} (hB : size ≤ B) (hs : sym < B) {b : Build}
    (h : TableBound size B b) : TableBound size B (threadSymbol size tableMask bitMask levels sym b) := by
  have h' := tableBound_threadCode hB levels 0 (b.pos >>> 16) h
  simp only [threadSymbol]
  split
  · split <;> exact ⟨by simpa using h'.1, mem_set_lt h'.2 hs⟩
  · exact h'

theorem tableBound_threadPass {size B tableMask bitMask bitNum tb : Nat} (hB : size ≤ B) {ls : List Nat} {sym : Nat}
    {b : Build} (h : TableBound size B b) (hs : sym + ls.length ≤ B) :
    TableBound size B (threadPass size tableMask bitMask bitNum tb ls sym b) := by
  induction ls generalizing sym b with
  | nil => exact h
  | cons l ls ih =>
    simp only [List.length_cons] at hs
    unfold threadPass
    split
    · exact h
    · split
      · exact ih (tableBound_threadSymbol hB (by omega) h) (by omega)
      · exact ih h (by omega)

theorem tableBound_threadPasses {size B tableMask tb : Nat} (hB : size ≤ B) {lens : List Nat} (hs : lens.length ≤ B)
    (count bitNum bitMask : Nat) {b : Build} (h : TableBound size B b) :
    TableBound size B (threadPasses lens size tableMask tb count bitNum bitMask b) := by
  induction count generalizing bitNum bitMask b with
  | zero => exact h
  | succ count ih => exact ih _ _ (tableBound_threadPass hB h (by omega))

/-- The builder's table has its size and 16-bit entries, whether or not the build raises a fault (10_state.md R37). -/
theorem tableBound_buildTableOf {lens : List Nat} {tb ms : Nat} (hs : lens.length ≤ 2 ^ 16)
    (hB : 2 ^ tb + 2 * ms ≤ 2 ^ 16) : TableBound (2 ^ tb + 2 * ms) (2 ^ 16) (buildTableOf lens tb ms) := by
  have h0 : TableBound (2 ^ tb + 2 * ms) (2 ^ 16)
      { table := List.replicate (2 ^ tb + 2 * ms) 0, pos := 0, next := max (2 ^ tb / 2) ms, ok := true } := by
    refine ⟨by simp, ?_⟩
    intro e he
    rw [List.eq_of_mem_replicate he]
    decide
  have h1 := tableBound_directPasses (tableMask := 2 ^ tb) hs tb 1 (2 ^ tb / 2) h0
  simp only [buildTableOf]
  split
  · exact h1
  · split
    · exact h1
    · exact tableBound_threadPasses hB hs _ _ _ ⟨by simpa using h1.1, fillSlots_lt _ _ _ h1.2 (by decide)⟩

theorem tableSize_le (t : Tree) : t.tableSize ≤ 2 ^ 16 := by cases t <;> decide

theorem bookOk_buildTable {t : Tree} {lens : List Nat} (h : lens.length = t.maxSymbols) (v : Bool) :
    BookOk t { table := (buildTable t lens).table, valid := v } := by
  have hs : lens.length ≤ 2 ^ 16 := by rw [h]; cases t <;> decide
  have := tableBound_buildTableOf (tb := t.tableBits) (ms := t.maxSymbols) hs (tableSize_le t)
  exact ⟨this.1, this.2⟩

/-! ### The symbol decoder -/

theorem walk_lt {ms : Nat} {T : List Nat} {r : Reader} {fuel x s y : Nat} (h : walk ms T r fuel x s = some y) : y < ms := by
  induction fuel generalizing x s with
  | zero => simp [walk] at h
  | succ fuel ih =>
    simp only [walk] at h
    split at h
    · simp_all
    · exact ih h

/-- What `DecodeSymbol` answers: a symbol of the alphabet, with its length consumed after the peek, or WALK_OVERRUN after
the peek (41_huffman.md R157, R158). -/
theorem decodeSymbol_cases (t : Tree) (lens T : List Nat) (r : Reader) :
    (∃ s, s < t.maxSymbols ∧ decodeSymbol t lens T r =
      .ok s (getSyncBits (lens.getD s 0) (getDesyncBits t.tableBits 0 r).2).2) ∨
    decodeSymbol t lens T r = .overrun (getDesyncBits t.tableBits 0 r).2 := by
  unfold decodeSymbol decodeSymbolOf
  simp only
  by_cases h : T.getD (getDesyncBits t.tableBits 0 r).1 0 < t.maxSymbols
  · left
    exact ⟨_, h, by rw [if_pos h]⟩
  · simp only [h, if_false]
    cases hw : walk t.maxSymbols T (getDesyncBits t.tableBits 0 r).2 (16 - t.tableBits) t.tableBits
        (T.getD (getDesyncBits t.tableBits 0 r).1 0) with
    | none => right; rfl
    | some s => left; exact ⟨s, walk_lt hw, rfl⟩

/-- A decoded symbol is one of the alphabet, and the reader after it is well kept, on the same segment. -/
theorem decodeSymbol_ok {t : Tree} {lens T : List Nat} {r r' : Reader} {s : Nat} (h : ReaderOk r)
    (hd : decodeSymbol t lens T r = .ok s r') :
    s < t.maxSymbols ∧ ReaderOk r' ∧ r'.inseg = r.inseg ∧ r'.segLen = r.segLen := by
  rcases decodeSymbol_cases t lens T r with ⟨s', hs, he⟩ | he
  · rw [he] at hd
    cases hd
    exact ⟨hs, readerOk_getSyncBits (readerOk_getDesyncBits h _ _) _, by simp, by simp⟩
  · rw [he] at hd; cases hd

theorem decodeSymbol_overrun {t : Tree} {lens T : List Nat} {r r' : Reader} (h : ReaderOk r)
    (hd : decodeSymbol t lens T r = .overrun r') :
    ReaderOk r' ∧ r'.inseg = r.inseg ∧ r'.segLen = r.segLen := by
  rcases decodeSymbol_cases t lens T r with ⟨s', hs, he⟩ | he
  · rw [he] at hd; cases hd
  · rw [he] at hd
    cases hd
    exact ⟨readerOk_getDesyncBits h _ _, by simp, by simp⟩

/-! ### Passes over arrays with no code of the pass's length -/

theorem directPass_none {tableMask bitMask bitNum : Nat} {ls : List Nat} (h : ∀ l ∈ ls, l ≠ bitNum) (sym : Nat) (b : Build) :
    directPass tableMask bitMask bitNum ls sym b = b := by
  induction ls generalizing sym b with
  | nil => rfl
  | cons l ls ih =>
    unfold directPass
    rw [if_neg (h l (by simp)), ih (fun l' h' => h l' (by simp [h']))]
    simp

theorem threadPass_none {size tableMask bitMask bitNum tb : Nat} {ls : List Nat} (h : ∀ l ∈ ls, l ≠ bitNum) (sym : Nat)
    (b : Build) : threadPass size tableMask bitMask bitNum tb ls sym b = b := by
  induction ls generalizing sym b with
  | nil => rfl
  | cons l ls ih =>
    unfold threadPass
    rw [if_neg (h l (by simp)), ih (fun l' h' => h l' (by simp [h']))]
    simp

end Sys2Proof.Machine
end

