-- ==== Sys2Proof/Laws/Decode.lean ====
section
/-! SUPPORT. What each decoding answers: an instruction with an encoding, or the fields a match latches, with the reader
well kept on the same segment (30_encoding.md R92 to R105). -/

namespace Sys2Proof.Machine

open Sys2Proof.Safety

/-- The reader `r'` is well kept and stands on the segment of `r`. -/
structure SameSegment (r r' : Reader) : Prop where
  ok : ReaderOk r'
  inseg : r'.inseg = r.inseg
  segLen : r'.segLen = r.segLen

theorem SameSegment.refl {r : Reader} (h : ReaderOk r) : SameSegment r r := ⟨h, rfl, rfl⟩

theorem SameSegment.trans {a b c : Reader} (h1 : SameSegment a b) (h2 : SameSegment b c) : SameSegment a c :=
  ⟨h2.ok, h2.inseg.trans h1.inseg, h2.segLen.trans h1.segLen⟩

theorem sameSegment_getSyncBits {r : Reader} (h : ReaderOk r) (n : Nat) : SameSegment r (getSyncBits n r).2 :=
  ⟨readerOk_getSyncBits h n, by simp, by simp⟩

theorem sameSegment_getFields {r : Reader} (h : ReaderOk r) (n count : Nat) : SameSegment r (getFields n count r).2 :=
  ⟨readerOk_getFields h n count, by simp, by simp⟩

theorem sameSegment_inByte {r : Reader} (h : ReaderOk r) : SameSegment r (inByte r).2 :=
  ⟨readerOk_inByte h, by simp, by simp⟩

theorem sameSegment_resync {r : Reader} (h : ReaderOk r) (n : Nat) : SameSegment r (resync n r) :=
  ⟨readerOk_resync h n, rfl, rfl⟩

theorem sameSegment_readLE32 {r : Reader} (h : ReaderOk r) : SameSegment r (readLE32 r).2 :=
  ⟨readerOk_readLE32 h, by simp, by simp⟩

/-- A match that waits for its LEN_FOOTER. -/
def FooterPending (slot : BitVec 6) (lenHdr : BitVec 3) : Prop := slot.toNat ≤ 49 ∧ lenHdr = 7

/-- A match that waits for its offset fields. -/
def OffsetPending (slot : BitVec 6) (lenHdr : BitVec 3) (footer : BitVec 8) : Prop :=
  slot.toNat ≤ 49 ∧ lengthWellFormed lenHdr footer = true

/-- A match that waits for its ALIGNED_SYM. -/
def AlignedPending (slot : BitVec 6) (lenHdr : BitVec 3) (footer : BitVec 8) (v : BitVec 14) : Prop :=
  OffsetPending slot lenHdr footer ∧ 3 ≤ extraBits slot.toNat ∧ v.toNat < 2 ^ (extraBits slot.toNat - 3)

/-- The answer of a decoding that began at `r`. -/
def GoodDecoded (r : Reader) : Decoded → Prop
  | .elem i r' => i.wellFormed = true ∧ SameSegment r r'
  | .latchMatch slot lenHdr r' => FooterPending slot lenHdr ∧ SameSegment r r'
  | .latchRaw slot lenHdr footer v r' => AlignedPending slot lenHdr footer v ∧ SameSegment r r'
  | .overrun _ r' => SameSegment r r'
  | .unbuilt _ => True

/-- A decoding that began later on the same segment. -/
theorem goodDecoded_of_sameSegment {r r' : Reader} {d : Decoded} (h : SameSegment r r') (hd : GoodDecoded r' d) :
    GoodDecoded r d := by
  cases d with
  | elem i r'' => exact ⟨hd.1, h.trans hd.2⟩
  | latchMatch slot lenHdr r'' => exact ⟨hd.1, h.trans hd.2⟩
  | latchRaw slot lenHdr footer v r'' => exact ⟨hd.1, h.trans hd.2⟩
  | overrun t r'' => exact h.trans hd
  | unbuilt t => trivial

theorem good_withSymbol {t : Tree} {cb : CodeBook} {r : Reader} {k : Nat → Reader → Decoded} (h : ReaderOk r)
    (hk : ∀ s r', s < t.maxSymbols → ReaderOk r' → GoodDecoded r' (k s r')) : GoodDecoded r (withSymbol t cb r k) := by
  unfold withSymbol
  split
  · cases hd : decodeSymbol t cb.lens cb.book.table r with
    | ok s r' =>
      obtain ⟨hs, hr, hi, hl⟩ := decodeSymbol_ok h hd
      exact goodDecoded_of_sameSegment ⟨hr, hi, hl⟩ (hk s r' hs hr)
    | overrun r' =>
      obtain ⟨hr, hi, hl⟩ := decodeSymbol_overrun h hd
      exact ⟨hr, hi, hl⟩
  · trivial

theorem good_decodePreamble {r : Reader} (h : ReaderOk r) : GoodDecoded r (decodePreamble r) := by
  have h1 := sameSegment_getSyncBits h 1
  have h2 := sameSegment_getSyncBits h1.ok 16
  have h3 := sameSegment_getSyncBits h2.ok 16
  simp only [decodePreamble]
  split
  · exact ⟨rfl, (h1.trans h2).trans h3⟩
  · exact ⟨rfl, h1⟩

theorem good_decodeHeader {r : Reader} (h : ReaderOk r) : GoodDecoded r (decodeHeader r) := by
  have h1 := sameSegment_getSyncBits h 3
  have h2 := sameSegment_getSyncBits h1.ok 16
  have h3 := sameSegment_getSyncBits h2.ok 8
  exact ⟨rfl, (h1.trans h2).trans h3⟩

theorem good_decodeAlignedLengths {r : Reader} (h : ReaderOk r) : GoodDecoded r (decodeAlignedLengths r) :=
  ⟨by simp [Instr.wellFormed], sameSegment_getFields h 3 8⟩

theorem good_decodePretreeLengths {r : Reader} (h : ReaderOk r) : GoodDecoded r (decodePretreeLengths r) :=
  ⟨by simp [Instr.wellFormed], sameSegment_getFields h 4 20⟩

/-- UNC_REPEATS is read whatever the bytes are. -/
theorem decodeUncRepeats_elem {r : Reader} (h : ReaderOk r) (n : Nat) :
    ∃ r0 r1 r2 r', decodeUncRepeats n r = .elem (.uncRepeats r0 r1 r2) r' ∧ SameSegment r r' := by
  have h0 := sameSegment_resync h n
  have h1 := sameSegment_readLE32 h0.ok
  have h2 := sameSegment_readLE32 h1.ok
  have h3 := sameSegment_readLE32 h2.ok
  simp only [decodeUncRepeats]
  exact ⟨_, _, _, _, rfl, ((h0.trans h1).trans h2).trans h3⟩

theorem good_decodeUncByte {r : Reader} (h : ReaderOk r) : GoodDecoded r (decodeUncByte r) := ⟨rfl, sameSegment_inByte h⟩

theorem good_decodeUncPad {r : Reader} (h : ReaderOk r) : GoodDecoded r (decodeUncPad r) := ⟨rfl, sameSegment_inByte h⟩

theorem good_decodePtop {cb : CodeBook} {r : Reader} (h : ReaderOk r) : GoodDecoded r (decodePtop cb r) := by
  refine good_withSymbol h ?_
  intro z r' hz hr
  change z < 20 at hz
  have h4 := sameSegment_getSyncBits hr 4
  have h5 := sameSegment_getSyncBits hr 5
  have h1 := sameSegment_getSyncBits hr 1
  simp only
  split
  · exact ⟨by simp [Instr.wellFormed]; omega, SameSegment.refl hr⟩
  · split
    · exact ⟨rfl, h4⟩
    · split
      · exact ⟨rfl, h5⟩
      · refine goodDecoded_of_sameSegment h1 (good_withSymbol h1.ok ?_)
        intro z2 r'' hz2 hr2
        change z2 < 20 at hz2
        exact ⟨by simp [Instr.wellFormed]; omega, SameSegment.refl hr2⟩

/-! ### Items -/

theorem extraBits_le (slot : Nat) : extraBits slot ≤ 17 := by
  by_cases h : slot < 51
  · interval_cases slot <;> decide
  · have : extraBitsTable.length ≤ slot := by
      have : extraBitsTable.length = 51 := by decide
      omega
    simp [extraBits, List.getElem?_eq_none this]

theorem getSyncBits_lt {n : Nat} {r : Reader} : (getSyncBits n r).1 < 2 ^ n := by
  have g16 : ∀ m (r : Reader), (getSyncBits16 m r).1 < 2 ^ m := by
    intro m r
    unfold getSyncBits16
    split
    · exact Nat.two_pow_pos m
    · rw [show (getDesyncBits m m r).1 =
        (((refill r).buffer >>> ((refill r).total - m)) &&& maskWord m).toNat from rfl, toNat_lt_iff_getLsbD]
      intro i hi
      rw [BitVec.getLsbD_and, maskWord_getLsbD]
      simp [show ¬ i < m by omega]
  unfold getSyncBits
  split
  · exact g16 n r
  · have h1 := g16 (n - 16) r
    have h2 := g16 16 (getSyncBits16 (n - 16) r).2
    have e : 2 ^ n = 2 ^ (n - 16) * 2 ^ 16 := by rw [← Nat.pow_add]; congr 1; omega
    simp only
    rw [e]
    omega

theorem good_decodeOffset {at3 : Bool} {kind : BlockType} {slot : BitVec 6} {lenHdr : BitVec 3} {footer : BitVec 8}
    {r : Reader} (h : ReaderOk r) (hp : OffsetPending slot lenHdr footer) :
    GoodDecoded r (decodeOffset at3 kind slot lenHdr footer r) := by
  have hraw := @getSyncBits_lt (extraBits slot.toNat - 3) r
  have hext := @getSyncBits_lt (extraBits slot.toNat) r
  have hle := extraBits_le slot.toNat
  have h17 : ∀ n, n ≤ 17 → 2 ^ n ≤ 2 ^ 17 := fun n hn => Nat.pow_le_pow_right (by omega) hn
  have h14 : ∀ n, n ≤ 14 → 2 ^ n ≤ 2 ^ 14 := fun n hn => Nat.pow_le_pow_right (by omega) hn
  have full : slot ≠ 0 → slot ≠ 1 → slot ≠ 2 →
      explicitWellFormed slot (BitVec.ofNat 17 (getSyncBits (extraBits slot.toNat) r).1) = true := by
    intro h0 h1 h2
    have := h17 _ hle
    have e0 : slot.toNat ≠ 0 := fun e => h0 (BitVec.eq_of_toNat_eq e)
    have e1 : slot.toNat ≠ 1 := fun e => h1 (BitVec.eq_of_toNat_eq e)
    have e2 : slot.toNat ≠ 2 := fun e => h2 (BitVec.eq_of_toNat_eq e)
    have hm : (getSyncBits (extraBits slot.toNat) r).1 % 131072 < 2 ^ extraBits slot.toNat := by
      rw [Nat.mod_eq_of_lt (by omega)]; exact hext
    have := hp.1
    simp only [explicitWellFormed, BitVec.toNat_ofNat, Bool.and_eq_true, decide_eq_true_eq]
    exact ⟨⟨by omega, by omega⟩, hm⟩
  have hl := hp.2
  simp only [decodeOffset]
  split
  · exact ⟨hl, SameSegment.refl h⟩
  · split
    · exact ⟨hl, SameSegment.refl h⟩
    · split
      · exact ⟨hl, SameSegment.refl h⟩
      · rename_i h0 h1 h2
        split
        · split
          · rename_i hn
            refine ⟨⟨hp, by omega, ?_⟩, sameSegment_getSyncBits h _⟩
            have := h14 (extraBits slot.toNat - 3) (by omega)
            rw [BitVec.toNat_ofNat, Nat.mod_eq_of_lt (by omega)]
            exact hraw
          · split
            · rename_i hn
              exact ⟨⟨hp, by omega, by simp⟩, SameSegment.refl h⟩
            · exact ⟨by simp only [Instr.wellFormed, hl, full h0 h1 h2, Bool.and_self], sameSegment_getSyncBits h _⟩
        · exact ⟨by simp only [Instr.wellFormed, hl, full h0 h1 h2, Bool.and_self], sameSegment_getSyncBits h _⟩

theorem good_decodeItem {at3 : Bool} {kind : BlockType} {cb : CodeBook} {r : Reader} (h : ReaderOk r) :
    GoodDecoded r (decodeItem at3 kind cb r) := by
  refine good_withSymbol h ?_
  intro s r' hs hr
  change s < 656 at hs
  simp only
  split
  · exact ⟨rfl, SameSegment.refl hr⟩
  · have h49 : (BitVec.ofNat 6 ((s - 256) / 8)).toNat ≤ 49 := by simp; omega
    generalize BitVec.ofNat 6 ((s - 256) / 8) = slot at h49
    generalize BitVec.ofNat 3 ((s - 256) % 8) = lenHdr
    by_cases h7 : lenHdr = 7
    · rw [if_pos h7]
      exact ⟨⟨h49, h7⟩, SameSegment.refl hr⟩
    · rw [if_neg h7]
      exact good_decodeOffset hr ⟨h49, by simp [lengthWellFormed]⟩

theorem good_decodeFooter {cb : CodeBook} {r : Reader} (h : ReaderOk r) : GoodDecoded r (decodeFooter cb r) := by
  refine good_withSymbol h ?_
  intro f r' hf hr
  change f < 250 at hf
  exact ⟨by simp [Instr.wellFormed]; omega, SameSegment.refl hr⟩

theorem good_decodeAlignedSym {cb : CodeBook} {r : Reader} (h : ReaderOk r) : GoodDecoded r (decodeAlignedSym cb r) := by
  refine good_withSymbol h ?_
  intro a r' _ hr
  exact ⟨rfl, SameSegment.refl hr⟩

end Sys2Proof.Machine
end

