-- ==== Sys2Proof/Laws/E8.lean ====
section
/-! SUPPORT. The laws of the Intel E8 stage: the canonical form, the bytes it leaves, and what its scan visits
(45_e8_transform.md R260 to R268). -/

namespace Sys2Proof.Machine

open Sys2Proof.Safety

theorem wf_e8Rewrite {out : Memory} (h : Memory.wf out = true) (streamPos fileSize i : Nat) :
    Memory.wf (e8Rewrite streamPos fileSize i out) = true := by
  unfold e8Rewrite
  split
  · exact Memory.wf_writeLE h _ _ _
  · exact h

/-- A rewrite changes the four operand bytes only. -/
theorem read_e8Rewrite_outside {out : Memory} (h : Memory.wf out = true) (streamPos fileSize i : Nat) {a : Nat}
    (ha : a ≤ i ∨ i + 5 ≤ a) : Memory.read (e8Rewrite streamPos fileSize i out) a = Memory.read out a := by
  unfold e8Rewrite
  split
  · exact Memory.read_writeLE_outside h _ _ _ (by omega)
  · rfl

theorem wf_e8Scan {out : Memory} (h : Memory.wf out = true) (streamPos fileSize limit fuel i : Nat) :
    Memory.wf (e8Scan streamPos fileSize limit fuel i out) = true := by
  induction fuel generalizing i out with
  | zero => exact h
  | succ fuel ih =>
    unfold e8Scan
    split
    · split
      · exact ih (wf_e8Rewrite h _ _ _) _
      · exact ih h _
    · exact h

/-- A scan leaves the bytes up to where it starts, and those past the last operand it can reach. -/
theorem read_e8Scan_outside {out : Memory} (h : Memory.wf out = true) (streamPos fileSize limit fuel i : Nat) {a : Nat}
    (ha : a ≤ i ∨ limit + 4 ≤ a) :
    Memory.read (e8Scan streamPos fileSize limit fuel i out) a = Memory.read out a := by
  induction fuel generalizing i out with
  | zero => rfl
  | succ fuel ih =>
    unfold e8Scan
    split
    · split
      · rw [ih (wf_e8Rewrite h _ _ _) _ (by omega), read_e8Rewrite_outside h _ _ _ (by omega)]
      · exact ih h _ (by omega)
    · rfl

/-- A scan that meets no E8 byte changes nothing. -/
theorem e8Scan_none {out : Memory} {limit i : Nat} (streamPos fileSize fuel : Nat)
    (h : ∀ j, i ≤ j → j < limit → Memory.read out j ≠ 0xE8) :
    e8Scan streamPos fileSize limit fuel i out = out := by
  induction fuel generalizing i with
  | zero => rfl
  | succ fuel ih =>
    unfold e8Scan
    split
    · rename_i hi
      rw [if_neg (h i (Nat.le_refl _) hi)]
      exact ih fun j hj => h j (by omega)
    · rfl

/-- A scan that meets exactly one E8 byte rewrites its operand. -/
theorem e8Scan_single {out : Memory} {limit i k : Nat} (streamPos fileSize fuel : Nat) (hwf : Memory.wf out = true)
    (hik : i ≤ k) (hk : k < limit) (hfuel : limit ≤ i + fuel) (h8 : Memory.read out k = 0xE8)
    (h : ∀ j, i ≤ j → j < limit → j ≠ k → Memory.read out j ≠ 0xE8) :
    e8Scan streamPos fileSize limit fuel i out = e8Rewrite streamPos fileSize k out := by
  induction fuel generalizing i with
  | zero => omega
  | succ fuel ih =>
    unfold e8Scan
    rw [if_pos (by omega)]
    by_cases hi : i = k
    · subst hi
      rw [if_pos h8]
      refine e8Scan_none _ _ _ fun j hj hjl => ?_
      rw [read_e8Rewrite_outside hwf _ _ _ (by omega)]
      exact h j (by omega) hjl (by omega)
    · rw [if_neg (h i (Nat.le_refl _) (by omega) hi)]
      exact ih (by omega) (by omega) fun j hj => h j (by omega)

/-- The stops of a scan: the E8 bytes before the limit that no operand of an earlier stop covers, in rising order. The scan
rewrites the operand at each of them, and nothing else (45_e8_transform.md R261, R264). -/
theorem e8Scan_stops {out : Memory} (hwf : Memory.wf out = true) (streamPos fileSize limit fuel i : Nat)
    (hfuel : limit ≤ i + fuel) :
    ∃ stops : List Nat, stops.Pairwise (· < ·) ∧
      (∀ j, j ∈ stops ↔
        i ≤ j ∧ j < limit ∧ Memory.read out j = 0xE8 ∧ ∀ k ∈ stops, ¬ (k < j ∧ j ≤ k + 4)) ∧
      e8Scan streamPos fileSize limit fuel i out =
        stops.foldl (fun out k => e8Rewrite streamPos fileSize k out) out := by
  induction fuel generalizing i out with
  | zero => exact ⟨[], .nil, fun j => ⟨nofun, fun h => by omega⟩, rfl⟩
  | succ fuel ih =>
    unfold e8Scan
    by_cases hi : i < limit
    · rw [if_pos hi]
      by_cases h8 : Memory.read out i = 0xE8
      · rw [if_pos h8]
        obtain ⟨stops, hpair, hmem, heq⟩ := ih (wf_e8Rewrite hwf streamPos fileSize i) (i + 5) (by omega)
        have hge : ∀ j ∈ stops, i + 5 ≤ j := fun j hj => ((hmem j).1 hj).1
        refine ⟨i :: stops, List.pairwise_cons.2 ⟨fun j hj => by have := hge j hj; omega, hpair⟩, fun j => ?_, heq⟩
        constructor
        · intro hj
          rcases List.mem_cons.1 hj with rfl | hj
          · refine ⟨Nat.le_refl _, hi, h8, fun k hk => ?_⟩
            rcases List.mem_cons.1 hk with rfl | hk
            · omega
            · have := hge k hk; omega
          · obtain ⟨h1, h2, h3, h4⟩ := (hmem j).1 hj
            rw [read_e8Rewrite_outside hwf _ _ _ (by omega)] at h3
            refine ⟨by omega, h2, h3, fun k hk => ?_⟩
            rcases List.mem_cons.1 hk with rfl | hk
            · omega
            · exact h4 k hk
        · rintro ⟨h1, h2, h3, h4⟩
          by_cases hji : j = i
          · exact hji ▸ List.mem_cons_self
          · have hfar := h4 i List.mem_cons_self
            refine List.mem_cons_of_mem _ ((hmem j).2 ⟨by omega, h2, ?_, fun k hk => h4 k (List.mem_cons_of_mem _ hk)⟩)
            rw [read_e8Rewrite_outside hwf _ _ _ (by omega)]
            exact h3
      · rw [if_neg h8]
        obtain ⟨stops, hpair, hmem, heq⟩ := ih hwf (i + 1) (by omega)
        refine ⟨stops, hpair, fun j => (hmem j).trans ⟨fun h => ⟨by omega, h.2⟩, fun h => ⟨?_, h.2⟩⟩, heq⟩
        have hne : j ≠ i := fun e => h8 (e ▸ h.2.2.1)
        omega
    · rw [if_neg hi]
      exact ⟨[], .nil, fun j => ⟨nofun, fun h => by omega⟩, rfl⟩

theorem wf_out_e8Stage {s : State} (h : Memory.wf s.out = true) : Memory.wf (e8Stage s).out = true := by
  unfold e8Stage
  split
  · exact wf_e8Scan h _ _ _ _ _
  · exact h

/-- The condition of the stage, in the words of 45_e8_transform.md R260. -/
theorem e8Enabled_iff (s : State) : e8Enabled s = true ↔ E8Conditions s := by
  simp only [e8Enabled, E8Conditions, Bool.and_eq_true, decide_eq_true_eq, and_assoc, gt_iff_lt]
  rfl

end Sys2Proof.Machine
end

