-- ==== Sys2Proof/Laws/HuffmanBuild.lean ====
section
/-! SUPPORT. The laws of the table builder's contents: where a code's entries stand after phase 1 and phase 2, where every
walk through a finished table ends, and that DecodeSymbol follows it (41_huffman.md R151 to R158; 30_encoding.md R106). -/

namespace Sys2Proof.Machine

open Sys2Proof.Safety

/-! ### Phase 1: positions -/

/-- All the codes of one length, as code space: their number times the space of one. -/
theorem codeSpaceAt_eq_count (len : Nat) {sym : Nat} {ls : List Nat} {k : Nat} (h : k + ls.length ≤ sym) :
    codeSpaceAt len sym ls k = ls.count len * 2 ^ (16 - len) := by
  induction ls generalizing k with
  | nil => simp [codeSpaceAt]
  | cons l ls ih =>
    simp only [List.length_cons] at h
    rw [codeSpaceAt, ih (by omega), List.count_cons]
    by_cases hl : l = len
    · simp [hl, show k < sym by omega, Nat.add_mul, Nat.add_comm]
    · simp [hl]

theorem codeSpaceBelow_succ (lens : List Nat) (len : Nat) :
    codeSpaceBelow lens (len + 1) = codeSpaceBelow lens len + lens.count (len + 1) * 2 ^ (16 - (len + 1)) := by
  rw [codeSpaceBelow, codeSpaceAt_eq_count _ (by omega)]

theorem codeSpaceBelow_mono {lens : List Nat} {a b : Nat} (h : a ≤ b) : codeSpaceBelow lens a ≤ codeSpaceBelow lens b := by
  induction h with
  | refl => exact Nat.le_refl _
  | step _ ih => exact Nat.le_trans ih (by rw [codeSpaceBelow_succ]; omega)

/-- One pass of phase 1 raises TABLE_OVERFLOW exactly where its codes pass the direct region, and otherwise moves `pos`
past them (41_huffman.md R151, R154 (a)). -/
theorem directPass_ok {tableMask bitMask bitNum : Nat} {ls : List Nat} (sym : Nat) {b : Build} (hb : b.ok = true)
    (hp : b.pos ≤ tableMask) :
    (directPass tableMask bitMask bitNum ls sym b).ok = decide (b.pos + ls.count bitNum * bitMask ≤ tableMask) := by
  induction ls generalizing sym b with
  | nil => simp [directPass, hb, hp]
  | cons l ls ih =>
    unfold directPass
    rw [if_neg (by simp [hb])]
    by_cases hl : l = bitNum
    · rw [if_pos hl]
      simp only [hl, List.count_cons_self, Nat.add_mul, Nat.one_mul]
      split
      · simp; omega
      · refine (ih (sym + 1) (b := { b with table := fillSlots b.table b.pos sym bitMask, pos := b.pos + bitMask }) hb (by simp only; omega)).trans ?_
        simp only [decide_eq_decide]
        omega
    · rw [if_neg hl, ih (sym + 1) hb hp, List.count_cons_of_ne hl]

theorem directPass_pos {tableMask bitMask bitNum : Nat} {ls : List Nat} (sym : Nat) {b : Build} (hb : b.ok = true)
    (h : b.pos + ls.count bitNum * bitMask ≤ tableMask) :
    (directPass tableMask bitMask bitNum ls sym b).pos = b.pos + ls.count bitNum * bitMask := by
  induction ls generalizing sym b with
  | nil => simp [directPass]
  | cons l ls ih =>
    unfold directPass
    rw [if_neg (by simp [hb])]
    by_cases hl : l = bitNum
    · simp only [hl, List.count_cons_self, Nat.add_mul, Nat.one_mul] at h ⊢
      rw [if_pos trivial, if_neg (by omega)]
      refine (ih (sym + 1) (b := { b with table := fillSlots b.table b.pos sym bitMask, pos := b.pos + bitMask }) hb (by simp only; omega)).trans ?_
      simp only
      omega
    · rw [List.count_cons_of_ne hl] at h ⊢
      rw [if_neg hl, ih (sym + 1) hb h]

@[simp] theorem directPass_next {tableMask bitMask bitNum : Nat} {ls : List Nat} (sym : Nat) (b : Build) :
    (directPass tableMask bitMask bitNum ls sym b).next = b.next := by
  induction ls generalizing sym b with
  | nil => rfl
  | cons l ls ih => unfold directPass; split <;> [rfl; split <;> [split <;> [rfl; rw [ih]]; rw [ih]]]

@[simp] theorem directPasses_next {lens : List Nat} {tableMask : Nat} (count bitNum bitMask : Nat) (b : Build) :
    (directPasses lens tableMask count bitNum bitMask b).next = b.next := by
  induction count generalizing bitNum bitMask b with
  | zero => rfl
  | succ count ih => simp [directPasses, ih]

theorem directPass_of_failed {tableMask bitMask bitNum : Nat} {ls : List Nat} (sym : Nat) {b : Build} (hb : b.ok = false) :
    directPass tableMask bitMask bitNum ls sym b = b := by
  cases ls with
  | nil => rfl
  | cons l ls => simp [directPass, hb]

theorem directPasses_of_failed {lens : List Nat} {tableMask : Nat} (count bitNum bitMask : Nat) {b : Build}
    (hb : b.ok = false) : directPasses lens tableMask count bitNum bitMask b = b := by
  induction count generalizing bitNum bitMask with
  | zero => rfl
  | succ count ih => rw [directPasses, directPass_of_failed 0 hb, ih]

/-- The passes of phase 1 at the lengths `bitNum … tb`: they raise TABLE_OVERFLOW exactly where the codes of the lengths
`1 … tb` pass the code space, and otherwise `pos` is their code space (41_huffman.md R151, R154 (a)). -/
theorem directPasses_spec {lens : List Nat} {tb : Nat} (htb : tb ≤ 16) {count bitNum : Nat} {b : Build}
    (hn : bitNum + count = tb + 1) (h1 : 1 ≤ bitNum) (hb : b.ok = true) (hp : b.pos ≤ 2 ^ tb)
    (hs : b.pos * 2 ^ (16 - tb) = codeSpaceBelow lens (bitNum - 1)) :
    let b' := directPasses lens (2 ^ tb) count bitNum (2 ^ tb / 2 ^ bitNum) b
    (b'.ok = true ↔ codeSpaceBelow lens tb ≤ 2 ^ 16) ∧
      (b'.ok = true → b'.pos ≤ 2 ^ tb ∧ b'.pos * 2 ^ (16 - tb) = codeSpaceBelow lens tb) := by
  have h16 : 2 ^ tb * 2 ^ (16 - tb) = 2 ^ 16 := by rw [← Nat.pow_add]; congr 1; omega
  induction count generalizing bitNum b with
  | zero =>
    have : bitNum - 1 = tb := by omega
    rw [this] at hs
    simp only [directPasses, hb, true_iff, true_implies]
    refine ⟨?_, hp, hs⟩
    rw [← hs, ← h16]
    exact Nat.mul_le_mul_right _ hp
  | succ count ih =>
    have hm : 2 ^ tb / 2 ^ bitNum = 2 ^ (tb - bitNum) := Nat.pow_div (by omega) (by decide)
    have hm' : 2 ^ tb / 2 ^ bitNum / 2 = 2 ^ tb / 2 ^ (bitNum + 1) := by rw [Nat.div_div_eq_div_mul, Nat.pow_succ]
    have hsucc := codeSpaceBelow_succ lens (bitNum - 1)
    rw [show bitNum - 1 + 1 = bitNum by omega] at hsucc
    have hu : 2 ^ (tb - bitNum) * 2 ^ (16 - tb) = 2 ^ (16 - bitNum) := by rw [← Nat.pow_add]; congr 1; omega
    have hspace : (b.pos + lens.count bitNum * 2 ^ (tb - bitNum)) * 2 ^ (16 - tb) = codeSpaceBelow lens bitNum := by
      rw [Nat.add_mul, hs, Nat.mul_assoc, hu, hsucc]
    simp only [directPasses, hm']
    by_cases hle : b.pos + lens.count bitNum * 2 ^ (tb - bitNum) ≤ 2 ^ tb
    · refine ih (by omega) (by omega) ?_ ?_ ?_
      · rw [directPass_ok 0 hb hp, hm]; simpa using hle
      · rw [hm, directPass_pos 0 hb hle]; exact hle
      · rw [hm, directPass_pos 0 hb hle]; simpa using hspace
    · have hf : (directPass (2 ^ tb) (2 ^ tb / 2 ^ bitNum) bitNum lens 0 b).ok = false := by
        rw [directPass_ok 0 hb hp, hm]; simpa using hle
      rw [directPasses_of_failed _ _ _ hf, hf]
      refine ⟨⟨by simp, fun h => ?_⟩, by simp⟩
      have h2 : codeSpaceBelow lens bitNum ≤ codeSpaceBelow lens tb := codeSpaceBelow_mono (by omega)
      have h3 : 2 ^ 16 < codeSpaceBelow lens bitNum := by
        rw [← hspace, ← h16]
        exact Nat.mul_lt_mul_of_pos_right (by omega) (Nat.two_pow_pos _)
      omega

/-! ### Paths through a table -/

/-- Where the walk of a 16-bit prefix `X` of the stream stands `j` levels below its direct slot (41_huffman.md R157). -/
def walkAt (tb : Nat) (T : List Nat) (X : Nat) : Nat → Nat
  | 0 => X / 2 ^ (16 - tb)
  | j + 1 => 2 * T.getD (walkAt tb T X j) 0 + X / 2 ^ (15 - tb - j) % 2

/-- The walk of `X` ends at level `d` on the entry `v`: the entries above are nodes, numbered from `n0`. -/
def WalkEnds (tb n0 : Nat) (T : List Nat) (X d v : Nat) : Prop :=
  (∀ j, j < d → n0 ≤ T.getD (walkAt tb T X j) 0) ∧ T.getD (walkAt tb T X d) 0 = v

/-- The block of prefixes that share the walk of `X` down to level `j`. -/
def blockOf (tb X j : Nat) : Nat := X / 2 ^ (16 - tb - j)

theorem blockOf_succ {tb X j : Nat} (hj : j < 16 - tb) :
    blockOf tb X (j + 1) / 2 = blockOf tb X j ∧ blockOf tb X (j + 1) % 2 = X / 2 ^ (15 - tb - j) % 2 := by
  unfold blockOf
  rw [Nat.div_div_eq_div_mul, ← Nat.pow_succ]
  constructor
  · congr 2; omega
  · congr 3; omega

theorem walkAt_congr {tb : Nat} {T : List Nat} {X X' j : Nat} (hj : j ≤ 16 - tb) (h : blockOf tb X j = blockOf tb X' j) :
    walkAt tb T X j = walkAt tb T X' j := by
  induction j with
  | zero => simpa [blockOf, walkAt] using h
  | succ j ih =>
    have h1 := blockOf_succ (tb := tb) (X := X) (j := j) (by omega)
    have h2 := blockOf_succ (tb := tb) (X := X') (j := j) (by omega)
    rw [walkAt, walkAt, ih (by omega) (by rw [← h1.1, ← h2.1, h]), ← h1.2, ← h2.2, h]

theorem blockOf_le {tb X X' : Nat} {i j : Nat} (hij : i ≤ j) (hj : j ≤ 16 - tb) (h : blockOf tb X j = blockOf tb X' j) :
    blockOf tb X i = blockOf tb X' i := by
  induction hij with
  | refl => exact h
  | @step m hm ih =>
    have h1 := blockOf_succ (tb := tb) (X := X) (j := m) (by omega)
    have h2 := blockOf_succ (tb := tb) (X := X') (j := m) (by omega)
    exact ih (by omega) (by rw [← h1.1, ← h2.1, h])

/-- Node numbers name one place each, so walks that meet have gone the same way. -/
theorem walkAt_inj {tb n0 : Nat} {T : List Nat} (hn0 : 2 ^ tb ≤ 2 * n0) (htb : tb ≤ 16)
    (huniq : ∀ i i', n0 ≤ T.getD i 0 → T.getD i 0 = T.getD i' 0 → i = i')
    {X X' j j' : Nat} (hX : X < 2 ^ 16) (hX' : X' < 2 ^ 16) (hj : j ≤ 16 - tb) (hj' : j' ≤ 16 - tb)
    (hp : ∀ k, k < j → n0 ≤ T.getD (walkAt tb T X k) 0) (hp' : ∀ k, k < j' → n0 ≤ T.getD (walkAt tb T X' k) 0)
    (h : walkAt tb T X j = walkAt tb T X' j') : j = j' ∧ blockOf tb X j = blockOf tb X' j' := by
  have hslot : ∀ x, x < 2 ^ 16 → x / 2 ^ (16 - tb) < 2 ^ tb := by
    intro x hx
    rw [Nat.div_lt_iff_lt_mul (Nat.two_pow_pos _), ← Nat.pow_add]
    simpa [show tb + (16 - tb) = 16 by omega] using hx
  induction j generalizing j' with
  | zero =>
    cases j' with
    | zero => exact ⟨rfl, by simpa [blockOf, walkAt] using h⟩
    | succ j' =>
      have := hp' j' (by omega)
      have := hslot X hX
      simp only [walkAt] at h
      omega
  | succ j ih =>
    have h1 := hp j (by omega)
    cases j' with
    | zero =>
      have := hslot X' hX'
      simp only [walkAt] at h
      omega
    | succ j' =>
      simp only [walkAt] at h
      have hb : X / 2 ^ (15 - tb - j) % 2 = X' / 2 ^ (15 - tb - j') % 2 := by omega
      have he : T.getD (walkAt tb T X j) 0 = T.getD (walkAt tb T X' j') 0 := by omega
      have := ih (by omega) (j' := j') (by omega) (fun k hk => hp k (by omega)) (fun k hk => hp' k (by omega))
        (huniq _ _ h1 he)
      obtain ⟨rfl, hbl⟩ := this
      refine ⟨rfl, ?_⟩
      have h2 := blockOf_succ (tb := tb) (X := X) (j := j) (by omega)
      have h3 := blockOf_succ (tb := tb) (X := X') (j := j) (by omega)
      omega

/-- A table that agrees with another along the walk of `X` has the same walk. -/
theorem walkAt_of_agree {tb : Nat} {T T' : List Nat} {X d : Nat}
    (h : ∀ j, j < d → T'.getD (walkAt tb T X j) 0 = T.getD (walkAt tb T X j) 0) :
    ∀ j, j ≤ d → walkAt tb T' X j = walkAt tb T X j := by
  intro j hj
  induction j with
  | zero => rfl
  | succ j ih => rw [walkAt, walkAt, ih (by omega), h j (by omega)]

theorem walkEnds_of_agree {tb n0 : Nat} {T T' : List Nat} {X d v : Nat} (hw : WalkEnds tb n0 T X d v)
    (h : ∀ j, j ≤ d → T'.getD (walkAt tb T X j) 0 = T.getD (walkAt tb T X j) 0) : WalkEnds tb n0 T' X d v := by
  have ha := walkAt_of_agree (d := d) (fun j hj => h j (Nat.le_of_lt hj))
  exact ⟨fun j hj => by rw [ha j (by omega), h j (by omega)]; exact hw.1 j hj,
    by rw [ha d (by omega), h d (by omega)]; exact hw.2⟩

/-! ### Code space -/

/-- Where the code space of a symbol starts, in units of `2^-16`. -/
def codeStart (lens : List Nat) (sym : Nat) : Nat :=
  codeSpaceBelow lens (lens.getD sym 0 - 1) + codeSpaceAt (lens.getD sym 0) sym lens 0

/-- Where the code space of the codes shorter than `len`, and of those of length `len` and symbols below `sym`, ends. -/
def spaceBefore (lens : List Nat) (len sym : Nat) : Nat := codeSpaceBelow lens (len - 1) + codeSpaceAt len sym lens 0

theorem codeSpaceAt_zero (len : Nat) (ls : List Nat) (k : Nat) : codeSpaceAt len 0 ls k = 0 := by
  induction ls generalizing k with
  | nil => rfl
  | cons l ls ih => simp [codeSpaceAt, ih]

theorem codeSpaceAt_succ (len s : Nat) (ls : List Nat) (k : Nat) :
    codeSpaceAt len (s + 1) ls k =
      codeSpaceAt len s ls k + (if k ≤ s ∧ ls[s - k]? = some len then 2 ^ (16 - len) else 0) := by
  induction ls generalizing k with
  | nil => simp [codeSpaceAt]
  | cons l ls ih =>
    rw [codeSpaceAt, codeSpaceAt, ih]
    rcases Nat.lt_trichotomy s k with h | rfl | h
    · simp [show ¬ k ≤ s by omega, show ¬ k + 1 ≤ s by omega, show ¬ k < s by omega, show ¬ k < s + 1 by omega]
    · simp [Nat.add_comm]
    · have : s - k = (s - (k + 1)) + 1 := by omega
      rw [this, List.getElem?_cons_succ]
      simp [show k ≤ s by omega, show k + 1 ≤ s by omega, h, show k < s + 1 by omega, Nat.add_assoc]

theorem codeSpaceAt_dvd (len sym : Nat) (ls : List Nat) (k : Nat) : 2 ^ (16 - len) ∣ codeSpaceAt len sym ls k := by
  induction ls generalizing k with
  | nil => exact ⟨0, rfl⟩
  | cons l ls ih =>
    rw [codeSpaceAt]
    refine Nat.dvd_add ?_ (ih _)
    split
    · exact ⟨1, by simp⟩
    · exact ⟨0, by simp⟩

theorem codeSpaceBelow_dvd (lens : List Nat) {len : Nat} (m : Nat) (h : m ≤ len) :
    2 ^ (16 - len) ∣ codeSpaceBelow lens m := by
  induction m with
  | zero => exact ⟨0, rfl⟩
  | succ m ih =>
    rw [codeSpaceBelow]
    exact Nat.dvd_add (ih (by omega)) (Nat.dvd_trans (Nat.pow_dvd_pow 2 (by omega)) (codeSpaceAt_dvd _ _ _ _))

theorem spaceBefore_dvd (lens : List Nat) (len sym : Nat) : 2 ^ (16 - len) ∣ spaceBefore lens len sym :=
  Nat.dvd_add (codeSpaceBelow_dvd lens _ (by omega)) (codeSpaceAt_dvd _ _ _ _)

theorem spaceBefore_succ {lens : List Nat} {len sym : Nat} (h : lens[sym]? = some len) :
    spaceBefore lens len (sym + 1) = spaceBefore lens len sym + 2 ^ (16 - len) := by
  simp [spaceBefore, codeSpaceAt_succ, h, Nat.add_assoc]

theorem spaceBefore_skip {lens : List Nat} {len sym : Nat} (h : lens[sym]? ≠ some len) :
    spaceBefore lens len (sym + 1) = spaceBefore lens len sym := by
  simp [spaceBefore, codeSpaceAt_succ, h]

theorem spaceBefore_last (lens : List Nat) {len : Nat} (h : 1 ≤ len) :
    spaceBefore lens len lens.length = spaceBefore lens (len + 1) 0 := by
  obtain ⟨n, rfl⟩ : ∃ n, len = n + 1 := ⟨len - 1, by omega⟩
  simp [spaceBefore, codeSpaceBelow, codeSpaceAt_zero]

theorem codeStart_eq {lens : List Nat} {len sym : Nat} (h : lens[sym]? = some len) :
    codeStart lens sym = spaceBefore lens len sym := by
  simp [codeStart, spaceBefore, List.getD_eq_getElem?_getD, h]

/-! ### What the builder keeps -/

/-- The first node number of a tree (41_huffman.md R151, R153). -/
def firstNode (tb ms : Nat) : Nat := max (2 ^ tb / 2) ms

/-- The entries of a table under construction: symbols, and nodes from `firstNode` on, each node in one place and with
its pair of children inside the table (41_huffman.md R153, R154 (b)). -/
structure NodesOk (tb ms size : Nat) (T : List Nat) (next : Nat) : Prop where
  length : T.length = size
  next_ge : firstNode tb ms ≤ next
  entry : ∀ i, T.getD i 0 < ms ∨
    (firstNode tb ms ≤ T.getD i 0 ∧ T.getD i 0 < next ∧ 2 * T.getD i 0 + 1 < size)
  uniq : ∀ i i', firstNode tb ms ≤ T.getD i 0 → T.getD i 0 = T.getD i' 0 → i = i'
  fresh : ∀ i, 2 * next ≤ i → T.getD i 0 = 0

/-- The walks of a table under construction: below the position `Y` every walk ends on a symbol; from `Y` on every walk
ends on a zero whose whole block lies ahead; no walk is longer than `lev` levels. -/
structure WalksOk (tb ms : Nat) (T : List Nat) (lev Y : Nat) : Prop where
  behind : ∀ X, X < 2 ^ 16 → X < Y → ∃ d v, d ≤ lev ∧ v < ms ∧ WalkEnds tb (firstNode tb ms) T X d v
  ahead : ∀ X, X < 2 ^ 16 → Y ≤ X → ∃ d, d ≤ lev ∧ WalkEnds tb (firstNode tb ms) T X d 0 ∧
    Y ≤ blockOf tb X d * 2 ^ (16 - tb - d)

/-- The codes of the lengths below `len`, and of length `len` of the symbols below `sym`, end on their symbols, at most
as deep as they are long. -/
def CodesPlaced (tb ms : Nat) (lens : List Nat) (T : List Nat) (len sym : Nat) : Prop :=
  ∀ y, 1 ≤ lens.getD y 0 → (lens.getD y 0 < len ∨ (lens.getD y 0 = len ∧ y < sym)) →
    ∀ X, codeStart lens y ≤ X → X < codeStart lens y + 2 ^ (16 - lens.getD y 0) →
      X < spaceBefore lens len sym ∧ ∃ d, d ≤ lens.getD y 0 - tb ∧ WalkEnds tb (firstNode tb ms) T X d y

theorem getD_set {T : List Nat} {i j v : Nat} (hi : i < T.length) :
    (T.set i v).getD j 0 = if j = i then v else T.getD j 0 := by
  simp only [List.getD_eq_getElem?_getD, List.getElem?_set]
  by_cases h : j = i
  · subst h; simp [hi]
  · simp [h, show ¬ i = j by omega]

theorem fillSlots_getD {T : List Nat} {pos v n j : Nat} (h : pos + n ≤ T.length) :
    (fillSlots T pos v n).getD j 0 = if pos ≤ j ∧ j < pos + n then v else T.getD j 0 := by
  induction n generalizing T pos with
  | zero => simp [fillSlots]
  | succ n ih =>
    rw [fillSlots, ih (by simp; omega), getD_set (by omega)]
    by_cases h1 : j = pos
    · subst h1; simp
    · by_cases h2 : pos + 1 ≤ j ∧ j < pos + 1 + n
      · rw [if_pos h2, if_pos (by omega)]
      · rw [if_neg h2, if_neg h1, if_neg (by omega)]

/-! ### Phase 1: contents -/

theorem slot_lt {tb X : Nat} (htb : tb ≤ 16) (hX : X < 2 ^ 16) : X / 2 ^ (16 - tb) < 2 ^ tb := by
  rw [Nat.div_lt_iff_lt_mul (Nat.two_pow_pos _), ← Nat.pow_add]
  simpa [show tb + (16 - tb) = 16 by omega] using hX

/-- The state of phase 1 with the codes before `(len, sym)` placed. -/
structure DirectOk (tb ms size : Nat) (lens : List Nat) (len sym : Nat) (b : Build) : Prop where
  nodes : NodesOk tb ms size b.table b.next
  zero : ∀ i, b.pos ≤ i → b.table.getD i 0 = 0
  symbols : ∀ i, b.table.getD i 0 < ms
  placed : ∀ y, 1 ≤ lens.getD y 0 → (lens.getD y 0 < len ∨ (lens.getD y 0 = len ∧ y < sym)) →
    ∀ X, codeStart lens y ≤ X → X < codeStart lens y + 2 ^ (16 - lens.getD y 0) →
      X < spaceBefore lens len sym ∧ b.table.getD (X / 2 ^ (16 - tb)) 0 = y
  pos : b.pos * 2 ^ (16 - tb) = spaceBefore lens len sym
  ok : b.ok = true

theorem directOk_step {tb ms size : Nat} {lens : List Nat} {len sym : Nat} {b : Build} (h : DirectOk tb ms size lens len sym b)
    (hl : lens[sym]? = some len) (hlen : len ≤ tb) (htb : tb ≤ 16) (hsym : sym < ms)
    (hsize : 2 ^ tb ≤ size) (hn : 2 ^ tb ≤ 2 * firstNode tb ms) (hms : ms ≤ firstNode tb ms)
    (hfit : b.pos + 2 ^ (tb - len) ≤ 2 ^ tb) :
    DirectOk tb ms size lens len (sym + 1)
      { b with table := fillSlots b.table b.pos sym (2 ^ (tb - len)), pos := b.pos + 2 ^ (tb - len) } := by
  have hget : ∀ j, (fillSlots b.table b.pos sym (2 ^ (tb - len))).getD j 0 =
      if b.pos ≤ j ∧ j < b.pos + 2 ^ (tb - len) then sym else b.table.getD j 0 :=
    fun j => fillSlots_getD (by rw [h.nodes.length]; omega)
  have hsymb : ∀ i, (fillSlots b.table b.pos sym (2 ^ (tb - len))).getD i 0 < ms := by
    intro i; rw [hget]; split
    · exact hsym
    · exact h.symbols i
  have hu : 2 ^ (tb - len) * 2 ^ (16 - tb) = 2 ^ (16 - len) := by rw [← Nat.pow_add]; congr 1; omega
  have hpos : (b.pos + 2 ^ (tb - len)) * 2 ^ (16 - tb) = spaceBefore lens len (sym + 1) := by
    rw [Nat.add_mul, h.pos, hu, spaceBefore_succ hl]
  refine ⟨⟨by simpa using h.nodes.length, h.nodes.next_ge, fun i => .inl (hsymb i), ?_, ?_⟩, ?_, hsymb, ?_, hpos, h.ok⟩
  · intro i i' hi
    exact absurd (Nat.lt_of_lt_of_le (hsymb i) hms) (Nat.not_lt.2 hi)
  · intro i hi
    have h4 := h.nodes.next_ge
    replace hi : 2 * b.next ≤ i := hi
    show (fillSlots b.table b.pos sym (2 ^ (tb - len))).getD i 0 = 0
    rw [hget, if_neg (by omega)]
    exact h.nodes.fresh i hi
  · intro i hi
    show (fillSlots b.table b.pos sym (2 ^ (tb - len))).getD i 0 = 0
    replace hi : b.pos + 2 ^ (tb - len) ≤ i := hi
    have := Nat.two_pow_pos (tb - len)
    rw [hget, if_neg (by omega)]
    exact h.zero i (by omega)
  · intro y hy1 hy X hX1 hX2
    have hlt : spaceBefore lens len sym ≤ spaceBefore lens len (sym + 1) := by rw [spaceBefore_succ hl]; omega
    show _ ∧ (fillSlots b.table b.pos sym (2 ^ (tb - len))).getD _ 0 = y
    rw [hget]
    by_cases hys : y = sym
    · have hls : lens.getD y 0 = len := by rw [hys, List.getD_eq_getElem?_getD, hl]; rfl
      rw [hys, codeStart_eq hl] at hX1 hX2
      rw [hys] at hls
      rw [hls, ← spaceBefore_succ hl, ← hpos] at hX2
      rw [← h.pos] at hX1
      have e1 : b.pos ≤ X / 2 ^ (16 - tb) := (Nat.le_div_iff_mul_le (Nat.two_pow_pos _)).2 hX1
      have e2 : X / 2 ^ (16 - tb) < b.pos + 2 ^ (tb - len) := (Nat.div_lt_iff_lt_mul (Nat.two_pow_pos _)).2 hX2
      rw [if_pos ⟨e1, e2⟩, ← hpos]
      exact ⟨hX2, hys.symm⟩
    · obtain ⟨e1, e2⟩ := h.placed y hy1 (by omega) X hX1 hX2
      refine ⟨by omega, ?_⟩
      rw [← h.pos] at e1
      have e3 : X / 2 ^ (16 - tb) < b.pos := (Nat.div_lt_iff_lt_mul (Nat.two_pow_pos _)).2 e1
      rw [if_neg (by omega)]
      exact e2

theorem directOk_skip {tb ms size : Nat} {lens : List Nat} {len sym : Nat} {b : Build} (h : DirectOk tb ms size lens len sym b)
    (hl : lens[sym]? ≠ some len) : DirectOk tb ms size lens len (sym + 1) b := by
  refine ⟨h.nodes, h.zero, h.symbols, ?_, by rw [spaceBefore_skip hl]; exact h.pos, h.ok⟩
  intro y hy1 hy
  rw [spaceBefore_skip hl]
  refine h.placed y hy1 ?_
  rcases hy with hy | ⟨hy, hys⟩
  · exact .inl hy
  · refine .inr ⟨hy, ?_⟩
    rcases Nat.lt_succ_iff_lt_or_eq.1 hys with h' | rfl
    · exact h'
    · exfalso; apply hl
      rw [List.getD_eq_getElem?_getD] at hy hy1
      cases he : lens[y]? with
      | none => simp [he] at hy1
      | some v => simp [he] at hy; rw [hy]

theorem getD_pos_lt {lens : List Nat} {y : Nat} (h : 1 ≤ lens.getD y 0) : y < lens.length := by
  rcases Nat.lt_or_ge y lens.length with h' | h'
  · exact h'
  · rw [List.getD_eq_getElem?_getD, List.getElem?_eq_none h'] at h
    simp at h

theorem directOk_next {tb ms size : Nat} {lens : List Nat} {len : Nat} {b : Build}
    (h : DirectOk tb ms size lens len lens.length b) (h1 : 1 ≤ len) : DirectOk tb ms size lens (len + 1) 0 b := by
  have hs := spaceBefore_last lens h1
  refine ⟨h.nodes, h.zero, h.symbols, ?_, by rw [← hs]; exact h.pos, h.ok⟩
  intro y hy1 hy
  rw [← hs]
  have := getD_pos_lt hy1
  exact h.placed y hy1 (by omega)

theorem directOk_pass {tb ms size : Nat} {lens : List Nat} {len : Nat} (hlen : len ≤ tb) (htb : tb ≤ 16)
    (hsize : 2 ^ tb ≤ size) (hn : 2 ^ tb ≤ 2 * firstNode tb ms) (hms : ms ≤ firstNode tb ms) (hlens : lens.length ≤ ms)
    {ls : List Nat} {sym : Nat} (hls : ls = lens.drop sym) (hsym : sym ≤ lens.length) {b : Build}
    (h : DirectOk tb ms size lens len sym b)
    (hok : (directPass (2 ^ tb) (2 ^ (tb - len)) len ls sym b).ok = true) :
    DirectOk tb ms size lens len lens.length (directPass (2 ^ tb) (2 ^ (tb - len)) len ls sym b) := by
  induction ls generalizing sym b with
  | nil =>
    have : lens.length ≤ sym := by simpa using hls.symm
    rw [directPass, show lens.length = sym by omega]
    exact h
  | cons l ls ih =>
    have hlt : sym < lens.length := by
      rcases Nat.lt_or_ge sym lens.length with h' | h'
      · exact h'
      · rw [List.drop_eq_nil_of_le h'] at hls; simp at hls
    rw [List.drop_eq_getElem_cons hlt] at hls
    obtain ⟨hl, hls⟩ := List.cons.inj hls
    unfold directPass at hok ⊢
    rw [if_neg (by simp [h.ok])] at hok ⊢
    by_cases hll : l = len
    · rw [if_pos hll] at hok ⊢
      by_cases hgt : b.pos + 2 ^ (tb - len) > 2 ^ tb
      · rw [if_pos hgt] at hok; simp at hok
      · rw [if_neg hgt] at hok ⊢
        exact ih hls (by omega)
          (directOk_step h (by rw [List.getElem?_eq_getElem hlt, ← hl, hll]) hlen htb (by omega) hsize hn hms (by omega)) hok
    · rw [if_neg hll] at hok ⊢
      exact ih hls (by omega) (directOk_skip h (by rw [List.getElem?_eq_getElem hlt, ← hl]; simpa using hll)) hok

theorem directOk_passes {tb ms size : Nat} {lens : List Nat} (htb : tb ≤ 16)
    (hsize : 2 ^ tb ≤ size) (hn : 2 ^ tb ≤ 2 * firstNode tb ms) (hms : ms ≤ firstNode tb ms) (hlens : lens.length ≤ ms)
    {count len : Nat} (hc : len + count = tb + 1) (h1 : 1 ≤ len) {b : Build} (h : DirectOk tb ms size lens len 0 b)
    (hok : (directPasses lens (2 ^ tb) count len (2 ^ tb / 2 ^ len) b).ok = true) :
    DirectOk tb ms size lens (tb + 1) 0 (directPasses lens (2 ^ tb) count len (2 ^ tb / 2 ^ len) b) := by
  induction count generalizing len b with
  | zero => rw [directPasses, ← hc]; exact h
  | succ count ih =>
    have hm : 2 ^ tb / 2 ^ len = 2 ^ (tb - len) := Nat.pow_div (by omega) (by decide)
    have hm' : 2 ^ tb / 2 ^ len / 2 = 2 ^ tb / 2 ^ (len + 1) := by rw [Nat.div_div_eq_div_mul, Nat.pow_succ]
    simp only [directPasses, hm'] at hok ⊢
    have hpass : (directPass (2 ^ tb) (2 ^ tb / 2 ^ len) len lens 0 b).ok = true := by
      by_cases hf : (directPass (2 ^ tb) (2 ^ tb / 2 ^ len) len lens 0 b).ok = true
      · exact hf
      · rw [directPasses_of_failed _ _ _ (by simpa using hf)] at hok; exact hok
    rw [hm] at hpass hok ⊢
    exact ih (by omega) (by omega)
      (directOk_next (directOk_pass (by omega) htb hsize hn hms hlens (ls := lens) rfl (by omega) h hpass) h1) hok

/-! ### Phase 2 -/

/-- The bounds of a tree's parameters that the builder rests on. -/
structure TreeShape (tb ms size : Nat) : Prop where
  tb_pos : 1 ≤ tb
  tb_le : tb ≤ 16
  slots_le : 2 ^ tb ≤ size
  nodes_above : 2 ^ tb ≤ 2 * firstNode tb ms
  symbols_below : ms ≤ firstNode tb ms
  symbol : 0 < ms

theorem walkAt_lt {tb ms size : Nat} (hs : TreeShape tb ms size) {T : List Nat} {next : Nat} (h : NodesOk tb ms size T next)
    {X j : Nat} (hX : X < 2 ^ 16) (hp : ∀ k, k < j → firstNode tb ms ≤ T.getD (walkAt tb T X k) 0) :
    walkAt tb T X j < size ∧ walkAt tb T X j < 2 * next := by
  have h0 := h.next_ge
  have h1 := hs.nodes_above
  have h2 := hs.slots_le
  cases j with
  | zero => have := slot_lt hs.tb_le hX; simp only [walkAt]; omega
  | succ j =>
    have h3 := hp j (by omega)
    have h4 := hs.symbols_below
    have h5 := h.entry (walkAt tb T X j)
    have h6 : X / 2 ^ (15 - tb - j) % 2 < 2 := Nat.mod_lt _ (by decide)
    simp only [walkAt]
    omega

/-- The walk of the position ends on a zero at the level it has reached. -/
theorem walk_level {tb ms size : Nat} (hs : TreeShape tb ms size) {T : List Nat} {X d j : Nat}
    (he : WalkEnds tb (firstNode tb ms) T X d 0) (hp : ∀ k, k < j → firstNode tb ms ≤ T.getD (walkAt tb T X k) 0) :
    j ≤ d ∧ (T.getD (walkAt tb T X j) 0 = 0 ↔ d = j) := by
  have h1 := hs.symbols_below
  have h2 := hs.symbol
  have hjd : j ≤ d := by
    rcases Nat.lt_or_ge d j with h | h
    · have := hp d h; rw [he.2] at this; omega
    · exact h
  refine ⟨hjd, fun h0 => ?_, fun hd => by rw [← hd]; exact he.2⟩
  rcases Nat.lt_or_ge j d with h | h
  · have := he.1 j h; omega
  · omega

theorem blockOf_mul_le (tb X j : Nat) : blockOf tb X j * 2 ^ (16 - tb - j) ≤ X := Nat.div_mul_le_self _ _

/-- A write at the zero where the walk of the position `Y` stands keeps every walk behind `Y`. -/
theorem walkEnds_behind {tb ms size : Nat} (hs : TreeShape tb ms size) {T T' : List Nat} {next lev Y j w : Nat}
    (hn : NodesOk tb ms size T next) (hw : WalksOk tb ms T lev Y) (hY : Y < 2 ^ 16) (hlev : lev ≤ 16 - tb)
    (hp : ∀ k, k < j → firstNode tb ms ≤ T.getD (walkAt tb T Y k) 0) (h0 : T.getD (walkAt tb T Y j) 0 = 0)
    (hT : ∀ i, T'.getD i 0 = if i = walkAt tb T Y j then w else T.getD i 0)
    {X d v : Nat} (hXY : X < Y) (hd : d ≤ 16 - tb) (he : WalkEnds tb (firstNode tb ms) T X d v) :
    WalkEnds tb (firstNode tb ms) T' X d v := by
  have h1 := hs.symbols_below
  have h2 := hs.symbol
  obtain ⟨dY, hdY, heY, hb⟩ := hw.ahead Y hY (Nat.le_refl _)
  obtain ⟨hj, hj'⟩ := walk_level hs heY hp
  have hdj : dY = j := hj'.1 h0
  subst hdj
  refine walkEnds_of_agree he fun k hk => ?_
  rw [hT]
  split
  · rename_i hloc
    rcases Nat.lt_or_ge k d with h | h
    · have := he.1 k h; rw [hloc, h0] at this; omega
    · have hkd : k = d := by omega
      subst hkd
      obtain ⟨rfl, hbl⟩ := walkAt_inj hs.nodes_above hs.tb_le hn.uniq (by omega) hY hd (by omega) he.1 hp hloc
      rw [← hbl] at hb
      have := blockOf_mul_le tb X k
      omega
  · rfl

/-- The allocation of a node on the way of the position (41_huffman.md R153). -/
theorem alloc_ok {tb ms size : Nat} (hs : TreeShape tb ms size) {T : List Nat} {next lev Y j : Nat}
    (hn : NodesOk tb ms size T next) (hw : WalksOk tb ms T lev Y) (hY : Y < 2 ^ 16) (hlev : lev ≤ 16 - tb) (hj : j < lev)
    (hp : ∀ k, k < j → firstNode tb ms ≤ T.getD (walkAt tb T Y k) 0) (h0 : T.getD (walkAt tb T Y j) 0 = 0)
    (hroom : 2 * next + 1 < size) {T' : List Nat}
    (hT' : T' = ((T.set (2 * next) 0).set (2 * next + 1) 0).set (walkAt tb T Y j) next) :
    (∀ i, T'.getD i 0 = if i = walkAt tb T Y j then next else T.getD i 0) ∧
      NodesOk tb ms size T' (next + 1) ∧ WalksOk tb ms T' lev Y := by
  have h1 := hs.symbols_below
  have h2 := hs.symbol
  have h3 := hn.next_ge
  obtain ⟨hl1, hl2⟩ := walkAt_lt hs hn hY hp
  have hT : ∀ i, T'.getD i 0 = if i = walkAt tb T Y j then next else T.getD i 0 := by
    intro i
    rw [hT', getD_set (by simpa [hn.length] using hl1), getD_set (by simpa [hn.length] using hroom),
      getD_set (by rw [hn.length]; omega)]
    split
    · rfl
    · split
      · rename_i h; rw [hn.fresh i (by omega)]
      · split
        · rename_i h; rw [hn.fresh i (by omega)]
        · rfl
  refine ⟨hT, ⟨by rw [hT']; simpa using hn.length, by omega, ?_, ?_, ?_⟩, ?_, ?_⟩
  · intro i
    rw [hT]
    split
    · exact .inr ⟨h3, by omega, hroom⟩
    · rcases hn.entry i with h | ⟨ha, hb, hc⟩
      · exact .inl h
      · exact .inr ⟨ha, by omega, hc⟩
  · intro i i' hi he
    have e1 := hn.entry i
    have e2 := hn.entry i'
    rw [hT] at hi he
    rw [hT] at he
    split at he <;> split at he
    · simp_all
    · omega
    · rename_i hne _; rw [if_neg hne] at hi; omega
    · rename_i hne _; rw [if_neg hne] at hi; exact hn.uniq i i' hi he
  · intro i hi
    rw [hT, if_neg (by omega)]
    exact hn.fresh i (by omega)
  · intro X hX hXY
    obtain ⟨d, v, hd, hv, he⟩ := hw.behind X hX hXY
    exact ⟨d, v, hd, hv, walkEnds_behind hs hn hw hY hlev hp h0 hT hXY (by omega) he⟩
  · intro X hX hXY
    obtain ⟨d, hd, he, hb⟩ := hw.ahead X hX hXY
    by_cases hloc : walkAt tb T X d = walkAt tb T Y j
    · obtain ⟨rfl, hbl⟩ := walkAt_inj hs.nodes_above hs.tb_le hn.uniq hX hY (by omega) (by omega) he.1 hp hloc
      have hag : ∀ k, k < d → T'.getD (walkAt tb T X k) 0 = T.getD (walkAt tb T X k) 0 := by
        intro k hk
        rw [hT, if_neg]
        intro h
        have := he.1 k hk
        rw [h, h0] at this
        omega
      have hwalk := walkAt_of_agree hag
      refine ⟨d + 1, hj, ⟨?_, ?_⟩, ?_⟩
      · intro k hk
        rw [hwalk k (by omega)]
        rcases Nat.lt_or_ge k d with h | h
        · rw [hag k h]; exact he.1 k h
        · rw [show k = d by omega, hT, if_pos hloc]; exact h3
      · rw [walkAt, hwalk d (Nat.le_refl _), hT (walkAt tb T X d), if_pos hloc, hT, if_neg (by omega)]
        exact hn.fresh _ (by omega)
      · have h4 := (blockOf_succ (tb := tb) (X := X) (j := d) (by omega)).1
        have h5 : blockOf tb X d * 2 ^ (16 - tb - d) = 2 * blockOf tb X d * 2 ^ (16 - tb - (d + 1)) := by
          rw [show 16 - tb - d = 16 - tb - (d + 1) + 1 by omega, Nat.pow_succ]
          rw [Nat.mul_comm 2 (blockOf tb X d), Nat.mul_assoc, Nat.mul_comm 2]
        have h6 : 2 * blockOf tb X d ≤ blockOf tb X (d + 1) := by omega
        have := Nat.mul_le_mul_right (2 ^ (16 - tb - (d + 1))) h6
        omega
    · refine ⟨d, hd, walkEnds_of_agree he fun k hk => ?_, hb⟩
      rw [hT, if_neg]
      intro h
      rcases Nat.lt_or_ge k d with hlt | hge
      · have := he.1 k hlt; rw [h, h0] at this; omega
      · exact hloc (by rw [← h, show k = d by omega])

@[simp] theorem threadStep_pos (size bit leaf : Nat) (b : Build) : (threadStep size bit leaf b).2.pos = b.pos := by
  unfold threadStep; split <;> [split <;> rfl; rfl]

@[simp] theorem threadCode_pos (size count fill leaf : Nat) (b : Build) : (threadCode size count fill leaf b).2.pos = b.pos := by
  induction count generalizing fill leaf b with
  | zero => rfl
  | succ count ih => simp only [threadCode]; split <;> simp [ih]

theorem pos_bit {tb Y j : Nat} (hj : j < 16 - tb) : (Y * 2 ^ tb) >>> (15 - j) % 2 = Y / 2 ^ (15 - tb - j) % 2 := by
  rw [Nat.shiftRight_eq_div_pow, show 15 - j = tb + (15 - tb - j) by omega, Nat.pow_add, ← Nat.div_div_eq_div_mul,
    Nat.mul_div_cancel _ (Nat.two_pow_pos _)]

/-- The walk of a long code, from level `j` to level `lev` (41_huffman.md R153). -/
theorem threadCode_ok {tb ms size : Nat} (hs : TreeShape tb ms size) {lev Y : Nat} (hY : Y < 2 ^ 16) (hlev : lev ≤ 16 - tb)
    {count j : Nat} (hc : j + count = lev) {b : Build} (hpos : b.pos = Y * 2 ^ tb)
    (hn : NodesOk tb ms size b.table b.next) (hw : WalksOk tb ms b.table lev Y)
    (hp : ∀ k, k < j → firstNode tb ms ≤ b.table.getD (walkAt tb b.table Y k) 0)
    (hok : (threadCode size count j (walkAt tb b.table Y j) b).2.ok = true) :
    let p := threadCode size count j (walkAt tb b.table Y j) b
    NodesOk tb ms size p.2.table p.2.next ∧ WalksOk tb ms p.2.table lev Y ∧ p.1 = walkAt tb p.2.table Y lev ∧
      (∀ k, k < lev → firstNode tb ms ≤ p.2.table.getD (walkAt tb p.2.table Y k) 0) ∧
      ∀ X d v, X < Y → d ≤ 16 - tb → WalkEnds tb (firstNode tb ms) b.table X d v →
        WalkEnds tb (firstNode tb ms) p.2.table X d v := by
  have h1 := hs.symbols_below
  have h2 := hs.symbol
  induction count generalizing j b with
  | zero =>
    have : j = lev := by omega
    subst this
    exact ⟨hn, hw, rfl, hp, fun _ _ _ _ _ h => h⟩
  | succ count ih =>
    obtain ⟨dY, hdY, heY, -⟩ := hw.ahead Y hY (Nat.le_refl _)
    have hlevel := walk_level hs heY hp
    simp only [threadCode, hpos, pos_bit (show j < 16 - tb by omega)] at hok ⊢
    by_cases h0 : b.table.getD (walkAt tb b.table Y j) 0 = 0
    · by_cases hroom : 2 * b.next + 1 ≥ size
      · have : (threadStep size (Y / 2 ^ (15 - tb - j) % 2) (walkAt tb b.table Y j) b).2.ok = false := by
          simp only [threadStep]; rw [if_pos h0, if_pos hroom]
        simp only [this] at hok
        simp [this] at hok
      · obtain ⟨hT, hn', hw'⟩ := alloc_ok hs hn hw hY hlev (by omega) hp h0 (by omega) rfl
        have hag : ∀ k, k < j → (((b.table.set (2 * b.next) 0).set (2 * b.next + 1) 0).set (walkAt tb b.table Y j)
            b.next).getD (walkAt tb b.table Y k) 0 = b.table.getD (walkAt tb b.table Y k) 0 := by
          intro k hk
          rw [hT, if_neg]
          intro h
          have := hp k hk
          rw [h, h0] at this
          omega
        have hwalk := walkAt_of_agree hag
        have hstep : threadStep size (Y / 2 ^ (15 - tb - j) % 2) (walkAt tb b.table Y j) b =
            (walkAt tb (((b.table.set (2 * b.next) 0).set (2 * b.next + 1) 0).set (walkAt tb b.table Y j) b.next) Y (j + 1),
              { b with
                table := ((b.table.set (2 * b.next) 0).set (2 * b.next + 1) 0).set (walkAt tb b.table Y j) b.next
                next := b.next + 1 }) := by
          simp only [threadStep]
          rw [if_pos h0, if_neg hroom, walkAt, hwalk j (Nat.le_refl _)]
        rw [hstep] at hok ⊢
        simp only at hok ⊢
        by_cases hbok : b.ok = true
        · rw [if_pos hbok] at hok ⊢
          have hrec := ih (j := j + 1) (by omega)
            (b := { b with
              table := ((b.table.set (2 * b.next) 0).set (2 * b.next + 1) 0).set (walkAt tb b.table Y j) b.next
              next := b.next + 1 }) hpos hn' hw'
            (fun k hk => by
              show firstNode tb ms ≤ List.getD _ _ _
              simp only
              rw [hwalk k (by omega)]
              rcases Nat.lt_or_ge k j with h | h
              · rw [hag k h]; exact hp k h
              · rw [show k = j by omega, hT, if_pos rfl]; exact hn.next_ge) hok
          refine ⟨hrec.1, hrec.2.1, hrec.2.2.1, hrec.2.2.2.1, fun X d v hX hd he => ?_⟩
          exact hrec.2.2.2.2 X d v hX hd (walkEnds_behind hs hn hw hY hlev hp h0 hT hX hd he)
        · rw [if_neg hbok] at hok
          exact absurd hok hbok
    · have hstep : threadStep size (Y / 2 ^ (15 - tb - j) % 2) (walkAt tb b.table Y j) b =
          (walkAt tb b.table Y (j + 1), b) := by
        simp only [threadStep]
        rw [if_neg h0, walkAt]
      rw [hstep] at hok ⊢
      simp only at hok ⊢
      by_cases hbok : b.ok = true
      · rw [if_pos hbok] at hok ⊢
        refine ih (j := j + 1) (by omega) hpos hn hw (fun k hk => ?_) hok
        rcases Nat.lt_or_ge k j with h | h
        · exact hp k h
        · have hne : dY ≠ j := fun h => h0 (hlevel.2.2 h)
          exact heY.1 k (by omega)
      · rw [if_neg hbok] at hok
        exact absurd hok hbok

/-- The leaf of a long code stored at the end of its walk: the position moves past its block (41_huffman.md R153). -/
theorem store_ok {tb ms size : Nat} (hs : TreeShape tb ms size) {T : List Nat} {next lev Y sym : Nat}
    (hn : NodesOk tb ms size T next) (hw : WalksOk tb ms T lev Y) (hY : Y < 2 ^ 16) (hlev : lev ≤ 16 - tb)
    (hdvd : 2 ^ (16 - tb - lev) ∣ Y) (hsym : sym < ms)
    (hp : ∀ k, k < lev → firstNode tb ms ≤ T.getD (walkAt tb T Y k) 0) :
    NodesOk tb ms size (T.set (walkAt tb T Y lev) sym) next ∧
      WalksOk tb ms (T.set (walkAt tb T Y lev) sym) lev (Y + 2 ^ (16 - tb - lev)) ∧
      (∀ X, Y ≤ X → X < Y + 2 ^ (16 - tb - lev) →
        WalkEnds tb (firstNode tb ms) (T.set (walkAt tb T Y lev) sym) X lev sym) ∧
      ∀ X d v, X < Y → d ≤ 16 - tb → WalkEnds tb (firstNode tb ms) T X d v →
        WalkEnds tb (firstNode tb ms) (T.set (walkAt tb T Y lev) sym) X d v := by
  have h1 := hs.symbols_below
  have h2 := hs.symbol
  obtain ⟨hl1, hl2⟩ := walkAt_lt hs hn hY hp
  obtain ⟨dY, hdY, heY, hbY⟩ := hw.ahead Y hY (Nat.le_refl _)
  have hlevel := walk_level hs heY hp
  have h0 : T.getD (walkAt tb T Y lev) 0 = 0 := hlevel.2.2 (by omega)
  have hT : ∀ i, (T.set (walkAt tb T Y lev) sym).getD i 0 = if i = walkAt tb T Y lev then sym else T.getD i 0 :=
    fun i => getD_set (by rw [hn.length]; exact hl1)
  have hblock : ∀ X, Y ≤ X → X < Y + 2 ^ (16 - tb - lev) → blockOf tb X lev = blockOf tb Y lev := by
    intro X ha hb
    obtain ⟨q, rfl⟩ := hdvd
    unfold blockOf
    rw [Nat.mul_div_cancel_left _ (Nat.two_pow_pos _)]
    refine Nat.div_eq_of_lt_le ?_ ?_
    · rw [Nat.mul_comm]; exact ha
    · rw [Nat.mul_comm, Nat.mul_succ]; exact hb
  have hback : ∀ X, X < 2 ^ 16 → blockOf tb X lev = blockOf tb Y lev → Y ≤ X ∧ X < Y + 2 ^ (16 - tb - lev) := by
    intro X _ h
    obtain ⟨q, rfl⟩ := hdvd
    unfold blockOf at h
    rw [Nat.mul_div_cancel_left _ (Nat.two_pow_pos _)] at h
    have e1 := Nat.div_add_mod X (2 ^ (16 - tb - lev))
    have e2 := Nat.mod_lt X (Nat.two_pow_pos (16 - tb - lev))
    rw [h] at e1
    omega
  have hold : ∀ X d v, X < Y → d ≤ 16 - tb → WalkEnds tb (firstNode tb ms) T X d v →
      WalkEnds tb (firstNode tb ms) (T.set (walkAt tb T Y lev) sym) X d v :=
    fun X d v hXY hd he => walkEnds_behind hs hn hw hY hlev hp h0 hT hXY hd he
  have hnew : ∀ X, Y ≤ X → X < Y + 2 ^ (16 - tb - lev) →
      WalkEnds tb (firstNode tb ms) (T.set (walkAt tb T Y lev) sym) X lev sym := by
    intro X ha hb
    have hbl := hblock X ha hb
    have hsame : ∀ k, k ≤ lev → walkAt tb T X k = walkAt tb T Y k :=
      fun k hk => walkAt_congr (by omega) (blockOf_le hk hlev hbl)
    have hag : ∀ k, k < lev → (T.set (walkAt tb T Y lev) sym).getD (walkAt tb T X k) 0 = T.getD (walkAt tb T X k) 0 := by
      intro k hk
      rw [hT, if_neg]
      intro h
      have := hp k hk
      rw [← hsame k (by omega), h, h0] at this
      omega
    have hwalk := walkAt_of_agree hag
    refine ⟨fun k hk => ?_, ?_⟩
    · rw [hwalk k (by omega), hag k hk, hsame k (by omega)]; exact hp k hk
    · rw [hwalk lev (Nat.le_refl _), hT, if_pos (hsame lev (Nat.le_refl _))]
  refine ⟨⟨by simpa using hn.length, hn.next_ge, ?_, ?_, ?_⟩, ⟨?_, ?_⟩, hnew, hold⟩
  · intro i
    rw [hT]
    split
    · exact .inl hsym
    · exact hn.entry i
  · intro i i' hi he
    by_cases hi1 : i = walkAt tb T Y lev
    · rw [hT i, if_pos hi1] at hi; omega
    · rw [hT i, if_neg hi1] at hi he
      by_cases hi2 : i' = walkAt tb T Y lev
      · rw [hT i', if_pos hi2] at he; omega
      · rw [hT i', if_neg hi2] at he; exact hn.uniq i i' hi he
  · intro i hi
    rw [hT, if_neg (by omega)]
    exact hn.fresh i hi
  · intro X hX hXY
    rcases Nat.lt_or_ge X Y with h | h
    · obtain ⟨d, v, hd, hv, he⟩ := hw.behind X hX h
      exact ⟨d, v, hd, hv, hold X d v h (by omega) he⟩
    · exact ⟨lev, sym, Nat.le_refl _, hsym, hnew X h hXY⟩
  · intro X hX hXY
    have hpow := Nat.two_pow_pos (16 - tb - lev)
    obtain ⟨d, hd, he, hb⟩ := hw.ahead X hX (by omega)
    have hne : ¬ blockOf tb X d = blockOf tb Y d := by
      intro h
      have hsame : ∀ k, k ≤ d → walkAt tb T X k = walkAt tb T Y k :=
        fun k hk => walkAt_congr (by omega) (blockOf_le hk (by omega) h)
      rcases Nat.lt_or_ge d lev with hlt | hge
      · have := hp d hlt
        rw [← hsame d (Nat.le_refl _), he.2] at this
        omega
      · have hdl : d = lev := by omega
        rw [hdl] at h
        have := (hback X hX h).2
        omega
    refine ⟨d, hd, walkEnds_of_agree he fun k hk => ?_, ?_⟩
    · rw [hT, if_neg]
      intro h
      rcases Nat.lt_or_ge k d with hlt | hge
      · have := he.1 k hlt; rw [h, h0] at this; omega
      · have hkd : k = d := by omega
        subst hkd
        obtain ⟨rfl, hbl⟩ := walkAt_inj hs.nodes_above hs.tb_le hn.uniq hX hY (by omega) (by omega) he.1 hp h
        exact hne hbl
    · have hS := blockOf_mul_le tb Y d
      have hgt : blockOf tb Y d < blockOf tb X d := by
        have : blockOf tb Y d ≤ blockOf tb X d := Nat.div_le_div_right (by omega)
        omega
      have hdv : 2 ^ (16 - tb - lev) ∣ blockOf tb X d * 2 ^ (16 - tb - d) :=
        Nat.dvd_trans (Nat.pow_dvd_pow 2 (by omega)) ⟨blockOf tb X d, Nat.mul_comm _ _⟩
      have hYlt : Y < blockOf tb X d * 2 ^ (16 - tb - d) := by
        have e1 := Nat.div_add_mod Y (2 ^ (16 - tb - d))
        have e2 := Nat.mod_lt Y (Nat.two_pow_pos (16 - tb - d))
        have e3 : (blockOf tb Y d + 1) * 2 ^ (16 - tb - d) ≤ blockOf tb X d * 2 ^ (16 - tb - d) :=
          Nat.mul_le_mul_right _ hgt
        rw [Nat.add_mul, Nat.one_mul] at e3
        have e4 : blockOf tb Y d * 2 ^ (16 - tb - d) = 2 ^ (16 - tb - d) * (Y / 2 ^ (16 - tb - d)) := Nat.mul_comm _ _
        omega
      obtain ⟨a, ha⟩ := hdvd
      obtain ⟨c, hc⟩ := hdv
      rw [hc, ha] at hYlt ⊢
      have : a < c := Nat.lt_of_mul_lt_mul_left hYlt
      calc 2 ^ (16 - tb - lev) * a + 2 ^ (16 - tb - lev) = 2 ^ (16 - tb - lev) * (a + 1) := by rw [Nat.mul_add, Nat.mul_one]
        _ ≤ _ := Nat.mul_le_mul_left _ this

/-- The state of phase 2 with the codes before `(len, sym)` placed. -/
structure ThreadOk (tb ms size : Nat) (lens : List Nat) (len sym : Nat) (b : Build) : Prop where
  nodes : NodesOk tb ms size b.table b.next
  walks : WalksOk tb ms b.table (min len 16 - tb) (spaceBefore lens len sym)
  placed : CodesPlaced tb ms lens b.table len sym
  pos : b.pos = spaceBefore lens len sym * 2 ^ tb
  le : spaceBefore lens len sym ≤ 2 ^ 16
  ok : b.ok = true

theorem threadSymbol_ok {tb ms size : Nat} (hs : TreeShape tb ms size) {lens : List Nat} {len sym : Nat} {b : Build}
    (h : ThreadOk tb ms size lens len sym b) (hl : lens[sym]? = some len) (htb : tb < len) (hlen : len ≤ 16)
    (hsym : sym < ms)
    (hok : (threadSymbol size (2 ^ tb * 2 ^ 16) (2 ^ (16 - (len - tb))) (len - tb) sym b).ok = true) :
    ThreadOk tb ms size lens len (sym + 1)
      (threadSymbol size (2 ^ tb * 2 ^ 16) (2 ^ (16 - (len - tb))) (len - tb) sym b) := by
  have hm : min len 16 = len := by omega
  have hwalks := h.walks
  rw [hm] at hwalks
  have hnext := spaceBefore_succ hl
  have hu : 2 ^ (16 - len) * 2 ^ tb = 2 ^ (16 - (len - tb)) := by rw [← Nat.pow_add]; congr 1; omega
  have hleaf : (spaceBefore lens len sym * 2 ^ tb) >>> 16 = spaceBefore lens len sym / 2 ^ (16 - tb) := by
    have h16 : 16 = tb + (16 - tb) := by omega
    rw [Nat.shiftRight_eq_div_pow]
    conv_lhs => rw [h16, Nat.pow_add]
    rw [← Nat.div_div_eq_div_mul, Nat.mul_div_cancel _ (Nat.two_pow_pos _)]
  simp only [threadSymbol] at hok ⊢
  by_cases hc : (threadCode size (len - tb) 0 (b.pos >>> 16) b).2.ok = true
  · rw [if_pos hc] at hok ⊢
    simp only [threadCode_pos] at hok ⊢
    have hposeq : b.pos + 2 ^ (16 - (len - tb)) = spaceBefore lens len (sym + 1) * 2 ^ tb := by
      rw [hnext, Nat.add_mul, ← h.pos, hu]
    by_cases hgt : b.pos + 2 ^ (16 - (len - tb)) > 2 ^ tb * 2 ^ 16
    · rw [if_pos hgt] at hok; simp at hok
    · rw [if_neg hgt]
      have hle : spaceBefore lens len (sym + 1) ≤ 2 ^ 16 := by
        rw [hposeq] at hgt
        refine Nat.le_of_mul_le_mul_right (c := 2 ^ tb) ?_ (Nat.two_pow_pos _)
        rw [Nat.mul_comm (2 ^ 16)]; omega
      have hpow := Nat.two_pow_pos (16 - len)
      have hY : spaceBefore lens len sym < 2 ^ 16 := by omega
      have hwalk0 : b.pos >>> 16 = walkAt tb b.table (spaceBefore lens len sym) 0 := by rw [h.pos, hleaf, walkAt]
      rw [hwalk0] at hc ⊢
      obtain ⟨hn, hw, hleaf', hp, hbehind⟩ := threadCode_ok hs hY (show len - tb ≤ 16 - tb by omega) (Nat.zero_add _) h.pos
        h.nodes hwalks (fun k hk => absurd hk (Nat.not_lt_zero k)) hc
      have hsz : 16 - tb - (len - tb) = 16 - len := by omega
      obtain ⟨hn2, hw2, hnew, hbehind2⟩ := store_ok hs hn hw hY (by omega)
        (by rw [hsz]; exact spaceBefore_dvd lens len sym) hsym hp
      rw [← hleaf'] at hn2 hw2 hnew hbehind2
      rw [hsz, ← hnext] at hw2 hnew
      refine ⟨hn2, by rw [hm]; exact hw2, ?_, hposeq, hle, hc⟩
      intro y hy1 hy X hX1 hX2
      by_cases hys : y = sym
      · subst hys
        have hly : lens.getD y 0 = len := by rw [List.getD_eq_getElem?_getD, hl]; rfl
        rw [codeStart_eq hl] at hX1 hX2
        rw [hly] at hX2 ⊢
        rw [← hnext] at hX2
        exact ⟨hX2, len - tb, Nat.le_refl _, hnew X hX1 hX2⟩
      · obtain ⟨e1, d, e2, e3⟩ := h.placed y hy1 (by omega) X hX1 hX2
        have hd : d ≤ 16 - tb := by omega
        exact ⟨by omega, d, e2, hbehind2 X d y e1 hd (hbehind X d y e1 hd e3)⟩
  · rw [if_neg hc] at hok
    exact absurd hok hc

theorem threadOk_skip {tb ms size : Nat} {lens : List Nat} {len sym : Nat} {b : Build} (h : ThreadOk tb ms size lens len sym b)
    (hl : lens[sym]? ≠ some len) : ThreadOk tb ms size lens len (sym + 1) b := by
  have hsk := spaceBefore_skip hl
  refine ⟨h.nodes, by rw [hsk]; exact h.walks, ?_, by rw [hsk]; exact h.pos, by rw [hsk]; exact h.le, h.ok⟩
  intro y hy1 hy
  rw [hsk]
  refine h.placed y hy1 ?_
  rcases hy with hy | ⟨hy, hys⟩
  · exact .inl hy
  · refine .inr ⟨hy, ?_⟩
    rcases Nat.lt_succ_iff_lt_or_eq.1 hys with h' | rfl
    · exact h'
    · exfalso; apply hl
      rw [List.getD_eq_getElem?_getD] at hy hy1
      cases he : lens[y]? with
      | none => simp [he] at hy1
      | some v => simp [he] at hy; rw [hy]

theorem walksOk_mono {tb ms : Nat} {T : List Nat} {lev lev' Y : Nat} (h : WalksOk tb ms T lev Y) (hl : lev ≤ lev') :
    WalksOk tb ms T lev' Y :=
  ⟨fun X hX hXY => let ⟨d, v, hd, hv⟩ := h.behind X hX hXY; ⟨d, v, Nat.le_trans hd hl, hv⟩,
    fun X hX hXY => let ⟨d, hd, hv⟩ := h.ahead X hX hXY; ⟨d, Nat.le_trans hd hl, hv⟩⟩

theorem threadOk_next {tb ms size : Nat} {lens : List Nat} {len : Nat} {b : Build}
    (h : ThreadOk tb ms size lens len lens.length b) (h1 : 1 ≤ len) : ThreadOk tb ms size lens (len + 1) 0 b := by
  have hs := spaceBefore_last lens h1
  refine ⟨h.nodes, by rw [← hs]; exact walksOk_mono h.walks (by omega), ?_, by rw [← hs]; exact h.pos,
    by rw [← hs]; exact h.le, h.ok⟩
  intro y hy1 hy
  rw [← hs]
  have := getD_pos_lt hy1
  exact h.placed y hy1 (by omega)

theorem threadPass_of_failed {size tableMask bitMask bitNum tb : Nat} {ls : List Nat} (sym : Nat) {b : Build}
    (hb : b.ok = false) : threadPass size tableMask bitMask bitNum tb ls sym b = b := by
  cases ls with
  | nil => rfl
  | cons l ls => simp [threadPass, hb]

theorem threadPasses_of_failed {lens : List Nat} {size tableMask tb : Nat} (count bitNum bitMask : Nat) {b : Build}
    (hb : b.ok = false) : threadPasses lens size tableMask tb count bitNum bitMask b = b := by
  induction count generalizing bitNum bitMask with
  | zero => rfl
  | succ count ih => rw [threadPasses, threadPass_of_failed 0 hb, ih]

theorem threadOk_pass {tb ms size : Nat} (hs : TreeShape tb ms size) {lens : List Nat} {len : Nat} (htb : tb < len)
    (hlen : len ≤ 16) (hlens : lens.length ≤ ms) {ls : List Nat} {sym : Nat} (hls : ls = lens.drop sym)
    (hsym : sym ≤ lens.length) {b : Build} (h : ThreadOk tb ms size lens len sym b)
    (hok : (threadPass size (2 ^ tb * 2 ^ 16) (2 ^ (16 - (len - tb))) len tb ls sym b).ok = true) :
    ThreadOk tb ms size lens len lens.length (threadPass size (2 ^ tb * 2 ^ 16) (2 ^ (16 - (len - tb))) len tb ls sym b) := by
  induction ls generalizing sym b with
  | nil =>
    have : lens.length ≤ sym := by simpa using hls.symm
    rw [threadPass, show lens.length = sym by omega]
    exact h
  | cons l ls ih =>
    have hlt : sym < lens.length := by
      rcases Nat.lt_or_ge sym lens.length with h' | h'
      · exact h'
      · rw [List.drop_eq_nil_of_le h'] at hls; simp at hls
    rw [List.drop_eq_getElem_cons hlt] at hls
    obtain ⟨hl, hls⟩ := List.cons.inj hls
    unfold threadPass at hok ⊢
    rw [if_neg (by simp [h.ok])] at hok ⊢
    by_cases hll : l = len
    · rw [if_pos hll] at hok ⊢
      have hstep : (threadSymbol size (2 ^ tb * 2 ^ 16) (2 ^ (16 - (len - tb))) (len - tb) sym b).ok = true := by
        by_cases hf : (threadSymbol size (2 ^ tb * 2 ^ 16) (2 ^ (16 - (len - tb))) (len - tb) sym b).ok = true
        · exact hf
        · rw [threadPass_of_failed _ (by simpa using hf)] at hok; exact hok
      exact ih hls (by omega)
        (threadSymbol_ok hs h (by rw [List.getElem?_eq_getElem hlt, ← hl, hll]) htb hlen (by omega) hstep) hok
    · rw [if_neg hll] at hok ⊢
      exact ih hls (by omega) (threadOk_skip h (by rw [List.getElem?_eq_getElem hlt, ← hl]; simpa using hll)) hok

theorem threadOk_passes {tb ms size : Nat} (hs : TreeShape tb ms size) {lens : List Nat} (hlens : lens.length ≤ ms)
    {count len : Nat} (hc : len + count = 17) (h1 : tb < len) {b : Build} (h : ThreadOk tb ms size lens len 0 b)
    (hok : (threadPasses lens size (2 ^ tb * 2 ^ 16) tb count len (2 ^ (16 - (len - tb))) b).ok = true) :
    ThreadOk tb ms size lens 17 0 (threadPasses lens size (2 ^ tb * 2 ^ 16) tb count len (2 ^ (16 - (len - tb))) b) := by
  induction count generalizing len b with
  | zero => rw [threadPasses, ← hc]; exact h
  | succ count ih =>
    have hm' : 2 ^ (16 - (len - tb)) / 2 = 2 ^ (16 - (len + 1 - tb)) := by
      rw [show 16 - (len - tb) = 16 - (len + 1 - tb) + 1 by have := hs.tb_pos; omega, Nat.pow_succ, Nat.mul_div_cancel _ (by decide)]
    simp only [threadPasses, hm'] at hok ⊢
    have hpass : (threadPass size (2 ^ tb * 2 ^ 16) (2 ^ (16 - (len - tb))) len tb lens 0 b).ok = true := by
      by_cases hf : (threadPass size (2 ^ tb * 2 ^ 16) (2 ^ (16 - (len - tb))) len tb lens 0 b).ok = true
      · exact hf
      · rw [threadPasses_of_failed _ _ _ (by simpa using hf)] at hok; exact hok
    exact ih (by omega) (by omega)
      (threadOk_next (threadOk_pass hs h1 (show len ≤ 16 by omega) hlens (ls := lens) (sym := 0) rfl (Nat.zero_le _) h hpass) (by omega)) hok

/-! ### The finished table -/

theorem treeShape (t : Tree) : TreeShape t.tableBits t.maxSymbols t.tableSize := by
  cases t <;> exact ⟨by decide, by decide, by decide, by decide, by decide, by decide⟩

/-- The table phase 1 leaves, as phase 2 takes it. -/
theorem walksOk_direct {tb ms size : Nat} {lens : List Nat} {len : Nat} {b : Build}
    (h : DirectOk tb ms size lens len 0 b) (lev : Nat) : WalksOk tb ms b.table lev (spaceBefore lens len 0) := by
  refine ⟨fun X hX hXY => ⟨0, _, by omega, h.symbols (X / 2 ^ (16 - tb)), by omega, rfl⟩, fun X hX hXY => ?_⟩
  rw [← h.pos] at hXY
  have e1 : b.pos ≤ X / 2 ^ (16 - tb) := (Nat.le_div_iff_mul_le (Nat.two_pow_pos _)).2 hXY
  refine ⟨0, by omega, ⟨by omega, h.zero _ e1⟩, ?_⟩
  rw [← h.pos]
  exact Nat.mul_le_mul_right _ e1

theorem codesPlaced_direct {tb ms size : Nat} {lens : List Nat} {len : Nat} {b : Build}
    (h : DirectOk tb ms size lens len 0 b) : CodesPlaced tb ms lens b.table len 0 := by
  intro y hy1 hy X hX1 hX2
  obtain ⟨e1, e2⟩ := h.placed y hy1 hy X hX1 hX2
  exact ⟨e1, 0, by omega, by omega, e2⟩

/-- Phase 2 begins: the slots above the direct codes stand at 0, and `pos` in 16-bit fixed point (41_huffman.md R152,
R153). -/
theorem threadOk_start {tb ms size : Nat} (hs : TreeShape tb ms size) {lens : List Nat} {b : Build}
    (hd : DirectOk tb ms size lens (tb + 1) 0 b) (hp : b.pos ≤ 2 ^ tb)
    (hspace : b.pos * 2 ^ (16 - tb) = codeSpaceBelow lens tb) (hle : codeSpaceBelow lens tb ≤ 2 ^ 16) :
    ThreadOk tb ms size lens (tb + 1) 0
        { b with table := fillSlots b.table b.pos 0 (2 ^ tb - b.pos), pos := b.pos * 2 ^ 16 } ∧
      ∀ i, (fillSlots b.table b.pos 0 (2 ^ tb - b.pos)).getD i 0 < ms := by
  have h16 : 2 ^ tb * 2 ^ (16 - tb) = 2 ^ 16 := by
    rw [← Nat.pow_add, show tb + (16 - tb) = 16 by have := hs.tb_le; omega]
  have hsp : spaceBefore lens (tb + 1) 0 = codeSpaceBelow lens tb := by simp [spaceBefore, codeSpaceAt_zero]
  have hsl := hs.slots_le
  have hfill : ∀ j, (fillSlots b.table b.pos 0 (2 ^ tb - b.pos)).getD j 0 = b.table.getD j 0 := by
    intro j
    rw [fillSlots_getD (by rw [hd.nodes.length]; omega)]
    split
    · rename_i h; rw [hd.zero j h.1]
    · rfl
  have hwalk : ∀ X d v, WalkEnds tb (firstNode tb ms) b.table X d v →
      WalkEnds tb (firstNode tb ms) (fillSlots b.table b.pos 0 (2 ^ tb - b.pos)) X d v :=
    fun X d v h => walkEnds_of_agree h fun j _ => hfill _
  have hw := walksOk_direct hd (min (tb + 1) 16 - tb)
  refine ⟨⟨⟨by simpa using hd.nodes.length, hd.nodes.next_ge, ?_, ?_, ?_⟩, ?_, ?_, ?_, by rw [hsp]; exact hle, hd.ok⟩,
    fun i => by rw [hfill]; exact hd.symbols i⟩
  · intro i
    show List.getD _ _ _ < _ ∨ (_ ≤ List.getD _ _ _ ∧ List.getD _ _ _ < _ ∧ 2 * List.getD _ _ _ + 1 < _)
    rw [hfill]; exact hd.nodes.entry i
  · intro i i'
    show _ ≤ List.getD _ _ _ → List.getD _ _ _ = List.getD _ _ _ → _
    rw [hfill, hfill]; exact hd.nodes.uniq i i'
  · intro i hi
    show List.getD _ _ _ = 0
    rw [hfill]; exact hd.nodes.fresh i hi
  · exact ⟨fun X hX hXY => let ⟨d, v, a1, a2, a3⟩ := hw.behind X hX hXY; ⟨d, v, a1, a2, hwalk _ _ _ a3⟩,
      fun X hX hXY => let ⟨d, a1, a2, a3⟩ := hw.ahead X hX hXY; ⟨d, a1, hwalk _ _ _ a2, a3⟩⟩
  · intro y hy1 hy X hX1 hX2
    obtain ⟨a1, d, a2, a3⟩ := codesPlaced_direct hd y hy1 hy X hX1 hX2
    exact ⟨a1, d, a2, hwalk _ _ _ a3⟩
  · show b.pos * 2 ^ 16 = _
    rw [hsp, ← hspace, Nat.mul_assoc, Nat.mul_comm (2 ^ (16 - tb)), h16]

/-- Phase 1 from the empty table: it raises TABLE_OVERFLOW exactly where the direct codes pass the code space (check (a)),
and otherwise has placed them all (41_huffman.md R151, R154). -/
theorem directPasses_start {tb ms : Nat} {lens : List Nat} (hs : TreeShape tb ms (2 ^ tb + 2 * ms))
    (hlens : lens.length ≤ ms) :
    let b := directPasses lens (2 ^ tb) tb 1 (2 ^ tb / 2)
      { table := List.replicate (2 ^ tb + 2 * ms) 0, pos := 0, next := max (2 ^ tb / 2) ms, ok := true }
    (b.ok = true ↔ codeSpaceBelow lens tb ≤ 2 ^ 16) ∧
      (b.ok = true → DirectOk tb ms (2 ^ tb + 2 * ms) lens (tb + 1) 0 b ∧ b.pos ≤ 2 ^ tb ∧
        b.pos * 2 ^ (16 - tb) = codeSpaceBelow lens tb ∧ b.next = firstNode tb ms) := by
  have hd0 : DirectOk tb ms (2 ^ tb + 2 * ms) lens 1 0
      { table := List.replicate (2 ^ tb + 2 * ms) 0, pos := 0, next := max (2 ^ tb / 2) ms, ok := true } := by
    have hz : ∀ i, (List.replicate (2 ^ tb + 2 * ms) 0).getD i 0 = 0 := by
      intro i
      rw [List.getD_eq_getElem?_getD, List.getElem?_replicate]
      split <;> rfl
    have hfirst : 0 < firstNode tb ms := Nat.lt_of_lt_of_le hs.symbol hs.symbols_below
    refine ⟨⟨by simp, Nat.le_refl _, fun i => .inl ?_, fun i i' hi => ?_, fun i _ => hz i⟩, fun i _ => hz i, fun i => ?_, ?_,
      ?_, rfl⟩
    · show List.getD _ _ _ < _
      rw [hz]; exact hs.symbol
    · replace hi : firstNode tb ms ≤ (List.replicate (2 ^ tb + 2 * ms) 0).getD i 0 := hi
      rw [hz] at hi; omega
    · show List.getD _ _ _ < _
      rw [hz]; exact hs.symbol
    · intro y hy1 hy; omega
    · simp [spaceBefore, codeSpaceBelow, codeSpaceAt_zero]
  have hspec := directPasses_spec (lens := lens) hs.tb_le (count := tb) (bitNum := 1)
    (b := { table := List.replicate (2 ^ tb + 2 * ms) 0, pos := 0, next := max (2 ^ tb / 2) ms, ok := true })
    (by omega) (by omega) rfl (Nat.zero_le _) (by simp [codeSpaceBelow])
  have hpass := directOk_passes (ms := ms) hs.tb_le hs.slots_le hs.nodes_above hs.symbols_below hlens (count := tb) (len := 1)
    (by omega) (by omega) hd0
  rw [Nat.pow_one] at hspec hpass
  exact ⟨hspec.1, fun hok => ⟨hpass hok, (hspec.2 hok).1, (hspec.2 hok).2, by rw [directPasses_next]; rfl⟩⟩

/-- What a build that raised no fault leaves: a complete direct region, or every code of the array placed. -/
theorem buildTableOf_ok {tb ms : Nat} {lens : List Nat} (hs : TreeShape tb ms (2 ^ tb + 2 * ms))
    (hlens : lens.length ≤ ms) (hok : (buildTableOf lens tb ms).ok = true) :
    (codeSpaceBelow lens tb = 2 ^ 16 ∧
        DirectOk tb ms (2 ^ tb + 2 * ms) lens (tb + 1) 0 (buildTableOf lens tb ms)) ∨
      (codeSpaceBelow lens tb < 2 ^ 16 ∧ ThreadOk tb ms (2 ^ tb + 2 * ms) lens 17 0 (buildTableOf lens tb ms)) := by
  have hstart := directPasses_start hs hlens
  simp only [buildTableOf] at hok ⊢
  generalize hb : directPasses lens (2 ^ tb) tb 1 (2 ^ tb / 2)
    { table := List.replicate (2 ^ tb + 2 * ms) 0, pos := 0, next := max (2 ^ tb / 2) ms, ok := true } = b at *
  by_cases hbok : b.ok = true
  · obtain ⟨hd, hp1, hp2, -⟩ := hstart.2 hbok
    have h16 : 2 ^ tb * 2 ^ (16 - tb) = 2 ^ 16 := by
      rw [← Nat.pow_add, show tb + (16 - tb) = 16 by have := hs.tb_le; omega]
    rw [if_neg (by simp [hbok])] at hok ⊢
    by_cases hfull : b.pos = 2 ^ tb
    · rw [if_pos hfull]
      exact .inl ⟨by rw [← hp2, hfull, h16], hd⟩
    · rw [if_neg hfull] at hok ⊢
      have hlt : codeSpaceBelow lens tb < 2 ^ 16 := by
        rw [← hp2, ← h16]
        exact Nat.mul_lt_mul_of_pos_right (by omega) (Nat.two_pow_pos _)
      refine .inr ⟨hlt, ?_⟩
      have hmask : 2 ^ 15 = 2 ^ (16 - (tb + 1 - tb)) := by rw [show tb + 1 - tb = 1 by omega]
      rw [hmask] at hok ⊢
      exact threadOk_passes hs hlens (count := 16 - tb) (len := tb + 1) (by have := hs.tb_le; omega) (by omega)
        (threadOk_start hs hd hp1 hp2 (by omega)).1 hok
  · rw [if_pos (by simpa using hbok)] at hok
    exact absurd hok hbok

/-- Every walk through a finished table ends on a symbol, at most 16 bits deep (41_huffman.md R158). -/
theorem buildTable_walks {t : Tree} {lens : List Nat} (h : LengthsOk t lens) (hok : (buildTable t lens).ok = true) :
    ∀ X, X < 2 ^ 16 → ∃ d v, d ≤ 16 - t.tableBits ∧ v < t.maxSymbols ∧
      WalkEnds t.tableBits (firstNode t.tableBits t.maxSymbols) (buildTable t lens).table X d v := by
  intro X hX
  have hs := treeShape t
  rcases buildTableOf_ok hs (Nat.le_of_eq h.size) hok with ⟨-, hd⟩ | ⟨-, ht⟩
  · exact ⟨0, _, by omega, hd.symbols (X / 2 ^ (16 - t.tableBits)), by omega, rfl⟩
  · rcases Nat.lt_or_ge X (spaceBefore lens 17 0) with hlt | hge
    · obtain ⟨d, v, h1, h2, h3⟩ := ht.walks.behind X hX hlt
      exact ⟨d, v, by omega, h2, h3⟩
    · obtain ⟨d, h1, h2, -⟩ := ht.walks.ahead X hX hge
      exact ⟨d, 0, by omega, hs.symbol, h2⟩

/-- In a finished table the code space of a symbol ends on the symbol, at most as deep as its code is long; the symbols
of long codes after a complete direct region are the exception (41_huffman.md R151 to R153). -/
theorem buildTable_codes {t : Tree} {lens : List Nat} (h : LengthsOk t lens) (hok : (buildTable t lens).ok = true) {y : Nat}
    (hy : 1 ≤ lens.getD y 0) (hdirect : lens.getD y 0 ≤ t.tableBits ∨ codeSpaceBelow lens t.tableBits < 2 ^ 16) :
    ∀ X, codeStart lens y ≤ X → X < codeStart lens y + 2 ^ (16 - lens.getD y 0) →
      ∃ d, d ≤ lens.getD y 0 - t.tableBits ∧
        WalkEnds t.tableBits (firstNode t.tableBits t.maxSymbols) (buildTable t lens).table X d y := by
  intro X hX1 hX2
  have hs := treeShape t
  have hy16 : lens.getD y 0 ≤ 16 := by
    have hlt := getD_pos_lt hy
    rw [List.getD_eq_getElem?_getD, List.getElem?_eq_getElem hlt]
    exact h.le _ (List.getElem_mem hlt)
  rcases buildTableOf_ok hs (Nat.le_of_eq h.size) hok with ⟨hfull, hd⟩ | ⟨-, ht⟩
  · exact (codesPlaced_direct hd y hy (.inl (by omega)) X hX1 hX2).2
  · exact (ht.placed y hy (.inl (by omega)) X hX1 hX2).2

/-! ### Decoding through a table -/

theorem bitsAhead_testBit (r : Reader) (n i : Nat) :
    (bitsValue (bitsAhead r n)).testBit i = (decide (i < n) && bitAhead r (n - 1 - i)) := by
  unfold bitsAhead
  exact bitsValue_range_testBit _ n i

/-- The next `n` bits are the top of the next 16. -/
theorem bitsAhead_top (r : Reader) {n : Nat} (hn : n ≤ 16) :
    bitsValue (bitsAhead r n) = bitsValue (bitsAhead r 16) / 2 ^ (16 - n) := by
  apply Nat.eq_of_testBit_eq
  intro i
  rw [bitsAhead_testBit, ← Nat.shiftRight_eq_div_pow, Nat.testBit_shiftRight, bitsAhead_testBit]
  by_cases h : i < n
  · simp only [h, decide_true, Bool.true_and, show 16 - n + i < 16 by omega]
    congr 1; omega
  · simp [h, show ¬ 16 - n + i < 16 by omega]

theorem bitsAhead_bit (r : Reader) {k : Nat} (hk : k < 16) :
    (bitAhead r k).toNat = bitsValue (bitsAhead r 16) / 2 ^ (15 - k) % 2 := by
  have h := bitsAhead_testBit r 16 (15 - k)
  rw [show 16 - 1 - (15 - k) = k by omega] at h
  rw [Nat.testBit_eq_decide_div_mod_eq] at h
  simp only [show 15 - k < 16 by omega, decide_true, Bool.true_and] at h
  rw [← h]
  rcases Nat.mod_two_eq_zero_or_one (bitsValue (bitsAhead r 16) / 2 ^ (15 - k)) with h' | h' <;> simp [h']

theorem bitsAhead_lt (r : Reader) (n : Nat) : bitsValue (bitsAhead r n) < 2 ^ n := by
  apply Nat.lt_pow_two_of_testBit
  intro i hi
  rw [bitsAhead_testBit]
  simp; omega

/-- `DecodeSymbol` answers the symbol on which the walk of the next 16 bits ends (41_huffman.md R157). -/
theorem decodeSymbol_of_walkEnds {t : Tree} {lens T : List Nat} {r : Reader} (h : ReaderOk r) {d v : Nat}
    (hw : WalkEnds t.tableBits (firstNode t.tableBits t.maxSymbols) T (bitsValue (bitsAhead r 16)) d v)
    (hd : d ≤ 16 - t.tableBits) (hv : v < t.maxSymbols) :
    decodeSymbol t lens T r = .ok v (getSyncBits (lens.getD v 0) (getDesyncBits t.tableBits 0 r).2).2 := by
  have hs := treeShape t
  have hlow : ∀ s, firstNode t.tableBits t.maxSymbols ≤ s → ¬ s < t.maxSymbols := fun s h => by
    have := hs.symbols_below; omega
  have hbit : ∀ x, x < 16 → checkBit (x + 1) (getDesyncBits t.tableBits 0 r).2 =
      bitsValue (bitsAhead r 16) / 2 ^ (15 - x) % 2 := by
    intro x hx
    rw [checkBit_eq_bitAhead _ (by omega)
      (by rw [getDesyncBits_total]; have := sixteen_le_refill_total r; omega)]
    have := consumed_getDesyncBits h t.tableBits (k := 0) (by omega) x
    rw [show x + 1 - 1 = x by omega, this, Nat.zero_add, bitsAhead_bit r hx]
  have hwalk : ∀ n j, j + n = d → 1 ≤ n → walk t.maxSymbols T (getDesyncBits t.tableBits 0 r).2 (16 - t.tableBits - j) (t.tableBits + j)
      (T.getD (walkAt t.tableBits T (bitsValue (bitsAhead r 16)) j) 0) = some v := by
    intro n
    induction n with
    | zero => intro j _ h; omega
    | succ n ih =>
      intro j hj _
      obtain ⟨f, hf⟩ : ∃ f, 16 - t.tableBits - j = f + 1 := ⟨16 - t.tableBits - j - 1, by omega⟩
      rw [hf, walk, hbit _ (by omega), show 15 - (t.tableBits + j) = 15 - t.tableBits - j by omega]
      have hnext : 2 * T.getD (walkAt t.tableBits T (bitsValue (bitsAhead r 16)) j) 0 +
          bitsValue (bitsAhead r 16) / 2 ^ (15 - t.tableBits - j) % 2 =
          walkAt t.tableBits T (bitsValue (bitsAhead r 16)) (j + 1) := rfl
      rw [hnext]
      by_cases hlast : j + 1 = d
      · rw [hlast, hw.2]
        simp [hv]
      · have := hlow _ (hw.1 (j + 1) (by omega))
        simp only [this, if_false]
        have := ih (j + 1) (by omega) (by omega)
        rw [show f = 16 - t.tableBits - (j + 1) by omega]
        exact this
  unfold decodeSymbol decodeSymbolOf
  simp only
  have hp : (getDesyncBits t.tableBits 0 r).1 = walkAt t.tableBits T (bitsValue (bitsAhead r 16)) 0 := by
    rw [getDesyncBits_value h 0 hs.tb_le, bitsAhead_top r hs.tb_le, walkAt]
  rw [hp]
  by_cases h0 : d = 0
  · subst h0
    rw [hw.2]
    simp [hv]
  · have := hlow _ (hw.1 0 (by omega))
    have hres := hwalk d 0 (by omega) (by omega)
    rw [Nat.sub_zero, Nat.add_zero] at hres
    simp only [this, if_false]
    rw [hres]

end Sys2Proof.Machine
end

