-- ==== Sys2Proof/Laws/Invariant.lean ====
section
/-! SUPPORT. What keeps the parts of the engine's invariant: the shared updates of State, and then each meaning at the
place of the grammar where it runs. -/

namespace Sys2Proof.Machine

open Sys2Proof.Safety

/-! ### The parts of the invariant under shared updates -/

theorem storageOk_raiseFault {s : State} (h : StorageOk s) (f : FaultCode) (info : Word) :
    StorageOk (raiseFault f info s) :=
  ⟨h.reader, h.win_wf, h.out_wf, h.main_length, h.length_length, h.aligned_length, h.pre_length, h.pre_book,
    h.main_book, h.length_book, h.aligned_book⟩

theorem registersOk_raiseFault {s : State} (h : RegistersOk s) {f : FaultCode} (hf : f ≠ .none) (info : Word) :
    RegistersOk (raiseFault f info s) where
  window_legal := h.window_legal
  winPos_lt := h.winPos_lt
  winPos_clock := by simp
  remaining_le := h.remaining_le
  outPos_le := h.outPos_le
  outLen_lt := h.outLen_lt
  out_valid := by simp
  fault_code := by simpa using hf
  counters := h.counters
  carry_empty := h.carry_empty
  running := by simp

/-- A raise keeps the invariant, wherever it happens (60_exceptions.md R300). -/
theorem inv_raiseFault {s : State} (hs : StorageOk s) (hr : RegistersOk s) {f : FaultCode} (hf : f ≠ .none)
    (info : Word) : Inv (raiseFault f info s) :=
  ⟨storageOk_raiseFault hs f info, registersOk_raiseFault hr hf info, by simp [PhaseOk]⟩

/-- `t` has the registers of `s` that RegistersOk speaks of, inside a command. -/
structure SameRegisters (s t : State) : Prop where
  params : t.params = s.params
  cmd : t.cmd = s.cmd
  live : t.live = s.live
  faulted : t.faulted = s.faulted
  faultCode : t.faultCode = s.faultCode
  windowBits : t.windowBits = s.windowBits
  blockLength : t.blockLength = s.blockLength
  blockRemaining : t.blockRemaining = s.blockRemaining
  frames : t.frames = s.frames
  streamPos : t.streamPos = s.streamPos
  nextBlockNo : t.nextBlockNo = s.nextBlockNo
  winPos : t.winPos = s.winPos
  outLen : t.outLen = s.outLen
  outPos : t.outPos = s.outPos
  outValid : t.outValid = s.outValid
  carry : t.carry = s.carry

theorem registersOk_same {s t : State} (e : SameRegisters s t) (h : RegistersOk s) (hp : s.phase ≠ .idle)
    (hq : t.phase ≠ .idle) : RegistersOk t where
  window_legal := by rw [e.live, e.windowBits]; exact h.window_legal
  winPos_lt := by rw [windowSize, e.winPos, e.windowBits]; exact h.winPos_lt
  winPos_clock := by
    have := h.winPos_clock
    simp only [windowClock, windowSize, if_neg hp] at this
    simpa only [windowClock, windowSize, if_neg hq, e.live, e.faulted, e.winPos, e.windowBits, e.streamPos, e.outPos,
      e.carry] using this
  remaining_le := by rw [e.blockRemaining, e.blockLength]; exact h.remaining_le
  outPos_le := by rw [e.outPos, e.outLen]; exact h.outPos_le
  outLen_lt := by rw [e.outLen]; exact h.outLen_lt
  out_valid := by
    intro hv
    rw [e.outValid] at hv
    exact absurd (h.out_valid hv).2.2.2 hp
  fault_code := by rw [e.faulted, e.faultCode]; exact h.fault_code
  counters := by rw [e.frames, e.nextBlockNo]; exact h.counters
  carry_empty := by rw [e.params, e.carry]; exact h.carry_empty
  running := by
    intro _
    rw [e.live, e.faulted, e.cmd, e.outLen, e.params]
    exact h.running hp

/-- A reader on the same segment may replace the reader. -/
theorem inv_setReader {s : State} {r : Reader} (h : Inv s) (hr : SameSegment s.rd r) : Inv { s with rd := r } := by
  obtain ⟨hs, hg, hp⟩ := h
  refine ⟨⟨hr.ok, hs.win_wf, hs.out_wf, hs.main_length, hs.length_length, hs.aligned_length, hs.pre_length, hs.pre_book,
    hs.main_book, hs.length_book, hs.aligned_book⟩, ?_, hp⟩
  exact ⟨hg.window_legal, hg.winPos_lt, hg.winPos_clock, hg.remaining_le, hg.outPos_le, hg.outLen_lt, hg.out_valid,
    hg.fault_code, hg.counters, hg.carry_empty, hg.running⟩

theorem lensOf_length {s : State} (h : StorageOk s) (t : Tree) : (lensOf t s).length = t.maxSymbols := by
  cases t
  · exact (List.length_map _).trans h.pre_length
  · exact (List.length_map _).trans h.main_length
  · exact (List.length_map _).trans h.length_length
  · exact (List.length_map _).trans h.aligned_length

theorem storageOk_setBook {s : State} (h : StorageOk s) {t : Tree} {b : Book} (hb : BookOk t b) :
    StorageOk (setBook t b s) := by
  cases t
  · exact ⟨h.reader, h.win_wf, h.out_wf, h.main_length, h.length_length, h.aligned_length, h.pre_length, hb,
      h.main_book, h.length_book, h.aligned_book⟩
  · exact ⟨h.reader, h.win_wf, h.out_wf, h.main_length, h.length_length, h.aligned_length, h.pre_length, h.pre_book,
      hb, h.length_book, h.aligned_book⟩
  · exact ⟨h.reader, h.win_wf, h.out_wf, h.main_length, h.length_length, h.aligned_length, h.pre_length, h.pre_book,
      h.main_book, hb, h.aligned_book⟩
  · exact ⟨h.reader, h.win_wf, h.out_wf, h.main_length, h.length_length, h.aligned_length, h.pre_length, h.pre_book,
      h.main_book, h.length_book, hb⟩

theorem sameRegisters_setBook (t : Tree) (b : Book) (s : State) : SameRegisters s (setBook t b s) := by
  constructor <;> simp

/-- What `BuildTable` does before `k` goes on: the table is built and valid, or TABLE_OVERFLOW has been raised
(41_huffman.md R154). -/
theorem buildThen_cases (t : Tree) (k : State → StepResult) (s : State) :
    ((buildTable t (lensOf t s)).ok = true ∧
      buildThen t k s = k (setBook t { table := (buildTable t (lensOf t s)).table, valid := true } s)) ∨
    ((buildTable t (lensOf t s)).ok = false ∧
      buildThen t k s = .next (raiseFault .tableOverflow (BitVec.ofNat 32 t.infoCode)
        (setBook t { table := (buildTable t (lensOf t s)).table, valid := false } s))) := by
  cases h : (buildTable t (lensOf t s)).ok
  · right; simp [buildThen, h]
  · left; simp [buildThen, h]

/-- A build inside a command keeps the invariant where its continuation does. -/
theorem inv_buildThen {t : Tree} {k : State → StepResult} {s u : State} (hs : StorageOk s) (hr : RegistersOk s)
    (hp : s.phase ≠ .idle)
    (hk : ∀ b : Book, b.valid = true → StorageOk (setBook t b s) → RegistersOk (setBook t b s) →
      k (setBook t b s) = .next u → Inv u)
    (h : buildThen t k s = .next u) : Inv u := by
  have hreg : ∀ b, RegistersOk (setBook t b s) := fun b =>
    registersOk_same (sameRegisters_setBook t b s) hr hp (by simpa using hp)
  rcases buildThen_cases t k s with ⟨_, he⟩ | ⟨_, he⟩
  · rw [he] at h
    exact hk _ rfl (storageOk_setBook hs (bookOk_buildTable (lensOf_length hs t) true)) (hreg _) h
  · rw [he] at h
    cases h
    exact inv_raiseFault (storageOk_setBook hs (bookOk_buildTable (lensOf_length hs t) false)) (hreg _) (by decide) _

/-! ### The length runs -/

@[simp] theorem writeRun_length (n : Nat) (v : Fin 17) (count x : Nat) (lens : List (Fin 17)) :
    (writeRun n v count x lens).length = lens.length := by
  induction count generalizing x lens with
  | zero => rfl
  | succ count ih => rw [writeRun, ih]; split <;> simp

/-- The entries a run of writes leaves: the value inside the run and below the array's end, the old entry elsewhere
(41_huffman.md R165). -/
theorem writeRun_getElem (n : Nat) (v : Fin 17) (count x : Nat) (lens : List (Fin 17)) (hn : n = lens.length) (j : Nat) :
    (writeRun n v count x lens)[j]? = if x ≤ j ∧ j < x + count ∧ j < n then some v else lens[j]? := by
  induction count generalizing x lens with
  | zero => simp [writeRun]; omega
  | succ count ih =>
    rw [writeRun, ih (x + 1) _ (by split <;> simp [hn])]
    by_cases hx : x < n
    · rw [if_pos hx]
      by_cases hj : j = x
      · subst hj
        rw [if_neg (by omega), if_pos (by omega), List.getElem?_set_self (by omega)]
      · rw [List.getElem?_set_ne (by omega)]
        by_cases h1 : x + 1 ≤ j ∧ j < x + 1 + count ∧ j < n
        · rw [if_pos h1, if_pos (by omega)]
        · rw [if_neg h1, if_neg (by omega)]
    · rw [if_neg hx]
      by_cases h1 : x + 1 ≤ j ∧ j < x + 1 + count ∧ j < n
      · omega
      · rw [if_neg h1, if_neg (by omega)]

theorem storageOk_writeEntries {s : State} (h : StorageOk s) (v : Fin 17) (count : Nat) :
    StorageOk (writeEntries v count s) := by
  unfold writeEntries
  cases hr : s.run
  · exact ⟨h.reader, h.win_wf, h.out_wf, by simpa [setRunLengths, runLengths] using h.main_length, h.length_length,
      h.aligned_length, h.pre_length, h.pre_book, h.main_book, h.length_book, h.aligned_book⟩
  · exact ⟨h.reader, h.win_wf, h.out_wf, by simpa [setRunLengths, runLengths] using h.main_length, h.length_length,
      h.aligned_length, h.pre_length, h.pre_book, h.main_book, h.length_book, h.aligned_book⟩
  · exact ⟨h.reader, h.win_wf, h.out_wf, h.main_length, by simpa [setRunLengths, runLengths] using h.length_length,
      h.aligned_length, h.pre_length, h.pre_book, h.main_book, h.length_book, h.aligned_book⟩

/-- What holds between two pretree operations, whatever the index. -/
structure RunOk (s : State) : Prop where
  storage : StorageOk s
  registers : RegistersOk s
  active : s.phase ≠ .idle
  kind : TreeKind s
  soFar : TreesSoFar s
  preValid : s.preBook.valid = true

theorem runOk_of_ptop {s : State} (h : Inv s) (hp : s.phase = .ptop) : RunOk s := by
  obtain ⟨hs, hg, hph⟩ := h
  simp only [PhaseOk, hp] at hph
  exact ⟨hs, hg, by simp [hp], hph.1, hph.2.1, hph.2.2.1⟩

theorem runOk_writeEntries {s : State} (h : RunOk s) (v : Fin 17) (count : Nat) : RunOk (writeEntries v count s) where
  storage := storageOk_writeEntries h.storage v count
  registers := registersOk_same (by constructor <;> simp) h.registers h.active (by simpa using h.active)
  active := by simpa using h.active
  kind := by simpa [TreeKind] using h.kind
  soFar := by simpa [TreesSoFar] using h.soFar
  preValid := by simpa using h.preValid

theorem inv_endRun {s u : State} (h : RunOk s) (he : endRun s = .next u) : Inv u := by
  unfold endRun at he
  have hs := h.storage
  cases hr : s.run with
  | mainLiterals =>
    rw [hr] at he
    cases he
    exact ⟨⟨hs.reader, hs.win_wf, hs.out_wf, hs.main_length, hs.length_length, hs.aligned_length, hs.pre_length,
        hs.pre_book, hs.main_book, hs.length_book, hs.aligned_book⟩,
      registersOk_same (by constructor <;> rfl) h.registers h.active (by simp), h.kind, h.soFar.1, by simp⟩
  | mainMatches =>
    rw [hr] at he
    refine inv_buildThen hs h.registers h.active ?_ he
    intro b hb hs' hg' hk
    cases hk
    refine ⟨⟨by simpa using hs'.reader, by simpa using hs'.win_wf, by simpa using hs'.out_wf,
        by simpa using hs'.main_length, by simpa using hs'.length_length, by simpa using hs'.aligned_length,
        by simpa using hs'.pre_length, by simpa using hs'.pre_book, by simpa using hs'.main_book,
        by simpa using hs'.length_book, by simpa using hs'.aligned_book⟩,
      registersOk_same (by constructor <;> simp) hg' (by simpa using h.active) (by simp), ?_, ?_, ?_⟩
    · simpa [TreeKind] using h.kind
    · simpa [setBook] using h.soFar.1
    · simpa [setBook] using hb
  | lengths =>
    rw [hr] at he
    refine inv_buildThen hs h.registers h.active ?_ he
    intro b hb hs' hg' hk
    cases hk
    refine ⟨⟨hs'.reader, hs'.win_wf, hs'.out_wf, hs'.main_length, hs'.length_length, hs'.aligned_length, hs'.pre_length,
        hs'.pre_book, hs'.main_book, hs'.length_book, hs'.aligned_book⟩,
      registersOk_same (by constructor <;> rfl) hg' (by simpa using h.active) (by simp), ?_⟩
    intro _
    refine ⟨?_, fun _ => ⟨h.soFar.2 hr, hb, h.soFar.1⟩⟩
    rcases h.kind with hk | hk <;> simp [setBook, hk]

theorem inv_continueRun {s u : State} (h : RunOk s) (he : continueRun s = .next u) : Inv u := by
  unfold continueRun at he
  split at he
  · rename_i hi
    cases he
    have hs := h.storage
    exact ⟨⟨hs.reader, hs.win_wf, hs.out_wf, hs.main_length, hs.length_length, hs.aligned_length, hs.pre_length,
        hs.pre_book, hs.main_book, hs.length_book, hs.aligned_book⟩,
      registersOk_same (by constructor <;> rfl) h.registers h.active (by simp), h.kind, h.soFar, h.preValid, hi⟩
  · exact inv_endRun h he

/-- Every pretree operation keeps the invariant. -/
theorem inv_pretreeOp {s u : State} (h : Inv s) (hp : s.phase = .ptop) (v : Fin 17) (count : Nat)
    (he : continueRun (writeEntries v count s) = .next u) : Inv u :=
  inv_continueRun (runOk_writeEntries (runOk_of_ptop h hp) v count) he

theorem inv_execPretreeLengths {s u : State} (h : Inv s) (hp : s.phase = .pretree) {ps : List (BitVec 4)}
    (hlen : ps.length = 20) (he : execPretreeLengths ps s = .next u) : Inv u := by
  obtain ⟨hs, hg, hph⟩ := h
  simp only [PhaseOk, hp] at hph
  have hs' : StorageOk { s with preLengths := ps } :=
    ⟨hs.reader, hs.win_wf, hs.out_wf, hs.main_length, hs.length_length, hs.aligned_length, hlen, hs.pre_book,
      hs.main_book, hs.length_book, hs.aligned_book⟩
  have hg' : RegistersOk { s with preLengths := ps } :=
    registersOk_same (by constructor <;> rfl) hg (by simp [hp]) (by simp [hp])
  refine inv_buildThen hs' hg' (by simp [hp]) ?_ he
  intro b hb hs2 hg2 hk
  refine inv_continueRun ?_ hk
  exact ⟨⟨hs2.reader, hs2.win_wf, hs2.out_wf, hs2.main_length, hs2.length_length, hs2.aligned_length, hs2.pre_length,
      hs2.pre_book, hs2.main_book, hs2.length_book, hs2.aligned_book⟩,
    registersOk_same (by constructor <;> rfl) hg2 (by simp [setBook, hp]) (by simp [setBook, hp]), by simp [setBook, hp],
    hph.1, hph.2, hb⟩

/-! ### Headers -/

theorem inv_execE8PreambleOff {s u : State} (h : Inv s) (hp : s.phase = .fill) (he : execE8PreambleOff s = .next u) :
    Inv u := by
  cases he
  obtain ⟨hs, hg, hph⟩ := h
  simp only [PhaseOk, hp] at hph
  refine ⟨⟨hs.reader, hs.win_wf, hs.out_wf, hs.main_length, hs.length_length, hs.aligned_length, hs.pre_length,
    hs.pre_book, hs.main_book, hs.length_book, hs.aligned_book⟩,
    registersOk_same (by constructor <;> rfl) hg (by simp [hp]) (by simp [hp]), ?_⟩
  simp only [PhaseOk, hp]
  exact hph

theorem inv_execE8PreambleOn {s u : State} (h : Inv s) (hp : s.phase = .fill) (hi lo : BitVec 16)
    (he : execE8PreambleOn hi lo s = .next u) : Inv u := by
  cases he
  obtain ⟨hs, hg, hph⟩ := h
  simp only [PhaseOk, hp] at hph
  refine ⟨⟨hs.reader, hs.win_wf, hs.out_wf, hs.main_length, hs.length_length, hs.aligned_length, hs.pre_length,
    hs.pre_book, hs.main_book, hs.length_book, hs.aligned_book⟩,
    registersOk_same (by constructor <;> rfl) hg (by simp [hp]) (by simp [hp]), ?_⟩
  simp only [PhaseOk, hp]
  exact hph

theorem blockKind_ne_none {btype : BitVec 3} {s : State} {kind : BlockType} (h : blockKind btype s = some kind) :
    kind ≠ .none := by
  unfold blockKind at h
  split at h
  · rename_i k hk
    cases h
    intro e
    subst e
    revert hk
    unfold BtypeMap.kind
    split <;> simp
  · split at h
    · cases h
    · rename_i hn
      cases h
      exact hn

theorem registersOk_storeLength {s : State} (h : RegistersOk s) (hp : s.phase ≠ .idle) (hi : BitVec 16) (lo : BitVec 8) :
    RegistersOk (storeLength hi lo s) where
  window_legal := h.window_legal
  winPos_lt := h.winPos_lt
  winPos_clock := h.winPos_clock
  remaining_le := Nat.le_refl _
  outPos_le := h.outPos_le
  outLen_lt := h.outLen_lt
  out_valid := h.out_valid
  fault_code := h.fault_code
  counters := h.counters
  carry_empty := h.carry_empty
  running := fun _ => h.running hp

theorem inv_execBlockHeader {s u : State} (h : Inv s) (hp : s.phase = .fill) {btype : BitVec 3} {hi : BitVec 16}
    {lo : BitVec 8} (he : execBlockHeader btype hi lo s = .next u) : Inv u := by
  obtain ⟨hs, hg, -⟩ := h
  have hpn : s.phase ≠ .idle := by simp [hp]
  have hg' := registersOk_storeLength hg hpn hi lo
  have hs' : StorageOk (storeLength hi lo s) :=
    ⟨hs.reader, hs.win_wf, hs.out_wf, hs.main_length, hs.length_length, hs.aligned_length, hs.pre_length,
      hs.pre_book, hs.main_book, hs.length_book, hs.aligned_book⟩
  unfold execBlockHeader enterBlock at he
  split at he
  · rename_i kind hk
    cases he
    have hkn := blockKind_ne_none hk
    have hst : ∀ s' : State, StorageOk s' → ∀ ph run k,
        StorageOk { s' with blockType := k, run := run, phase := ph } := fun s' hs ph run k =>
      ⟨hs.reader, hs.win_wf, hs.out_wf, hs.main_length, hs.length_length, hs.aligned_length, hs.pre_length,
        hs.pre_book, hs.main_book, hs.length_book, hs.aligned_book⟩
    cases kind with
    | none => exact absurd rfl hkn
    | verbatim =>
      exact ⟨hst _ hs' .pretree .mainLiterals .verbatim,
        registersOk_same (by constructor <;> rfl) hg' hpn (by simp [startBody]), Or.inl rfl, by simp [startBody, startTrees],
        by simp [startBody, startTrees]⟩
    | aligned =>
      exact ⟨hst _ hs' .alignedLengths s.run .aligned,
        registersOk_same (by constructor <;> rfl) hg' hpn (by simp [startBody]), rfl⟩
    | uncompressed =>
      exact ⟨hst _ hs' .uncRepeats s.run .uncompressed,
        registersOk_same (by constructor <;> rfl) hg' hpn (by simp [startBody]), rfl⟩
  · cases he
    exact inv_raiseFault hs' hg' (by decide) _

theorem inv_execAlignedLengths {s u : State} (h : Inv s) (hp : s.phase = .alignedLengths) {ls : List (BitVec 3)}
    (hlen : ls.length = 8) (he : execAlignedLengths ls s = .next u) : Inv u := by
  obtain ⟨hs, hg, hph⟩ := h
  simp only [PhaseOk, hp] at hph
  have hs' : StorageOk { s with alignedLengths := ls } :=
    ⟨hs.reader, hs.win_wf, hs.out_wf, hs.main_length, hs.length_length, hlen, hs.pre_length, hs.pre_book,
      hs.main_book, hs.length_book, hs.aligned_book⟩
  have hg' : RegistersOk { s with alignedLengths := ls } :=
    registersOk_same (by constructor <;> rfl) hg (by simp [hp]) (by simp [hp])
  refine inv_buildThen hs' hg' (by simp [hp]) ?_ he
  intro b hb hs2 hg2 hk
  cases hk
  exact ⟨⟨hs2.reader, hs2.win_wf, hs2.out_wf, hs2.main_length, hs2.length_length, hs2.aligned_length, hs2.pre_length,
      hs2.pre_book, hs2.main_book, hs2.length_book, hs2.aligned_book⟩,
    registersOk_same (by constructor <;> rfl) hg2 (by simp [setBook, hp]) (by simp), Or.inr hph, fun _ => hb,
    by simp⟩

theorem inv_execUncRepeats {s u : State} (h : Inv s) (hp : s.phase = .uncRepeats) (r0 r1 r2 : Word)
    (he : execUncRepeats r0 r1 r2 s = .next u) : Inv u := by
  cases he
  obtain ⟨hs, hg, hph⟩ := h
  simp only [PhaseOk, hp] at hph
  exact ⟨⟨hs.reader, hs.win_wf, hs.out_wf, hs.main_length, hs.length_length, hs.aligned_length, hs.pre_length,
      hs.pre_book, hs.main_book, hs.length_book, hs.aligned_book⟩,
    registersOk_same (by constructor <;> rfl) hg (by simp [hp]) (by simp), fun _ => ⟨by simp [hph], fun e => absurd hph e⟩⟩

/-! ### Producing bytes -/

theorem mod_clock {w p n W : Nat} (h : w = p % W) : (w + n) % W = (p + n) % W := by
  rw [h, Nat.mod_add_mod]

/-- What producing one byte keeps of the registers inside a command. -/
theorem registersOk_emit {s : State} (h : RegistersOk s) (hp : s.phase ≠ .idle) (hpos : s.outPos < s.outLen) (b : Byte) :
    RegistersOk (emit b s) where
  window_legal := h.window_legal
  winPos_lt := winPos_emit_lt b s
  winPos_clock := by
    intro hl hf
    have hc := h.winPos_clock hl hf
    simp only [windowClock, if_neg hp] at hc
    have hq : (emit b s).phase ≠ .idle := hp
    simp only [windowClock, if_neg hq, emit_winPos, windowSize_emit, emit_streamPos, emit_outPos, emit_carry]
    rw [mod_clock hc]
    congr 1
    omega
  remaining_le := h.remaining_le
  outPos_le := by simp; omega
  outLen_lt := h.outLen_lt
  out_valid := fun hv => absurd (h.out_valid hv).2.2.2 hp
  fault_code := h.fault_code
  counters := h.counters
  carry_empty := h.carry_empty
  running := fun _ => h.running hp

end Sys2Proof.Machine
end

