-- ==== Sys2Proof/Laws/Producing.lean ====
section
/-! SUPPORT. The invariant under the meanings that produce bytes, the match sub-elements, the completion of a command
and the host commands. -/

namespace Sys2Proof.Machine

open Sys2Proof.Safety

/-! ### Copies -/

theorem registersOk_copyBytes {off n : Nat} {s : State} (h : RegistersOk s) (hp : s.phase ≠ .idle)
    (hn : s.outPos + n ≤ s.outLen) : RegistersOk (copyBytes off n s) := by
  induction n with
  | zero => exact h
  | succ n ih =>
    rw [copyBytes_succ]
    refine registersOk_emit (ih (by omega)) (by simpa using hp) ?_ _
    rw [outPos_copyBytes, copyBytes_outLen]
    omega

theorem registersOk_emitCarry {s : State} (h : RegistersOk s) (hp : s.phase ≠ .idle)
    (hc : s.params.matchOverrun = .carry) (b : Byte) : RegistersOk (emitCarry b s) where
  window_legal := h.window_legal
  winPos_lt := by simpa using Nat.mod_lt _ (windowSize_pos s)
  winPos_clock := by
    intro hl hf
    have hk := h.winPos_clock hl hf
    simp only [windowClock, if_neg hp] at hk
    have hq : (emitCarry b s).phase ≠ .idle := hp
    simp only [windowClock, if_neg hq, emitCarry_winPos, windowSize_emitCarry, emitCarry_streamPos, emitCarry_outPos,
      emitCarry_carry, List.length_append, List.length_singleton]
    rw [mod_clock hk]
    congr 1
  remaining_le := h.remaining_le
  outPos_le := h.outPos_le
  outLen_lt := h.outLen_lt
  out_valid := h.out_valid
  fault_code := h.fault_code
  counters := h.counters
  carry_empty := by intro ht; rw [emitCarry_params, hc] at ht; cases ht
  running := h.running

theorem registersOk_copyCarry {off n : Nat} {s : State} (h : RegistersOk s) (hp : s.phase ≠ .idle)
    (hc : s.params.matchOverrun = .carry) : RegistersOk (copyCarry off n s) := by
  induction n generalizing s with
  | zero => exact h
  | succ n ih => exact ih (registersOk_emitCarry h hp hc _) hp hc

theorem storageOk_copyBytes {off n : Nat} {s : State} (h : StorageOk s) : StorageOk (copyBytes off n s) :=
  ⟨by simpa using h.reader, wf_win_copyBytes h.win_wf, wf_out_copyBytes h.out_wf, by simpa using h.main_length,
    by simpa using h.length_length, by simpa using h.aligned_length, by simpa using h.pre_length,
    by simpa using h.pre_book, by simpa using h.main_book, by simpa using h.length_book, by simpa using h.aligned_book⟩

theorem storageOk_copyCarry {off n : Nat} {s : State} (h : StorageOk s) : StorageOk (copyCarry off n s) :=
  ⟨by simpa using h.reader, wf_win_copyCarry h.win_wf, by simpa using h.out_wf, by simpa using h.main_length,
    by simpa using h.length_length, by simpa using h.aligned_length, by simpa using h.pre_length,
    by simpa using h.pre_book, by simpa using h.main_book, by simpa using h.length_book, by simpa using h.aligned_book⟩

theorem copyLength_le (len : Nat) {s : State} (h : s.outPos ≤ s.outLen) :
    s.outPos + copyLength len s ≤ s.outLen := by
  unfold copyLength
  omega

theorem storageOk_copyMatch {off len : Nat} {s : State} (h : StorageOk s) : StorageOk (copyMatch off len s) := by
  unfold copyMatch
  split
  · exact storageOk_copyBytes h
  · exact storageOk_copyCarry (storageOk_copyBytes h)

theorem registersOk_copyMatch {off len : Nat} {s : State} (h : RegistersOk s) (hp : s.phase ≠ .idle) :
    RegistersOk (copyMatch off len s) := by
  have hb := registersOk_copyBytes (off := off) h hp (copyLength_le len h.outPos_le)
  unfold copyMatch
  split
  · exact hb
  · rename_i hc
    exact registersOk_copyCarry hb (by simpa using hp) (by simpa using hc)

/-! ### The count, and the end of an item -/

theorem countProduced_toNat (n : Nat) (s : State) :
    (countProduced n s).blockRemaining.toNat = s.blockRemaining.toNat - n := by
  have := s.blockRemaining.isLt
  simp only [countProduced_blockRemaining, BitVec.toNat_ofNat]
  exact Nat.mod_eq_of_lt (by omega)

theorem registersOk_countProduced {s : State} (h : RegistersOk s) (n : Nat) : RegistersOk (countProduced n s) where
  window_legal := h.window_legal
  winPos_lt := h.winPos_lt
  winPos_clock := h.winPos_clock
  remaining_le := by
    rw [countProduced_toNat]
    exact Nat.le_trans (Nat.sub_le _ _) h.remaining_le
  outPos_le := h.outPos_le
  outLen_lt := h.outLen_lt
  out_valid := h.out_valid
  fault_code := h.fault_code
  counters := h.counters
  carry_empty := h.carry_empty
  running := h.running

theorem storageOk_countProduced {s : State} (h : StorageOk s) (n : Nat) : StorageOk (countProduced n s) :=
  ⟨h.reader, h.win_wf, h.out_wf, h.main_length, h.length_length, h.aligned_length, h.pre_length, h.pre_book,
    h.main_book, h.length_book, h.aligned_book⟩

theorem countProduced_eq_zero {n : Nat} {s : State} (h : s.blockRemaining = 0) :
    (countProduced n s).blockRemaining = 0 := by
  simp [h]

/-- The places inside a command at which a block's kind and its tables are what they were. -/
structure SameBlock (s t : State) : Prop where
  blockType : t.blockType = s.blockType
  main : t.mainBook = s.mainBook
  length : t.lengthBook = s.lengthBook
  aligned : t.alignedBook = s.alignedBook

theorem blockReady_same {s t : State} (e : SameBlock s t) (h : BlockReady s)
    (hr : s.blockRemaining = 0 → t.blockRemaining = 0) : BlockReady t := by
  unfold BlockReady TreesBuilt at *
  rw [e.blockType, e.main, e.length, e.aligned]
  exact fun hn => h fun hz => hn (hr hz)

theorem storageOk_emit {s : State} (h : StorageOk s) (b : Byte) : StorageOk (emit b s) :=
  ⟨h.reader, wf_win_emit h.win_wf b, wf_out_emit h.out_wf b, h.main_length, h.length_length, h.aligned_length,
    h.pre_length, h.pre_book, h.main_book, h.length_book, h.aligned_book⟩

theorem storageOk_setPhase {s : State} (h : StorageOk s) (p : Phase) : StorageOk { s with phase := p } :=
  ⟨h.reader, h.win_wf, h.out_wf, h.main_length, h.length_length, h.aligned_length, h.pre_length, h.pre_book,
    h.main_book, h.length_book, h.aligned_book⟩

/-- LITERAL at the head of the loop, with room in `OUT`, keeps the invariant. -/
theorem inv_execLiteral {b : Byte} {s u : State} (h : Inv s) (hp : s.phase = .fill) (hpos : s.outPos < s.outLen)
    (he : execLiteral b s = .next u) : Inv u := by
  obtain ⟨hs, hg, hph⟩ := h
  simp only [PhaseOk, hp] at hph
  have hpn : s.phase ≠ .idle := by simp [hp]
  cases he
  refine ⟨storageOk_countProduced (storageOk_setPhase (storageOk_emit hs b) _) 1,
    registersOk_countProduced (registersOk_same (by constructor <;> rfl) (registersOk_emit hg hpn hpos b)
      (by simpa using hpn) (by simp)) 1, ?_⟩
  exact blockReady_same (s := s) (by constructor <;> rfl) hph fun hz => countProduced_eq_zero hz

/-- The end of a match at a place where its block is ready keeps the invariant. -/
theorem inv_finishMatch {off : Word} {reps : Repeats} {len : Nat} {s u : State} (hs : StorageOk s) (hg : RegistersOk s)
    (hpn : s.phase ≠ .idle) (hb : BlockReady s) (he : finishMatch off reps len s = .next u) : Inv u := by
  have hs' : StorageOk { s with reps := reps, phase := .fill } :=
    ⟨hs.reader, hs.win_wf, hs.out_wf, hs.main_length, hs.length_length, hs.aligned_length, hs.pre_length, hs.pre_book,
      hs.main_book, hs.length_book, hs.aligned_book⟩
  have hg' : RegistersOk { s with reps := reps, phase := .fill } :=
    registersOk_same (by constructor <;> rfl) hg hpn (by simp)
  unfold finishMatch copyOrFault at he
  split at he
  · cases he
    refine ⟨storageOk_countProduced (storageOk_copyMatch hs') len,
      registersOk_countProduced (registersOk_copyMatch hg' (by simp)) len, ?_⟩
    simp only [PhaseOk, countProduced_phase, copyMatch_phase]
    refine blockReady_same (s := s) (by constructor <;> simp) hb fun hz => countProduced_eq_zero ?_
    rw [copyMatch_blockRemaining]
    exact hz
  · cases he
    exact inv_raiseFault hs' hg' (by decide) _

/-- The places at which a match is executed: the head of the loop, its offset fields, and its end. -/
theorem blockReady_of_match {s : State} (h : PhaseOk s)
    (hp : s.phase = .fill ∨ s.phase = .offset ∨ s.phase = .matchReady) : BlockReady s := by
  have trees : TreeKind s → TreesBuilt s → BlockReady s := by
    intro hk ht _
    refine ⟨?_, fun _ => ht⟩
    rcases hk with hk | hk <;> simp [hk]
  rcases hp with hp | hp | hp <;> simp only [PhaseOk, hp] at h
  · exact h
  · exact trees h.1 h.2.1
  · exact trees h.1 h.2.1

theorem inv_finishMatch_at {off : Word} {reps : Repeats} {len : Nat} {s u : State} (h : Inv s)
    (hp : s.phase = .fill ∨ s.phase = .offset ∨ s.phase = .matchReady) (he : finishMatch off reps len s = .next u) :
    Inv u :=
  inv_finishMatch h.storage h.registers (by rcases hp with hp | hp | hp <;> simp [hp]) (blockReady_of_match h.phase hp)
    he

theorem inv_execLenFooter {f : BitVec 8} {s u : State} (h : Inv s) (hp : s.phase = .footer) (hf : f.toNat < 250)
    (he : execLenFooter f s = .next u) : Inv u := by
  obtain ⟨hs, hg, hph⟩ := h
  simp only [PhaseOk, hp] at hph
  cases he
  exact ⟨⟨hs.reader, hs.win_wf, hs.out_wf, hs.main_length, hs.length_length, hs.aligned_length, hs.pre_length,
      hs.pre_book, hs.main_book, hs.length_book, hs.aligned_book⟩,
    registersOk_same (by constructor <;> rfl) hg (by simp [hp]) (by simp), hph.1, hph.2.1, hph.2.2.1,
    by simp [lengthWellFormed, hf, hph.2.2.2]⟩

theorem inv_execAlignedSym {a : BitVec 3} {s u : State} (h : Inv s) (hp : s.phase = .alignedSym)
    (he : execAlignedSym a s = .next u) : Inv u := by
  obtain ⟨hs, hg, hph⟩ := h
  simp only [PhaseOk, hp] at hph
  obtain ⟨hk, ht, hpend, hal, h3, hraw⟩ := hph
  have hslot : 3 ≤ s.pend.slot.toNat := by
    by_cases hlt : 3 ≤ s.pend.slot.toNat
    · exact hlt
    · have : s.pend.slot.toNat < 3 := by omega
      interval_cases hv : s.pend.slot.toNat <;> simp [extraBits, extraBitsTable] at h3
  have hex : (alignedExtra s.pend.raw a).toNat < 2 ^ extraBits s.pend.slot.toNat := by
    have ha := a.isLt
    have e : 2 ^ extraBits s.pend.slot.toNat = 2 ^ (extraBits s.pend.slot.toNat - 3) * 8 := by
      rw [show (8 : Nat) = 2 ^ 3 from rfl, ← Nat.pow_add]
      congr 1
      omega
    have hv : (alignedExtra s.pend.raw a).toNat = s.pend.raw.toNat * 8 + a.toNat := by
      simp only [alignedExtra, BitVec.toNat_append]
      rw [← Nat.shiftLeft_add_eq_or_of_lt ha, Nat.shiftLeft_eq]
    rw [hv, e]
    omega
  cases he
  refine ⟨⟨hs.reader, hs.win_wf, hs.out_wf, hs.main_length, hs.length_length, hs.aligned_length, hs.pre_length,
      hs.pre_book, hs.main_book, hs.length_book, hs.aligned_book⟩,
    registersOk_same (by constructor <;> rfl) hg (by simp [hp]) (by simp), hk, ht, hpend, hal, ?_⟩
  simp only [explicitWellFormed, Bool.and_eq_true, decide_eq_true_eq]
  exact ⟨⟨hslot, hpend.1⟩, hex⟩

/-! ### Raw bytes -/

theorem inv_execUncByte {b : Byte} {s u : State} (h : Inv s) (hp : s.phase = .fill) (hpos : s.outPos < s.outLen)
    (he : execUncByte b s = .next u) : Inv u := by
  obtain ⟨hs, hg, hph⟩ := h
  simp only [PhaseOk, hp] at hph
  have hpn : s.phase ≠ .idle := by simp [hp]
  cases he
  have hg' : RegistersOk (countProduced 1 (emit b s)) := registersOk_countProduced (registersOk_emit hg hpn hpos b) 1
  have hb : BlockReady (countProduced 1 (emit b s)) :=
    blockReady_same (s := s) (by constructor <;> rfl) hph fun hz => countProduced_eq_zero hz
  refine ⟨storageOk_setPhase (storageOk_countProduced (storageOk_emit hs b) 1) _,
    registersOk_same (by constructor <;> rfl) hg' (by simpa using hpn) ?_, ?_⟩
  · unfold afterRawByte
    simp only
    split <;> simp
  by_cases hz : (countProduced 1 (emit b s)).blockRemaining = 0 ∧ padDue (countProduced 1 (emit b s)) = true
  · simp only [PhaseOk, afterRawByte, if_pos hz]
    exact hz.1
  · simp only [PhaseOk, afterRawByte, if_neg hz]
    exact hb

theorem inv_execUncPad {x : Byte} {s u : State} (h : Inv s) (hp : s.phase = .uncPad) (he : execUncPad x s = .next u) :
    Inv u := by
  obtain ⟨hs, hg, hph⟩ := h
  simp only [PhaseOk, hp] at hph
  cases he
  exact ⟨storageOk_setPhase hs _, registersOk_same (by constructor <;> rfl) hg (by simp [hp]) (by simp),
    fun hn => absurd hph hn⟩

/-! ### The latched parts of a match -/

theorem inv_latchMatch {slot : BitVec 6} {lenHdr : BitVec 3} {r : Reader} {s : State} (h : Inv s)
    (hp : s.phase ≠ .idle) (hk : TreeKind s) (ht : TreesBuilt s) (hf : FooterPending slot lenHdr)
    (hr : SameSegment s.rd r) :
    Inv { s with
      rd := r
      pend := { slot := slot, lenHdr := lenHdr, footer := 0, raw := 0, extra := 0 }
      phase := .footer } := by
  obtain ⟨hs, hg, -⟩ := h
  exact ⟨⟨hr.ok, hs.win_wf, hs.out_wf, hs.main_length, hs.length_length, hs.aligned_length, hs.pre_length, hs.pre_book,
    hs.main_book, hs.length_book, hs.aligned_book⟩, registersOk_same (by constructor <;> rfl) hg hp (by simp), hk, ht,
    hf⟩

theorem inv_latchRaw {slot : BitVec 6} {lenHdr : BitVec 3} {footer : BitVec 8} {v : BitVec 14} {r : Reader} {s : State}
    (h : Inv s) (hp : s.phase ≠ .idle) (ht : TreesBuilt s) (ha : s.blockType = .aligned)
    (hf : AlignedPending slot lenHdr footer v) (hr : SameSegment s.rd r) :
    Inv { s with
      rd := r
      pend := { slot := slot, lenHdr := lenHdr, footer := footer, raw := v, extra := 0 }
      phase := .alignedSym } := by
  obtain ⟨hs, hg, -⟩ := h
  exact ⟨⟨hr.ok, hs.win_wf, hs.out_wf, hs.main_length, hs.length_length, hs.aligned_length, hs.pre_length, hs.pre_book,
    hs.main_book, hs.length_book, hs.aligned_book⟩, registersOk_same (by constructor <;> rfl) hg hp (by simp), Or.inr ha,
    ht, hf.1, ha, hf.2⟩

/-! ### The completion of a command -/

/-- A completion keeps the invariant (45_e8_transform.md R265). -/
theorem inv_finishBlock {s : State} (h : Inv s) (hp : s.phase = .fill) (hfull : s.outLen ≤ s.outPos) :
    Inv (finishBlock s) := by
  obtain ⟨hs, hg, hph⟩ := h
  simp only [PhaseOk, hp] at hph
  have hpn : s.phase ≠ .idle := by simp [hp]
  obtain ⟨hlive, hfa, -⟩ := hg.running hpn
  have hpos : s.outPos = s.outLen := Nat.le_antisymm hg.outPos_le hfull
  refine ⟨⟨by simpa [finishBlock] using hs.reader, by simpa [finishBlock] using hs.win_wf, wf_out_e8Stage hs.out_wf,
    by simpa [finishBlock] using hs.main_length, by simpa [finishBlock] using hs.length_length,
    by simpa [finishBlock] using hs.aligned_length, by simpa [finishBlock] using hs.pre_length,
    by simpa [finishBlock] using hs.pre_book, by simpa [finishBlock] using hs.main_book,
    by simpa [finishBlock] using hs.length_book, by simpa [finishBlock] using hs.aligned_book⟩, ?_, ?_⟩
  · exact
      { window_legal := by simpa [finishBlock] using hg.window_legal
        winPos_lt := by simpa [finishBlock, windowSize] using hg.winPos_lt
        winPos_clock := by
          intro _ _
          have hc := hg.winPos_clock hlive hfa
          simp only [windowClock, if_neg hpn] at hc
          simpa [finishBlock, windowClock, windowSize, hpos] using hc
        remaining_le := by simpa [finishBlock] using hg.remaining_le
        outPos_le := by simpa [finishBlock] using hg.outPos_le
        outLen_lt := by simpa [finishBlock] using hg.outLen_lt
        out_valid := by intro _; simpa [finishBlock] using ⟨hpos, hlive, hfa⟩
        fault_code := by simpa [finishBlock] using hg.fault_code
        counters := by simpa [finishBlock] using hg.counters
        carry_empty := by simpa [finishBlock] using hg.carry_empty
        running := by simp [finishBlock] }
  · intro _
    exact blockReady_same (s := s) (by constructor <;> simp [finishBlock]) hph (by simp [finishBlock])

/-! ### Host commands -/

/-- The command taken from `CMD`. -/
theorem inv_takeCommand {s : State} (h : Inv s) (hp : s.phase = .idle) : Inv { s with cmd := none } := by
  obtain ⟨hs, hg, hph⟩ := h
  exact ⟨⟨hs.reader, hs.win_wf, hs.out_wf, hs.main_length, hs.length_length, hs.aligned_length, hs.pre_length,
    hs.pre_book, hs.main_book, hs.length_book, hs.aligned_book⟩,
    ⟨hg.window_legal, hg.winPos_lt, hg.winPos_clock, hg.remaining_le, hg.outPos_le, hg.outLen_lt, hg.out_valid,
      hg.fault_code, hg.counters, hg.carry_empty, fun hn => absurd hp hn⟩, hph⟩

theorem inv_setResult {s : State} (h : Inv s) (r : List Byte) : Inv { s with result := r } := by
  obtain ⟨hs, hg, hph⟩ := h
  exact ⟨⟨hs.reader, hs.win_wf, hs.out_wf, hs.main_length, hs.length_length, hs.aligned_length, hs.pre_length,
    hs.pre_book, hs.main_book, hs.length_book, hs.aligned_book⟩,
    ⟨hg.window_legal, hg.winPos_lt, hg.winPos_clock, hg.remaining_le, hg.outPos_le, hg.outLen_lt, hg.out_valid,
      hg.fault_code, hg.counters, hg.carry_empty, hg.running⟩, hph⟩

theorem bookOk_unbuilt (t : Tree) : BookOk t (Book.unbuilt t) :=
  ⟨by simp [Book.unbuilt], by simp [Book.unbuilt, List.mem_replicate]⟩

theorem readerOk_detached {m : Memory} (h : Memory.wf m = true) : ReaderOk (Reader.detached m) :=
  ⟨by simp [Reader.detached], by simp [Reader.detached], by simp [Reader.detached], by simp [Reader.detached], h⟩

theorem storageOk_powerOn {s : State} (h : Memory.wf s.rd.inseg = true) : StorageOk (powerOn s) :=
  ⟨readerOk_detached h, rfl, rfl, List.length_replicate, List.length_replicate, List.length_replicate,
    List.length_replicate, bookOk_unbuilt _, bookOk_unbuilt _, bookOk_unbuilt _, bookOk_unbuilt _⟩

theorem registersOk_powerOn (s : State) : RegistersOk (powerOn s) where
  window_legal := fun h => by cases h
  winPos_lt := Nat.two_pow_pos _
  winPos_clock := fun h => by cases h
  remaining_le := Nat.le_refl 0
  outPos_le := Nat.le_refl 0
  outLen_lt := show 0 < 2 ^ 31 by decide
  out_valid := fun h => by cases h
  fault_code := ⟨nofun, fun h => absurd rfl h⟩
  counters := rfl
  carry_empty := fun _ => rfl
  running := fun h => absurd rfl h

/-- INIT leaves a well-kept engine, whatever stood before it but for the canonical form of `INSEG` (46_host_commands.md
R281). -/
theorem inv_execInit {s u : State} (h : Memory.wf s.rd.inseg = true) (he : execInit s = .next u) : Inv u := by
  unfold execInit at he
  have hs := storageOk_powerOn h
  split at he
  · rename_i hw
    cases he
    simp only [legalWindow, Bool.and_eq_true, decide_eq_true_eq] at hw
    refine ⟨⟨hs.reader, hs.win_wf, hs.out_wf, hs.main_length, hs.length_length, hs.aligned_length, hs.pre_length,
      hs.pre_book, hs.main_book, hs.length_book, hs.aligned_book⟩, ?_, ?_⟩
    · exact
        { window_legal := fun _ => hw
          winPos_lt := Nat.two_pow_pos _
          winPos_clock := fun _ _ => (Nat.zero_mod _).symm
          remaining_le := Nat.le_refl 0
          outPos_le := Nat.le_refl 0
          outLen_lt := show 0 < 2 ^ 31 by decide
          out_valid := fun h => by cases h
          fault_code := ⟨nofun, fun h => absurd rfl h⟩
          counters := rfl
          carry_empty := fun _ => rfl
          running := fun h => absurd rfl h }
    · exact fun _ hn => absurd rfl hn
  · cases he
    exact inv_raiseFault hs (registersOk_powerOn s) (by decide) _

/-- The checks that stand between a host and a command. -/
theorem structuralFault_none {s : State} (h : structuralFault s = none) :
    s.faulted = false ∧ s.live = true ∧ 0 < argOutLenInt s := by
  unfold structuralFault at h
  repeat' split at h
  all_goals simp_all

theorem structuralFault_ne_none {s : State} {f : FaultCode} {info : Word} (h : structuralFault s = some (f, info)) :
    f ≠ .none := by
  unfold structuralFault at h
  repeat' split at h
  all_goals
    simp only [Option.some.injEq, Prod.mk.injEq, reduceCtorEq] at h
    try (obtain ⟨rfl, -⟩ := h; decide)

/-- DECODE_BLOCK at an idle engine keeps the invariant. -/
theorem inv_execDecodeBlock {s u : State} (h : Inv s) (hp : s.phase = .idle) (hcmd : s.cmd = none)
    (he : execDecodeBlock s = .next u) : Inv u := by
  obtain ⟨hs, hg, hph⟩ := h
  simp only [PhaseOk, hp] at hph
  unfold execDecodeBlock at he
  cases hf : structuralFault s with
  | some p =>
    obtain ⟨f, info⟩ := p
    simp only [hf] at he
    cases he
    exact inv_raiseFault hs hg (structuralFault_ne_none hf) _
  | none =>
    obtain ⟨hfa, hlive, hout⟩ := structuralFault_none hf
    simp only [hf] at he
    split at he
    case h_2 => cases he
    rename_i htrig
    cases he
    have hseg : s.argSegLen.toNat < 2 ^ 32 := s.argSegLen.isLt
    have hlen : (argOutLenInt s).toNat < 2 ^ 31 := by
      have := BitVec.toInt_lt (x := s.argOutLen)
      unfold argOutLenInt at *
      omega
    have htake : (s.carry.take (argOutLenInt s).toNat).length ≤ (argOutLenInt s).toNat := by
      rw [List.length_take]
      omega
    refine ⟨⟨readerOk_startSegment hs.reader hseg, hs.win_wf, Memory.wf_writeBytes rfl _ _, hs.main_length,
      hs.length_length, hs.aligned_length, hs.pre_length, hs.pre_book, hs.main_book, hs.length_book,
      hs.aligned_book⟩, ?_, ?_⟩
    · exact
        { window_legal := hg.window_legal
          winPos_lt := hg.winPos_lt
          winPos_clock := by
            intro _ _
            have hc := hg.winPos_clock hlive hfa
            simp only [windowClock, if_pos hp] at hc
            have e : (s.carry.take (argOutLenInt s).toNat).length + (s.carry.drop (argOutLenInt s).toNat).length =
                s.carry.length := by simp only [List.length_take, List.length_drop]; omega
            have hq : (beginBlock s).phase ≠ .idle := nofun
            simp only [windowClock, if_neg hq]
            change s.winPos = (s.streamPos + (s.carry.take (argOutLenInt s).toNat).length +
              (s.carry.drop (argOutLenInt s).toNat).length) % windowSize s
            rw [hc]
            congr 1
            omega
          remaining_le := hg.remaining_le
          outPos_le := htake
          outLen_lt := hlen
          out_valid := by simp [beginBlock]
          fault_code := hg.fault_code
          counters := hg.counters
          carry_empty := by intro ht; simp [beginBlock, hg.carry_empty ht]
          running := fun _ => ⟨hlive, hfa, hcmd, by
            change 1 ≤ (argOutLenInt s).toNat
            omega, htrig⟩ }
    · exact blockReady_same (s := s) (by constructor <;> rfl) (hph hfa) fun hz => hz

end Sys2Proof.Machine
end

