-- ==== Sys2Proof/Laws/Meanings.lean ====
section
/-! SUPPORT. What the meanings come down to: which shared operation each runs, when it answers a next state, and what
every stream element leaves as it was. -/

namespace Sys2Proof.Machine

open Sys2Proof.Safety

/-! ### Answering a next state -/

theorem buildThen_next (t : Tree) {k : State → StepResult} (s : State) (hk : ∀ s, ∃ u, k s = .next u) :
    ∃ u, buildThen t k s = .next u := by
  rcases buildThen_cases t k s with ⟨_, h⟩ | ⟨_, h⟩ <;> rw [h]
  · exact hk _
  · exact ⟨_, rfl⟩

theorem endRun_next (s : State) : ∃ u, endRun s = .next u := by
  unfold endRun
  split
  · exact ⟨_, rfl⟩
  · exact buildThen_next _ _ fun _ => ⟨_, rfl⟩
  · exact buildThen_next _ _ fun _ => ⟨_, rfl⟩

theorem continueRun_next (s : State) : ∃ u, continueRun s = .next u := by
  unfold continueRun
  split
  · exact ⟨_, rfl⟩
  · exact endRun_next _

theorem finishMatch_next (off : Word) (reps : Repeats) (len : Nat) (s : State) :
    ∃ u, finishMatch off reps len s = .next u := by
  unfold finishMatch copyOrFault
  split <;> exact ⟨_, rfl⟩

/-- No instruction stops, under `E8_TRIGGER = PER_BLOCK`. -/
theorem exec_next (i : Instr) {s : State} (h : s.params.e8Trigger = .perBlock) : ∃ u, exec i s = .next u := by
  cases i
  case init => unfold exec execInit; simp only; split <;> exact ⟨_, rfl⟩
  case decodeBlock => unfold exec execDecodeBlock; simp only [h]; split <;> exact ⟨_, rfl⟩
  case blockHeader => unfold exec execBlockHeader enterBlock; simp only; split <;> exact ⟨_, rfl⟩
  case alignedLengths => exact buildThen_next _ _ fun _ => ⟨_, rfl⟩
  case pretreeLengths => exact buildThen_next _ _ fun _ => continueRun_next _
  case ptDelta => exact continueRun_next _
  case ptZrun4 => exact continueRun_next _
  case ptZrun5 => exact continueRun_next _
  case ptSame => exact continueRun_next _
  case matchRep0 => exact finishMatch_next _ _ _ _
  case matchRep1 => exact finishMatch_next _ _ _ _
  case matchRep2 => exact finishMatch_next _ _ _ _
  case matchExplicitV => exact finishMatch_next _ _ _ _
  case matchExplicitA => exact finishMatch_next _ _ _ _
  all_goals exact ⟨_, rfl⟩

/-! ### What the matches and the pretree operations run -/

theorem two_le_positionBase {n : Nat} (h : 3 ≤ n) : 2 ≤ positionBase n := by
  induction n with
  | zero => omega
  | succ n ih =>
    by_cases hn : n = 2
    · subst hn; decide
    · have := ih (by omega)
      exact Nat.le_trans this (Nat.le_add_right _ _)

theorem explicitOffset_eq {slot : BitVec 6} (h : 3 ≤ slot.toNat) (e : BitVec 17) :
    explicitOffset slot e = slotOffset slot e := by
  have := two_le_positionBase h
  simp only [explicitOffset, slotOffset]
  congr 1
  omega

theorem three_le_slot {slot : BitVec 6} {e : BitVec 17} {b : Bool} (h : (b && explicitWellFormed slot e) = true) :
    3 ≤ slot.toNat := by
  simp only [explicitWellFormed, Bool.and_eq_true, decide_eq_true_eq] at h
  exact h.2.1.1

/-- Every match resolves its offset, rotates, and ends alike (43_symbols.md R212 to R217). -/
theorem exec_match {s : State} {i : Instr} {off : Word} {reps : Repeats} {len : Nat}
    (h : match? s i = some (off, reps, len)) (hw : i.wellFormed = true) : exec i s = finishMatch off reps len s := by
  cases i <;> simp only [match?, Option.some.injEq, Prod.mk.injEq, reduceCtorEq] at h <;> obtain ⟨rfl, rfl, rfl⟩ := h
  case matchRep0 => rfl
  case matchRep1 => rfl
  case matchRep2 =>
    have e : rotateRep2 s.params.rep2Rotation s.reps = (s.reps.r2, afterRep2 s) := by
      unfold rotateRep2 afterRep2
      cases s.params.rep2Rotation <;> rfl
    simp only [exec, execMatchRep2, e]
    rfl
  case matchExplicitV slot _ _ e =>
    simp only [exec, execMatchExplicitV, explicitOffset_eq (three_le_slot hw)]
    rfl
  case matchExplicitA slot _ _ e =>
    simp only [exec, execMatchExplicitA, explicitOffset_eq (three_le_slot hw)]
    rfl

/-- A match is at most 264 bytes long, so it is shorter than every window. -/
theorem match_length_le {s : State} {i : Instr} {off : Word} {reps : Repeats} {len : Nat}
    (h : match? s i = some (off, reps, len)) : len ≤ 264 := by
  have bound : ∀ (x : BitVec 3) (y : BitVec 8), x.toNat + y.toNat + 2 ≤ 264 := by
    intro x y
    have := x.isLt
    have := y.isLt
    omega
  cases i <;> simp only [match?, Option.some.injEq, Prod.mk.injEq, reduceCtorEq] at h <;>
    obtain ⟨-, -, rfl⟩ := h <;> exact bound _ _

theorem lessDelta_eq (old : Fin 17) (z : BitVec 5) : lessDelta old z = subMod17 old z.toNat := by
  revert old z
  decide

/-- Every pretree operation writes its entries and goes on with the run (41_huffman.md R161 to R166). -/
theorem exec_pretreeOp {s : State} {i : Instr} {count : Nat} {value : Fin 17 → Fin 17}
    (h : pretreeOp? i = some (count, value)) :
    exec i s = continueRun (writeEntries (value (currentLength s)) count s) := by
  cases i <;> simp only [pretreeOp?, Option.some.injEq, Prod.mk.injEq, reduceCtorEq] at h <;> obtain ⟨rfl, rfl⟩ := h
  case ptDelta => simp only [lessDelta_eq]; rfl
  case ptZrun4 => rfl
  case ptZrun5 => rfl
  case ptSame => simp only [lessDelta_eq]; rfl

/-- A run of writes is the array whose entries `writeRun_getElem` gives. -/
theorem writeRun_eq_of_getElem {v : Fin 17} {n count x : Nat} {ls lens : List (Fin 17)} (hn : n = ls.length)
    (h : ∀ j, lens[j]? = if x ≤ j ∧ j < x + count ∧ j < n then some v else ls[j]?) : writeRun n v count x ls = lens := by
  apply List.ext_getElem?
  intro j
  rw [h, writeRun_getElem _ _ _ _ _ hn]

theorem runLengths_length {s : State} (hm : s.mainLengths.length = 656) (hl : s.lengthLengths.length = 250) :
    s.run.tree.maxSymbols = (runLengths s.run s).length := by
  cases s.run <;> simp [Run.tree, Tree.maxSymbols, runLengths, hm, hl]

/-! ### What a stream element leaves as it was -/

/-- What no stream element writes, and what it leaves where it raises a fault (10_state.md R43; 60_exceptions.md
R300). -/
structure Frame (s t : State) : Prop where
  params : t.params = s.params
  rd : t.rd = s.rd
  argWBits : t.argWBits = s.argWBits
  argSegLen : t.argSegLen = s.argSegLen
  argOutLen : t.argOutLen = s.argOutLen
  argBlockNo : t.argBlockNo = s.argBlockNo
  argStart : t.argStart = s.argStart
  argEnd : t.argEnd = s.argEnd
  windowBits : t.windowBits = s.windowBits
  live : t.live = s.live
  started : s.started = true → t.started = true
  intelStarted : s.intelStarted = true → t.intelStarted = true
  result : t.result = s.result
  frames : t.frames = s.frames
  streamPos : t.streamPos = s.streamPos
  nextBlockNo : t.nextBlockNo = s.nextBlockNo
  outLen : t.outLen = s.outLen
  faulted : s.faulted = true → t.faulted = true
  fault : s.faulted = false → t.faulted = true →
    t.phase = .idle ∧ t.outValid = false ∧ t.faultCode ≠ .none ∧ t.win = s.win ∧ t.winPos = s.winPos ∧
      t.out = s.out ∧ t.outPos = s.outPos

/-- An update of the fields elements write, with no fault. -/
theorem Frame.of_update {s t : State}
    (h : t = { s with
      reps := t.reps, blockType := t.blockType, blockLength := t.blockLength, blockRemaining := t.blockRemaining,
      started := t.started, intelFileSize := t.intelFileSize, intelStarted := t.intelStarted,
      mainLengths := t.mainLengths, lengthLengths := t.lengthLengths, alignedLengths := t.alignedLengths,
      preLengths := t.preLengths, preBook := t.preBook, mainBook := t.mainBook, lengthBook := t.lengthBook,
      alignedBook := t.alignedBook, win := t.win, winPos := t.winPos, out := t.out, outPos := t.outPos,
      carry := t.carry, phase := t.phase, run := t.run, index := t.index, pend := t.pend })
    (h1 : s.started = true → t.started = true) (h2 : s.intelStarted = true → t.intelStarted = true) : Frame s t := by
  rw [h] at h1 h2 ⊢
  exact ⟨rfl, rfl, rfl, rfl, rfl, rfl, rfl, rfl, rfl, rfl, h1, h2, rfl, rfl, rfl, rfl, rfl, id,
    fun a b => by rw [a] at b; cases b⟩

theorem Frame.refl (s : State) : Frame s s := Frame.of_update rfl id id

theorem Frame.raise {s t : State} {f : FaultCode} {info : Word} (hf : f ≠ .none) (h : Frame s t)
    (hw : t.win = s.win ∧ t.winPos = s.winPos ∧ t.out = s.out ∧ t.outPos = s.outPos) :
    Frame s (raiseFault f info t) :=
  ⟨h.params, h.rd, h.argWBits, h.argSegLen, h.argOutLen, h.argBlockNo, h.argStart, h.argEnd, h.windowBits, h.live,
    h.started, h.intelStarted, h.result, h.frames, h.streamPos, h.nextBlockNo, h.outLen, fun _ => rfl,
    fun _ _ => ⟨rfl, rfl, hf, hw⟩⟩

theorem frame_finishMatch {off : Word} {reps : Repeats} {len : Nat} {s t : State}
    (he : finishMatch off reps len s = .next t) : Frame s t := by
  unfold finishMatch copyOrFault at he
  split at he
  · cases he
    refine Frame.of_update ?_ (by simp) (by simp)
    unfold copyMatch
    split
    · generalize copyLength len _ = n
      rw [copyBytes_eq]
      rfl
    · generalize len - copyLength len _ = m
      generalize copyLength len _ = n
      rw [copyCarry_eq, copyBytes_eq]
      rfl
  · cases he
    exact Frame.raise (by decide) (Frame.of_update rfl id id) ⟨rfl, rfl, rfl, rfl⟩

/-- A state that has produced nothing since `s`. -/
def SameOutput (s t : State) : Prop := t.win = s.win ∧ t.winPos = s.winPos ∧ t.out = s.out ∧ t.outPos = s.outPos

theorem frame_setBook {s t : State} (h : Frame s t) (tree : Tree) (b : Book) : Frame s (setBook tree b t) := by
  cases tree <;> exact ⟨h.params, h.rd, h.argWBits, h.argSegLen, h.argOutLen, h.argBlockNo, h.argStart, h.argEnd,
    h.windowBits, h.live, h.started, h.intelStarted, h.result, h.frames, h.streamPos, h.nextBlockNo, h.outLen,
    h.faulted, h.fault⟩

theorem frame_buildThen {tree : Tree} {k : State → StepResult} {s t u : State} (h : Frame s t) (hw : SameOutput s t)
    (hk : ∀ b u, k (setBook tree b t) = .next u → Frame s u) (he : buildThen tree k t = .next u) : Frame s u := by
  rcases buildThen_cases tree k t with ⟨_, e⟩ | ⟨_, e⟩
  · rw [e] at he
    exact hk _ _ he
  · rw [e] at he
    cases he
    exact Frame.raise (by decide) (frame_setBook h tree _) (by simpa [SameOutput] using hw)

theorem frame_setPlace {s t : State} (h : Frame s t) (hf : t.faulted = s.faulted) (r : Run) (p : Phase) :
    Frame s { t with run := r, phase := p } :=
  ⟨h.params, h.rd, h.argWBits, h.argSegLen, h.argOutLen, h.argBlockNo, h.argStart, h.argEnd, h.windowBits, h.live,
    h.started, h.intelStarted, h.result, h.frames, h.streamPos, h.nextBlockNo, h.outLen, h.faulted,
    fun a b => by
      have : t.faulted = true := b
      rw [hf, a] at this
      cases this⟩

theorem frame_endRun {s t u : State} (h : Frame s t) (hw : SameOutput s t) (hf : t.faulted = s.faulted)
    (he : endRun t = .next u) : Frame s u := by
  unfold endRun at he
  split at he
  · cases he
    exact frame_setPlace h hf _ _
  · refine frame_buildThen h hw ?_ he
    intro b v hv
    cases hv
    refine frame_setPlace ?_ (by simpa using hf) _ _
    have hb := frame_setBook h .main b
    unfold activateIntel
    split
    · exact ⟨hb.params, hb.rd, hb.argWBits, hb.argSegLen, hb.argOutLen, hb.argBlockNo, hb.argStart, hb.argEnd,
        hb.windowBits, hb.live, hb.started, fun _ => rfl, hb.result, hb.frames, hb.streamPos, hb.nextBlockNo,
        hb.outLen, hb.faulted, hb.fault⟩
    · exact hb
  · refine frame_buildThen h hw ?_ he
    intro b v hv
    cases hv
    exact frame_setPlace (frame_setBook h .length b) hf t.run _

theorem frame_continueRun {s t u : State} (h : Frame s t) (hw : SameOutput s t) (hf : t.faulted = s.faulted)
    (he : continueRun t = .next u) : Frame s u := by
  unfold continueRun at he
  split at he
  · cases he
    exact frame_setPlace h hf t.run _
  · exact frame_endRun h hw hf he

theorem frame_writeEntries {s t : State} (v : Fin 17) (n : Nat) (he : continueRun (writeEntries v n s) = .next t) :
    Frame s t := by
  refine frame_continueRun (Frame.of_update ?_ (by simp) (by simp)) (by simp [SameOutput]) (by simp) he
  unfold writeEntries
  cases s.run <;> rfl

/-- What every stream element leaves as it was. -/
theorem frame_exec {i : Instr} {s t : State} (hc : isCommand i = false) (he : exec i s = .next t) : Frame s t := by
  cases i <;> simp only [isCommand, reduceCtorEq] at hc
  case e8PreambleOff => cases he; exact Frame.of_update rfl (fun _ => rfl) id
  case e8PreambleOn => cases he; exact Frame.of_update rfl (fun _ => rfl) id
  case blockHeader =>
    unfold exec execBlockHeader enterBlock at he
    simp only at he
    split at he
    · rename_i kind _
      cases he
      cases kind <;> exact Frame.of_update rfl id id
    · cases he
      exact Frame.raise (by decide) (Frame.of_update rfl id id) ⟨rfl, rfl, rfl, rfl⟩
  case alignedLengths ls =>
    change execAlignedLengths ls s = _ at he
    unfold execAlignedLengths at he
    refine frame_buildThen (t := { s with alignedLengths := ls }) (Frame.of_update rfl id id) ⟨rfl, rfl, rfl, rfl⟩ ?_ he
    intro b u hu
    cases hu
    exact Frame.of_update rfl id id
  case pretreeLengths ps =>
    change execPretreeLengths ps s = _ at he
    unfold execPretreeLengths at he
    refine frame_buildThen (t := { s with preLengths := ps }) (Frame.of_update rfl id id) ⟨rfl, rfl, rfl, rfl⟩ ?_ he
    intro b u hu
    refine frame_continueRun ?_ ?_ ?_ hu
    · exact Frame.of_update rfl id id
    · exact ⟨rfl, rfl, rfl, rfl⟩
    · rfl
  case ptDelta z => exact frame_writeEntries (subMod17 (currentLength s) z.toNat) 1 he
  case ptZrun4 c => exact frame_writeEntries 0 (c.toNat + 4) he
  case ptZrun5 c => exact frame_writeEntries 0 (c.toNat + 20) he
  case ptSame c z2 => exact frame_writeEntries (subMod17 (currentLength s) z2.toNat) (c.toNat + 4) he
  case literal => cases he; exact Frame.of_update rfl id id
  case matchRep0 => exact frame_finishMatch he
  case matchRep1 => exact frame_finishMatch he
  case matchRep2 => exact frame_finishMatch he
  case matchExplicitV => exact frame_finishMatch he
  case matchExplicitA => exact frame_finishMatch he
  case lenFooter => cases he; exact Frame.of_update rfl id id
  case alignedSym => cases he; exact Frame.of_update rfl id id
  case uncRepeats => cases he; exact Frame.of_update rfl id (fun _ => rfl)
  case uncByte => cases he; exact Frame.of_update rfl id id
  case uncPad => cases he; exact Frame.of_update rfl id id

end Sys2Proof.Machine
end

