-- ==== Sys2Proof/Laws/NodeCount.lean ====
section
/-! SUPPORT. How many node pairs phase 2 of the builder makes, and so where check (b) raises TABLE_OVERFLOW
(41_huffman.md R153, R154); and which codes a prefix of the stream lies in. -/

namespace Sys2Proof.Machine

open Sys2Proof.Safety

/-! ### The nodes of a table under construction -/

/-- The block of every node starts below `B`. -/
def NodesBehind (tb ms : Nat) (T : List Nat) (B : Nat) : Prop :=
  ∀ X j, X < 2 ^ 16 → j < 16 - tb → (∀ k, k ≤ j → firstNode tb ms ≤ T.getD (walkAt tb T X k) 0) →
    blockOf tb X j * 2 ^ (16 - tb - j) < B

theorem nodesBehind_mono {tb ms : Nat} {T : List Nat} {B B' : Nat} (h : NodesBehind tb ms T B) (hB : B ≤ B') :
    NodesBehind tb ms T B' := fun X j hX hj hp => Nat.lt_of_lt_of_le (h X j hX hj hp) hB

/-- A write of a symbol makes no node. -/
theorem nodesBehind_set {tb ms : Nat} (hms : ms ≤ firstNode tb ms) {T : List Nat} {B i v : Nat} (hi : i < T.length)
    (hv : v < ms) (h : NodesBehind tb ms T B) : NodesBehind tb ms (T.set i v) B := by
  intro X j hX hj hp
  have hne : ∀ k, k ≤ j → (T.set i v).getD (walkAt tb (T.set i v) X k) 0 = T.getD (walkAt tb (T.set i v) X k) 0 := by
    intro k hk
    have := hp k hk
    rw [getD_set hi] at this ⊢
    split at this
    · omega
    · rename_i hki; rw [if_neg hki]
  have hwalk := walkAt_of_agree (T := T.set i v) (T' := T) (d := j) (X := X) (tb := tb)
    (fun k hk => (hne k (Nat.le_of_lt hk)).symm)
  refine h X j hX hj fun k hk => ?_
  rw [hwalk k hk, ← hne k hk]
  exact hp k hk

/-- A node made on the way of the position `Y` has a block that starts at or below `Y`. -/
theorem nodesBehind_alloc {tb ms size : Nat} (hs : TreeShape tb ms size) {T T' : List Nat} {next Y j B : Nat}
    (hn : NodesOk tb ms size T next) (hY : Y < 2 ^ 16) (hj : j < 16 - tb) (hYB : Y < B)
    (hp : ∀ k, k < j → firstNode tb ms ≤ T.getD (walkAt tb T Y k) 0) (h0 : T.getD (walkAt tb T Y j) 0 = 0)
    (hT : ∀ i, T'.getD i 0 = if i = walkAt tb T Y j then next else T.getD i 0) (h : NodesBehind tb ms T B) :
    NodesBehind tb ms T' B := by
  have h1 := hs.symbols_below
  have h2 := hs.symbol
  have h3 := hn.next_ge
  obtain ⟨hl1, hl2⟩ := walkAt_lt hs hn hY hp
  intro X i hX hi hpX
  -- the first level at which the walk of X meets the new node, if any
  have key : ∀ k, k ≤ i → (∀ m, m < k → walkAt tb T' X m ≠ walkAt tb T Y j) ∨
      (∃ m, m < k ∧ walkAt tb T' X m = walkAt tb T Y j ∧ ∀ q, q < m → walkAt tb T' X q ≠ walkAt tb T Y j) := by
    intro k _
    induction k with
    | zero => exact .inl fun m hm => absurd hm (Nat.not_lt_zero m)
    | succ k ih =>
      rcases ih (by omega) with hnone | ⟨m, hm, he, hq⟩
      · by_cases hk : walkAt tb T' X k = walkAt tb T Y j
        · exact .inr ⟨k, by omega, hk, hnone⟩
        · refine .inl fun m hm => ?_
          rcases Nat.lt_or_ge m k with h' | h'
          · exact hnone m h'
          · rw [show m = k by omega]; exact hk
      · exact .inr ⟨m, by omega, he, hq⟩
  have agree : ∀ d, (∀ m, m < d → walkAt tb T' X m ≠ walkAt tb T Y j) → ∀ k, k ≤ d → walkAt tb T X k = walkAt tb T' X k :=
    fun d hd => walkAt_of_agree (T := T') (T' := T) (d := d) fun k hk => by rw [hT, if_neg (hd k hk)]
  have meet : ∀ m, m ≤ i → walkAt tb T' X m = walkAt tb T Y j → (∀ q, q < m → walkAt tb T' X q ≠ walkAt tb T Y j) →
      m = j ∧ blockOf tb X m = blockOf tb Y j := by
    intro m hm he hq
    have hag := agree m hq
    refine walkAt_inj hs.nodes_above hs.tb_le hn.uniq hX hY (by omega) (by omega) (fun k hk => ?_) hp
      (by rw [hag m (Nat.le_refl _)]; exact he)
    have := hpX k (by omega)
    rw [hT, if_neg (hq k hk)] at this
    rw [hag k (by omega)]
    exact this
  rcases key i (Nat.le_refl _) with hnone | ⟨m, hm, he, hq⟩
  · by_cases hi' : walkAt tb T' X i = walkAt tb T Y j
    · obtain ⟨rfl, hbl⟩ := meet i (Nat.le_refl _) hi' hnone
      rw [hbl]
      exact Nat.lt_of_le_of_lt (blockOf_mul_le tb Y i) hYB
    · have hag := agree i hnone
      refine h X i hX hi fun k hk => ?_
      have := hpX k hk
      rw [hag k hk]
      rw [hT] at this
      split at this
      · rename_i hk'
        rcases Nat.lt_or_ge k i with hlt | hge
        · exact absurd hk' (hnone k hlt)
        · rw [show k = i by omega] at hk'; exact absurd hk' hi'
      · exact this
  · -- below the new node stand the zeros of its fresh pair
    have := hpX (m + 1) (by omega)
    rw [walkAt, he, hT (walkAt tb T Y j), if_pos rfl, hT, if_neg (by omega), hn.fresh _ (by omega)] at this
    omega

/-! ### How many node pairs a code needs -/

/-- The walk of a long code whose path stands at level `d` makes the `lev - d` node pairs below, and raises
TABLE_OVERFLOW where they pass the table (41_huffman.md R153, R154 (b)). -/
theorem threadCode_count {tb ms half : Nat} (hs : TreeShape tb ms (2 * half)) {lev Y B : Nat} (hY : Y < 2 ^ 16)
    (hlev : lev ≤ 16 - tb) (hYB : Y < B) {count j : Nat} (hc : j + count = lev) {b : Build} (hb : b.ok = true)
    (hpos : b.pos = Y * 2 ^ tb) (hn : NodesOk tb ms (2 * half) b.table b.next) (hw : WalksOk tb ms b.table lev Y)
    (hnb : NodesBehind tb ms b.table B) (hhalf : b.next ≤ half) {d : Nat} (hd : d ≤ lev)
    (he : WalkEnds tb (firstNode tb ms) b.table Y d 0) (hjd : j ≤ d) :
    ((threadCode (2 * half) count j (walkAt tb b.table Y j) b).2.ok = true ↔ b.next + (lev - d) ≤ half) ∧
      ((threadCode (2 * half) count j (walkAt tb b.table Y j) b).2.ok = true →
        (threadCode (2 * half) count j (walkAt tb b.table Y j) b).2.next = b.next + (lev - d) ∧
          NodesBehind tb ms (threadCode (2 * half) count j (walkAt tb b.table Y j) b).2.table B) := by
  have h1 := hs.symbols_below
  have h2 := hs.symbol
  induction count generalizing j b d with
  | zero =>
    have : d = lev := by omega
    subst this
    simp only [threadCode, Nat.sub_self, Nat.add_zero]
    exact ⟨⟨fun _ => hhalf, fun _ => hb⟩, fun _ => ⟨trivial, hnb⟩⟩
  | succ count ih =>
    have hp : ∀ k, k < j → firstNode tb ms ≤ b.table.getD (walkAt tb b.table Y k) 0 := fun k hk => he.1 k (by omega)
    have hlevel := walk_level hs he hp
    simp only [threadCode, hpos, pos_bit (show j < 16 - tb by omega)]
    by_cases h0 : b.table.getD (walkAt tb b.table Y j) 0 = 0
    · have hdj : d = j := hlevel.2.1 h0
      subst hdj
      by_cases hroom : 2 * b.next + 1 ≥ 2 * half
      · have : (threadStep (2 * half) (Y / 2 ^ (15 - tb - d) % 2) (walkAt tb b.table Y d) b).2.ok = false := by
          simp only [threadStep]; rw [if_pos h0, if_pos hroom]
        simp only [this]
        simp [this]
        omega
      · obtain ⟨hT, hn', hw'⟩ := alloc_ok hs hn hw hY hlev (by omega) hp h0 (by omega) rfl
        have hnb' := nodesBehind_alloc hs hn hY (by omega) hYB hp h0 hT hnb
        have hag : ∀ k, k < d → (((b.table.set (2 * b.next) 0).set (2 * b.next + 1) 0).set (walkAt tb b.table Y d)
            b.next).getD (walkAt tb b.table Y k) 0 = b.table.getD (walkAt tb b.table Y k) 0 := by
          intro k hk
          rw [hT, if_neg]
          intro h
          have := hp k hk
          rw [h, h0] at this
          omega
        have hwalk := walkAt_of_agree hag
        obtain ⟨hl1, hl2⟩ := walkAt_lt hs hn hY hp
        have hstep : threadStep (2 * half) (Y / 2 ^ (15 - tb - d) % 2) (walkAt tb b.table Y d) b =
            (walkAt tb (((b.table.set (2 * b.next) 0).set (2 * b.next + 1) 0).set (walkAt tb b.table Y d) b.next) Y (d + 1),
              { b with
                table := ((b.table.set (2 * b.next) 0).set (2 * b.next + 1) 0).set (walkAt tb b.table Y d) b.next
                next := b.next + 1 }) := by
          simp only [threadStep]
          rw [if_pos h0, if_neg hroom, walkAt, hwalk d (Nat.le_refl _)]
        rw [hstep]
        simp only [hb, if_true]
        have hends : WalkEnds tb (firstNode tb ms)
            (((b.table.set (2 * b.next) 0).set (2 * b.next + 1) 0).set (walkAt tb b.table Y d) b.next) Y (d + 1) 0 := by
          refine ⟨fun k hk => ?_, ?_⟩
          · rw [hwalk k (by omega)]
            rcases Nat.lt_or_ge k d with h | h
            · rw [hag k h]; exact hp k h
            · rw [show k = d by omega, hT, if_pos rfl]; exact hn.next_ge
          · rw [walkAt, hwalk d (Nat.le_refl _), hT (walkAt tb b.table Y d), if_pos rfl, hT, if_neg (by omega)]
            exact hn.fresh _ (by omega)
        have hrec := ih (j := d + 1) (d := d + 1) (by omega)
          (b := { b with
            table := ((b.table.set (2 * b.next) 0).set (2 * b.next + 1) 0).set (walkAt tb b.table Y d) b.next
            next := b.next + 1 }) hb hpos hn' hw' hnb' (by show b.next + 1 ≤ half; omega) (by omega) hends (Nat.le_refl _)
        have harith : b.next + 1 + (lev - (d + 1)) = b.next + (lev - d) := by omega
        simp only [harith, hb] at hrec
        exact hrec
    · have hstep : threadStep (2 * half) (Y / 2 ^ (15 - tb - j) % 2) (walkAt tb b.table Y j) b =
          (walkAt tb b.table Y (j + 1), b) := by
        simp only [threadStep]
        rw [if_neg h0, walkAt]
      have hne : d ≠ j := fun h => h0 (hlevel.2.2 h)
      rw [hstep]
      simp only [hb, if_true]
      exact ih (j := j + 1) (by omega) hb hpos hn hw hnb hhalf hd he (by omega)

/-- The node pairs of the levels below `n` when phase 2 stands at the position `Y`. -/
def pairsUpTo (lens : List Nat) (tb Y n : Nat) : Nat :=
  ((List.range n).map fun j =>
    (Y - codeSpaceBelow lens (tb + j) + (2 ^ (16 - tb - j) - 1)) / 2 ^ (16 - tb - j)).sum

theorem pairsUpTo_succ (lens : List Nat) (tb Y n : Nat) :
    pairsUpTo lens tb Y (n + 1) = pairsUpTo lens tb Y n +
      (Y - codeSpaceBelow lens (tb + n) + (2 ^ (16 - tb - n) - 1)) / 2 ^ (16 - tb - n) := by
  simp [pairsUpTo, List.range_succ]

theorem pairsUpTo_mono {lens : List Nat} {tb Y Y' n n' : Nat} (hY : Y ≤ Y') (hn : n ≤ n') :
    pairsUpTo lens tb Y n ≤ pairsUpTo lens tb Y' n' := by
  have h1 : pairsUpTo lens tb Y n ≤ pairsUpTo lens tb Y' n := by
    clear hn
    induction n with
    | zero => exact Nat.le_refl _
    | succ n ih =>
      rw [pairsUpTo_succ, pairsUpTo_succ]
      exact Nat.add_le_add ih (Nat.div_le_div_right (by omega))
  refine Nat.le_trans h1 ?_
  induction hn with
  | refl => exact Nat.le_refl _
  | step _ ih => exact Nat.le_trans ih (by rw [pairsUpTo_succ]; exact Nat.le_add_right _ _)

/-- A position moved by `p` reaches into one more block exactly where it stood at the start of one. -/
theorem blocks_add {B p z : Nat} (hpB : p ∣ B) (hpz : p ∣ z) (hB : 0 < B) :
    (z + p + (B - 1)) / B = (z + (B - 1)) / B + (if B ∣ z then 1 else 0) := by
  have hp : 0 < p := Nat.pos_of_dvd_of_pos hpB hB
  have hpB' := Nat.le_of_dvd hB hpB
  obtain ⟨q, r, hr, hz⟩ : ∃ q r, r < B ∧ z = r + B * q := ⟨z / B, z % B, Nat.mod_lt _ hB, by
    rw [Nat.add_comm, Nat.div_add_mod]⟩
  subst hz
  have hadd : ∀ x, (r + B * q + x) / B = q + (r + x) / B := fun x => by
    rw [Nat.add_right_comm, Nat.add_mul_div_left _ _ hB, Nat.add_comm]
  rw [Nat.add_assoc, hadd, hadd]
  have hdvd : B ∣ r + B * q ↔ r = 0 := by
    rw [Nat.dvd_add_left ⟨q, rfl⟩]
    exact ⟨fun h => Nat.eq_zero_of_dvd_of_lt h hr, fun h => h ▸ Nat.dvd_zero B⟩
  by_cases h0 : r = 0
  · rw [if_pos (hdvd.2 h0), h0, Nat.zero_add, Nat.zero_add, Nat.div_eq_of_lt (by omega : B - 1 < B)]
    rw [show p + (B - 1) = p - 1 + B by omega, Nat.add_div_right _ hB, Nat.div_eq_of_lt (by omega)]
  · rw [if_neg (fun h => h0 (hdvd.1 h))]
    have hpr : p ∣ r := (Nat.dvd_add_left (Nat.dvd_trans hpB ⟨q, rfl⟩)).1 hpz
    have hle : r + p ≤ B := by
      obtain ⟨a, rfl⟩ := hpB
      obtain ⟨c, rfl⟩ := hpr
      have : c < a := Nat.lt_of_mul_lt_mul_left hr
      calc p * c + p = p * (c + 1) := by rw [Nat.mul_add, Nat.mul_one]
        _ ≤ _ := Nat.mul_le_mul_left _ this
    rw [show r + (p + (B - 1)) = r + p - 1 + B by omega, show r + (B - 1) = r - 1 + B by omega,
      Nat.add_div_right _ hB, Nat.add_div_right _ hB, Nat.div_eq_of_lt (by omega), Nat.div_eq_of_lt (by omega)]

/-- The pairs that the code at the position `Y` adds: those of the levels where `Y` starts a block. -/
theorem pairsUpTo_add {lens : List Nat} {tb lev Y d : Nat} (hdvd : 2 ^ (16 - tb - lev) ∣ Y)
    (hS : ∀ j, j < lev → codeSpaceBelow lens (tb + j) ≤ Y)
    (hnot : ∀ k, k < d → ¬ 2 ^ (16 - tb - k) ∣ Y) (hstart : ∀ k, d ≤ k → k < lev → 2 ^ (16 - tb - k) ∣ Y) :
    ∀ n, n ≤ lev → pairsUpTo lens tb (Y + 2 ^ (16 - tb - lev)) n = pairsUpTo lens tb Y n + (n - d) := by
  intro n hn
  induction n with
  | zero => simp [pairsUpTo]
  | succ n ih =>
    have hSd : 2 ^ (16 - tb - n) ∣ codeSpaceBelow lens (tb + n) := by
      have := codeSpaceBelow_dvd lens (len := tb + n) (tb + n) (Nat.le_refl _)
      rwa [show 16 - (tb + n) = 16 - tb - n by omega] at this
    have hpB : 2 ^ (16 - tb - lev) ∣ 2 ^ (16 - tb - n) := Nat.pow_dvd_pow 2 (by omega)
    have hle := hS n (by omega)
    have hz : 2 ^ (16 - tb - lev) ∣ Y - codeSpaceBelow lens (tb + n) := Nat.dvd_sub hdvd (Nat.dvd_trans hpB hSd)
    have hiff : 2 ^ (16 - tb - n) ∣ Y - codeSpaceBelow lens (tb + n) ↔ 2 ^ (16 - tb - n) ∣ Y := by
      constructor
      · intro h
        have := Nat.dvd_add h hSd
        rwa [Nat.sub_add_cancel hle] at this
      · exact fun h => Nat.dvd_sub h hSd
    rw [pairsUpTo_succ, pairsUpTo_succ, ih (by omega),
      show Y + 2 ^ (16 - tb - lev) - codeSpaceBelow lens (tb + n) =
        Y - codeSpaceBelow lens (tb + n) + 2 ^ (16 - tb - lev) by omega,
      blocks_add hpB hz (Nat.two_pow_pos _)]
    by_cases hnd : n < d
    · rw [if_neg (fun h => hnot n hnd (hiff.1 h))]; omega
    · rw [if_pos (hiff.2 (hstart n (by omega) (by omega)))]; omega

/-! ### Phase 2 -/

/-- Phase 2 with its nodes counted: `next` stands past the pairs made so far. -/
structure CountOk (tb ms half : Nat) (lens : List Nat) (len sym : Nat) (b : Build) : Prop where
  thread : ThreadOk tb ms (2 * half) lens len sym b
  behind : NodesBehind tb ms b.table (spaceBefore lens len sym)
  next : b.next = firstNode tb ms + pairsUpTo lens tb (spaceBefore lens len sym) (min len 16 - tb)
  room : b.next ≤ half

theorem threadSymbol_count {tb ms half : Nat} (hs : TreeShape tb ms (2 * half)) {lens : List Nat} {len sym : Nat} {b : Build}
    (h : CountOk tb ms half lens len sym b) (hl : lens[sym]? = some len) (htb : tb < len) (hlen : len ≤ 16)
    (hsym : sym < ms) (hfit : spaceBefore lens len (sym + 1) ≤ 2 ^ 16) :
    let b' := threadSymbol (2 * half) (2 ^ tb * 2 ^ 16) (2 ^ (16 - (len - tb))) (len - tb) sym b
    (b'.ok = true ↔ firstNode tb ms + pairsUpTo lens tb (spaceBefore lens len (sym + 1)) (len - tb) ≤ half) ∧
      (b'.ok = true → CountOk tb ms half lens len (sym + 1) b') := by
  intro b'
  have hm : min len 16 = len := by omega
  have hwalks := h.thread.walks
  have hnext0 := h.next
  rw [hm] at hwalks hnext0
  have hnext := spaceBefore_succ hl
  have hpow := Nat.two_pow_pos (16 - len)
  have hY : spaceBefore lens len sym < 2 ^ 16 := by omega
  have hu : 2 ^ (16 - len) * 2 ^ tb = 2 ^ (16 - (len - tb)) := by rw [← Nat.pow_add]; congr 1; omega
  have hsz : 16 - tb - (len - tb) = 16 - len := by omega
  have hleaf : b.pos >>> 16 = walkAt tb b.table (spaceBefore lens len sym) 0 := by
    have h16 : 16 = tb + (16 - tb) := by omega
    rw [h.thread.pos, walkAt, Nat.shiftRight_eq_div_pow]
    conv_lhs => rw [h16, Nat.pow_add]
    rw [← Nat.div_div_eq_div_mul, Nat.mul_div_cancel _ (Nat.two_pow_pos _)]
  -- where the walk of the position stands
  obtain ⟨d, hd, he, hb⟩ := hwalks.ahead _ hY (Nat.le_refl _)
  have hstartd : 2 ^ (16 - tb - d) ∣ spaceBefore lens len sym := by
    have := blockOf_mul_le tb (spaceBefore lens len sym) d
    exact ⟨blockOf tb (spaceBefore lens len sym) d, by rw [Nat.mul_comm]; omega⟩
  have hnot : ∀ k, k < d → ¬ 2 ^ (16 - tb - k) ∣ spaceBefore lens len sym := by
    intro k hk ⟨q, hq⟩
    have := h.behind _ k hY (by omega) fun m hm => he.1 m (by omega)
    rw [blockOf, hq, Nat.mul_div_cancel_left _ (Nat.two_pow_pos _), Nat.mul_comm] at this
    omega
  have hpairs := pairsUpTo_add (lens := lens) (tb := tb) (lev := len - tb) (Y := spaceBefore lens len sym) (d := d)
    (by rw [hsz]; exact spaceBefore_dvd lens len sym)
    (fun j hj => Nat.le_trans (codeSpaceBelow_mono (show tb + j ≤ len - 1 by omega)) (Nat.le_add_right _ _)) hnot
    (fun k hk _ => Nat.dvd_trans (Nat.pow_dvd_pow 2 (by omega)) hstartd) (len - tb) (Nat.le_refl _)
  rw [hsz, ← hnext] at hpairs
  have hcount := threadCode_count hs hY (show len - tb ≤ 16 - tb by omega)
    (show spaceBefore lens len sym < spaceBefore lens len (sym + 1) by omega) (Nat.zero_add _) h.thread.ok h.thread.pos
    h.thread.nodes hwalks (nodesBehind_mono h.behind (by omega)) h.room hd he (Nat.zero_le _)
  rw [← hleaf] at hcount
  have hok : b'.ok = true ↔ (threadCode (2 * half) (len - tb) 0 (b.pos >>> 16) b).2.ok = true := by
    show (threadSymbol (2 * half) (2 ^ tb * 2 ^ 16) (2 ^ (16 - (len - tb))) (len - tb) sym b).ok = true ↔ _
    simp only [threadSymbol]
    by_cases hc : (threadCode (2 * half) (len - tb) 0 (b.pos >>> 16) b).2.ok = true
    · rw [if_pos hc, if_neg]
      simp only [threadCode_pos]
      rw [h.thread.pos, ← hu, ← Nat.add_mul, ← hnext, Nat.mul_comm (2 ^ tb)]
      exact Nat.not_lt.2 (Nat.mul_le_mul_right _ hfit)
    · rw [if_neg hc]
  have hrw : b.next + (len - tb - d) =
      firstNode tb ms + pairsUpTo lens tb (spaceBefore lens len (sym + 1)) (len - tb) := by
    rw [hpairs, hnext0, Nat.add_assoc]
  rw [hok, ← hrw]
  refine ⟨hcount.1, fun hc => ?_⟩
  obtain ⟨hnx, hbe⟩ := hcount.2 hc
  have hthread := threadSymbol_ok hs h.thread hl htb hlen hsym (hok.2 hc)
  have hset : b'.table = (threadCode (2 * half) (len - tb) 0 (b.pos >>> 16) b).2.table.set
      (threadCode (2 * half) (len - tb) 0 (b.pos >>> 16) b).1 sym ∧
      b'.next = (threadCode (2 * half) (len - tb) 0 (b.pos >>> 16) b).2.next := by
    show (threadSymbol (2 * half) (2 ^ tb * 2 ^ 16) (2 ^ (16 - (len - tb))) (len - tb) sym b).table = _ ∧
      (threadSymbol (2 * half) (2 ^ tb * 2 ^ 16) (2 ^ (16 - (len - tb))) (len - tb) sym b).next = _
    simp only [threadSymbol]
    rw [if_pos hc]
    split <;> exact ⟨rfl, rfl⟩
  have hcode := threadCode_ok hs hY (show len - tb ≤ 16 - tb by omega) (Nat.zero_add _) h.thread.pos
    h.thread.nodes hwalks (fun k hk => absurd hk (Nat.not_lt_zero k)) (by rw [← hleaf]; exact hc)
  simp only [← hleaf] at hcode
  have hlt : (threadCode (2 * half) (len - tb) 0 (b.pos >>> 16) b).1 <
      (threadCode (2 * half) (len - tb) 0 (b.pos >>> 16) b).2.table.length := by
    rw [hcode.2.2.1, hcode.1.length]
    exact (walkAt_lt hs hcode.1 hY hcode.2.2.2.1).1
  refine ⟨hthread, ?_, ?_, ?_⟩
  · rw [hset.1]
    exact nodesBehind_set hs.symbols_below hlt hsym hbe
  · rw [hset.2, hnx, hm, hrw]
  · rw [hset.2, hnx]
    exact hcount.1.1 hc

theorem countOk_skip {tb ms half : Nat} {lens : List Nat} {len sym : Nat} {b : Build} (h : CountOk tb ms half lens len sym b)
    (hl : lens[sym]? ≠ some len) : CountOk tb ms half lens len (sym + 1) b := by
  have hsk := spaceBefore_skip hl
  exact ⟨threadOk_skip h.thread hl, by rw [hsk]; exact h.behind, by rw [hsk]; exact h.next, h.room⟩

theorem countOk_next {tb ms half : Nat} {lens : List Nat} {len : Nat} {b : Build}
    (h : CountOk tb ms half lens len lens.length b) (h1 : tb < len) (hlen : len ≤ 16) :
    CountOk tb ms half lens (len + 1) 0 b := by
  have hs := spaceBefore_last lens (show 1 ≤ len by omega)
  refine ⟨threadOk_next h.thread (by omega), by rw [← hs]; exact h.behind, ?_, h.room⟩
  rw [h.next, hs]
  by_cases h16 : len = 16
  · subst h16; rfl
  · rw [show min len 16 - tb = len - tb by omega, show min (len + 1) 16 - tb = len - tb + 1 by omega, pairsUpTo_succ,
      show tb + (len - tb) = len by omega]
    have : spaceBefore lens (len + 1) 0 = codeSpaceBelow lens len := by simp [spaceBefore, codeSpaceAt_zero]
    rw [this, Nat.sub_self, Nat.zero_add, Nat.div_eq_of_lt (by have := Nat.two_pow_pos (16 - tb - (len - tb)); omega)]
    rfl

theorem spaceBefore_mono {lens : List Nat} {len sym sym' : Nat} (h : sym ≤ sym') :
    spaceBefore lens len sym ≤ spaceBefore lens len sym' := by
  induction h with
  | refl => exact Nat.le_refl _
  | @step m _ ih =>
    refine Nat.le_trans ih ?_
    by_cases hl : lens[m]? = some len
    · rw [spaceBefore_succ hl]; exact Nat.le_add_right _ _
    · exact Nat.le_of_eq (spaceBefore_skip hl).symm

theorem threadPass_count {tb ms half : Nat} (hs : TreeShape tb ms (2 * half)) {lens : List Nat} {len : Nat} (htb : tb < len)
    (hlen : len ≤ 16) (hlens : lens.length ≤ ms) (hfit : spaceBefore lens len lens.length ≤ 2 ^ 16) {ls : List Nat} {sym : Nat}
    (hls : ls = lens.drop sym) (hsym : sym ≤ lens.length) {b : Build} (h : CountOk tb ms half lens len sym b) :
    let b' := threadPass (2 * half) (2 ^ tb * 2 ^ 16) (2 ^ (16 - (len - tb))) len tb ls sym b
    (b'.ok = true ↔ firstNode tb ms + pairsUpTo lens tb (spaceBefore lens len lens.length) (len - tb) ≤ half) ∧
      (b'.ok = true → CountOk tb ms half lens len lens.length b') := by
  induction ls generalizing sym b with
  | nil =>
    have : lens.length ≤ sym := by simpa using hls.symm
    rw [threadPass, show lens.length = sym by omega]
    have hnx := h.next
    rw [show min len 16 = len by omega] at hnx
    rw [← hnx]
    exact ⟨⟨fun _ => h.room, fun _ => h.thread.ok⟩, fun _ => h⟩
  | cons l ls ih =>
    have hlt : sym < lens.length := by
      rcases Nat.lt_or_ge sym lens.length with h' | h'
      · exact h'
      · rw [List.drop_eq_nil_of_le h'] at hls; simp at hls
    rw [List.drop_eq_getElem_cons hlt] at hls
    obtain ⟨hl, hls⟩ := List.cons.inj hls
    unfold threadPass
    rw [if_neg (by simp [h.thread.ok])]
    by_cases hll : l = len
    · rw [if_pos hll]
      have hstep := threadSymbol_count hs h (by rw [List.getElem?_eq_getElem hlt, ← hl, hll]) htb hlen (by omega)
        (Nat.le_trans (spaceBefore_mono hlt) hfit)
      by_cases hok : (threadSymbol (2 * half) (2 ^ tb * 2 ^ 16) (2 ^ (16 - (len - tb))) (len - tb) sym b).ok = true
      · exact ih hls (by omega) (hstep.2 hok)
      · have hf := Bool.eq_false_iff.2 hok
        simp only [threadPass_of_failed _ hf, hf]
        refine ⟨⟨by simp, fun hle => ?_⟩, by simp⟩
        exact absurd (hstep.1.2 (Nat.le_trans (Nat.add_le_add_left (pairsUpTo_mono (spaceBefore_mono hlt) (Nat.le_refl _)) _) hle)) hok
    · rw [if_neg hll]
      exact ih hls (by omega) (countOk_skip h (by rw [List.getElem?_eq_getElem hlt, ← hl]; simpa using hll))

theorem threadPasses_count {tb ms half : Nat} (hs : TreeShape tb ms (2 * half)) {lens : List Nat} (hlens : lens.length ≤ ms)
    (hfit : codeSpaceBelow lens 16 ≤ 2 ^ 16) {count len : Nat} (hc : len + count = 17) (h1 : tb < len) {b : Build}
    (h : CountOk tb ms half lens len 0 b) :
    (threadPasses lens (2 * half) (2 ^ tb * 2 ^ 16) tb count len (2 ^ (16 - (len - tb))) b).ok = true ↔
      firstNode tb ms + pairsUpTo lens tb (codeSpaceBelow lens 16) (16 - tb) ≤ half := by
  induction count generalizing len b with
  | zero =>
    have : len = 17 := by omega
    subst this
    have hnx := h.next
    have hsp : spaceBefore lens 17 0 = codeSpaceBelow lens 16 := by simp [spaceBefore, codeSpaceAt_zero]
    rw [hsp, show min 17 16 = 16 by decide] at hnx
    rw [threadPasses, ← hnx]
    exact ⟨fun _ => h.room, fun _ => h.thread.ok⟩
  | succ count ih =>
    have hm' : 2 ^ (16 - (len - tb)) / 2 = 2 ^ (16 - (len + 1 - tb)) := by
      rw [show 16 - (len - tb) = 16 - (len + 1 - tb) + 1 by have := hs.tb_pos; omega, Nat.pow_succ, Nat.mul_div_cancel _ (by decide)]
    have hend : spaceBefore lens len lens.length ≤ codeSpaceBelow lens 16 := by
      rw [spaceBefore_last lens (show 1 ≤ len by omega)]
      simp only [spaceBefore, codeSpaceAt_zero, Nat.add_zero, Nat.add_sub_cancel]
      exact codeSpaceBelow_mono (by omega)
    simp only [threadPasses, hm']
    have hpass := threadPass_count hs h1 (show len ≤ 16 by omega) hlens (Nat.le_trans hend hfit) (ls := lens) (sym := 0) rfl
      (Nat.zero_le _) h
    by_cases hok : (threadPass (2 * half) (2 ^ tb * 2 ^ 16) (2 ^ (16 - (len - tb))) len tb lens 0 b).ok = true
    · exact ih (by omega) (by omega) (countOk_next (hpass.2 hok) h1 (by omega))
    · have hf := Bool.eq_false_iff.2 hok
      rw [threadPasses_of_failed _ _ _ hf, hf]
      refine ⟨by simp, fun hle => ?_⟩
      exact absurd (hpass.1.2 (Nat.le_trans (Nat.add_le_add_left (pairsUpTo_mono hend (by omega)) _) hle)) hok

/-- The state in which phase 1 leaves the builder to phase 2: no node yet. -/
theorem countOk_start {tb ms half : Nat} {lens : List Nat} {b : Build} (htb : tb < 16) (hms : ms ≤ firstNode tb ms)
    (h : ThreadOk tb ms (2 * half) lens (tb + 1) 0 b) (hsym : ∀ i, b.table.getD i 0 < ms)
    (hnext : b.next = firstNode tb ms) (hroom : firstNode tb ms ≤ half) : CountOk tb ms half lens (tb + 1) 0 b := by
  refine ⟨h, fun X j _ _ hp => ?_, ?_, by omega⟩
  · have := hp 0 (Nat.zero_le _)
    have := hsym (walkAt tb b.table X 0)
    omega
  · have hsp : spaceBefore lens (tb + 1) 0 = codeSpaceBelow lens tb := by simp [spaceBefore, codeSpaceAt_zero]
    rw [hnext, hsp, show min (tb + 1) 16 - tb = 0 + 1 by omega, pairsUpTo_succ, Nat.add_zero, Nat.sub_self, Nat.zero_add,
      Nat.div_eq_of_lt (by have := Nat.two_pow_pos (16 - tb - 0); omega)]
    rfl

/-! ### The codes of a prefix -/

/-- Every prefix below the code space of the lengths up to `n` lies in the code space of a symbol. -/
theorem exists_code {lens : List Nat} {X n : Nat} (hX : X < codeSpaceBelow lens n) :
    ∃ y, 1 ≤ lens.getD y 0 ∧ lens.getD y 0 ≤ n ∧ codeStart lens y ≤ X ∧
      X < codeStart lens y + 2 ^ (16 - lens.getD y 0) := by
  induction n with
  | zero => exact absurd hX (Nat.not_lt_zero X)
  | succ n ih =>
    rcases Nat.lt_or_ge X (codeSpaceBelow lens n) with hlt | hge
    · obtain ⟨y, h1, h2, h3⟩ := ih hlt
      exact ⟨y, h1, by omega, h3⟩
    · have key : ∀ sym, X < spaceBefore lens (n + 1) sym → ∃ y, y < sym ∧ lens[y]? = some (n + 1) ∧
          spaceBefore lens (n + 1) y ≤ X ∧ X < spaceBefore lens (n + 1) y + 2 ^ (16 - (n + 1)) := by
        intro sym
        induction sym with
        | zero => intro h; simp [spaceBefore, codeSpaceAt_zero] at h; omega
        | succ sym ihs =>
          intro h
          rcases Nat.lt_or_ge X (spaceBefore lens (n + 1) sym) with h' | h'
          · obtain ⟨y, h1, h2⟩ := ihs h'
            exact ⟨y, by omega, h2⟩
          · by_cases hl : lens[sym]? = some (n + 1)
            · rw [spaceBefore_succ hl] at h
              exact ⟨sym, by omega, hl, h', h⟩
            · rw [spaceBefore_skip hl] at h; omega
      obtain ⟨y, -, hl, h3, h4⟩ := key lens.length (by simpa [spaceBefore, codeSpaceBelow] using hX)
      have hly : lens.getD y 0 = n + 1 := by rw [List.getD_eq_getElem?_getD, hl]; rfl
      exact ⟨y, by omega, by omega, by rw [codeStart_eq hl]; exact h3, by rw [codeStart_eq hl, hly]; exact h4⟩

/-- A stream whose next 16 bits lie in the code space of a symbol begins with its code (30_encoding.md R106). -/
theorem bitsAhead_of_codeSpace {lens : List Nat} {y : Nat} (r : Reader) (hy : lens.getD y 0 ≤ 16)
    (h1 : codeStart lens y ≤ bitsValue (bitsAhead r 16))
    (h2 : bitsValue (bitsAhead r 16) < codeStart lens y + 2 ^ (16 - lens.getD y 0)) :
    bitsAhead r (lens.getD y 0) = symbolBits lens y := by
  have hv : bitsValue (bitsAhead r (lens.getD y 0)) = canonicalCode lens y := by
    obtain ⟨q, hq⟩ : 2 ^ (16 - lens.getD y 0) ∣ codeStart lens y := spaceBefore_dvd lens _ y
    rw [bitsAhead_top r hy]
    show _ = codeStart lens y / _
    rw [hq] at h1 h2 ⊢
    rw [Nat.mul_div_cancel_left _ (Nat.two_pow_pos _)]
    exact Nat.div_eq_of_lt_le (by rw [Nat.mul_comm]; exact h1) (by rw [Nat.succ_mul, Nat.mul_comm]; exact h2)
  unfold symbolBits
  generalize lens.getD y 0 = n at hv
  refine List.ext_getElem? fun i => ?_
  by_cases hi : i < n
  · rw [getElem?_bitsAhead r hi, getElem?_fieldBits _ hi, ← hv, bitsAhead_testBit]
    simp [show n - 1 - i < n by omega, show n - 1 - (n - 1 - i) = i by omega]
  · rw [List.getElem?_eq_none (by simpa using hi), List.getElem?_eq_none (by simpa using hi)]

end Sys2Proof.Machine
end

