-- ==== Sys2Proof/Laws/PerInstr.lean ====
section
/-! SUPPORT. Facts stated for every instruction, one lemma per constructor. Family `Width`: how many bits the encoding
of an instruction takes (30_encoding.md R92 to R108; 10_state.md R41). -/

namespace Sys2Proof.Laws

/-- The number of bits of an encoding. -/
def codeWidth : Code → Nat
  | .command _ => 32
  | .bits bs => bs.length
  | .bytes bs => 8 * bs.length

/-- The width of a match up to its offset fields (30_encoding.md R99, R100). -/
def matchWidth (lens : Tree → List Nat) (slot : Nat) (lenHdr : BitVec 3) (footer : BitVec 8) : Nat :=
  (lens .main).getD (256 + 8 * slot + lenHdr.toNat) 0 + if lenHdr = 7 then (lens .length).getD footer.toNat 0 else 0

/-- The width of the offset fields of an aligned match: the raw part, and the aligned code of the low three bits
(30_encoding.md R104). -/
def alignedWidth (alignedAtExtra3 : Bool) (lens : Tree → List Nat) (slot e : Nat) : Nat :=
  if 3 < extraBits slot then extraBits slot - 3 + (lens .aligned).getD (e % 8) 0
  else if extraBits slot = 3 ∧ alignedAtExtra3 = true then (lens .aligned).getD e 0
  else extraBits slot

/-- The width the spec gives an instruction (30_encoding.md R92 to R108). -/
def instrWidth (alignedAtExtra3 : Bool) (lens : Tree → List Nat) : Instr → Nat
  | .init => 32
  | .decodeBlock => 32
  | .getContent => 32
  | .getContentFrom => 32
  | .getContentRange => 32
  | .reservedOp0 => 32
  | .reservedOp6 => 32
  | .reservedOp7 => 32
  | .reservedOp8 => 32
  | .reservedOp9 => 32
  | .reservedOp10 => 32
  | .reservedOp11 => 32
  | .reservedOp12 => 32
  | .reservedOp13 => 32
  | .reservedOp14 => 32
  | .reservedOp15 => 32
  | .e8PreambleOff => 1
  | .e8PreambleOn _ _ => 33
  | .blockHeader _ _ _ => 27
  | .alignedLengths _ => 24
  | .pretreeLengths _ => 80
  | .ptDelta z => (lens .pre).getD z.toNat 0
  | .ptZrun4 _ => (lens .pre).getD 17 0 + 4
  | .ptZrun5 _ => (lens .pre).getD 18 0 + 5
  | .ptSame _ z2 => (lens .pre).getD 19 0 + 1 + (lens .pre).getD z2.toNat 0
  | .literal b => (lens .main).getD b.toNat 0
  | .matchRep0 lenHdr footer => matchWidth lens 0 lenHdr footer
  | .matchRep1 lenHdr footer => matchWidth lens 1 lenHdr footer
  | .matchRep2 lenHdr footer => matchWidth lens 2 lenHdr footer
  | .matchExplicitV slot lenHdr footer _ => matchWidth lens slot.toNat lenHdr footer + extraBits slot.toNat
  | .matchExplicitA slot lenHdr footer e =>
    matchWidth lens slot.toNat lenHdr footer + alignedWidth alignedAtExtra3 lens slot.toNat e.toNat
  | .lenFooter f => (lens .length).getD f.toNat 0
  | .alignedSym a => (lens .aligned).getD a.toNat 0
  | .uncRepeats _ _ _ => 96
  | .uncByte _ => 8
  | .uncPad _ => 8

/-- The encoding of a well-formed instruction has the width the spec gives it. -/
def Width.Statement (i : Instr) : Prop :=
  ∀ (alignedAtExtra3 : Bool) (lens : Tree → List Nat), i.wellFormed = true →
    codeWidth (encode alignedAtExtra3 lens i) = instrWidth alignedAtExtra3 lens i

theorem length_matchBits (lens : Tree → List Nat) (slot : Nat) (lenHdr : BitVec 3) (footer : BitVec 8) :
    (matchBits (lens .main) (lens .length) slot lenHdr footer).length = matchWidth lens slot lenHdr footer := by
  unfold matchBits matchWidth
  split <;> simp

theorem length_alignedOffsetBits (alignedAtExtra3 : Bool) (lens : Tree → List Nat) (slot e : Nat) :
    (alignedOffsetBits alignedAtExtra3 (lens .aligned) slot e).length = alignedWidth alignedAtExtra3 lens slot e := by
  unfold alignedOffsetBits alignedWidth
  simp only [gt_iff_lt]
  split
  · simp
  · split <;> simp

/-- Lists of equal fields. -/
theorem length_flatMap_fieldBits {w : Nat} (n : Nat) (ls : List (BitVec w)) :
    (ls.flatMap fun l => fieldBits n l.toNat).length = n * ls.length := by
  induction ls with
  | nil => rfl
  | cons l ls ih => simp only [List.flatMap_cons, List.length_append, ih, Machine.length_fieldBits, List.length_cons]; ring

theorem Width.init : Width.Statement .init := fun _ _ _ => rfl
theorem Width.decodeBlock : Width.Statement .decodeBlock := fun _ _ _ => rfl
theorem Width.getContent : Width.Statement .getContent := fun _ _ _ => rfl
theorem Width.getContentFrom : Width.Statement .getContentFrom := fun _ _ _ => rfl
theorem Width.getContentRange : Width.Statement .getContentRange := fun _ _ _ => rfl
theorem Width.reservedOp0 : Width.Statement .reservedOp0 := fun _ _ _ => rfl
theorem Width.reservedOp6 : Width.Statement .reservedOp6 := fun _ _ _ => rfl
theorem Width.reservedOp7 : Width.Statement .reservedOp7 := fun _ _ _ => rfl
theorem Width.reservedOp8 : Width.Statement .reservedOp8 := fun _ _ _ => rfl
theorem Width.reservedOp9 : Width.Statement .reservedOp9 := fun _ _ _ => rfl
theorem Width.reservedOp10 : Width.Statement .reservedOp10 := fun _ _ _ => rfl
theorem Width.reservedOp11 : Width.Statement .reservedOp11 := fun _ _ _ => rfl
theorem Width.reservedOp12 : Width.Statement .reservedOp12 := fun _ _ _ => rfl
theorem Width.reservedOp13 : Width.Statement .reservedOp13 := fun _ _ _ => rfl
theorem Width.reservedOp14 : Width.Statement .reservedOp14 := fun _ _ _ => rfl
theorem Width.reservedOp15 : Width.Statement .reservedOp15 := fun _ _ _ => rfl
theorem Width.e8PreambleOff : Width.Statement .e8PreambleOff := fun _ _ _ => rfl

theorem Width.e8PreambleOn (hi lo : BitVec 16) : Width.Statement (.e8PreambleOn hi lo) := by
  intro _ _ _
  simp [encode, codeWidth, instrWidth]

theorem Width.blockHeader (btype : BitVec 3) (hi : BitVec 16) (lo : BitVec 8) :
    Width.Statement (.blockHeader btype hi lo) := by
  intro _ _ _
  simp [encode, codeWidth, instrWidth]

theorem Width.alignedLengths (ls : List (BitVec 3)) : Width.Statement (.alignedLengths ls) := by
  intro _ _ h
  simp only [Instr.wellFormed, decide_eq_true_eq] at h
  simp only [encode, codeWidth, instrWidth, length_flatMap_fieldBits, h]

theorem Width.pretreeLengths (ps : List (BitVec 4)) : Width.Statement (.pretreeLengths ps) := by
  intro _ _ h
  simp only [Instr.wellFormed, decide_eq_true_eq] at h
  simp only [encode, codeWidth, instrWidth, length_flatMap_fieldBits, h]

theorem Width.ptDelta (z : BitVec 5) : Width.Statement (.ptDelta z) := fun _ _ _ => Machine.length_symbolBits _ _

theorem Width.ptZrun4 (c : BitVec 4) : Width.Statement (.ptZrun4 c) := by
  intro _ _ _
  simp [encode, codeWidth, instrWidth]

theorem Width.ptZrun5 (c : BitVec 5) : Width.Statement (.ptZrun5 c) := by
  intro _ _ _
  simp [encode, codeWidth, instrWidth]

theorem Width.ptSame (c : BitVec 1) (z2 : BitVec 5) : Width.Statement (.ptSame c z2) := by
  intro _ _ _
  simp [encode, codeWidth, instrWidth, Nat.add_assoc]

theorem Width.literal (b : Byte) : Width.Statement (.literal b) := fun _ _ _ => Machine.length_symbolBits _ _

theorem Width.matchRep0 (lenHdr : BitVec 3) (footer : BitVec 8) : Width.Statement (.matchRep0 lenHdr footer) :=
  fun _ _ _ => length_matchBits _ _ _ _

theorem Width.matchRep1 (lenHdr : BitVec 3) (footer : BitVec 8) : Width.Statement (.matchRep1 lenHdr footer) :=
  fun _ _ _ => length_matchBits _ _ _ _

theorem Width.matchRep2 (lenHdr : BitVec 3) (footer : BitVec 8) : Width.Statement (.matchRep2 lenHdr footer) :=
  fun _ _ _ => length_matchBits _ _ _ _

theorem Width.matchExplicitV (slot : BitVec 6) (lenHdr : BitVec 3) (footer : BitVec 8) (e : BitVec 17) :
    Width.Statement (.matchExplicitV slot lenHdr footer e) := by
  intro _ lens _
  simp [encode, codeWidth, instrWidth, length_matchBits]

theorem Width.matchExplicitA (slot : BitVec 6) (lenHdr : BitVec 3) (footer : BitVec 8) (e : BitVec 17) :
    Width.Statement (.matchExplicitA slot lenHdr footer e) := by
  intro _ lens _
  simp [encode, codeWidth, instrWidth, length_matchBits, length_alignedOffsetBits]

theorem Width.lenFooter (f : BitVec 8) : Width.Statement (.lenFooter f) := fun _ _ _ => Machine.length_symbolBits _ _
theorem Width.alignedSym (a : BitVec 3) : Width.Statement (.alignedSym a) := fun _ _ _ => Machine.length_symbolBits _ _
theorem Width.uncRepeats (r0 r1 r2 : Word) : Width.Statement (.uncRepeats r0 r1 r2) := fun _ _ _ => rfl
theorem Width.uncByte (b : Byte) : Width.Statement (.uncByte b) := fun _ _ _ => rfl
theorem Width.uncPad (x : Byte) : Width.Statement (.uncPad x) := fun _ _ _ => rfl

end Sys2Proof.Laws
end

