-- ==== Sys2Proof/Tests/Slice0.lean ====
section
/-! SUPPORT. The model's own tests: expected results from 95_test_vectors.md or worked by hand from the rules; and a
witness for the hypotheses of every statement of Certificates/Slice0/Obligations.lean. -/

namespace Sys2Proof.Tests

set_option Elab.async false

open Sys2Proof.Machine Sys2Proof.Safety

/-! ### Helpers -/

/-- What a field of the next state is, if there is a next state. -/
def onNext {α : Type} (f : State → α) : StepResult → Option α
  | .next t => some (f t)
  | .fault _ => none
  | .refused _ => none

/-- An engine right after INIT(15). -/
def live15 : State := { State.reset with live := true, windowBits := 15, reps := { r0 := 1, r1 := 1, r2 := 1 } }

/-- A block of the given kind under way, with room for 64 bytes. -/
def inBlock (kind : BlockType) : State :=
  { live15 with phase := .fill, started := true, blockType := kind, blockLength := 64, blockRemaining := 64, outLen := 64 }

/-- A length run under way from an index. -/
def inRun (run : Run) (x : Nat) : State := { inBlock .verbatim with phase := .ptop, run := run, index := x }

/-- `bytes` already produced, in `OUT` and `WIN`, from the start of the stream. -/
def produced (bytes : List Byte) (s : State) : State :=
  { s with
    out := Memory.writeBytes [] 0 bytes
    win := Memory.writeBytes [] 0 bytes
    outPos := bytes.length
    winPos := bytes.length }

/-- A full `OUT`, with the E8 stage enabled: `intelFileSize = 0x10000`, `intelStarted = 1`, `frames = 0`. -/
def fullOut (outLen streamPos : Nat) (out : Memory) : State :=
  { inBlock .verbatim with
    out := out
    outLen := outLen
    outPos := outLen
    streamPos := streamPos
    intelFileSize := 0x10000
    intelStarted := true }

/-- The bytes 0 to `n - 1` of `OUT` after a step. -/
def outAfter (n : Nat) (s : State) : Option (List Byte) := onNext (fun t => Memory.bytes t.out 0 n) (step s)

/-- The reader of 95_test_vectors.md V-R1. -/
def readerVR : Reader := freshReader [0x34, 0x12, 0x78, 0x56]

/-- The lengths of 95_test_vectors.md V-B4. -/
def lensVB4 : List Nat := [1, 2, 3, 4, 5, 6, 7, 7] ++ List.replicate 12 0

/-- A PRE code in which 0, 17, 18 and 19 are `'00'`, `'01'`, `'10'` and `'11'`. -/
def lensOps : List Nat := 2 :: (List.replicate 16 0 ++ [2, 2, 2])

/-- The code book a header leaves for an array. -/
def readyBook (t : Tree) (lens : List Nat) : CodeBook where
  lens := lens
  book := { table := (buildTable t lens).table, valid := true }

/-! ### Well-formedness -/

theorem test_alignedLengths_needs_eight : (Instr.alignedLengths [1, 1]).wellFormed = false := by decide
theorem test_pretreeLengths_needs_twenty : (Instr.pretreeLengths (List.replicate 19 0)).wellFormed = false := by decide
theorem test_ptDelta_below_17 : (Instr.ptDelta 17).wellFormed = false := by decide
theorem test_ptSame_second_below_20 : (Instr.ptSame 0 20).wellFormed = false := by decide
theorem test_matchRep0_footer_below_250 : (Instr.matchRep0 7 250).wellFormed = false := by decide
theorem test_matchRep1_footer_needs_header_7 : (Instr.matchRep1 6 1).wellFormed = false := by decide
theorem test_matchRep2_footer_below_250 : (Instr.matchRep2 7 255).wellFormed = false := by decide
theorem test_matchExplicitV_slot_from_3 : (Instr.matchExplicitV 2 0 0 0).wellFormed = false := by decide
theorem test_matchExplicitV_extra_fits : (Instr.matchExplicitV 4 0 0 2).wellFormed = false := by decide
theorem test_matchExplicitA_slot_to_49 : (Instr.matchExplicitA 50 0 0 0).wellFormed = false := by decide
theorem test_matchExplicitA_footer : (Instr.matchExplicitA 8 3 1 0).wellFormed = false := by decide
theorem test_lenFooter_below_250 : (Instr.lenFooter 250).wellFormed = false := by decide
theorem test_lenFooter_249 : (Instr.lenFooter 249).wellFormed = true := by decide
theorem test_matchExplicitA_largest : (Instr.matchExplicitA 49 7 249 131071).wellFormed = true := by decide

/-! ### Decoding: words written out from the encodings of 30_encoding.md -/

/-- `CMD` words: `OP` in bits 3..0, the others ignored (R107). -/
theorem test_decode_commands :
    (List.range 16).map (fun op => decodeCommand (BitVec.ofNat 32 (0xABCDE0 + op))) =
      [.reservedOp0, .init, .decodeBlock, .getContent, .getContentFrom, .getContentRange, .reservedOp6, .reservedOp7,
        .reservedOp8, .reservedOp9, .reservedOp10, .reservedOp11, .reservedOp12, .reservedOp13, .reservedOp14,
        .reservedOp15] := by decide

/-- `'0'` (V-H1). -/
theorem test_decode_e8PreambleOff : (decodePreamble (freshReader [0xFF, 0x7F])).instr? = some .e8PreambleOff := by decide

/-- `'1' 1000000000000000 0000000000000000` (V-H3): words `1100000000000000 0000000000000000 0…`. -/
theorem test_decode_e8PreambleOn :
    (decodePreamble (freshReader [0x00, 0xC0, 0x00, 0x00, 0x00, 0x00])).instr? = some (.e8PreambleOn 0x8000 0) := by
  decide

/-- `'011' 0000000000000001 00000101`: words `0110000000000000 0010000010100000` (R93). -/
theorem test_decode_blockHeader :
    (decodeHeader (freshReader [0x00, 0x60, 0xA0, 0x20])).instr? = some (.blockHeader 3 1 5) := by decide

/-- `'001 010 011 100 101 110 111 000'`: words `0010100111001011 10111000…` (R95). -/
theorem test_decode_alignedLengths :
    (decodeAlignedLengths (freshReader [0xCB, 0x29, 0x00, 0xB8])).instr? =
      some (.alignedLengths [1, 2, 3, 4, 5, 6, 7, 0]) := by decide

/-- Twenty 4-bit lengths: 1 to 15, then 0 to 4 (R96). -/
theorem test_decode_pretreeLengths :
    (decodePretreeLengths (freshReader [0x34, 0x12, 0x78, 0x56, 0xBC, 0x9A, 0xF0, 0xDE, 0x34, 0x12])).instr? =
      some (.pretreeLengths [1, 2, 3, 4, 5, 6, 7, 8, 9, 10, 11, 12, 13, 14, 15, 0, 1, 2, 3, 4]) := by decide

/-- Symbol 7 of V-B4 is `'1111111'` (V-B10). -/
theorem test_decode_ptDelta :
    (decodePtop (readyBook .pre lensVB4) (freshReader [0xFF, 0xFE])).instr? = some (.ptDelta 7) := by decide +kernel

/-- `'01' 0010` (R97). -/
theorem test_decode_ptZrun4 :
    (decodePtop (readyBook .pre lensOps) (freshReader [0x00, 0x48])).instr? = some (.ptZrun4 2) := by decide +kernel

/-- `'10' 11111` (R97). -/
theorem test_decode_ptZrun5 :
    (decodePtop (readyBook .pre lensOps) (freshReader [0x00, 0xBE])).instr? = some (.ptZrun5 31) := by decide +kernel

/-- `'11' 1 '01'`: the second symbol is 17, a delta like any other (R97; V-D9). -/
theorem test_decode_ptSame :
    (decodePtop (readyBook .pre lensOps) (freshReader [0x00, 0xE8])).instr? = some (.ptSame 1 17) := by decide +kernel

/-- A main code in which `'1'` is one symbol and the other slots are symbol 0. -/
def mainOne (sym : Nat) : CodeBook where
  lens := (List.replicate 656 0).set sym 1
  book := { table := List.replicate 2048 0 ++ List.replicate 3360 sym, valid := true }

/-- LITERAL 0x61 (V-S1). -/
theorem test_decode_literal :
    (decodeItem true .verbatim (mainOne 0x61) (freshReader [0x00, 0x80])).instr? = some (.literal 0x61) := by
  decide +kernel

/-- Symbol 262 = 256 + 8·0 + 6: REP0, `lenHdr = 6` (V-S3). -/
theorem test_decode_matchRep0 :
    (decodeItem true .verbatim (mainOne 262) (freshReader [0x00, 0x80])).instr? = some (.matchRep0 6 0) := by
  decide +kernel

/-- Symbol 264: REP1, `lenHdr = 0` (P2). -/
theorem test_decode_matchRep1 :
    (decodeItem true .verbatim (mainOne 264) (freshReader [0x00, 0x80])).instr? = some (.matchRep1 0 0) := by
  decide +kernel

/-- Symbol 273 = 256 + 8·2 + 1: REP2, `lenHdr = 1`. -/
theorem test_decode_matchRep2 :
    (decodeItem true .verbatim (mainOne 273) (freshReader [0x00, 0x80])).instr? = some (.matchRep2 1 0) := by
  decide +kernel

/-- Symbol 292 = 256 + 8·4 + 4, extra bit `'1'`: slot 4, `lenHdr = 4` (P2). -/
theorem test_decode_matchExplicitV :
    (decodeItem true .verbatim (mainOne 292) (freshReader [0x00, 0xC0])).instr? = some (.matchExplicitV 4 4 0 1) := by
  decide +kernel

/-- Symbol 312 = 256 + 8·7 + 0 in an Aligned block: slot 7 has two raw bits, `'10'` (V-S14). -/
theorem test_decode_matchExplicitA :
    (decodeItem true .aligned (mainOne 312) (freshReader [0x00, 0xC0])).instr? = some (.matchExplicitA 7 0 0 2) := by
  decide +kernel

/-- Symbol 337 = 256 + 8·10 + 1 in an Aligned block: slot 10 has four extra bits, one of them raw (V-S12). -/
theorem test_decode_rawPart :
    (match decodeItem true .aligned (mainOne 337) (freshReader [0x00, 0xC0]) with
      | .latchRaw slot lenHdr footer v _ => some (slot, lenHdr, footer, v)
      | _ => none) = some (10, 1, 0, 1) := by decide +kernel

/-- Symbol 327 = 256 + 8·8 + 7: a LEN_FOOTER follows (V-S2). -/
theorem test_decode_mainPart :
    (match decodeItem true .aligned (mainOne 327) (freshReader [0x00, 0x80]) with
      | .latchMatch slot lenHdr _ => some (slot, lenHdr)
      | _ => none) = some (8, 7) := by decide +kernel

/-- LEN_FOOTER symbol 1 (V-S2). -/
theorem test_decode_lenFooter :
    (decodeFooter (wordBook .length 1) (freshReader [0x00, 0x80])).instr? = some (.lenFooter 1) := by decide +kernel

/-- Aligned codes 1 = `'0'`, 2 = `'1'` (V-H9). -/
theorem test_decode_alignedSym :
    (decodeAlignedSym (readyBook .aligned [0, 1, 1, 0, 0, 0, 0, 0]) (freshReader [0x00, 0x80])).instr? =
      some (.alignedSym 2) := by decide +kernel

/-- P1: the repeats at bytes 5 to 16, after a rewind from 6 (V-H10). -/
theorem test_decode_uncRepeats :
    (decodeUncRepeats 1
        { freshReader [0, 0x30, 0x50, 0, 0, 7, 0, 0, 0, 8, 0, 0, 0, 9, 0, 0, 0, 0x48] with
          swath := 6, buffer := 0x700, total := 20 }).instr? = some (.uncRepeats 7 8 9) := by decide

/-- A reader with 16 bits or fewer is not rewound (V-H11). -/
theorem test_decode_uncRepeats_no_rewind :
    (decodeUncRepeats 1
        { freshReader [0, 0, 0x18, 0xFC, 0xFF, 0xFF, 8, 0, 0, 0, 9, 0, 0, 0] with
          swath := 2, buffer := 0, total := 16 }).instr? = some (.uncRepeats 0xFFFFFC18 8 9) := by decide

theorem test_decode_uncByte : (decodeUncByte (freshReader [0x48])).instr? = some (.uncByte 0x48) := by decide
theorem test_decode_uncPad : (decodeUncPad (freshReader [])).instr? = some (.uncPad 0) := by decide

/-! ### The bit reader (V-R1 to V-R10) -/

/-- The value a read gives, then `swath`, `total`, `buffer`. -/
def seen (p : Nat × Reader) : Nat × Nat × Nat × Word := (p.1, p.2.swath, p.2.total, p.2.buffer)

/-- V-R1 to V-R5, one after the other. -/
theorem test_VR1_to_VR5 :
    (let r1 := getSyncBits 4 readerVR
      let r2 := getSyncBits 8 r1.2
      let r3 := getDesyncBits 12 0 r2.2
      let r4 := getSyncBits 17 r3.2
      [seen r1, seen r2, seen r3, seen r4, seen (getSyncBits 16 r4.2)]) =
      [(0x1, 2, 12, 0x234), (0x23, 4, 20, 0x45678), (0x456, 4, 20, 0x45678), (0x08ACF, 4, 3, 0), (0, 4, 3, 0)] := by
  decide

/-- V-R6, V-R7, V-R8 and V-R10. -/
theorem test_VR6_to_VR10 :
    [seen (getSyncBits 0 (freshReader [0x34, 0x12])), seen (getSyncBits 16 (freshReader [0x01])),
        seen (0, refill { freshReader [0x34, 0x12] with buffer := 5, total := 3 }),
        seen ((readLE32 (freshReader [0x18, 0xFC, 0xFF, 0xFF])).1.toNat, freshReader [])] =
      [(0, 0, 0, 0), (1, 1, 0, 0), (0, 2, 19, 0x51234), (0xFFFFFC18, 0, 0, 0)] := by decide

/-! ### The Huffman unit (V-B1 to V-B16) -/

theorem test_VB1 : (buildTableOf [2, 1, 3, 3] 3 4).table.take 8 = [1, 1, 1, 1, 0, 0, 2, 3] := by decide +kernel
theorem test_VB2 :
    (buildTableOf [2, 0, 0, 0] 3 4).ok = true ∧ (buildTableOf [2, 0, 0, 0] 3 4).table.take 8 = List.replicate 8 0 := by
  decide +kernel
theorem test_VB3 : (buildTableOf [1, 3, 3] 2 3).table = [0, 0, 3, 0, 0, 0, 1, 2, 0, 0] := by decide +kernel
theorem test_VB4 :
    (buildTable .pre lensVB4).table.take 66 =
      List.replicate 32 0 ++ List.replicate 16 1 ++ List.replicate 8 2 ++ [3, 3, 3, 3, 4, 4, 5, 32, 6, 7] := by
  decide +kernel
theorem test_VB5 : (buildTableOf [1, 3, 4, 4] 2 4).table = [0, 0, 4, 0, 0, 0, 0, 0, 1, 5, 2, 3] := by decide +kernel
theorem test_VB6 :
    (buildTableOf [1, 1, 1, 0] 3 4).ok = false ∧
      (buildTableOf [1, 1, 1, 0] 3 4).table.take 8 = [0, 0, 0, 0, 1, 1, 1, 1] := by decide +kernel
theorem test_VB7 :
    (buildTableOf [1, 0, 0, 0, 16, 16] 2 6).ok = false ∧
      (buildTableOf [1, 0, 0, 0, 16, 16] 2 6).table = [0, 0, 6, 0, 0, 0, 0, 0, 0, 0, 0, 0, 7, 0, 0, 0] := by
  decide +kernel
theorem test_VB8 : (buildTable .pre ([1, 2, 3, 4, 5, 6, 7, 7, 7] ++ List.replicate 11 0)).ok = false := by decide +kernel
theorem test_VB9 :
    buildTable .aligned (List.replicate 8 0) =
      { table := List.replicate 144 0, pos := 0, next := 64, ok := true } := by decide +kernel

/-- The symbol, and the bits left of 16. -/
def symbolSeen : Symbol → Option (Nat × Nat)
  | .ok s r => some (s, r.total)
  | .overrun _ => none

theorem test_VB10 :
    symbolSeen (decodeSymbol .pre lensVB4 (buildTable .pre lensVB4).table (freshReader [0xFF, 0xFE])) = some (7, 9) := by
  decide +kernel
theorem test_VB12 :
    symbolSeen (decodeSymbolOf 2 3 [1, 3, 3] (buildTableOf [1, 3, 3] 2 3).table (freshReader [0x00, 0x80])) =
      some (1, 13) := by decide +kernel
theorem test_VB13 :
    symbolSeen (decodeSymbolOf 2 3 [1, 3, 3] (buildTableOf [1, 3, 3] 2 3).table (freshReader [0x00, 0xA0])) =
      some (2, 13) := by decide +kernel
theorem test_VB14 :
    symbolSeen (decodeSymbolOf 2 3 [1, 3, 3] (buildTableOf [1, 3, 3] 2 3).table (freshReader [0x00, 0xC0])) =
      some (0, 15) := by decide +kernel
theorem test_VB15 :
    symbolSeen (decodeSymbolOf 3 4 [2, 0, 0, 0] (buildTableOf [2, 0, 0, 0] 3 4).table (freshReader [0xFF, 0xFF])) =
      some (0, 14) := by decide +kernel

/-- A code with one symbol, 18 of length 1: `'1'` is unassigned, so symbol 0 and no bit (V-B16). -/
def lensVB16 : List Nat := (List.replicate 20 0).set 18 1
theorem test_VB16 :
    symbolSeen (decodeSymbol .pre lensVB16 (buildTable .pre lensVB16).table (freshReader [0x00, 0x80])) = some (0, 16) := by
  decide +kernel

/-! ### Length arrays (V-D1 to V-D9) -/

theorem test_VD1 :
    onNext (fun t => (t.mainLengths.getD 97 0, t.index)) (exec (.ptDelta 14) (inRun .mainLiterals 97)) = some (3, 98) := by
  decide +kernel
theorem test_VD2 :
    onNext (fun t => (t.mainLengths.getD 97 0, t.index))
        (exec (.ptDelta 1) { inRun .mainLiterals 97 with mainLengths := (List.replicate 656 0).set 97 2 }) =
      some (1, 98) := by decide +kernel
theorem test_VD3 :
    onNext (fun t => ((t.mainLengths.drop 9).take 8, t.index))
        (exec (.ptZrun4 2) { inRun .mainLiterals 10 with mainLengths := List.replicate 656 1 }) =
      some ([1, 0, 0, 0, 0, 0, 0, 1], 16) := by decide +kernel
theorem test_VD4 :
    onNext (fun t => (t.mainLengths.take 53, t.index))
        (exec (.ptZrun5 31) { inRun .mainLiterals 0 with mainLengths := List.replicate 656 1 }) =
      some (List.replicate 51 0 ++ [1, 1], 51) := by decide +kernel
theorem test_VD5 :
    onNext (fun t => ((t.mainLengths.drop 4).take 7, t.index))
        (exec (.ptSame 1 3) { inRun .mainLiterals 5 with mainLengths := List.replicate 656 2 }) =
      some ([2, 16, 16, 16, 16, 16, 2], 10) := by decide +kernel

/-- Writes past the array are dropped, and the LENGTH run ends (V-D7). -/
theorem test_VD7 :
    onNext (fun t => (t.lengthLengths.drop 239, t.index, t.phase))
        (exec (.ptZrun5 0) { inRun .lengths 240 with lengthLengths := List.replicate 240 0 ++ List.replicate 10 1 }) =
      some (List.replicate 11 0, 260, .fill) := by decide +kernel

/-- A run may be overshot; the next run opens all the same (V-D8). -/
theorem test_VD8 :
    onNext (fun t => ((t.mainLengths.drop 249).take 21, t.index, t.run, t.phase))
        (exec (.ptZrun4 15) { inRun .mainLiterals 250 with mainLengths := List.replicate 656 1 }) =
      some (1 :: (List.replicate 19 0 ++ [1]), 269, .mainMatches, .pretree) := by decide +kernel
theorem test_VD9 :
    onNext (fun t => (t.mainLengths.take 5, t.index))
        (exec (.ptSame 0 17) { inRun .mainLiterals 0 with mainLengths := List.replicate 656 5 }) =
      some ([5, 5, 5, 5, 5], 4) := by decide +kernel

/-- PRETREE_LENGTHS opens its run at 256 for the match lengths (R160, R186). -/
theorem test_pretreeLengths_opens_second_run :
    onNext (fun t => (t.index, t.phase, t.preBook.valid))
        (exec (.pretreeLengths (1 :: List.replicate 19 0))
          { inBlock .verbatim with phase := .pretree, run := .mainMatches }) =
      some (256, .ptop, true) := by decide +kernel

/-- Twenty lengths of 1: TABLE_OVERFLOW(0) (V-F9). -/
theorem test_VF9 :
    onNext (fun t => (t.faultCode, t.faultInfo, statusWord t))
        (exec (.pretreeLengths (List.replicate 20 1)) { inBlock .verbatim with phase := .pretree }) =
      some (.tableOverflow, 0, 0x72B) := by decide +kernel

/-! ### Headers (V-H1 to V-H12) -/

theorem test_VH1 :
    onNext (fun t => (t.started, t.intelFileSize)) (exec .e8PreambleOff live15) = some (true, 0) := by decide
theorem test_VH2 : onNext (fun t => t.intelFileSize) (exec (.e8PreambleOn 1 0) live15) = some 65536 := by decide
theorem test_VH3 :
    onNext (fun t => t.intelFileSize) (exec (.e8PreambleOn 0x8000 0) { live15 with intelFileSize := 5 }) = some 0 := by
  decide
theorem test_VH4 :
    onNext (fun t => (t.blockType, t.blockLength, t.blockRemaining, t.phase)) (exec (.blockHeader 3 0 5) live15) =
      some (.uncompressed, 5, 5, .uncRepeats) := by decide

/-- Code 5 after a VERBATIM block is VERBATIM (V-H5, S7). -/
theorem test_VH5 :
    onNext (fun t => (t.blockType, t.blockLength)) (exec (.blockHeader 5 1 2) (inBlock .verbatim)) =
      some (.verbatim, 258) := by decide

/-- Code 0 as the first header: INVALID_BLOCK_TYPE(0), with `started` set (V-H7, V-F6). -/
theorem test_VF6 :
    onNext (fun t => (t.faultCode, t.faultInfo, statusWord t)) (exec (.blockHeader 0 0 0) { live15 with started := true }) =
      some (.invalidBlockType, 0, 0xA03 + 8) := by decide

theorem test_VH9 :
    onNext (fun t => (t.alignedLengths, t.alignedBook.valid, t.run, t.phase))
        (exec (.alignedLengths [0, 1, 1, 0, 0, 0, 0, 0]) { inBlock .aligned with phase := .alignedLengths }) =
      some ([0, 1, 1, 0, 0, 0, 0, 0], true, .mainLiterals, .pretree) := by decide +kernel
theorem test_alignedLengths_overflow :
    onNext (fun t => (t.faultCode, t.faultInfo, t.alignedBook.valid))
        (exec (.alignedLengths [1, 1, 1, 0, 0, 0, 0, 0]) { inBlock .aligned with phase := .alignedLengths }) =
      some (.tableOverflow, 3, false) := by decide +kernel
theorem test_uncRepeats :
    onNext (fun t => (t.reps, t.intelStarted, t.phase)) (exec (.uncRepeats 7 0 0xFFFFFFFF) (inBlock .uncompressed)) =
      some ({ r0 := 7, r1 := 0, r2 := 0xFFFFFFFF }, true, .fill) := by decide

/-! ### Symbols and copies (V-S1 to V-S17, V-C1 to V-C11) -/

/-- The repeats and the first 12 bytes of `OUT`. -/
def matchSeen (t : State) : Repeats × List Byte := (t.reps, Memory.bytes t.out 0 12)

theorem test_VS1 :
    onNext (fun t => (Memory.bytes t.out 0 2, t.outPos, t.blockRemaining)) (exec (.literal 0x61) (inBlock .verbatim)) =
      some ([0x61, 0], 1, 63) := by decide

/-- `Emit` at the end of the window (V-C5). -/
theorem test_VC5 :
    onNext (fun t => (Memory.read t.win 32767, t.winPos)) (exec (.literal 0x41) { inBlock .verbatim with winPos := 32767 }) =
      some (0x41, 0) := by decide

/-- REP0 of 3 after "abc": R unchanged, "abc" again (V-S4). -/
theorem test_VS4 :
    onNext matchSeen
        (exec (.matchRep0 1 0) (produced [0x61, 0x62, 0x63] { inBlock .verbatim with reps := ⟨3, 1, 1⟩ })) =
      some (⟨3, 1, 1⟩, [0x61, 0x62, 0x63, 0x61, 0x62, 0x63, 0, 0, 0, 0, 0, 0]) := by decide

/-- A repeat of 0: BAD_MATCH_OFFSET, 0 (V-C6). -/
theorem test_VC6 :
    onNext (fun t => (t.faultCode, t.faultInfo))
        (exec (.matchRep0 0 0) (produced [0x61] { inBlock .verbatim with reps := ⟨0, 1, 1⟩ })) =
      some (.badMatchOffset, 0) := by decide

/-- REP1: R0 and R1 exchange (V-S5). -/
theorem test_VS5 :
    onNext matchSeen
        (exec (.matchRep1 0 0) (produced [0x61, 0x62, 0x63] { inBlock .verbatim with reps := ⟨3, 1, 1⟩ })) =
      some (⟨1, 3, 1⟩, [0x61, 0x62, 0x63, 0x63, 0x63, 0, 0, 0, 0, 0, 0, 0]) := by decide

/-- An offset past the history: the rotation has happened, nothing is copied (V-C7; 60_exceptions.md R306). -/
theorem test_VC7 :
    onNext (fun t => (t.faultCode, t.faultInfo, t.reps, t.outPos))
        (exec (.matchRep1 0 0) (produced [0x61] { inBlock .verbatim with reps := ⟨1, 2, 5⟩ })) =
      some (.badMatchOffset, 2, ⟨2, 1, 5⟩, 1) := by decide

/-- REP2 under SWAP and under DOC_LITERAL (V-S6, V-S7). -/
theorem test_VS6 :
    onNext (fun t => t.reps)
        (exec (.matchRep2 0 0) { inBlock .verbatim with reps := ⟨31, 16, 12⟩, streamPos := 40 }) =
      some ⟨12, 16, 31⟩ := by decide
theorem test_VS7 :
    onNext (fun t => t.reps)
        (exec (.matchRep2 0 0)
          { inBlock .verbatim with
            reps := ⟨31, 16, 12⟩
            streamPos := 40
            params := { Params.default with rep2Rotation := .docLiteral } }) =
      some ⟨12, 31, 12⟩ := by decide

/-- Slot 4, extra `'1'`: offset 3, copied over its own output (V-S9, V-C1). -/
theorem test_VS9 :
    onNext matchSeen (exec (.matchExplicitV 4 4 0 1) (produced [0x61, 0x62, 0x63] (inBlock .verbatim))) =
      some (⟨3, 1, 1⟩, [0x61, 0x62, 0x63, 0x61, 0x62, 0x63, 0x61, 0x62, 0x63, 0, 0, 0]) := by decide

/-- `off = 32769 > W`: BAD_MATCH_OFFSET (V-C9). Slot 30 has base 32768 and 14 extra bits. -/
theorem test_VC9 :
    onNext (fun t => (t.faultCode, t.faultInfo))
        (exec (.matchExplicitV 30 0 0 3) { inBlock .verbatim with streamPos := 40000 }) =
      some (.badMatchOffset, 32769) := by decide

/-- Slot 8, extra 2: offset 16; the rotation of V-S8 from `[12, 1, 1]`. -/
theorem test_VS8 :
    onNext (fun t => t.reps)
        (exec (.matchExplicitA 8 7 1 2) { inBlock .aligned with reps := ⟨12, 1, 1⟩, streamPos := 40 }) =
      some ⟨16, 12, 1⟩ := by decide

/-- Truncation: `outLen = 3`, one byte there, a 4-byte match (V-C10). -/
theorem test_VC10 :
    onNext (fun t => (Memory.bytes t.out 0 4, t.winPos, t.blockRemaining))
        (exec (.matchExplicitA 3 2 0 0) (produced [0x78] { inBlock .aligned with outLen := 3, blockRemaining := 5 })) =
      some ([0x78, 0x78, 0x78, 0], 3, 1) := by decide

/-- The window wraps (V-C4). -/
theorem test_VC4 :
    onNext (fun t => (Memory.bytes t.out 0 5, t.winPos))
        (exec (.matchRep0 3 0)
          { inBlock .verbatim with
            reps := ⟨4, 1, 1⟩
            win := [(0, 0xCC), (1, 0xDD), (32766, 0xAA), (32767, 0xBB)]
            winPos := 2
            streamPos := 32770 }) =
      some ([0xAA, 0xBB, 0xCC, 0xDD, 0xAA], 7) := by decide

/-- CARRY: the surplus waits, and the window takes it (log 14). -/
theorem test_carry :
    onNext (fun t => (Memory.bytes t.out 0 3, t.carry, t.winPos))
        (exec (.matchRep0 2 0)
          (produced [0x78]
            { inBlock .verbatim with outLen := 3, params := { Params.default with matchOverrun := .carry } })) =
      some ([0x78, 0x78, 0x78], [0x78, 0x78], 5) := by decide

theorem test_lenFooter :
    onNext (fun t => (t.pend.footer, t.phase)) (exec (.lenFooter 249) { inBlock .verbatim with phase := .footer }) =
      some (249, .offset) := by decide

/-- `(v << 3) + a` (R217). -/
theorem test_alignedSym :
    onNext (fun t => (t.pend.extra, t.phase))
        (exec (.alignedSym 5)
          { inBlock .aligned with phase := .alignedSym, pend := { live15.pend with slot := 12, raw := 3 } }) =
      some (29, .matchReady) := by decide

/-- The last byte of an odd block: the pad is next (V-S16). -/
theorem test_VS16 :
    onNext (fun t => (Memory.read t.out 4, t.phase))
        (exec (.uncByte 0x4F)
          (produced [0x48, 0x45, 0x4C, 0x4C] { inBlock .uncompressed with blockLength := 5, blockRemaining := 1 })) =
      some (0x4F, .uncPad) := by decide

/-- The last byte of an even block: no pad (V-S17). -/
theorem test_VS17 :
    onNext (fun t => t.phase)
        (exec (.uncByte 9) { inBlock .uncompressed with blockLength := 4, blockRemaining := 1 }) = some .fill := by decide
theorem test_uncPad :
    onNext (fun t => (t.rd.swath, t.outPos, t.phase))
        (step { inBlock .uncompressed with phase := .uncPad, rd := freshReader [0x55] }) = some (1, 0, .fill) := by decide

/-! ### The E8 stage (V-E1 to V-E13) -/

/-- The rewrite, the exclusive boundary, the signed operand and its range (V-E1 to V-E7). -/
theorem test_VE1_to_VE7 :
    [outAfter 14 (fullOut 20 0 [(9, 0xE8), (11, 1)]), outAfter 15 (fullOut 20 0 [(10, 0xE8), (12, 1)]),
        outAfter 5 (fullOut 20 1000 [(0, 0xE8), (1, 0x10)]),
        outAfter 5 (fullOut 20 1000 [(0, 0xE8), (1, 0x18), (2, 0xFC), (3, 0xFF), (4, 0xFF)]),
        outAfter 5 (fullOut 20 1000 [(0, 0xE8), (1, 0x17), (2, 0xFC), (3, 0xFF), (4, 0xFF)]),
        outAfter 5 (fullOut 20 0 [(0, 0xE8), (3, 1)])] =
      [some (List.replicate 9 0 ++ [0xE8, 0xF7, 0, 0, 0]), some (List.replicate 10 0 ++ [0xE8, 0, 1, 0, 0]),
        some [0xE8, 0x28, 0xFC, 0xFF, 0xFF], some [0xE8, 0x18, 0xFC, 0, 0], some [0xE8, 0x17, 0xFC, 0xFF, 0xFF],
        some [0xE8, 0, 0, 1, 0]] := by decide +kernel

/-- The resumed scan, the frame limit, the short `OUT` and the missing hint (V-E8, V-E9, V-E10, V-E13). -/
theorem test_VE8_to_VE13 :
    [outAfter 10 (fullOut 20 0 [(0, 0xE8), (1, 0xE8), (2, 0xE8), (3, 0xE8), (4, 0xE8), (5, 0xE8), (6, 5)]),
        outAfter 5 { fullOut 20 1000 [(0, 0xE8), (1, 0x10)] with frames := 32768 },
        outAfter 5 (fullOut 7 0 [(0, 0xE8), (1, 1)]),
        outAfter 5 { fullOut 20 1000 [(0, 0xE8), (1, 0x10)] with intelFileSize := 0 }] =
      [some [0xE8, 0xE8, 0xE8, 0xE8, 0xE8, 0xE8, 0, 0, 0, 0], some [0xE8, 0x10, 0, 0, 0], some [0xE8, 1, 0, 0, 0],
        some [0xE8, 0x10, 0, 0, 0]] := by decide +kernel
theorem test_completion_counts :
    onNext (fun t => (t.frames, t.streamPos, t.nextBlockNo, t.outValid, t.phase)) (step (fullOut 20 1000 [])) =
      some (1, 1020, 1, true, .idle) := by decide +kernel

/-! ### Host commands and faults (V-K1 to V-K9, V-F1 to V-F7) -/

/-- P1's end, as far as GET_CONTENT looks. -/
def afterP1 : State := { live15 with out := Memory.writeBytes [] 0 [0x48, 0x45, 0x4C, 0x4C, 0x4F], outLen := 5, outValid := true }

/-- DECODE_BLOCK's arguments after INIT(15). -/
def asked (segLen outLen blockNo : Word) : State :=
  { live15 with argSegLen := segLen, argOutLen := outLen, argBlockNo := blockNo }

theorem test_VK1 :
    onNext (fun t => (statusWord t, t.reps, readReg t 0x64)) (exec .init { State.reset with argWBits := 15 }) =
      some (0x001, ⟨1, 1, 1⟩, some 15) := by decide
theorem test_VK2 :
    onNext (fun t => (statusWord t, t.faultInfo)) (exec .init { afterP1 with argWBits := 22 }) = some (0x602, 22) := by
  decide

/-- A rejected INIT clears the arguments and detaches the reader (R281, R331). -/
theorem test_rejected_init_clears :
    onNext (fun t => (t.argWBits, t.argSegLen, t.argOutLen, t.rd.segLen, readReg t 0x64))
        (exec .init { asked 23 5 0 with argWBits := 14, rd := { live15.rd with segLen := 23 } }) =
      some (0, 0, 0, 0, some 0) := by decide

/-- The surplus that waits opens the next `OUT`, as much of it as fits (log 14). -/
theorem test_carry_opens :
    onNext (fun t => (Memory.bytes t.out 0 3, t.outPos, t.carry)) (exec .decodeBlock { asked 23 2 0 with carry := [1, 2, 3] }) =
      some ([1, 2, 0], 2, [3]) := by decide
theorem test_VK4 : onNext (fun t => t.result) (exec .getContent afterP1) = some [0x48, 0x45, 0x4C, 0x4C, 0x4F] := by decide
theorem test_VK7 :
    onNext (fun t => (t.result, readReg t 0x24)) (exec .getContent State.reset) = some ([0], some 1) := by decide
theorem test_VK5 :
    [3, -4, 9].map (fun x => onNext (fun t => t.result)
        (exec .getContentFrom { afterP1 with argStart := BitVec.ofInt 32 x })) =
      [some [0x4C, 0x4F], some [0x48, 0x45, 0x4C, 0x4C, 0x4F], some []] := by decide
theorem test_VK6 :
    [((1 : Int), (3 : Int)), (3, 1), (-2, 100)].map (fun p => onNext (fun t => t.result)
        (exec .getContentRange { afterP1 with argStart := BitVec.ofInt 32 p.1, argEnd := BitVec.ofInt 32 p.2 })) =
      [some [0x45, 0x4C], some [], some [0x48, 0x45, 0x4C, 0x4C, 0x4F]] := by decide
theorem test_VK8 :
    onNext (fun t => (t.faultCode.code, t.faultInfo, t.outValid)) (exec .reservedOp7 afterP1) = some (12, 7, false) := by
  decide

/-- The eleven reserved OPs, each with its number (R286). -/
theorem test_reserved_ops :
    [Instr.reservedOp0, .reservedOp6, .reservedOp7, .reservedOp8, .reservedOp9, .reservedOp10, .reservedOp11,
        .reservedOp12, .reservedOp13, .reservedOp14, .reservedOp15].map
        (fun i => onNext (fun t => t.faultInfo) (exec i live15)) =
      [some 0, some 6, some 7, some 8, some 9, some 10, some 11, some 12, some 13, some 14, some 15] := by decide

/-- V-F1 to V-F5, and V-K9 at power-on. -/
theorem test_VF1_to_VF5 :
    [asked 0 4 0, asked 1 0 0, asked 1 1 0xFFFFFFFF, asked 1 1 1, asked 0 0 0, State.reset].map
        (fun s => onNext (fun t => (t.faultCode.code, t.faultInfo)) (exec .decodeBlock s)) =
      [some (1, 0), some (2, 0), some (3, 0xFFFFFFFF), some (4, 1), some (1, 0), some (5, 0)] := by decide

/-- STREAM_DEAD shows the earlier code (V-F7). -/
theorem test_VF7 :
    onNext (fun t => (t.faultCode.code, t.faultInfo))
        (exec .decodeBlock { asked 1 4 1 with faulted := true, faultCode := .invalidBlockType }) =
      some (11, 10) := by decide
theorem test_decodeBlock_opens :
    onNext (fun t => (t.phase, t.rd.segLen, t.outLen, t.outPos)) (exec .decodeBlock (asked 23 5 0)) =
      some (.fill, 23, 5, 0) := by decide

/-! ### Words of the opcode table -/

theorem test_table_command : decodeTableWord 32 5 = some .getContentRange := by decide
theorem test_table_literal : decodeTableWord 16 65 = some (.literal 65) := by decide +kernel
theorem test_table_explicit : decodeTableWord 16 280 = some (.matchExplicitV 3 0 0 0) := by decide +kernel
theorem test_table_ptSame : decodeTableWord 24 19 = some (.ptSame 0 0) := by decide +kernel

/-- What a step finds, with two registers of the state it leaves. -/
def found : Fetched → Option (Instr × Nat × Phase)
  | .elem i s => some (i, s.outPos, s.phase)
  | _ => none

/-- The host's use: the word laid after reset is the one the step runs. -/
theorem test_fetchWord_command :
    found (fetch (State.withFetchWord State.reset 32 3)) = some (.getContent, 0, .idle) := by decide +kernel
theorem test_fetchWord_literal :
    found (fetch (State.withFetchWord State.reset 16 65)) = some (.literal 65, 0, .fill) := by decide +kernel

/-! ### Witnesses: steps, decoding and encoding -/

theorem readerOk_fresh {bytes : List Byte} (h : bytes.length < 2 ^ 32) : ReaderOk (freshReader bytes) :=
  ⟨by simp [freshReader], by simp [freshReader], by simp [freshReader], h, Memory.wf_writeBytes rfl 0 bytes⟩

/-- The decoding answers an element. -/
def IsElem (d : Decoded) : Prop := ∃ i r, d = .elem i r

theorem isElem_of_instr {d : Decoded} (h : d.instr?.isSome = true) : IsElem d := by
  cases d with
  | elem i r => exact ⟨i, r, rfl⟩
  | latchMatch _ _ _ => cases h
  | latchRaw _ _ _ _ _ => cases h
  | overrun _ _ => cases h
  | unbuilt _ => cases h

theorem witness_StepRuns_waits : State.reset.phase = .idle ∧ State.reset.cmd = none := by decide
theorem witness_StepRuns_command :
    ({ State.reset with cmd := some 3 } : State).phase = .idle ∧ ({ State.reset with cmd := some 3 } : State).cmd = some 3 :=
  ⟨rfl, rfl⟩
theorem witness_StepRuns_complete : OutFull (fullOut 20 0 []) := ⟨rfl, by decide⟩
theorem witness_StepRuns_preamble :
    ∃ d, ReadsElement { inBlock .none with blockRemaining := 0, started := false } d ∧ IsElem d :=
  ⟨_, .inl ⟨rfl, by decide, rfl, rfl, rfl⟩, isElem_of_instr (by decide)⟩
theorem witness_StepRuns_header : ∃ d, ReadsElement { inBlock .none with blockRemaining := 0 } d ∧ IsElem d :=
  ⟨_, .inr (.inl ⟨rfl, by decide, rfl, rfl, rfl⟩), isElem_of_instr (by decide)⟩
theorem witness_StepRuns_uncByte : ∃ d, ReadsElement (inBlock .uncompressed) d ∧ IsElem d :=
  ⟨_, .inr (.inr (.inl ⟨rfl, by decide, by decide, rfl, rfl⟩)), isElem_of_instr (by decide)⟩

/-- A Verbatim block whose main code gives `'1'` to LITERAL 0x61. -/
def literalNext : State :=
  { inBlock .verbatim with
    mainLengths := (List.replicate 656 0).set 0x61 1
    mainBook := (mainOne 0x61).book
    rd := oneBitReader }

theorem witness_StepRuns_item : ∃ d, ReadsElement literalNext d ∧ IsElem d :=
  ⟨_, .inr (.inr (.inr (.inl ⟨rfl, by decide, by decide, by decide, rfl⟩))), isElem_of_instr (by decide +kernel)⟩
theorem witness_StepRuns_alignedLengths :
    ∃ d, ReadsElement { inBlock .aligned with phase := .alignedLengths } d ∧ IsElem d :=
  ⟨_, .inr (.inr (.inr (.inr (.inl ⟨rfl, rfl⟩)))), ⟨_, _, rfl⟩⟩
theorem witness_StepRuns_pretree : ∃ d, ReadsElement { inBlock .verbatim with phase := .pretree } d ∧ IsElem d :=
  ⟨decodePretreeLengths live15.rd, .inr (.inr (.inr (.inr (.inr (.inl ⟨rfl, rfl⟩))))), by
    unfold decodePretreeLengths
    exact ⟨_, _, rfl⟩⟩
theorem witness_StepRuns_ptop :
    ∃ d, ReadsElement { inRun .mainLiterals 0 with preBook := { live15.preBook with valid := true } } d ∧ IsElem d :=
  ⟨_, .inr (.inr (.inr (.inr (.inr (.inr (.inl ⟨rfl, rfl⟩)))))), isElem_of_instr (by decide +kernel)⟩
theorem witness_StepRuns_uncRepeats :
    ∃ d, ReadsElement { inBlock .uncompressed with phase := .uncRepeats } d ∧ IsElem d :=
  ⟨_, .inr (.inr (.inr (.inr (.inr (.inr (.inr (.inl ⟨rfl, rfl⟩))))))), isElem_of_instr (by decide)⟩
theorem witness_StepRuns_uncPad : ∃ d, ReadsElement { inBlock .uncompressed with phase := .uncPad } d ∧ IsElem d :=
  ⟨_, .inr (.inr (.inr (.inr (.inr (.inr (.inr (.inr (.inl ⟨rfl, rfl⟩)))))))), isElem_of_instr (by decide)⟩
theorem witness_StepRuns_footer :
    ∃ d, ReadsElement { inBlock .verbatim with phase := .footer, lengthBook := { live15.lengthBook with valid := true } } d ∧
      IsElem d :=
  ⟨_, .inr (.inr (.inr (.inr (.inr (.inr (.inr (.inr (.inr (.inl ⟨rfl, rfl⟩))))))))), isElem_of_instr (by decide +kernel)⟩
theorem witness_StepRuns_offset : ∃ d, ReadsElement { inBlock .verbatim with phase := .offset } d ∧ IsElem d :=
  ⟨_, .inr (.inr (.inr (.inr (.inr (.inr (.inr (.inr (.inr (.inr (.inl ⟨rfl, rfl⟩)))))))))), isElem_of_instr (by decide)⟩
theorem witness_StepRuns_alignedSym :
    ∃ d, ReadsElement { inBlock .aligned with phase := .alignedSym, alignedBook := { live15.alignedBook with valid := true } } d ∧
      IsElem d :=
  ⟨_, .inr (.inr (.inr (.inr (.inr (.inr (.inr (.inr (.inr (.inr (.inr ⟨rfl, rfl⟩)))))))))),
    isElem_of_instr (by decide +kernel)⟩
theorem witness_StepRuns_matchReady : ({ inBlock .aligned with phase := .matchReady } : State).phase = .matchReady := rfl

theorem witness_StepLatches_main :
    ∃ slot lenHdr r, ReadsElement
      { literalNext with mainLengths := (List.replicate 656 0).set 263 1, mainBook := (mainOne 263).book }
      (.latchMatch slot lenHdr r) :=
  ⟨0, 7, { oneBitReader with buffer := 0, total := 15 },
    .inr (.inr (.inr (.inl ⟨rfl, by decide, by decide, by decide, by decide +kernel⟩)))⟩
theorem witness_StepLatches_raw :
    ∃ slot lenHdr footer v r, ReadsElement
      { inBlock .aligned with phase := .offset, pend := { live15.pend with slot := 8 }, rd := oneBitReader }
      (.latchRaw slot lenHdr footer v r) :=
  ⟨8, 0, 0, 0, oneBitReader,
    .inr (.inr (.inr (.inr (.inr (.inr (.inr (.inr (.inr (.inr (.inl ⟨rfl, by decide⟩))))))))))⟩
theorem witness_StepLatches_overrun :
    ∃ t r, ReadsElement
      { inRun .mainLiterals 0 with preBook := { table := List.replicate 104 21, valid := true }, rd := oneBitReader }
      (.overrun t r) :=
  ⟨.pre, oneBitReader, .inr (.inr (.inr (.inr (.inr (.inr (.inl ⟨rfl, by decide +kernel⟩))))))⟩
theorem witness_StepLatches_unbuilt : ∃ t, ReadsElement (inRun .mainLiterals 0) (.unbuilt t) :=
  ⟨.pre, .inr (.inr (.inr (.inr (.inr (.inr (.inl ⟨rfl, rfl⟩))))))⟩

theorem witness_CommandWord : isCommand .reservedOp15 = true ∧ (0xFFFFFFFF : Word).toNat % 16 = 15 := by decide

/-- An element with bits, and a reader that has exactly those ahead. -/
def BitsWitness (i : Instr) (r : Reader) (bs : List Bool) : Prop :=
  ReaderOk r ∧ i.wellFormed = true ∧ encode true (fun _ => []) i = .bits bs ∧ bitsAhead r bs.length = bs

theorem witness_FixedField_preambleOff : BitsWitness .e8PreambleOff (freshReader []) [false] :=
  ⟨readerOk_fresh (by decide), rfl, rfl, by decide⟩
theorem witness_FixedField_preambleOn :
    ∃ bs, BitsWitness (.e8PreambleOn 0xFFFF 0xFFFF) (freshReader [0xFF, 0xFF, 0xFF, 0xFF, 0, 0x80]) bs :=
  ⟨_, readerOk_fresh (by decide), rfl, rfl, by decide⟩
theorem witness_FixedField_header :
    ∃ bs, BitsWitness (.blockHeader 3 1 5) (freshReader [0x00, 0x60, 0xA0, 0x20]) bs :=
  ⟨_, readerOk_fresh (by decide), rfl, rfl, by decide⟩
theorem witness_FixedField_aligned :
    ∃ bs, BitsWitness (.alignedLengths [1, 2, 3, 4, 5, 6, 7, 0]) (freshReader [0xCB, 0x29, 0x00, 0xB8]) bs :=
  ⟨_, readerOk_fresh (by decide), rfl, rfl, by decide⟩
theorem witness_FixedField_pretree :
    ∃ bs, BitsWitness (.pretreeLengths (List.replicate 20 15)) (freshReader (List.replicate 10 0xFF)) bs :=
  ⟨_, readerOk_fresh (by decide), rfl, rfl, by decide⟩

theorem witness_Raw_repeats :
    ∃ bs, encode true (fun _ => []) (.uncRepeats 7 8 9) = .bytes bs ∧
      bytesAhead (resync 1 { freshReader [0, 7, 0, 0, 0, 8, 0, 0, 0, 9, 0, 0, 0] with swath := 2, total := 17 }) bs.length =
        bs :=
  ⟨_, rfl, by decide⟩
theorem witness_Raw_byte :
    ∃ bs, encode true (fun _ => []) (.uncByte 0x48) = .bytes bs ∧ bytesAhead (freshReader [0x48]) bs.length = bs :=
  ⟨_, rfl, by decide⟩
theorem witness_Raw_pad :
    ∃ bs, encode true (fun _ => []) (.uncPad 0) = .bytes bs ∧ bytesAhead (freshReader []) bs.length = bs :=
  ⟨_, rfl, by decide⟩

theorem lengthsOk_VB4 : LengthsOk .pre lensVB4 := ⟨by decide, by decide⟩
theorem lengthsOk_ops : LengthsOk .pre lensOps := ⟨by decide, by decide⟩

/-- A symbol with a code, built, and a reader that has its code ahead. -/
def CodeWitness (t : Tree) (lens : List Nat) (sym : Nat) (r : Reader) : Prop :=
  LengthsOk t lens ∧ CodeFits lens ∧ (buildTable t lens).ok = true ∧ lens.getD sym 0 ≠ 0 ∧ ReaderOk r ∧
    bitsAhead r (lens.getD sym 0) = symbolBits lens sym

theorem witness_Canonical_long : CodeWitness .pre lensVB4 7 (freshReader [0xFF, 0xFE]) :=
  ⟨lengthsOk_VB4, by unfold CodeFits; decide +kernel, by decide +kernel, by decide, readerOk_fresh (by decide),
    by decide +kernel⟩
theorem witness_Canonical_direct : CodeWitness .pre lensVB4 0 (freshReader []) :=
  ⟨lengthsOk_VB4, by unfold CodeFits; decide +kernel, by decide +kernel, by decide, readerOk_fresh (by decide),
    by decide +kernel⟩

theorem codeReady_ops : CodeReady .pre (readyBook .pre lensOps) :=
  ⟨lengthsOk_ops, by unfold CodeFits; decide +kernel, by decide +kernel, rfl⟩

/-- The arrays of a test: PRE as given, the others empty. -/
def preOnly (pre : List Nat) : Tree → List Nat
  | .pre => pre
  | .main => []
  | .length => []
  | .aligned => []

/-- A pretree operation, and a reader that has its bits ahead. -/
def OpWitness (i : Instr) (r : Reader) : Prop :=
  ReaderOk r ∧ isPretreeOp i = true ∧ i.wellFormed = true ∧ Assigned true (preOnly lensOps) i ∧
    ∃ bs, encode true (preOnly lensOps) i = .bits bs ∧ bitsAhead r bs.length = bs

theorem witness_PretreeOps_delta : OpWitness (.ptDelta 0) (freshReader []) :=
  ⟨readerOk_fresh (by decide), rfl, rfl, by unfold Assigned; decide, _, rfl, by decide +kernel⟩
theorem witness_PretreeOps_zrun4 : OpWitness (.ptZrun4 15) (freshReader [0x00, 0x7C]) :=
  ⟨readerOk_fresh (by decide), rfl, rfl, by unfold Assigned; decide, _, rfl, by decide +kernel⟩
theorem witness_PretreeOps_zrun5 : OpWitness (.ptZrun5 31) (freshReader [0x00, 0xBE]) :=
  ⟨readerOk_fresh (by decide), rfl, rfl, by unfold Assigned; decide, _, rfl, by decide +kernel⟩
theorem witness_PretreeOps_same : OpWitness (.ptSame 1 19) (freshReader [0x00, 0xF8]) :=
  ⟨readerOk_fresh (by decide), rfl, rfl, by unfold Assigned; decide, _, rfl, by decide +kernel⟩

/-- Main lengths: codes 0x61 = `'00'`, 256 = `'01'`, 327 = `'10'`, 264 = `'110'`, 273 = `'111'`. -/
def mainItems : List (Fin 17) :=
  (((((List.replicate 656 0).set 0x61 2).set 256 2).set 327 2).set 264 3).set 273 3

/-- A block whose trees are built: the main lengths above, LENGTH 1 = `'0'`, ALIGNED 1 = `'0'` and 2 = `'1'`. -/
def itemsAhead (kind : BlockType) (bytes : List Byte) : State :=
  { inBlock kind with
    mainLengths := mainItems
    lengthLengths := (List.replicate 250 0).set 1 1
    alignedLengths := [0, 1, 1, 0, 0, 0, 0, 0]
    mainBook := (readyBook .main (mainItems.map Fin.val)).book
    lengthBook := (readyBook .length (((List.replicate 250 0).set 1 1 : List (Fin 17)).map Fin.val)).book
    alignedBook := (readyBook .aligned [0, 1, 1, 0, 0, 0, 0, 0]).book
    rd := freshReader bytes }

/-- The LENGTH lengths of that block, as numbers. -/
def lengthItems : List Nat := ((List.replicate 250 0).set 1 1 : List (Fin 17)).map Fin.val

theorem ready_main : CodeReady .main (readyBook .main (mainItems.map Fin.val)) :=
  ⟨⟨by decide +kernel, by decide +kernel⟩, by unfold CodeFits; decide +kernel, by decide +kernel, rfl⟩
theorem ready_length : CodeReady .length (readyBook .length lengthItems) :=
  ⟨⟨by decide +kernel, by decide +kernel⟩, by unfold CodeFits; decide +kernel, by decide +kernel, rfl⟩
theorem ready_aligned : CodeReady .aligned (readyBook .aligned [0, 1, 1, 0, 0, 0, 0, 0]) :=
  ⟨⟨by decide +kernel, by decide +kernel⟩, by unfold CodeFits; decide +kernel, by decide +kernel, rfl⟩
theorem codeReady_items (kind : BlockType) (bytes : List Byte) :
    CodeReady .main (codeBookOf .main (itemsAhead kind bytes)) ∧
      CodeReady .length (codeBookOf .length (itemsAhead kind bytes)) ∧
      CodeReady .aligned (codeBookOf .aligned (itemsAhead kind bytes)) := ⟨ready_main, ready_length, ready_aligned⟩

/-- The hypotheses of ItemsRoundTrip but for the code books, which `codeReady_items` gives. -/
def ItemWitness (s : State) (i : Instr) : Prop :=
  s.phase = .fill ∧ s.outPos < s.outLen ∧ s.blockRemaining ≠ 0 ∧ TreeKind s ∧ isItem s.blockType i = true ∧
    i.wellFormed = true ∧ Assigned s.params.alignedAtExtra3 (fun t => lensOf t s) i ∧
    ∃ bs, encode s.params.alignedAtExtra3 (fun t => lensOf t s) i = .bits bs ∧ bitsAhead s.rd bs.length = bs

theorem readerOk_items (kind : BlockType) {bytes : List Byte} (h : bytes.length < 2 ^ 32) :
    ReaderOk (itemsAhead kind bytes).rd := readerOk_fresh h

theorem witness_Items_literal : ItemWitness (itemsAhead .verbatim []) (.literal 0x61) :=
  ⟨rfl, by decide, by decide, .inl rfl, rfl, rfl, by unfold Assigned; decide +kernel, _, rfl, by decide +kernel⟩
theorem witness_Items_rep0 : ItemWitness (itemsAhead .aligned [0x00, 0x40]) (.matchRep0 0 0) :=
  ⟨rfl, by decide, by decide, .inr rfl, rfl, rfl, by unfold Assigned; decide +kernel, _, rfl, by decide +kernel⟩
theorem witness_Items_rep1 : ItemWitness (itemsAhead .verbatim [0x00, 0xC0]) (.matchRep1 0 0) :=
  ⟨rfl, by decide, by decide, .inl rfl, rfl, rfl, by unfold Assigned; decide +kernel, _, rfl, by decide +kernel⟩
theorem witness_Items_rep2 : ItemWitness (itemsAhead .verbatim [0x00, 0xE0]) (.matchRep2 1 0) :=
  ⟨rfl, by decide, by decide, .inl rfl, rfl, rfl, by unfold Assigned; decide +kernel, _, rfl, by decide +kernel⟩
theorem witness_Items_explicitV : ItemWitness (itemsAhead .verbatim [0x00, 0x94]) (.matchExplicitV 8 7 1 5) :=
  ⟨rfl, by decide, by decide, .inl rfl, rfl, by decide, by unfold Assigned; decide +kernel, _, rfl, by decide +kernel⟩
theorem witness_Items_explicitA : ItemWitness (itemsAhead .aligned [0x00, 0x90]) (.matchExplicitA 8 7 1 2) :=
  ⟨rfl, by decide, by decide, .inr rfl, rfl, by decide, by unfold Assigned; decide +kernel, _, rfl, by decide +kernel⟩

/-! ### Witnesses: the bit reader and the Huffman unit -/

theorem witness_ReaderOk : ReaderOk readerVR := readerOk_fresh (by decide)
theorem witness_StartSegment : ReaderOk readerVR ∧ 2 ^ 32 - 1 < 2 ^ 32 := ⟨witness_ReaderOk, by decide⟩
theorem witness_GetSyncBits : ReaderOk readerVR ∧ 32 ≤ 32 := ⟨witness_ReaderOk, by decide⟩
theorem witness_Peek : ReaderOk readerVR ∧ 1 ≤ 16 ∧ 16 ≤ 16 := ⟨witness_ReaderOk, by decide⟩
theorem witness_CheckBit : ReaderOk { readerVR with total := 16 } ∧ 16 ≤ ({ readerVR with total := 16 } : Reader).total :=
  ⟨⟨by decide, by decide, by decide, by decide, by decide⟩, by decide⟩
theorem witness_PastTheEnd :
    ReaderOk (freshReader []) ∧ (freshReader []).segLen ≤ (freshReader []).swath ∧ (freshReader []).total ≤ 0 :=
  ⟨readerOk_fresh (by decide), by decide, by decide⟩

theorem witness_Overfull_direct :
    LengthsOk .pre (List.replicate 20 1) ∧ 2 ^ 16 < codeSpaceBelow (List.replicate 20 1) Tree.pre.tableBits :=
  ⟨⟨by decide, by decide⟩, by decide +kernel⟩
theorem witness_Overfull_long :
    LengthsOk .pre ([1, 2, 3, 4, 5, 6, 7, 7, 7] ++ List.replicate 11 0) ∧
      codeSpaceBelow ([1, 2, 3, 4, 5, 6, 7, 7, 7] ++ List.replicate 11 0) Tree.pre.tableBits < 2 ^ 16 ∧
      2 ^ 16 < codeSpaceBelow ([1, 2, 3, 4, 5, 6, 7, 7, 7] ++ List.replicate 11 0) 16 :=
  ⟨⟨by decide, by decide⟩, by decide +kernel, by decide +kernel⟩

/-- Two arrays that fit: one needs 25 node pairs, more than the 20 symbols, as V-B7 does on its small tree; one needs 2. -/
theorem witness_Overfull_pairs :
    LengthsOk .pre (1 :: List.replicate 19 15) ∧
      codeSpaceBelow (1 :: List.replicate 19 15) Tree.pre.tableBits < 2 ^ 16 ∧ CodeFits (1 :: List.replicate 19 15) ∧
      nodePairs (1 :: List.replicate 19 15) Tree.pre.tableBits = 25 :=
  ⟨⟨by decide, by decide⟩, by decide +kernel, by unfold CodeFits; decide +kernel, by decide +kernel⟩
theorem witness_Overfull_pairs_enough :
    LengthsOk .pre lensVB4 ∧ codeSpaceBelow lensVB4 Tree.pre.tableBits < 2 ^ 16 ∧ CodeFits lensVB4 ∧
      nodePairs lensVB4 Tree.pre.tableBits = 1 :=
  ⟨lengthsOk_VB4, by decide +kernel, by unfold CodeFits; decide +kernel, by decide +kernel⟩
theorem witness_Overfull_complete :
    LengthsOk .pre ([1, 2, 3, 4, 5, 6, 6] ++ List.replicate 13 0) ∧
      codeSpaceBelow ([1, 2, 3, 4, 5, 6, 6] ++ List.replicate 13 0) Tree.pre.tableBits = 2 ^ 16 :=
  ⟨⟨by decide, by decide⟩, by decide +kernel⟩
theorem witness_Fitting_direct :
    LengthsOk .aligned [0, 1, 1, 0, 0, 0, 0, 0] ∧ (∀ l ∈ [0, 1, 1, 0, 0, 0, 0, 0], l ≤ Tree.aligned.tableBits) ∧
      CodeFits [0, 1, 1, 0, 0, 0, 0, 0] :=
  ⟨⟨by decide, by decide⟩, by decide, by unfold CodeFits; decide +kernel⟩
theorem witness_Fitting_zeros :
    LengthsOk .aligned (List.replicate 8 0) ∧ ∀ l ∈ List.replicate 8 0, l = 0 := ⟨⟨by decide, by decide⟩, by decide⟩

/-- The last slot of a 6-bit code, and a slot above all codes. -/
theorem witness_DirectSlots_code :
    LengthsOk .pre lensVB4 ∧ (buildTable .pre lensVB4).ok = true ∧ 1 ≤ lensVB4.getD 5 0 ∧
      lensVB4.getD 5 0 ≤ Tree.pre.tableBits ∧ 62 / 2 ^ (Tree.pre.tableBits - lensVB4.getD 5 0) = canonicalCode lensVB4 5 :=
  ⟨lengthsOk_VB4, by decide +kernel, by decide, by decide, by decide +kernel⟩
theorem witness_DirectSlots_unfilled :
    LengthsOk .pre lensVB16 ∧ (buildTable .pre lensVB16).ok = true ∧ (∀ l ∈ lensVB16, l ≤ Tree.pre.tableBits) ∧
      codeSpaceBelow lensVB16 Tree.pre.tableBits ≤ 32 * 2 ^ (16 - Tree.pre.tableBits) :=
  ⟨⟨by decide, by decide⟩, by decide +kernel, by decide, by decide +kernel⟩
theorem witness_Completed : LengthsOk .pre lensVB4 ∧ (buildTable .pre lensVB4).ok = true ∧ ReaderOk readerVR :=
  ⟨lengthsOk_VB4, by decide +kernel, witness_ReaderOk⟩

/-- A pattern without a code: `'1'` of V-B16. -/
theorem witness_Completed_unassigned :
    LengthsOk .pre lensVB16 ∧ (buildTable .pre lensVB16).ok = true ∧ ReaderOk oneBitReader ∧
      ∀ sym, lensVB16.getD sym 0 ≠ 0 → bitsAhead oneBitReader (lensVB16.getD sym 0) ≠ symbolBits lensVB16 sym := by
  refine ⟨⟨by decide, by decide⟩, by decide +kernel, ⟨by decide, by decide, by decide, by decide, by decide⟩,
    fun sym h => ?_⟩
  by_cases hs : sym < 20
  · interval_cases sym <;> revert h <;> decide +kernel
  · exact absurd (List.getD_eq_default _ _ (by simpa [lensVB16] using hs)) h

/-! ### Witnesses: headers and length arrays -/

/-- The parameters with the zero-based block types. -/
def zeroBased : Params := { Params.default with btypeMap := .zeroBased }

theorem witness_BlockHeader_lzx :
    BlockType.uncompressed ≠ .none ∧ live15.params.btypeMap = .lzx ∧ 1 ≤ (3 : BitVec 3).toNat ∧
      (3 : BitVec 3).toNat ≤ 3 ∧ (3 : BitVec 3).toNat = BlockType.uncompressed.code := by decide
theorem witness_BlockHeader_zeroBased :
    BlockType.verbatim ≠ .none ∧ ({ live15 with params := zeroBased } : State).params.btypeMap = .zeroBased ∧
      (0 : BitVec 3).toNat ≤ 2 ∧ (0 : BitVec 3).toNat + 1 = BlockType.verbatim.code := by decide
theorem witness_BlockHeader_reuse_lzx :
    BlockType.aligned ≠ .none ∧ (inBlock .aligned).params.btypeMap = .lzx ∧
      ((0 : BitVec 3).toNat = 0 ∧ 4 ≤ (4 : BitVec 3).toNat) ∧ (inBlock .aligned).blockType = .aligned := by decide
theorem witness_BlockHeader_reuse_zeroBased :
    BlockType.aligned ≠ .none ∧ ({ inBlock .aligned with params := zeroBased } : State).params.btypeMap = .zeroBased ∧
      3 ≤ (3 : BitVec 3).toNat ∧ ({ inBlock .aligned with params := zeroBased } : State).blockType = .aligned := by decide
theorem witness_InvalidFirst_lzx :
    live15.blockType = .none ∧ live15.params.btypeMap = .lzx ∧ (0 : BitVec 3).toNat = 0 ∧ 4 ≤ (7 : BitVec 3).toNat := by
  decide
theorem witness_InvalidFirst_zeroBased :
    ({ live15 with params := zeroBased } : State).blockType = .none ∧
      ({ live15 with params := zeroBased } : State).params.btypeMap = .zeroBased ∧ 3 ≤ (3 : BitVec 3).toNat := by decide
theorem witness_AlignedLengths_fit :
    ([0, 1, 1, 0, 0, 0, 0, 0] : List (BitVec 3)).length = 8 ∧
      CodeFits (([0, 1, 1, 0, 0, 0, 0, 0] : List (BitVec 3)).map BitVec.toNat) :=
  ⟨rfl, by unfold CodeFits; decide +kernel⟩
theorem witness_AlignedLengths_overflow :
    ([1, 1, 7, 0, 0, 0, 0, 0] : List (BitVec 3)).length = 8 ∧
      ¬ CodeFits (([1, 1, 7, 0, 0, 0, 0, 0] : List (BitVec 3)).map BitVec.toNat) :=
  ⟨rfl, by unfold CodeFits; decide +kernel⟩
theorem witness_UncompressedSetup :
    ({ inBlock .uncompressed with phase := .uncRepeats } : State).phase = .uncRepeats ∧ 16 < 17 ∧ 16 ≤ 16 := by decide
theorem witness_PretreeLengths_build :
    (List.replicate 20 0 : List (BitVec 4)).length = 20 ∧ 15 ≤ live15.windowBits.toNat ∧
      live15.windowBits.toNat ≤ 21 ∧ (buildTable .pre ((List.replicate 20 0 : List (BitVec 4)).map BitVec.toNat)).ok = true :=
  ⟨by decide, by decide, by decide, by decide +kernel⟩
theorem witness_PretreeLengths_overflow :
    (List.replicate 20 1 : List (BitVec 4)).length = 20 ∧
      (buildTable .pre ((List.replicate 20 1 : List (BitVec 4)).map BitVec.toNat)).ok = false :=
  ⟨by decide, by decide +kernel⟩

/-- A pretree operation that leaves its run one entry short, and one that ends it exactly: the match lengths of a
32 KB window end at 496. -/
theorem witness_PretreeOps_inside :
    (∃ v, pretreeOp? (.ptZrun5 31) = some (51, v)) ∧ (inRun .mainMatches 444).mainLengths.length = 656 ∧
      (inRun .mainMatches 444).lengthLengths.length = 250 ∧
      (inRun .mainMatches 444).index + 51 < (inRun .mainMatches 444).run.last (inRun .mainMatches 444).windowBits.toNat :=
  ⟨⟨_, rfl⟩, List.length_replicate, List.length_replicate, by decide⟩

/-- The entries LastPretreeOpEndsTheRun and OverflowingRunFaults speak of exist for every run and operation. -/
theorem witness_lens {s : State} (hm : s.mainLengths.length = 656) (hl : s.lengthLengths.length = 250) (count : Nat)
    (v : Fin 17) :
    ∃ lens : List (Fin 17), ∀ j, lens[j]? =
      if s.index ≤ j ∧ j < s.index + count ∧ j < s.run.tree.maxSymbols then some v else (runLengths s.run s)[j]? :=
  ⟨writeRun s.run.tree.maxSymbols v count s.index (runLengths s.run s),
    fun j => writeRun_getElem _ _ _ _ _ (runLengths_length hm hl) j⟩

/-- The last operation of a run, at its first and its last possible end. -/
def LastOp (s : State) (i : Instr) (count : Nat) : Prop :=
  (∃ v, pretreeOp? i = some (count, v)) ∧ s.mainLengths.length = 656 ∧ s.lengthLengths.length = 250 ∧
    s.index < s.run.last s.windowBits.toNat ∧ s.run.last s.windowBits.toNat ≤ s.index + count

theorem witness_LastOp_literals : LastOp (inRun .mainLiterals 205) (.ptZrun5 31) 51 :=
  ⟨⟨_, rfl⟩, List.length_replicate, List.length_replicate, by decide, by decide⟩
theorem witness_LastOp_matches :
    LastOp (inRun .mainMatches 495) (.ptDelta 0) 1 ∧ (buildTable .main ((List.replicate 656 (0 : Fin 17)).map Fin.val)).ok = true :=
  ⟨⟨⟨_, rfl⟩, List.length_replicate, List.length_replicate, by decide, by decide⟩, by decide +kernel⟩
theorem witness_LastOp_lengths :
    LastOp (inRun .lengths 248) (.ptSame 1 0) 5 ∧
      (buildTable .length ((List.replicate 250 (0 : Fin 17)).map Fin.val)).ok = true :=
  ⟨⟨⟨_, rfl⟩, List.length_replicate, List.length_replicate, by decide, by decide⟩, by decide +kernel⟩
theorem witness_Overflow_main : (buildTable .main ((List.replicate 656 (1 : Fin 17)).map Fin.val)).ok = false := by
  decide +kernel
theorem witness_Overflow_length : (buildTable .length ((List.replicate 250 (1 : Fin 17)).map Fin.val)).ok = false := by
  decide +kernel
theorem witness_Overflow_op :
    LastOp { inRun .mainMatches 495 with mainLengths := List.replicate 656 1 } (.ptDelta 0) 1 ∧
      LastOp { inRun .lengths 248 with lengthLengths := List.replicate 250 1 } (.ptDelta 0) 1 :=
  ⟨⟨⟨_, rfl⟩, List.length_replicate, List.length_replicate, by decide, by decide⟩,
    ⟨⟨_, rfl⟩, List.length_replicate, List.length_replicate, by decide, by decide⟩⟩
theorem witness_ZeroDelta :
    (inRun .lengths 247).mainLengths.length = 656 ∧ (inRun .lengths 247).lengthLengths.length = 250 ∧
      (inRun .lengths 247).index + 1 < (inRun .lengths 247).run.last (inRun .lengths 247).windowBits.toNat :=
  ⟨List.length_replicate, List.length_replicate, by decide⟩

/-! ### Witnesses: literals, matches and raw bytes -/

/-- A state with history, `OUT` and `WIN` in canonical form. -/
def abc (kind : BlockType) : State := produced [0x61, 0x62, 0x63] { inBlock kind with reps := ⟨3, 1, 2⟩ }

theorem abc_wf (kind : BlockType) : Memory.wf (abc kind).out = true ∧ Memory.wf (abc kind).win = true :=
  ⟨by cases kind <;> decide, by cases kind <;> decide⟩
theorem witness_Literal : Memory.wf (abc .verbatim).out = true ∧ Memory.wf (abc .verbatim).win = true := abc_wf _
theorem witness_UncByte : Memory.wf (abc .uncompressed).out = true ∧ Memory.wf (abc .uncompressed).win = true := abc_wf _

/-- A match of a given offset in that state, with what LegalMatchCopies asks but for the canonical form. -/
def LegalWitness (s : State) (i : Instr) : Prop :=
  ∃ off reps len, match? s i = some (off, reps, len) ∧ i.wellFormed = true ∧ 15 ≤ s.windowBits.toNat ∧
    s.winPos < 2 ^ s.windowBits.toNat ∧ s.outPos ≤ s.outLen ∧ 1 ≤ off.toNat ∧ off.toNat ≤ 2 ^ s.windowBits.toNat ∧
    off.toNat ≤ s.streamPos + s.outPos

theorem witness_LegalMatch :
    (abc .verbatim).params.matchOverrun = .truncate ∧ LegalWitness (abc .verbatim) (.matchRep0 7 249) ∧
      LegalWitness (abc .verbatim) (.matchRep1 0 0) ∧ LegalWitness (abc .verbatim) (.matchRep2 6 0) ∧
      LegalWitness (abc .verbatim) (.matchExplicitV 4 0 0 1) ∧ LegalWitness (abc .aligned) (.matchExplicitA 3 7 0 0) :=
  ⟨rfl, ⟨_, _, _, rfl, by decide⟩, ⟨_, _, _, rfl, by decide⟩, ⟨_, _, _, rfl, by decide⟩, ⟨_, _, _, rfl, by decide⟩,
    ⟨_, _, _, rfl, by decide⟩⟩

/-- The largest legal offset: the window size, with as much history. -/
theorem witness_LegalMatch_boundary :
    LegalWitness { abc .verbatim with reps := ⟨32768, 1, 1⟩, streamPos := 32765 } (.matchRep0 0 0) :=
  ⟨_, _, _, rfl, by decide⟩

/-- Under CARRY: a match with surplus, and one that fits to the last byte. -/
theorem witness_CarriedMatch :
    LegalWitness { abc .verbatim with outLen := 4, params := { Params.default with matchOverrun := .carry } }
        (.matchRep0 3 0) ∧
      LegalWitness { abc .verbatim with outLen := 8, params := { Params.default with matchOverrun := .carry } }
        (.matchRep0 3 0) :=
  ⟨⟨_, _, _, rfl, by decide⟩, ⟨_, _, _, rfl, by decide⟩⟩

/-- An offset of 0, one past the window, and one past the history. -/
theorem witness_IllegalMatch :
    (∃ reps len, match? { abc .verbatim with reps := ⟨0, 1, 1⟩ } (.matchRep0 0 0) = some (0, reps, len)) ∧
      (∃ reps len, match? { abc .verbatim with streamPos := 40000 } (.matchExplicitV 30 0 0 3) =
        some (32769, reps, len)) ∧
      (∃ reps len, match? (abc .aligned) (.matchExplicitA 4 0 0 1) = some (3, reps, len) ∧
        ({ abc .aligned with outPos := 2 } : State).streamPos + 2 < 3) :=
  ⟨⟨_, _, rfl⟩, ⟨_, _, rfl⟩, ⟨_, _, rfl, by decide⟩⟩
theorem witness_UncPad : ({ inBlock .uncompressed with phase := .uncPad } : State).phase = .uncPad := rfl

/-! ### Witnesses: completion and the E8 stage -/

theorem witness_Completion : OutFull (fullOut 20 0 [(9, 0xE8), (11, 1)]) ∧ Memory.wf [(9, 0xE8), (11, 1)] = true :=
  ⟨⟨rfl, by decide⟩, by decide⟩
theorem witness_Completion_disabled : OutFull (fullOut 6 0 []) ∧ ¬ E8Conditions (fullOut 6 0 []) :=
  ⟨⟨rfl, by decide⟩, fun h => absurd h.2.2.2 (by decide)⟩

/-- One E8 byte, at `outLen - 10` and at `outLen - 11`. -/
theorem witness_E8Boundary_none :
    OutFull (fullOut 20 0 [(10, 0xE8), (12, 1)]) ∧ E8Conditions (fullOut 20 0 [(10, 0xE8), (12, 1)]) ∧
      ∀ j, j + 10 < 20 → Memory.read [(10, 0xE8), (12, 1)] j ≠ 0xE8 := by
  refine ⟨⟨rfl, by decide⟩, ⟨by decide, by decide, rfl, by decide⟩, fun j hj => ?_⟩
  have : j < 10 := by omega
  interval_cases j <;> decide
theorem witness_E8Boundary_one :
    OutFull (fullOut 20 0 [(9, 0xE8), (11, 1)]) ∧ E8Conditions (fullOut 20 0 [(9, 0xE8), (11, 1)]) ∧ 9 + 10 < 20 ∧
      ∀ j, j + 10 < 20 → (Memory.read [(9, 0xE8), (11, 1)] j = 0xE8 ↔ j = 9) := by
  refine ⟨⟨rfl, by decide⟩, ⟨by decide, by decide, rfl, by decide⟩, by decide, fun j hj => ?_⟩
  have : j < 10 := by omega
  interval_cases j <;> decide

/-- R264's run of E8 bytes: of those at 0 to 5, the scan stops at 0 and 5. -/
theorem witness_E8Boundary_scan :
    OutFull (fullOut 20 0 [(0, 0xE8), (1, 0xE8), (2, 0xE8), (3, 0xE8), (4, 0xE8), (5, 0xE8), (6, 5)]) ∧
      E8Conditions (fullOut 20 0 [(0, 0xE8), (1, 0xE8), (2, 0xE8), (3, 0xE8), (4, 0xE8), (5, 0xE8), (6, 5)]) ∧
      Memory.wf [(0, 0xE8), (1, 0xE8), (2, 0xE8), (3, 0xE8), (4, 0xE8), (5, 0xE8), (6, 5)] = true :=
  ⟨⟨rfl, by decide⟩, ⟨by decide, by decide, rfl, by decide⟩, by decide⟩

/-- The operand at an E8 byte at 0. -/
def operandOf (out : Memory) : Int :=
  (Memory.read out 4 ++ Memory.read out 3 ++ Memory.read out 2 ++ Memory.read out 1).toInt

/-- At `-cp`, at `fileSize - 1`, at `fileSize` and below `-cp` (V-E4 to V-E7). -/
theorem witness_E8Operand :
    operandOf [(0, 0xE8), (1, 0x18), (2, 0xFC), (3, 0xFF), (4, 0xFF)] = -1000 ∧
      operandOf [(0, 0xE8), (1, 0xFF), (2, 0xFF)] = 65535 ∧ operandOf [(0, 0xE8), (3, 1)] = 65536 ∧
      operandOf [(0, 0xE8), (1, 0x17), (2, 0xFC), (3, 0xFF), (4, 0xFF)] = -1001 ∧
      Memory.wf [(0, 0xE8), (1, 0x17), (2, 0xFC), (3, 0xFF), (4, 0xFF)] = true := by decide

/-! ### Witnesses: host commands -/

theorem witness_Init : 15 ≤ (15 : BitVec 5).toNat ∧ (21 : BitVec 5).toNat ≤ 21 := by decide
theorem witness_InitRejects : (14 : BitVec 5).toNat < 15 ∧ 21 < (22 : BitVec 5).toNat := by decide
theorem witness_Structural_streamDead : ({ asked 1 1 0 with faulted := true } : State).faulted = true := rfl
theorem witness_Structural_noStream : State.reset.faulted = false ∧ State.reset.live = false := by decide
theorem witness_Structural_emptyInput :
    (asked 0 1 0).faulted = false ∧ (asked 0 1 0).live = true ∧ (asked 0 1 0).argSegLen = 0 := by decide
theorem witness_Structural_badOutLen :
    (asked 1 0 0).faulted = false ∧ (asked 1 0 0).live = true ∧ (asked 1 0 0).argSegLen ≠ 0 ∧
      (asked 1 0 0).argOutLen.toInt ≤ 0 := by decide
theorem witness_Structural_maxOutLen :
    ∃ m, ({ asked 1 9 0 with params := { Params.default with maxOutLen := some 8 } } : State).params.maxOutLen = some m ∧
      (m : Int) < (asked 1 9 0).argOutLen.toInt := ⟨8, rfl, by decide⟩
theorem witness_Structural_badBlockNo :
    (asked 1 1 0x80000000).faulted = false ∧ (asked 1 1 0x80000000).live = true ∧ (asked 1 1 0x80000000).argSegLen ≠ 0 ∧
      1 ≤ (asked 1 1 0x80000000).argOutLen.toInt ∧ (asked 1 1 0x80000000).params.maxOutLen = none ∧
      (asked 1 1 0x80000000).argBlockNo.toInt < 0 := by decide
theorem witness_Structural_outOfOrder :
    (asked 1 1 1).faulted = false ∧ (asked 1 1 1).live = true ∧ (asked 1 1 1).argSegLen ≠ 0 ∧
      1 ≤ (asked 1 1 1).argOutLen.toInt ∧ (asked 1 1 1).params.maxOutLen = none ∧ 0 ≤ (asked 1 1 1).argBlockNo.toInt ∧
      (asked 1 1 1).params.checkSequence = true ∧ (asked 1 1 1).argBlockNo.toInt ≠ ((asked 1 1 1).nextBlockNo : Int) := by
  decide
theorem witness_DecodeBlock :
    (asked 23 5 0).faulted = false ∧ (asked 23 5 0).live = true ∧ (asked 23 5 0).argSegLen ≠ 0 ∧
      1 ≤ (asked 23 5 0).argOutLen.toInt ∧ (asked 23 5 0).params.maxOutLen = none ∧
      (asked 23 5 0).argBlockNo.toInt = ((asked 23 5 0).nextBlockNo : Int) ∧ (asked 23 5 0).carry = [] ∧
      (asked 23 5 0).params.e8Trigger = .perBlock := by decide
theorem witness_DecodeBlock_carry :
    ({ asked 23 2 0 with carry := [1, 2, 3] } : State).live = true ∧ 1 ≤ (asked 23 2 0).argOutLen.toInt ∧
      (asked 23 2 0).params.maxOutLen = none ∧ (asked 23 2 0).params.e8Trigger = .perBlock ∧
      1 < min [(1 : Byte), 2, 3].length (asked 23 2 0).argOutLen.toNat := by decide
theorem witness_DecodeBlock_perSymbol :
    ({ Params.default with e8Trigger := .perSymbol } : Params).e8Trigger = .perSymbol := rfl

/-- The clamps of V-K5 and V-K6. -/
theorem witness_GetContent :
    ((3 : Nat) : Int) = min (max ((3 : Word).toInt) 0) ((5 : Nat) : Int) ∧
      ((0 : Nat) : Int) = min (max ((BitVec.ofInt 32 (-2)).toInt) 0) ((5 : Nat) : Int) ∧
      ((5 : Nat) : Int) = min (max ((100 : Word).toInt) ((0 : Nat) : Int)) ((5 : Nat) : Int) := by decide
theorem witness_Reserved : reservedOp? .reservedOp15 = some 15 := rfl
theorem witness_HostWrites :
    busy State.reset = false ∧ Memory.wf State.reset.rd.inseg = true ∧ 2 ^ 31 - 2 < 2 ^ 31 - 1 := by decide
theorem witness_RegisterMap : busy live15 = false ∧ live15.live = true ∧ State.reset.live = false := by decide
theorem witness_Busy :
    (∃ w, ({ State.reset with cmd := some 2 } : State).cmd = some w) ∧ (inBlock .verbatim).phase ≠ .idle :=
  ⟨⟨2, rfl⟩, by decide⟩

/-! ### Witnesses: the whole machine -/

theorem inv_powerOn : Inv State.reset :=
  ⟨⟨readerOk_detached rfl, rfl, rfl, List.length_replicate, List.length_replicate, List.length_replicate,
    List.length_replicate, bookOk_unbuilt _, bookOk_unbuilt _, bookOk_unbuilt _, bookOk_unbuilt _⟩,
    registersOk_powerOn State.reset, fun _ h => absurd rfl h⟩

/-- The state INIT(15) leaves, with DECODE_BLOCK's arguments. -/
theorem inv_asked (segLen outLen blockNo : Word) : Inv (asked segLen outLen blockNo) := by
  obtain ⟨hs, hg, hp⟩ := inv_powerOn
  exact ⟨⟨hs.reader, rfl, rfl, hs.main_length, hs.length_length, hs.aligned_length, hs.pre_length, hs.pre_book,
    hs.main_book, hs.length_book, hs.aligned_book⟩,
    { window_legal := fun _ => show 15 ≤ 15 ∧ 15 ≤ 21 by decide
      winPos_lt := Nat.two_pow_pos _
      winPos_clock := fun _ _ => rfl
      remaining_le := hg.remaining_le
      outPos_le := hg.outPos_le
      outLen_lt := hg.outLen_lt
      out_valid := nofun
      fault_code := hg.fault_code
      counters := rfl
      carry_empty := fun _ => rfl
      running := fun h => absurd rfl h }, hp⟩

/-- Inside a command: DECODE_BLOCK has opened its segment. -/
theorem inv_begun : ∃ s, Inv s ∧ s.phase = .fill ∧ s.params.e8Trigger = .perBlock ∧ s.params.matchOverrun = .truncate :=
  ⟨beginBlock (asked 23 5 0), inv_execDecodeBlock (inv_asked 23 5 0) rfl rfl rfl, rfl, rfl, rfl⟩

theorem witness_StepKeeps : ∃ s t, Inv s ∧ step s = .next t ∧ t.phase ≠ .idle :=
  ⟨beginBlock (asked 23 5 0), _, inv_execDecodeBlock (inv_asked 23 5 0) rfl rfl rfl, rfl, by decide⟩
theorem witness_HostKeeps :
    Inv State.reset ∧ hostWrite 0x0C 15 State.reset = .next { State.reset with argWBits := 15 } ∧
      hostWriteInseg 0 7 State.reset =
        .next { State.reset with rd := { State.reset.rd with inseg := Memory.write State.reset.rd.inseg 0 7 } } :=
  ⟨inv_powerOn, rfl, rfl⟩
theorem witness_NeverStops : ∃ s, Inv s ∧ s.params.e8Trigger = .perBlock ∧ s.phase = .fill := by
  obtain ⟨s, h1, h2, h3, -⟩ := inv_begun
  exact ⟨s, h1, h3, h2⟩
theorem witness_Fetched : ∃ s u i, Inv s ∧ fetch s = .elem i u ∧ i = .e8PreambleOff :=
  ⟨beginBlock (asked 23 5 0), _, _, inv_execDecodeBlock (inv_asked 23 5 0) rfl rfl rfl, rfl, rfl⟩
theorem witness_Mirror :
    ∃ s t, Inv s ∧ s.params.matchOverrun = .truncate ∧ WindowMirrorsOut s ∧ step s = .next t ∧ s.phase ≠ .idle :=
  ⟨beginBlock (asked 23 5 0), _, inv_execDecodeBlock (inv_asked 23 5 0) rfl rfl rfl, rfl,
    fun _ k h1 _ h3 => absurd (Nat.le_trans h1 h3) (by decide), rfl, by decide⟩

/-- A faulted engine that takes INIT. -/
def reviving : State := { asked 1 1 0 with faulted := true, faultCode := .streamDead, argWBits := 15, cmd := some 1 }

theorem witness_OnlyInit :
    ∃ t, step reviving = .next t ∧ reviving.faulted = true ∧ t.faulted = false := ⟨_, rfl, rfl, rfl⟩
theorem witness_AFault :
    ∃ t, step { State.reset with cmd := some 7 } = .next t ∧ State.reset.faulted = false ∧ t.faulted = true ∧
      ¬ TakesInit { State.reset with cmd := some 7 } := by
  refine ⟨_, rfl, rfl, rfl, fun h => ?_⟩
  obtain ⟨-, w, hw, hm⟩ := h
  cases hw
  exact absurd hm (by decide)
theorem witness_Context : ∃ t, step (beginBlock (asked 23 5 0)) = .next t ∧ (beginBlock (asked 23 5 0)).phase ≠ .idle :=
  ⟨_, rfl, by decide⟩

/-- A step inside DECODE_BLOCK takes no command; a reserved OP is none of 1, 3, 4, 5; and an INIT may be rejected. -/
theorem witness_Context_result :
    (∀ op ∈ [1, 3, 4, 5], ¬ TakesOp op (beginBlock (asked 23 5 0))) ∧
      (∀ op ∈ [1, 3, 4, 5], ¬ TakesOp op { State.reset with cmd := some 7 }) ∧
      ∃ t, step { State.reset with cmd := some 7 } = .next t := by
  refine ⟨fun op _ h => absurd h.1 (by decide), fun op hop h => ?_, _, rfl⟩
  obtain ⟨-, w, hw, hm⟩ := h
  cases hw
  fin_cases hop <;> exact absurd hm (by decide)
theorem witness_Context_rejected :
    TakesInit { State.reset with cmd := some 1, argWBits := 14 } ∧ ¬ (15 ≤ (14 : BitVec 5).toNat) :=
  ⟨⟨rfl, 1, rfl, by decide⟩, by decide⟩
theorem witness_ZeroHeaders_trees :
    ∃ s : State, s.phase = .fill ∧ s.started = true ∧ s.blockRemaining = 0 ∧ s.outPos < s.outLen ∧
      s.params.btypeMap = .lzx ∧ ReaderOk s.rd ∧ s.rd.swath = s.rd.segLen ∧ s.rd.buffer = 0 ∧ TreeKind s ∧
      15 ≤ s.windowBits.toNat ∧ s.windowBits.toNat ≤ 21 ∧ s.mainLengths.length = 656 ∧ s.lengthLengths.length = 250 ∧
      (buildTable .main (lensOf .main s)).ok = true ∧ (buildTable .length (lensOf .length s)).ok = true :=
  ⟨{ itemsAhead .aligned [0, 0] with blockRemaining := 0, rd := { freshReader [0, 0] with swath := 2 } }, rfl, rfl, rfl,
    by decide, rfl, ⟨by decide, by decide, by decide, by decide, by decide⟩, rfl, rfl, .inr rfl, by decide, by decide,
    by decide +kernel, by decide +kernel, ready_main.built, ready_length.built⟩
theorem witness_ZeroHeaders :
    ∃ s : State, s.phase = .fill ∧ s.started = true ∧ s.blockRemaining = 0 ∧ s.blockType = .uncompressed ∧
      s.outPos < s.outLen ∧ s.params.btypeMap = .lzx ∧ s.params.uncRewindBytes ≤ 12 ∧ ReaderOk s.rd ∧
      s.rd.swath = s.rd.segLen ∧ s.rd.buffer = 0 :=
  ⟨{ inBlock .uncompressed with blockRemaining := 0, rd := { freshReader [0, 0] with swath := 2 } }, rfl, rfl, rfl, rfl,
    by decide, rfl, by decide, ⟨by decide, by decide, by decide, by decide, by decide⟩, rfl, rfl⟩

end Sys2Proof.Tests
end

section
/-! What a step can do, said once for every later proof: the cases of `fetch` and `step`, the element that stands at each
place of the grammar, and what the decodings leave of the reader (30_encoding.md R90; 43_symbols.md R210). -/

namespace Sys2Proof.Machine

open Sys2Proof.Safety

/-! ### The cases of a fetch and of a step -/

/-- At the head of the loop, with room in `OUT`, one of the four element kinds is read (43_symbols.md R210). -/
theorem reads_decodeFill {s : State} (hp : s.phase = .fill) (hroom : s.outPos < s.outLen) :
    ReadsElement s (decodeFill s) := by
  unfold decodeFill ReadsElement
  by_cases hz : s.blockRemaining = 0
  · by_cases hs : s.started = true
    · exact .inr (.inl ⟨hp, hroom, hz, hs, by simp [hz, hs]⟩)
    · exact .inl ⟨hp, hroom, hz, by simpa using hs, by simp [hz, hs]⟩
  · rw [if_neg hz]
    by_cases hu : s.blockType = .uncompressed
    · exact .inr (.inr (.inl ⟨hp, hroom, hz, hu, if_pos hu⟩))
    · exact .inr (.inr (.inr (.inl ⟨hp, hroom, hz, hu, if_neg hu⟩)))

/-- Inside a command a fetch finds a full `OUT`, the match whose fields are all latched, or a decoding. -/
theorem fetch_cases {s : State} (hp : s.phase ≠ .idle) :
    (OutFull s ∧ fetch s = .complete) ∨
    (s.phase = .matchReady ∧
      fetch s = .elem (.matchExplicitA s.pend.slot s.pend.lenHdr s.pend.footer s.pend.extra) s) ∨
    ∃ d, ReadsElement s d ∧ fetch s = settle s d := by
  cases h : s.phase
  case idle => exact absurd h hp
  case fill =>
    by_cases hfull : s.outLen ≤ s.outPos
    · exact .inl ⟨⟨h, hfull⟩, by simp [fetch, h, hfull]⟩
    · exact .inr (.inr ⟨_, reads_decodeFill h (Nat.lt_of_not_le hfull), by simp [fetch, h, hfull]⟩)
  all_goals simp [fetch, ReadsElement, h]

/-- An idle engine takes the command written to `CMD` (46_host_commands.md R280). -/
theorem fetch_command {s : State} {w : Word} (hp : s.phase = .idle) (hc : s.cmd = some w) :
    fetch s = .elem (decodeCommand w) { s with cmd := none } := by
  simp only [fetch, hp, hc]

/-- What a step that answers a next state has done, and what it read. -/
inductive Stepped (s t : State) : Prop
  | waited (hp : s.phase = .idle) (hc : s.cmd = none) (ht : t = s)
  | command (w : Word) (hp : s.phase = .idle) (hc : s.cmd = some w)
      (he : exec (decodeCommand w) { s with cmd := none } = .next t)
  | completed (hf : OutFull s) (ht : t = finishBlock s)
  | matched (hp : s.phase = .matchReady)
      (he : exec (.matchExplicitA s.pend.slot s.pend.lenHdr s.pend.footer s.pend.extra) s = .next t)
  | element (i : Instr) (r : Reader) (hd : ReadsElement s (.elem i r)) (he : exec i { s with rd := r } = .next t)
  | latchedMatch (slot : BitVec 6) (lenHdr : BitVec 3) (r : Reader) (hd : ReadsElement s (.latchMatch slot lenHdr r))
      (ht : t = { s with
        rd := r
        pend := { slot := slot, lenHdr := lenHdr, footer := 0, raw := 0, extra := 0 }
        phase := .footer })
  | latchedRaw (slot : BitVec 6) (lenHdr : BitVec 3) (footer : BitVec 8) (v : BitVec 14) (r : Reader)
      (hd : ReadsElement s (.latchRaw slot lenHdr footer v r))
      (ht : t = { s with
        rd := r
        pend := { slot := slot, lenHdr := lenHdr, footer := footer, raw := v, extra := 0 }
        phase := .alignedSym })
  | overran (tree : Tree) (r : Reader) (hd : ReadsElement s (.overrun tree r))
      (ht : t = raiseFault .walkOverrun (BitVec.ofNat 32 tree.infoCode) { s with rd := r })

theorem stepped_of_step {s t : State} (h : step s = .next t) : Stepped s t := by
  unfold step at h
  by_cases hp : s.phase = .idle
  · cases hc : s.cmd with
    | none =>
      simp only [fetch, hp, hc, Host.Outcome.next.injEq] at h
      exact .waited hp hc h.symm
    | some w =>
      rw [fetch_command hp hc] at h
      exact .command w hp hc h
  · rcases fetch_cases hp with ⟨hf, e⟩ | ⟨hm, e⟩ | ⟨d, hd, e⟩ <;> rw [e] at h
    · cases h
      exact .completed hf rfl
    · exact .matched hm h
    · cases d with
      | elem i r => exact .element i r hd h
      | latchMatch slot lenHdr r => cases h; exact .latchedMatch slot lenHdr r hd rfl
      | latchRaw slot lenHdr footer v r => cases h; exact .latchedRaw slot lenHdr footer v r hd rfl
      | overrun tree r => cases h; exact .overran tree r hd rfl
      | unbuilt tree => cases h

theorem phase_ne_idle_of_reads {s : State} {d : Decoded} (h : ReadsElement s d) : s.phase ≠ .idle := by
  rcases h with h | h | h | h | h | h | h | h | h | h | h | h <;> rw [h.1] <;> decide

theorem room_of_reads {s : State} {d : Decoded} (h : ReadsElement s d) (hp : s.phase = .fill) : s.outPos < s.outLen := by
  rcases h with h | h | h | h | h | h | h | h | h | h | h | h
  iterate 4 exact h.2.1
  all_goals cases hp.symm.trans h.1

/-! ### The commands -/

/-- The command a word selects, by its OP (30_encoding.md R107). -/
theorem decodeCommand_cases (w : Word) :
    (w.toNat % 16 = 1 ∧ decodeCommand w = .init) ∨ (w.toNat % 16 = 2 ∧ decodeCommand w = .decodeBlock) ∨
    (w.toNat % 16 = 3 ∧ decodeCommand w = .getContent) ∨ (w.toNat % 16 = 4 ∧ decodeCommand w = .getContentFrom) ∨
    (w.toNat % 16 = 5 ∧ decodeCommand w = .getContentRange) ∨
    ∃ op, w.toNat % 16 = op ∧ reservedOp? (decodeCommand w) = some op := by
  have hlt : w.toNat % 16 < 16 := Nat.mod_lt _ (by decide)
  unfold decodeCommand
  generalize w.toNat % 16 = op at hlt
  interval_cases op <;> simp [reservedOp?]

/-- A reserved OP raises BAD_COMMAND with itself as info (46_host_commands.md R286). -/
theorem exec_reserved {i : Instr} {op : Nat} (h : reservedOp? i = some op) (s : State) :
    exec i s = .next (raiseFault .badCommand (BitVec.ofNat 32 op) s) := by
  cases i <;> simp only [reservedOp?, Option.some.injEq, reduceCtorEq] at h <;> subst h <;> rfl

/-! ### The element that stands at a place of the grammar -/

/-- The places at which the offset fields of a match are read or its fields are complete. -/
def MatchPlace (p : Phase) : Prop := p = .fill ∨ p = .offset ∨ p = .matchReady

/-- The elements that may be executed at a place of the grammar (30_encoding.md R90). -/
inductive ElementAt : Phase → Instr → Prop
  | e8PreambleOff : ElementAt .fill .e8PreambleOff
  | e8PreambleOn (hi lo : BitVec 16) : ElementAt .fill (.e8PreambleOn hi lo)
  | blockHeader (btype : BitVec 3) (hi : BitVec 16) (lo : BitVec 8) : ElementAt .fill (.blockHeader btype hi lo)
  | alignedLengths (ls : List (BitVec 3)) : ElementAt .alignedLengths (.alignedLengths ls)
  | pretreeLengths (ps : List (BitVec 4)) : ElementAt .pretree (.pretreeLengths ps)
  | ptDelta (z : BitVec 5) : ElementAt .ptop (.ptDelta z)
  | ptZrun4 (c : BitVec 4) : ElementAt .ptop (.ptZrun4 c)
  | ptZrun5 (c : BitVec 5) : ElementAt .ptop (.ptZrun5 c)
  | ptSame (c : BitVec 1) (z2 : BitVec 5) : ElementAt .ptop (.ptSame c z2)
  | literal (b : Byte) : ElementAt .fill (.literal b)
  | matchRep0 {p : Phase} (hp : MatchPlace p) (lenHdr : BitVec 3) (footer : BitVec 8) :
      ElementAt p (.matchRep0 lenHdr footer)
  | matchRep1 {p : Phase} (hp : MatchPlace p) (lenHdr : BitVec 3) (footer : BitVec 8) :
      ElementAt p (.matchRep1 lenHdr footer)
  | matchRep2 {p : Phase} (hp : MatchPlace p) (lenHdr : BitVec 3) (footer : BitVec 8) :
      ElementAt p (.matchRep2 lenHdr footer)
  | matchExplicitV {p : Phase} (hp : MatchPlace p) (slot : BitVec 6) (lenHdr : BitVec 3) (footer : BitVec 8)
      (e : BitVec 17) : ElementAt p (.matchExplicitV slot lenHdr footer e)
  | matchExplicitA {p : Phase} (hp : MatchPlace p) (slot : BitVec 6) (lenHdr : BitVec 3) (footer : BitVec 8)
      (e : BitVec 17) : ElementAt p (.matchExplicitA slot lenHdr footer e)
  | lenFooter (f : BitVec 8) : ElementAt .footer (.lenFooter f)
  | alignedSym (a : BitVec 3) : ElementAt .alignedSym (.alignedSym a)
  | uncRepeats (r0 r1 r2 : Word) : ElementAt .uncRepeats (.uncRepeats r0 r1 r2)
  | uncByte (b : Byte) : ElementAt .fill (.uncByte b)
  | uncPad (x : Byte) : ElementAt .uncPad (.uncPad x)

theorem ElementAt.not_command {p : Phase} {i : Instr} (h : ElementAt p i) : isCommand i = false := by
  cases h <;> rfl

/-- What every decoding at a place answers, whatever the state: an element of that place, and a reader over the same
`INSEG`. -/
def ReadsAt (p : Phase) (r : Reader) : Decoded → Prop
  | .elem i r' => ElementAt p i ∧ r'.inseg = r.inseg
  | .latchMatch _ _ r' => r'.inseg = r.inseg
  | .latchRaw _ _ _ _ r' => r'.inseg = r.inseg
  | .overrun _ r' => r'.inseg = r.inseg
  | .unbuilt _ => True

theorem readsAt_of_inseg {p : Phase} {r r' : Reader} {d : Decoded} (h : r'.inseg = r.inseg) (hd : ReadsAt p r' d) :
    ReadsAt p r d := by
  cases d with
  | elem i r'' => exact ⟨hd.1, hd.2.trans h⟩
  | latchMatch => exact Eq.trans hd h
  | latchRaw => exact Eq.trans hd h
  | overrun => exact Eq.trans hd h
  | unbuilt => trivial

theorem readsAt_withSymbol {p : Phase} (t : Tree) (cb : CodeBook) (r : Reader) {k : Nat → Reader → Decoded}
    (hk : ∀ x r', ReadsAt p r' (k x r')) : ReadsAt p r (withSymbol t cb r k) := by
  unfold withSymbol
  split
  · rcases decodeSymbol_cases t cb.lens cb.book.table r with ⟨x, -, e⟩ | e <;> rw [e]
    · exact readsAt_of_inseg (by simp) (hk x _)
    · simp [ReadsAt]
  · trivial

theorem readsAt_decodePreamble (r : Reader) : ReadsAt .fill r (decodePreamble r) := by
  unfold decodePreamble
  simp only
  split
  · exact ⟨.e8PreambleOn _ _, by simp⟩
  · exact ⟨.e8PreambleOff, by simp⟩

theorem readsAt_decodeHeader (r : Reader) : ReadsAt .fill r (decodeHeader r) := by
  simp [ReadsAt, decodeHeader, ElementAt.blockHeader]

theorem readsAt_decodeAlignedLengths (r : Reader) : ReadsAt .alignedLengths r (decodeAlignedLengths r) := by
  simp [ReadsAt, decodeAlignedLengths, ElementAt.alignedLengths]

theorem readsAt_decodePretreeLengths (r : Reader) : ReadsAt .pretree r (decodePretreeLengths r) := by
  simp [ReadsAt, decodePretreeLengths, ElementAt.pretreeLengths]

theorem readsAt_decodePtop (cb : CodeBook) (r : Reader) : ReadsAt .ptop r (decodePtop cb r) := by
  refine readsAt_withSymbol _ _ _ fun z r' => ?_
  simp only
  split
  · exact ⟨.ptDelta _, rfl⟩
  · split
    · exact ⟨.ptZrun4 _, by simp⟩
    · split
      · exact ⟨.ptZrun5 _, by simp⟩
      · exact readsAt_of_inseg (by simp) (readsAt_withSymbol _ _ _ fun z2 _ => ⟨.ptSame _ _, rfl⟩)

theorem readsAt_decodeOffset {p : Phase} (hp : MatchPlace p) (at3 : Bool) (kind : BlockType) (slot : BitVec 6)
    (lenHdr : BitVec 3) (footer : BitVec 8) (r : Reader) :
    ReadsAt p r (decodeOffset at3 kind slot lenHdr footer r) := by
  simp only [decodeOffset]
  split
  · exact ⟨.matchRep0 hp _ _, rfl⟩
  · split
    · exact ⟨.matchRep1 hp _ _, rfl⟩
    · split
      · exact ⟨.matchRep2 hp _ _, rfl⟩
      · split
        · split
          · simp [ReadsAt]
          · split
            · rfl
            · exact ⟨.matchExplicitA hp _ _ _ _, by simp⟩
        · exact ⟨.matchExplicitV hp _ _ _ _, by simp⟩

theorem readsAt_decodeItem (at3 : Bool) (kind : BlockType) (cb : CodeBook) (r : Reader) :
    ReadsAt .fill r (decodeItem at3 kind cb r) := by
  refine readsAt_withSymbol _ _ _ fun x r' => ?_
  simp only
  split
  · exact ⟨.literal _, rfl⟩
  · generalize BitVec.ofNat 6 ((x - 256) / 8) = slot
    generalize BitVec.ofNat 3 ((x - 256) % 8) = lenHdr
    split
    · rfl
    · exact readsAt_decodeOffset (.inl rfl) _ _ _ _ _ _

theorem readsAt_decodeFooter (cb : CodeBook) (r : Reader) : ReadsAt .footer r (decodeFooter cb r) :=
  readsAt_withSymbol _ _ _ fun _ _ => ⟨.lenFooter _, rfl⟩

theorem readsAt_decodeAlignedSym (cb : CodeBook) (r : Reader) : ReadsAt .alignedSym r (decodeAlignedSym cb r) :=
  readsAt_withSymbol _ _ _ fun _ _ => ⟨.alignedSym _, rfl⟩

/-- UNC_REPEATS is read over the same `INSEG`, whatever the bytes are. (Stated over an equation: the reads of its twelve
bytes do not reduce, so a goal that names them is costly to unfold.) -/
theorem uncRepeats_of_eq {n : Nat} {r : Reader} {d : Decoded} (h : d = decodeUncRepeats n r) :
    ∃ r0 r1 r2 r', d = .elem (.uncRepeats r0 r1 r2) r' ∧ r'.inseg = r.inseg := by
  simp [h, decodeUncRepeats, resync]

theorem readsAt_decodeUncByte (r : Reader) : ReadsAt .fill r (decodeUncByte r) := by
  simp [ReadsAt, decodeUncByte, ElementAt.uncByte]

theorem readsAt_decodeUncPad (r : Reader) : ReadsAt .uncPad r (decodeUncPad r) := by
  simp [ReadsAt, decodeUncPad, ElementAt.uncPad]

theorem readsAt_of_reads {s : State} {d : Decoded} (h : ReadsElement s d) : ReadsAt s.phase s.rd d := by
  rcases h with ⟨hp, -, -, -, hd⟩ | ⟨hp, -, -, -, hd⟩ | ⟨hp, -, -, -, hd⟩ | ⟨hp, -, -, -, hd⟩ | ⟨hp, hd⟩ |
    ⟨hp, hd⟩ | ⟨hp, hd⟩ | ⟨hp, hd⟩ | ⟨hp, hd⟩ | ⟨hp, hd⟩ | ⟨hp, hd⟩ | ⟨hp, hd⟩ <;> rw [hp]
  · exact hd ▸ readsAt_decodePreamble _
  · exact hd ▸ readsAt_decodeHeader _
  · exact hd ▸ readsAt_decodeUncByte _
  · exact hd ▸ readsAt_decodeItem _ _ _ _
  · exact hd ▸ readsAt_decodeAlignedLengths _
  · exact hd ▸ readsAt_decodePretreeLengths _
  · exact hd ▸ readsAt_decodePtop _ _
  · obtain ⟨_, _, _, _, rfl, hi⟩ := uncRepeats_of_eq hd
    exact ⟨.uncRepeats _ _ _, hi⟩
  · exact hd ▸ readsAt_decodeUncPad _
  · exact hd ▸ readsAt_decodeFooter _ _
  · exact hd ▸ readsAt_decodeOffset (.inr (.inl rfl)) _ _ _ _ _ _
  · exact hd ▸ readsAt_decodeAlignedSym _ _

end Sys2Proof.Machine
end

section
/-! Every step and every host access keeps the invariant, and a well-kept engine never stops (10_state.md R37, R42;
30_encoding.md R110). -/

namespace Sys2Proof.Machine

open Sys2Proof.Safety

/-! ### What a decoding finds at a well-kept engine -/

/-- The decoding read no table before it was built, and what it latches stands beside the tables its match needs. -/
def TablesStand (s : State) : Decoded → Prop
  | .elem _ _ => True
  | .latchMatch _ _ _ => TreeKind s ∧ TreesBuilt s
  | .latchRaw _ _ _ _ _ => TreesBuilt s ∧ s.blockType = .aligned
  | .overrun _ _ => True
  | .unbuilt _ => False

theorem tablesStand_withSymbol {s : State} {t : Tree} {cb : CodeBook} {k : Nat → Reader → Decoded}
    (hv : cb.book.valid = true) (r : Reader) (hk : ∀ x r', TablesStand s (k x r')) :
    TablesStand s (withSymbol t cb r k) := by
  rw [withSymbol, if_pos hv]
  split
  · exact hk _ _
  · trivial

theorem tablesStand_decodePreamble (s : State) (r : Reader) : TablesStand s (decodePreamble r) := by
  unfold decodePreamble
  simp only
  split <;> trivial

theorem tablesStand_decodePtop {s : State} {cb : CodeBook} (hv : cb.book.valid = true) (r : Reader) :
    TablesStand s (decodePtop cb r) := by
  refine tablesStand_withSymbol hv r fun z r' => ?_
  simp only
  split
  · trivial
  · split
    · trivial
    · split
      · trivial
      · exact tablesStand_withSymbol hv _ fun _ _ => trivial

theorem tablesStand_decodeOffset {s : State} (ht : TreesBuilt s) (at3 : Bool) (slot : BitVec 6) (lenHdr : BitVec 3)
    (footer : BitVec 8) (r : Reader) : TablesStand s (decodeOffset at3 s.blockType slot lenHdr footer r) := by
  simp only [decodeOffset]
  split
  · trivial
  · split
    · trivial
    · split
      · trivial
      · split
        · rename_i ha
          split
          · exact ⟨ht, ha⟩
          · split
            · exact ⟨ht, ha⟩
            · trivial
        · trivial

theorem tablesStand_decodeItem {s : State} (hk : TreeKind s) (ht : TreesBuilt s) (at3 : Bool) (r : Reader) :
    TablesStand s (decodeItem at3 s.blockType (codeBookOf .main s) r) := by
  refine tablesStand_withSymbol ht.1 r fun x r' => ?_
  simp only
  split
  · trivial
  · generalize BitVec.ofNat 6 ((x - 256) / 8) = slot
    generalize BitVec.ofNat 3 ((x - 256) % 8) = lenHdr
    split
    · exact ⟨hk, ht⟩
    · exact tablesStand_decodeOffset ht _ _ _ _ _

/-- In a block with bytes left that is not Uncompressed, the kind has trees and they are built. -/
theorem trees_of_blockReady {s : State} (h : BlockReady s) (hz : s.blockRemaining ≠ 0)
    (hu : s.blockType ≠ .uncompressed) : TreeKind s ∧ TreesBuilt s := by
  obtain ⟨hn, ht⟩ := h hz
  refine ⟨?_, ht hu⟩
  unfold TreeKind
  cases hb : s.blockType <;> simp_all

theorem tablesStand_of_reads {s : State} {d : Decoded} (h : PhaseOk s) (hd : ReadsElement s d) : TablesStand s d := by
  unfold PhaseOk at h
  rcases hd with ⟨hp, -, -, -, hd⟩ | ⟨hp, -, -, -, hd⟩ | ⟨hp, -, -, -, hd⟩ | ⟨hp, -, hz, hu, hd⟩ | ⟨hp, hd⟩ |
    ⟨hp, hd⟩ | ⟨hp, hd⟩ | ⟨hp, hd⟩ | ⟨hp, hd⟩ | ⟨hp, hd⟩ | ⟨hp, hd⟩ | ⟨hp, hd⟩ <;> rw [hp] at h
  · exact hd ▸ tablesStand_decodePreamble s _
  · exact hd ▸ trivial
  · exact hd ▸ trivial
  · obtain ⟨hk, ht⟩ := trees_of_blockReady h hz hu
    exact hd ▸ tablesStand_decodeItem hk ht _ _
  · exact hd ▸ trivial
  · exact hd ▸ trivial
  · obtain ⟨-, -, hv, -⟩ := h
    exact hd ▸ tablesStand_decodePtop hv _
  · obtain ⟨_, _, _, _, rfl, -⟩ := uncRepeats_of_eq hd
    trivial
  · exact hd ▸ trivial
  · obtain ⟨-, ⟨-, hv, -⟩, -⟩ := h
    exact hd ▸ tablesStand_withSymbol hv _ fun _ _ => trivial
  · obtain ⟨-, ht, -⟩ := h
    exact hd ▸ tablesStand_decodeOffset ht _ _ _ _ _
  · obtain ⟨-, ⟨-, -, hv⟩, -, ha, -⟩ := h
    exact hd ▸ tablesStand_withSymbol (hv ha) _ fun _ _ => trivial

/-- What a well-kept engine reads is an element with an encoding, or fields some match has, and its reader stays well
kept (30_encoding.md R110). -/
theorem good_of_reads {s : State} {d : Decoded} (h : Inv s) (hd : ReadsElement s d) : GoodDecoded s.rd d := by
  have hr := h.storage.reader
  have hph := h.phase
  unfold PhaseOk at hph
  rcases hd with ⟨-, -, -, -, hd⟩ | ⟨-, -, -, -, hd⟩ | ⟨-, -, -, -, hd⟩ | ⟨-, -, -, -, hd⟩ | ⟨-, hd⟩ |
    ⟨-, hd⟩ | ⟨-, hd⟩ | ⟨-, hd⟩ | ⟨-, hd⟩ | ⟨-, hd⟩ | ⟨hp, hd⟩ | ⟨-, hd⟩
  · exact hd ▸ good_decodePreamble hr
  · exact hd ▸ good_decodeHeader hr
  · exact hd ▸ good_decodeUncByte hr
  · exact hd ▸ good_decodeItem hr
  · exact hd ▸ good_decodeAlignedLengths hr
  · exact hd ▸ good_decodePretreeLengths hr
  · exact hd ▸ good_decodePtop hr
  · obtain ⟨_, _, _, _, e, hs⟩ := decodeUncRepeats_elem hr s.params.uncRewindBytes
    rw [hd.trans e]
    exact ⟨rfl, hs⟩
  · exact hd ▸ good_decodeUncPad hr
  · exact hd ▸ good_decodeFooter hr
  · rw [hp] at hph
    obtain ⟨-, -, hpend⟩ := hph
    exact hd ▸ good_decodeOffset hr hpend
  · exact hd ▸ good_decodeAlignedSym hr

/-! ### Executing keeps the invariant -/

/-- Every element keeps the invariant at its place of the grammar. -/
theorem inv_exec_element {i : Instr} {s t : State} (h : Inv s) (hi : ElementAt s.phase i) (hw : i.wellFormed = true)
    (hroom : s.phase = .fill → s.outPos < s.outLen) (he : exec i s = .next t) : Inv t := by
  generalize hp : s.phase = p at hi hroom
  cases hi with
  | e8PreambleOff => exact inv_execE8PreambleOff h hp he
  | e8PreambleOn hi lo => exact inv_execE8PreambleOn h hp hi lo he
  | blockHeader btype hi lo => exact inv_execBlockHeader h hp he
  | alignedLengths ls => exact inv_execAlignedLengths h hp (of_decide_eq_true hw) he
  | pretreeLengths ps => exact inv_execPretreeLengths h hp (of_decide_eq_true hw) he
  | ptDelta z => exact inv_pretreeOp h hp _ _ he
  | ptZrun4 c => exact inv_pretreeOp h hp _ _ he
  | ptZrun5 c => exact inv_pretreeOp h hp _ _ he
  | ptSame c z2 => exact inv_pretreeOp h hp _ _ he
  | literal b => exact inv_execLiteral h hp (hroom rfl) he
  | matchRep0 hm => exact inv_finishMatch_at h (hp ▸ hm) he
  | matchRep1 hm => exact inv_finishMatch_at h (hp ▸ hm) he
  | matchRep2 hm => exact inv_finishMatch_at h (hp ▸ hm) he
  | matchExplicitV hm => exact inv_finishMatch_at h (hp ▸ hm) he
  | matchExplicitA hm => exact inv_finishMatch_at h (hp ▸ hm) he
  | lenFooter f => exact inv_execLenFooter h hp (of_decide_eq_true hw) he
  | alignedSym a => exact inv_execAlignedSym h hp he
  | uncRepeats r0 r1 r2 => exact inv_execUncRepeats h hp r0 r1 r2 he
  | uncByte b => exact inv_execUncByte h hp (hroom rfl) he
  | uncPad x => exact inv_execUncPad (x := x) h hp he

/-- Every command keeps the invariant at an idle engine whose `CMD` has been taken. -/
theorem inv_exec_command {w : Word} {s t : State} (h : Inv s) (hp : s.phase = .idle) (hc : s.cmd = none)
    (he : exec (decodeCommand w) s = .next t) : Inv t := by
  rcases decodeCommand_cases w with ⟨-, e⟩ | ⟨-, e⟩ | ⟨-, e⟩ | ⟨-, e⟩ | ⟨-, e⟩ | ⟨op, -, e⟩
  case' inr.inr.inr.inr.inr =>
    rw [exec_reserved e] at he
    cases he
    exact inv_raiseFault h.storage h.registers (by decide) _
  all_goals rw [e] at he
  · exact inv_execInit h.storage.reader.inseg_wf he
  · exact inv_execDecodeBlock h hp hc he
  all_goals
    cases he
    exact inv_setResult h _

theorem inv_step {s t : State} (h : Inv s) (he : step s = .next t) : Inv t := by
  cases stepped_of_step he with
  | waited _ _ ht => exact ht ▸ h
  | command w hp _ he => exact inv_exec_command (inv_takeCommand h hp) hp rfl he
  | completed hf ht => exact ht ▸ inv_finishBlock h hf.1 hf.2
  | matched hp he => exact inv_finishMatch_at h (.inr (.inr hp)) he
  | element i r hd he =>
    obtain ⟨hw, hr⟩ := good_of_reads h hd
    exact inv_exec_element (s := { s with rd := r }) (inv_setReader h hr) (readsAt_of_reads hd).1 hw
      (room_of_reads (s := s) hd) he
  | latchedMatch slot lenHdr r hd ht =>
    obtain ⟨hf, hr⟩ := good_of_reads h hd
    obtain ⟨hk, hb⟩ := tablesStand_of_reads h.phase hd
    exact ht ▸ inv_latchMatch h (phase_ne_idle_of_reads hd) hk hb hf hr
  | latchedRaw slot lenHdr footer v r hd ht =>
    obtain ⟨hf, hr⟩ := good_of_reads h hd
    obtain ⟨hb, ha⟩ := tablesStand_of_reads h.phase hd
    exact ht ▸ inv_latchRaw h (phase_ne_idle_of_reads hd) hb ha hf hr
  | overran tree r hd ht =>
    have hr := inv_setReader h (good_of_reads h hd)
    exact ht ▸ inv_raiseFault hr.storage hr.registers (by decide) _

/-- Settles O51: each case of a step is one of the meanings that keep the invariant. -/
theorem stepKeepsTheEngineWellKept : Obligations.StepKeepsTheEngineWellKept := fun _ _ => inv_step

/-! ### A well-kept engine never stops -/

theorem step_next {s : State} (h : Inv s) (he : s.params.e8Trigger = .perBlock) : ∃ t, step s = .next t := by
  unfold step
  by_cases hp : s.phase = .idle
  · cases hc : s.cmd with
    | none => exact ⟨s, by simp only [fetch, hp, hc]⟩
    | some w =>
      rw [fetch_command hp hc]
      exact exec_next _ he
  · rcases fetch_cases hp with ⟨-, e⟩ | ⟨-, e⟩ | ⟨d, hd, e⟩ <;> rw [e]
    · exact ⟨_, rfl⟩
    · exact exec_next _ he
    · cases d with
      | elem i r => exact exec_next _ he
      | latchMatch slot lenHdr r => exact ⟨_, rfl⟩
      | latchRaw slot lenHdr footer v r => exact ⟨_, rfl⟩
      | overrun tree r => exact ⟨_, rfl⟩
      | unbuilt tree => exact (tablesStand_of_reads h.phase hd).elim

/-- Settles O53: every table a decoding reads is built, and no instruction stops. -/
theorem wellKeptEngineNeverStops : Obligations.WellKeptEngineNeverStops := fun _ => step_next

/-! ### The host's accesses -/

theorem busy_eq_false_iff (s : State) : busy s = false ↔ s.cmd = none ∧ s.phase = .idle := by
  simp [busy]

/-- A write of a register changes `CMD` and the `ARG_*` registers only (10_state.md R42). -/
theorem writeReg_frame {offset : Nat} {v : Word} {s t : State} (h : writeReg offset v s = some t) :
    t = { s with
      cmd := t.cmd
      argWBits := t.argWBits
      argSegLen := t.argSegLen
      argOutLen := t.argOutLen
      argBlockNo := t.argBlockNo
      argStart := t.argStart
      argEnd := t.argEnd } := by
  unfold writeReg at h
  split at h <;> cases h <;> rfl

/-- What a host write answers: the engine was at rest, and the register's own update is the next state. -/
theorem hostWrite_next {offset : Nat} {v : Word} {s t : State} (h : hostWrite offset v s = .next t) :
    busy s = false ∧ writeReg offset v s = some t := by
  unfold hostWrite at h
  split at h
  · cases h
  · rename_i hb
    split at h
    · rename_i hw
      cases h
      exact ⟨by simpa using hb, hw⟩
    · cases h

theorem hostWriteInseg_next {a : Nat} {b : Byte} {s t : State} (h : hostWriteInseg a b s = .next t) :
    t = { s with rd := { s.rd with inseg := Memory.write s.rd.inseg a b } } := by
  unfold hostWriteInseg at h
  split at h
  · cases h
  · split at h
    · cases h; rfl
    · cases h

/-- The registers the host writes are none the invariant speaks of between commands. -/
theorem inv_writeReg {offset : Nat} {v : Word} {s t : State} (h : Inv s) (hp : s.phase = .idle)
    (he : writeReg offset v s = some t) : Inv t := by
  obtain ⟨hs, hg, hph⟩ := h
  rw [writeReg_frame he]
  exact ⟨⟨hs.reader, hs.win_wf, hs.out_wf, hs.main_length, hs.length_length, hs.aligned_length, hs.pre_length,
    hs.pre_book, hs.main_book, hs.length_book, hs.aligned_book⟩,
    ⟨hg.window_legal, hg.winPos_lt, hg.winPos_clock, hg.remaining_le, hg.outPos_le, hg.outLen_lt, hg.out_valid,
      hg.fault_code, hg.counters, hg.carry_empty, fun hn => absurd hp hn⟩, hph⟩

theorem inv_writeInseg {s : State} (h : Inv s) (a : Nat) (b : Byte) :
    Inv { s with rd := { s.rd with inseg := Memory.write s.rd.inseg a b } } := by
  obtain ⟨hs, hg, hph⟩ := h
  have hr := hs.reader
  exact ⟨⟨⟨hr.total_le, hr.buffer_lt, hr.swath_le, hr.segLen_lt, Memory.wf_write hr.inseg_wf a b⟩, hs.win_wf,
    hs.out_wf, hs.main_length, hs.length_length, hs.aligned_length, hs.pre_length, hs.pre_book, hs.main_book,
    hs.length_book, hs.aligned_book⟩,
    ⟨hg.window_legal, hg.winPos_lt, hg.winPos_clock, hg.remaining_le, hg.outPos_le, hg.outLen_lt, hg.out_valid,
      hg.fault_code, hg.counters, hg.carry_empty, hg.running⟩, hph⟩

/-- Settles O52: a register write keeps every field the invariant reads at rest, and a byte of `INSEG` is written in
canonical form. -/
theorem hostKeepsTheEngineWellKept : Obligations.HostKeepsTheEngineWellKept := by
  rintro s t offset a v b h (he | he)
  · obtain ⟨hb, hw⟩ := hostWrite_next he
    exact inv_writeReg h ((busy_eq_false_iff s).1 hb).2 hw
  · rw [hostWriteInseg_next he]
    exact inv_writeInseg h a b

end Sys2Proof.Machine
end

section
/-! Who writes what over a step, and the register map the host reads and writes (10_state.md R42, R43). -/

namespace Sys2Proof.Machine

open Sys2Proof.Safety

/-! ### What only INIT writes -/

/-- What every step but INIT leaves: the parameters, `INSEG`, the `ARG_*` registers, `windowBits` and `live`, and
`started` and `intelStarted` once set (10_state.md R21, R27, R29, R43). -/
structure ContextKept (s t : State) : Prop where
  params : t.params = s.params
  inseg : t.rd.inseg = s.rd.inseg
  argWBits : t.argWBits = s.argWBits
  argSegLen : t.argSegLen = s.argSegLen
  argOutLen : t.argOutLen = s.argOutLen
  argBlockNo : t.argBlockNo = s.argBlockNo
  argStart : t.argStart = s.argStart
  argEnd : t.argEnd = s.argEnd
  windowBits : t.windowBits = s.windowBits
  live : t.live = s.live
  started : s.started = true → t.started = true
  intelStarted : s.intelStarted = true → t.intelStarted = true

theorem contextKept_of_frame {s t : State} {r : Reader} (h : Frame { s with rd := r } t) (hr : r.inseg = s.rd.inseg) :
    ContextKept s t :=
  ⟨h.params, (congrArg Reader.inseg h.rd).trans hr, h.argWBits, h.argSegLen, h.argOutLen, h.argBlockNo, h.argStart,
    h.argEnd, h.windowBits, h.live, h.started, h.intelStarted⟩

theorem contextKept_finishBlock (s : State) : ContextKept s (finishBlock s) := by
  constructor <;> simp [finishBlock]

theorem contextKept_execDecodeBlock {s t : State} (h : execDecodeBlock s = .next t) :
    ContextKept s t ∧ t.result = s.result := by
  unfold execDecodeBlock at h
  split at h
  · cases h
    exact ⟨by constructor <;> simp, rfl⟩
  · split at h
    · cases h
      exact ⟨⟨rfl, rfl, rfl, rfl, rfl, rfl, rfl, rfl, rfl, rfl, id, id⟩, rfl⟩
    · cases h

/-- Every command but INIT keeps the context, and the result where it is no GET_CONTENT. -/
theorem contextKept_exec_command {w : Word} {s t : State} (h1 : w.toNat % 16 ≠ 1)
    (he : exec (decodeCommand w) s = .next t) :
    ContextKept s t ∧ (w.toNat % 16 ∉ [3, 4, 5] → t.result = s.result) := by
  rcases decodeCommand_cases w with ⟨hw, -⟩ | ⟨-, e⟩ | ⟨hw, e⟩ | ⟨hw, e⟩ | ⟨hw, e⟩ | ⟨op, -, e⟩
  · exact absurd hw h1
  · rw [e] at he
    obtain ⟨hk, hres⟩ := contextKept_execDecodeBlock he
    exact ⟨hk, fun _ => hres⟩
  iterate 3
    rw [e] at he
    cases he
    exact ⟨⟨rfl, rfl, rfl, rfl, rfl, rfl, rfl, rfl, rfl, rfl, id, id⟩, fun hn => absurd hn (by simp [hw])⟩
  · rw [exec_reserved e] at he
    cases he
    exact ⟨by constructor <;> simp, fun _ => rfl⟩

/-- A step that takes no INIT keeps the context, and the result where it takes no GET_CONTENT. -/
theorem contextKept_step {s t : State} (he : step s = .next t) (hi : ¬ TakesInit s) :
    ContextKept s t ∧ ((∀ op ∈ [3, 4, 5], ¬ TakesOp op s) → t.result = s.result) := by
  cases stepped_of_step he with
  | waited _ _ ht =>
    subst ht
    exact ⟨contextKept_of_frame (Frame.refl _) rfl, fun _ => rfl⟩
  | command w hp hc he =>
    obtain ⟨hk, hres⟩ := contextKept_exec_command (fun hw => hi ⟨hp, w, hc, hw⟩) he
    exact ⟨⟨hk.params, hk.inseg, hk.argWBits, hk.argSegLen, hk.argOutLen, hk.argBlockNo, hk.argStart, hk.argEnd,
      hk.windowBits, hk.live, hk.started, hk.intelStarted⟩, fun hn => hres fun hw => hn _ hw ⟨hp, w, hc, rfl⟩⟩
  | completed hf ht =>
    subst ht
    exact ⟨contextKept_finishBlock s, fun _ => by simp [finishBlock]⟩
  | matched hp he =>
    have hf := frame_exec rfl he
    exact ⟨contextKept_of_frame (r := s.rd) hf rfl, fun _ => hf.result⟩
  | element i r hd he =>
    obtain ⟨hi, hr⟩ := readsAt_of_reads hd
    have hf := frame_exec hi.not_command he
    exact ⟨contextKept_of_frame hf hr, fun _ => hf.result⟩
  | latchedMatch slot lenHdr r hd ht =>
    subst ht
    exact ⟨contextKept_of_frame (Frame.of_update rfl id id) (readsAt_of_reads hd), fun _ => rfl⟩
  | latchedRaw slot lenHdr footer v r hd ht =>
    subst ht
    exact ⟨contextKept_of_frame (Frame.of_update rfl id id) (readsAt_of_reads hd), fun _ => rfl⟩
  | overran tree r hd ht =>
    subst ht
    exact ⟨contextKept_of_frame (Frame.raise (by decide) (Frame.refl _) ⟨rfl, rfl, rfl, rfl⟩) (readsAt_of_reads hd),
      fun _ => rfl⟩

theorem step_takesInit {s : State} (h : TakesInit s) : step s = execInit { s with cmd := none } := by
  obtain ⟨hp, w, hc, hw⟩ := h
  have e : decodeCommand w = .init := by simp only [decodeCommand, hw]
  unfold step
  rw [fetch_command hp hc, e]
  rfl

/-- INIT leaves the parameters and the bytes of `INSEG`, and the `ARG_*` registers where its window is legal
(46_host_commands.md R281). -/
theorem execInit_keeps {s t : State} (h : execInit s = .next t) :
    t.params = s.params ∧ t.rd.inseg = s.rd.inseg ∧
      (15 ≤ s.argWBits.toNat ∧ s.argWBits.toNat ≤ 21 →
        t.argWBits = s.argWBits ∧ t.argSegLen = s.argSegLen ∧ t.argOutLen = s.argOutLen ∧
          t.argBlockNo = s.argBlockNo ∧ t.argStart = s.argStart ∧ t.argEnd = s.argEnd) := by
  unfold execInit at h
  split at h
  · cases h
    exact ⟨rfl, rfl, fun _ => ⟨rfl, rfl, rfl, rfl, rfl, rfl⟩⟩
  · rename_i hw
    cases h
    exact ⟨rfl, rfl, fun hl => absurd (by simpa [legalWindow] using hl) hw⟩

/-- Settles O58: every step but INIT keeps the context, and INIT keeps what it does not replace. -/
theorem onlyInitReplacesTheContext : Obligations.OnlyInitReplacesTheContext := by
  intro s t he
  by_cases hi : TakesInit s
  · rw [step_takesInit hi] at he
    obtain ⟨hp, hin, hargs⟩ := execInit_keeps he
    exact ⟨hp, hin, fun hl => hargs (hl.resolve_left fun hn => hn hi), fun hn => absurd hi hn,
      fun hn => absurd hi (hn 1 (by simp))⟩
  · obtain ⟨hk, hres⟩ := contextKept_step he hi
    exact ⟨hk.params, hk.inseg,
      fun _ => ⟨hk.argWBits, hk.argSegLen, hk.argOutLen, hk.argBlockNo, hk.argStart, hk.argEnd⟩,
      fun _ => ⟨hk.windowBits, hk.live, hk.started, hk.intelStarted⟩,
      fun hn => hres fun op hop => hn op (List.mem_cons_of_mem _ hop)⟩

/-! ### The register map at rest -/

theorem hostRead_of_rest {s : State} (h : busy s = false) {offset : Nat} {v : Word} (hv : readReg s offset = some v) :
    hostRead offset s = .next v := by
  simp [hostRead, h, hv]

theorem hostWrite_of_rest {s t : State} (h : busy s = false) {offset : Nat} {v : Word}
    (hv : writeReg offset v s = some t) : hostWrite offset v s = .next t := by
  simp [hostWrite, h, hv]

theorem hostWriteInseg_of_rest {s : State} (h : busy s = false) {a : Nat} (ha : a < 2 ^ 31 - 1) (b : Byte) :
    hostWriteInseg a b s = .next { s with rd := { s.rd with inseg := Memory.write s.rd.inseg a b } } := by
  rw [hostWriteInseg, if_neg (by simp [h]), if_pos ha]

/-- `ARG_WBITS` keeps the low five bits of what is written. -/
theorem setWidth_setWidth_5 (v : Word) : (v.setWidth 5).setWidth 32 = v &&& 0x1F := by
  apply BitVec.eq_of_toNat_eq
  have hmask : (v &&& 0x1F).toNat = v.toNat % 2 ^ 5 := Nat.and_two_pow_sub_one_eq_mod v.toNat 5
  rw [hmask, BitVec.toNat_setWidth, BitVec.toNat_setWidth]
  omega

/-- A write of an argument leaves every other argument as the host reads it. -/
theorem readReg_writeReg_other {s t : State} {v : Word} {offset : Nat}
    (ho : offset ∈ [0x0C, 0x10, 0x14, 0x18, 0x1C, 0x20]) (h : writeReg offset v s = some t) :
    ∀ other ∈ [0x0C, 0x10, 0x14, 0x18, 0x1C, 0x20], other ≠ offset → readReg t other = readReg s other := by
  fin_cases ho <;> cases h <;> simp [readReg]

/-- Settles O47: each write is its own register's update, which the map reads back. -/
theorem hostWritesOnlyItsRegisters : Obligations.HostWritesOnlyItsRegisters := by
  intro s v hb
  refine ⟨hostWrite_of_rest hb rfl, ?_, ?_, ⟨_, hostWrite_of_rest hb rfl, ?_⟩, ?_, ?_, by simp [hostReadResult, hb]⟩
  · intro offset ho
    exact hostWrite_of_rest hb (by fin_cases ho <;> rfl)
  · intro offset ho
    fin_cases ho <;> exact ⟨_, hostWrite_of_rest hb rfl, rfl⟩
  · exact congrArg some (setWidth_setWidth_5 v)
  · intro offset ho t ht
    obtain ⟨-, hw⟩ := hostWrite_next ht
    refine ⟨?_, readReg_writeReg_other ho hw⟩
    fin_cases ho <;> cases hw <;> rfl
  · intro a b ha hwf
    exact ⟨_, hostWriteInseg_of_rest hb ha b, rfl, Memory.read_write hwf a b⟩

/-! ### STATUS and the views of the counters -/

theorem saturate_toNat (n : Nat) : (saturate n).toNat = min n (2 ^ 32 - 1) := by
  rw [saturate, BitVec.toNat_ofNat]
  omega

theorem blockType_code_lt (b : BlockType) : b.code < 4 := by cases b <;> decide

theorem faultCode_code_lt (f : FaultCode) : f.code < 16 := by cases f <;> decide

/-- STATUS as the sum of its fields, which do not carry into one another. -/
theorem statusWord_toNat (s : State) :
    (statusWord s).toNat =
      s.live.toNat + 2 * s.faulted.toNat + 4 * s.outValid.toNat + 8 * s.started.toNat + 16 * s.intelStarted.toNat +
        32 * s.blockType.code + 256 * s.faultCode.code ∧
      (statusWord s).toNat < 2 ^ 12 := by
  have hb := blockType_code_lt s.blockType
  have hf := faultCode_code_lt s.faultCode
  have h0 := s.live.toNat_lt
  have h1 := s.faulted.toNat_lt
  have h2 := s.outValid.toNat_lt
  have h3 := s.started.toNat_lt
  have h4 := s.intelStarted.toNat_lt
  rw [statusWord, BitVec.toNat_ofNat]
  omega

theorem getLsbD_of_div {w i : Nat} {x : BitVec w} {b : Bool} (h : x.toNat / 2 ^ i % 2 = b.toNat) : x.getLsbD i = b := by
  rw [BitVec.getLsbD, Nat.testBit_eq_decide_div_mod_eq, h]
  cases b <;> rfl

/-- The fields of STATUS (10_state.md R42). -/
theorem statusWord_fields (s : State) :
    (statusWord s).getLsbD 0 = s.live ∧ (statusWord s).getLsbD 1 = s.faulted ∧
      (statusWord s).getLsbD 2 = s.outValid ∧ (statusWord s).getLsbD 3 = s.started ∧
      (statusWord s).getLsbD 4 = s.intelStarted ∧ (statusWord s).getLsbD 7 = false ∧
      ((statusWord s).extractLsb' 5 2).toNat = s.blockType.code ∧
      ((statusWord s).extractLsb' 8 4).toNat = s.faultCode.code ∧ (statusWord s).toNat < 2 ^ 12 := by
  obtain ⟨e, hlt⟩ := statusWord_toNat s
  have hb := blockType_code_lt s.blockType
  have hf := faultCode_code_lt s.faultCode
  have h0 := s.live.toNat_lt
  have h1 := s.faulted.toNat_lt
  have h2 := s.outValid.toNat_lt
  have h3 := s.started.toNat_lt
  have h4 := s.intelStarted.toNat_lt
  refine ⟨getLsbD_of_div ?_, getLsbD_of_div ?_, getLsbD_of_div ?_, getLsbD_of_div ?_, getLsbD_of_div ?_,
    getLsbD_of_div ?_, ?_, ?_, hlt⟩
  case refine_6 => simp only [Bool.toNat_false]; omega
  case refine_7 => rw [BitVec.extractLsb'_toNat, Nat.shiftRight_eq_div_pow]; omega
  case refine_8 => rw [BitVec.extractLsb'_toNat, Nat.shiftRight_eq_div_pow]; omega
  all_goals omega

/-- Settles O48: each register is its own entry of the map, and STATUS is the sum of its fields. -/
theorem statusShowsItsFields : Obligations.StatusShowsItsFields := by
  refine fun s => ⟨fun hb => ?_, statusWord_fields s⟩
  have rest : ∀ {offset v}, readReg s offset = some v → hostRead offset s = .next v := hostRead_of_rest hb
  have wide : ∀ {n} {x : BitVec n}, n ≤ 32 → (x.setWidth 32).toNat = x.toNat := BitVec.toNat_setWidth_of_le
  refine ⟨rest rfl, rest rfl, rest rfl, ⟨_, rest rfl, wide (by decide)⟩, rest rfl, rest rfl, rest rfl, rest rfl,
    rest rfl, rest rfl, rest rfl, rest rfl, rest rfl, ⟨_, rest rfl, wide (by decide)⟩,
    ⟨_, rest rfl, wide (by decide)⟩, ⟨_, rest rfl, wide (by decide)⟩, ⟨_, rest rfl, saturate_toNat _⟩,
    ⟨_, rest rfl, saturate_toNat _⟩, ⟨_, rest rfl, saturate_toNat _⟩, ⟨_, rest rfl, ?_⟩⟩
  split
  · exact wide (by decide)
  · rfl

end Sys2Proof.Machine
end

section
/-! The stream bits of a fresh segment as bits of its little-endian words (20_memory.md R61, R62, R63). -/

namespace Sys2Proof.Machine

open Sys2Proof.Safety

/-- A bit of the 16-bit word whose low byte is `lo` and whose high byte is `hi` (20_memory.md R62). -/
theorem testBit_littleEndianWord (lo hi : Byte) (i : Nat) :
    (lo.toNat + 256 * hi.toNat).testBit i = if i < 8 then lo.getLsbD i else hi.getLsbD (i - 8) := by
  rw [Nat.add_comm, show 256 = 2 ^ 8 from rfl, Nat.testBit_two_pow_mul_add _ lo.isLt]
  rfl

/-- A byte of a fresh segment is a byte of `INSEG`, 0 past the end (20_memory.md R61; 40_bitreader.md R138). -/
theorem toNat_inputByte_startSegment (len : Nat) (r : Reader) (k : Nat) :
    (inputByte (startSegment len r) k).toNat = if k < len then (Memory.read r.inseg k).toNat else 0 := by
  simp only [inputByte, startSegment, Nat.zero_add, apply_ite BitVec.toNat]
  rfl

/-- With no bits in the accumulator, the stream is that of the words at the cursor (20_memory.md R63). -/
theorem bitAhead_of_total_zero {r : Reader} (h : r.total = 0) (k : Nat) :
    bitAhead r k =
      ((inputByte r (2 * (k / 16))).toNat + 256 * (inputByte r (2 * (k / 16) + 1)).toNat).testBit (15 - k % 16) := by
  rw [testBit_littleEndianWord]
  simp only [bitAhead, h, Nat.not_lt_zero, if_false, Nat.sub_zero]
  by_cases hhigh : k % 16 < 8
  · rw [if_pos hhigh, if_neg (by omega), show 15 - k % 16 - 8 = 7 - k % 16 by omega]
  · rw [if_neg hhigh, if_pos (by omega)]

/-- Settles O15: a fresh segment has an empty accumulator and its cursor at byte 0. -/
theorem freshSegmentBitOrder : Obligations.FreshSegmentBitOrder := by
  intro r len k
  rw [bitAhead_of_total_zero rfl, toNat_inputByte_startSegment, toNat_inputByte_startSegment]

end Sys2Proof.Machine
end

section
/-! Reading back what is laid ahead of a reader: a field, a list of equal fields, a Huffman code (40_bitreader.md R133,
R134; 41_huffman.md R156, R157; 30_encoding.md R106, R108). -/

namespace Sys2Proof.Machine

open Sys2Proof.Safety

/-! ### Reads of up to 32 bits -/

theorem Consumed.zero (r : Reader) : Consumed 0 r r := fun k => by rw [Nat.zero_add]

/-- The value of a run of bits is that of its first part above that of its second (00_scope.md R10). -/
theorem bitsValue_append (as bs : List Bool) : bitsValue (as ++ bs) = bitsValue as * 2 ^ bs.length + bitsValue bs := by
  induction as with
  | nil => simp [bitsValue]
  | cons a as ih =>
    rw [List.cons_append, bitsValue, ih, bitsValue, List.length_append, Nat.pow_add, Nat.add_mul, Nat.mul_assoc,
      Nat.add_assoc]

theorem getSyncBits16_spec {r : Reader} (h : ReaderOk r) {n : Nat} (hn : n ≤ 16) :
    (getSyncBits16 n r).1 = bitsValue (bitsAhead r n) ∧ Consumed n r (getSyncBits16 n r).2 ∧
      ReaderOk (getSyncBits16 n r).2 := by
  unfold getSyncBits16
  split
  · subst n
    exact ⟨rfl, Consumed.zero r, h⟩
  · exact ⟨getDesyncBits_value h n hn, consumed_getDesyncBits h n hn, readerOk_getDesyncBits h n n⟩

/-- `GetSyncBits(n)` gives the next `n` bits and consumes them: a width above 16 is its high part, then 16 bits
(40_bitreader.md R133, R134). -/
theorem getSyncBits_spec {r : Reader} (h : ReaderOk r) {n : Nat} (hn : n ≤ 32) :
    (getSyncBits n r).1 = bitsValue (bitsAhead r n) ∧ Consumed n r (getSyncBits n r).2 := by
  rcases Nat.lt_or_ge 16 n with h16 | h16
  · obtain ⟨m, rfl⟩ : ∃ m, n = m + 16 := ⟨n - 16, by omega⟩
    obtain ⟨hv, hc, hr⟩ := getSyncBits16_spec h (n := m) (by omega)
    obtain ⟨hv', hc', -⟩ := getSyncBits16_spec hr (Nat.le_refl 16)
    rw [getSyncBits, if_neg (by omega), Nat.add_sub_cancel]
    refine ⟨?_, Consumed.trans hc hc'⟩
    rw [bitsAhead_append hc, bitsValue_append, bitsAhead_length, ← hv, ← hv']
  · obtain ⟨hv, hc, -⟩ := getSyncBits16_spec h h16
    rw [getSyncBits, if_pos h16]
    exact ⟨hv, hc⟩

/-! ### Bits laid ahead of a reader -/

/-- A well-kept reader whose stream begins with the bits `bs`. -/
structure Ahead (r : Reader) (bs : List Bool) : Prop where
  ok : ReaderOk r
  bits : bitsAhead r bs.length = bs

theorem Ahead.append_nil {r : Reader} {bs : List Bool} (h : Ahead r bs) : Ahead r (bs ++ []) := by
  rwa [List.append_nil]

theorem Ahead.left {r : Reader} {as bs : List Bool} (h : Ahead r (as ++ bs)) : Ahead r as := by
  refine ⟨h.ok, ?_⟩
  have hb := congrArg (List.take as.length) h.bits
  rwa [List.take_left, bitsAhead, ← List.map_take, List.take_range, List.length_append,
    Nat.min_eq_left (Nat.le_add_right _ _)] at hb

/-- What is ahead once the first part has been consumed. -/
theorem Ahead.after {r r' : Reader} {as bs : List Bool} (h : Ahead r (as ++ bs)) (hc : Consumed as.length r r')
    (hr : ReaderOk r') : Ahead r' bs := by
  have hb := h.bits
  rw [List.length_append, bitsAhead_append hc, h.left.bits] at hb
  exact ⟨hr, List.append_cancel_left hb⟩

/-- A field is read back at its own width (40_bitreader.md R133). -/
theorem getSyncBits_field {r : Reader} {n v : Nat} {bs : List Bool} (h : Ahead r (fieldBits n v ++ bs)) (hn : n ≤ 32)
    (hv : v < 2 ^ n) : ∃ r', getSyncBits n r = (v, r') ∧ Consumed n r r' ∧ Ahead r' bs := by
  obtain ⟨hval, hc⟩ := getSyncBits_spec h.ok hn
  have hb := h.left.bits
  rw [length_fieldBits] at hb
  rw [hb, bitsValue_fieldBits hv] at hval
  exact ⟨_, Prod.ext hval rfl, hc, h.after (by rwa [length_fieldBits]) (readerOk_getSyncBits h.ok n)⟩

/-- A list of equal fields is read back in stream order. -/
theorem getFields_fields {w : Nat} (hw : w ≤ 32) (ls : List (BitVec w)) {r : Reader} {bs : List Bool}
    (h : Ahead r (ls.flatMap (fun l => fieldBits w l.toNat) ++ bs)) :
    ∃ r', getFields w ls.length r = (ls.map BitVec.toNat, r') ∧
      Consumed (ls.flatMap fun l => fieldBits w l.toNat).length r r' ∧ Ahead r' bs := by
  induction ls generalizing r with
  | nil => exact ⟨r, rfl, Consumed.zero r, h⟩
  | cons l ls ih =>
    rw [List.flatMap_cons, List.append_assoc] at h
    obtain ⟨r1, e1, hc1, h1⟩ := getSyncBits_field h hw l.isLt
    obtain ⟨r2, e2, hc2, h2⟩ := ih h1
    refine ⟨r2, by simp only [List.length_cons, getFields, e1, e2, List.map_cons], ?_, h2⟩
    rw [List.flatMap_cons, List.length_append, length_fieldBits]
    exact Consumed.trans hc1 hc2

/-! ### Huffman codes -/

/-- A code that fits ends inside the code space (41_huffman.md R156). -/
theorem codeStart_add_le {lens : List Nat} (hf : CodeFits lens) {sym : Nat} (h1 : lens.getD sym 0 ≠ 0)
    (h16 : lens.getD sym 0 ≤ 16) : codeStart lens sym + 2 ^ (16 - lens.getD sym 0) ≤ 2 ^ 16 := by
  have hlt : sym < lens.length := getD_pos_lt (Nat.pos_of_ne_zero h1)
  have hl : lens[sym]? = some (lens.getD sym 0) := by
    rw [List.getD_eq_getElem?_getD, List.getElem?_eq_getElem hlt, Option.getD_some]
  generalize lens.getD sym 0 = len at *
  calc codeStart lens sym + 2 ^ (16 - len)
      = spaceBefore lens len (sym + 1) := by rw [codeStart_eq hl, spaceBefore_succ hl]
    _ ≤ spaceBefore lens len lens.length := spaceBefore_mono hlt
    _ = codeSpaceBelow lens len := by
      rw [spaceBefore_last lens (by omega), spaceBefore, codeSpaceAt_zero, Nat.add_sub_cancel, Nat.add_zero]
    _ ≤ codeSpaceBelow lens 16 := codeSpaceBelow_mono h16
    _ ≤ 2 ^ 16 := hf

/-- A stream that begins with a code has its next 16 bits in the code space of the symbol (30_encoding.md R106). -/
theorem codeSpace_of_bitsAhead {lens : List Nat} (hf : CodeFits lens) {sym : Nat} {r : Reader}
    (h1 : lens.getD sym 0 ≠ 0) (h16 : lens.getD sym 0 ≤ 16)
    (hb : bitsAhead r (lens.getD sym 0) = symbolBits lens sym) :
    codeStart lens sym ≤ bitsValue (bitsAhead r 16) ∧
      bitsValue (bitsAhead r 16) < codeStart lens sym + 2 ^ (16 - lens.getD sym 0) := by
  have hend := codeStart_add_le hf h1 h16
  obtain ⟨c, hc⟩ : 2 ^ (16 - lens.getD sym 0) ∣ codeStart lens sym := spaceBefore_dvd lens _ sym
  have hcode : canonicalCode lens sym = c := by
    show codeStart lens sym / _ = c
    rw [hc, Nat.mul_div_cancel_left _ (Nat.two_pow_pos _)]
  have hpow : 2 ^ 16 = 2 ^ (16 - lens.getD sym 0) * 2 ^ lens.getD sym 0 := by
    rw [← Nat.pow_add, Nat.sub_add_cancel h16]
  have hlt : c < 2 ^ lens.getD sym 0 := by
    rw [hc, hpow, ← Nat.mul_succ] at hend
    exact Nat.le_of_mul_le_mul_left hend (Nat.two_pow_pos _)
  have hval := bitsAhead_top r h16
  rw [hb, symbolBits, hcode, bitsValue_fieldBits hlt] at hval
  obtain ⟨hlo, hhi⟩ := (Nat.div_eq_iff (Nat.two_pow_pos _)).1 hval.symm
  have := Nat.two_pow_pos (16 - lens.getD sym 0)
  rw [hc, Nat.mul_comm]
  omega

/-- A symbol decodes from its canonical code, whose bits alone are consumed, whatever follows (41_huffman.md R156,
R157). -/
theorem decodeSymbol_of_code {t : Tree} {lens : List Nat} {sym : Nat} {r : Reader} (hl : LengthsOk t lens)
    (hf : CodeFits lens) (hok : (buildTable t lens).ok = true) (h1 : lens.getD sym 0 ≠ 0) (hr : ReaderOk r)
    (hb : bitsAhead r (lens.getD sym 0) = symbolBits lens sym) :
    ∃ r', decodeSymbol t lens (buildTable t lens).table r = .ok sym r' ∧ Consumed (lens.getD sym 0) r r' ∧
      ReaderOk r' := by
  have hlt : sym < lens.length := getD_pos_lt (Nat.pos_of_ne_zero h1)
  have h16 : lens.getD sym 0 ≤ 16 := by
    rw [List.getD_eq_getElem?_getD, List.getElem?_eq_getElem hlt]
    exact hl.le _ (List.getElem_mem hlt)
  obtain ⟨hlo, hhi⟩ := codeSpace_of_bitsAhead hf h1 h16 hb
  have hdirect : lens.getD sym 0 ≤ t.tableBits ∨ codeSpaceBelow lens t.tableBits < 2 ^ 16 := by
    refine or_iff_not_imp_left.2 fun hlong => ?_
    have hend := codeStart_add_le hf h1 h16
    have hmono := codeSpaceBelow_mono (lens := lens) (a := t.tableBits) (b := lens.getD sym 0 - 1) (by omega)
    have := Nat.two_pow_pos (16 - lens.getD sym 0)
    unfold codeStart at hend
    omega
  obtain ⟨d, hd, hw⟩ := buildTable_codes hl hok (Nat.pos_of_ne_zero h1) hdirect _ hlo hhi
  refine ⟨_, decodeSymbol_of_walkEnds hr hw (by omega) (hl.size ▸ hlt), ?_,
    readerOk_getSyncBits (readerOk_getDesyncBits hr _ _) _⟩
  have hpeek := consumed_getDesyncBits hr t.tableBits (Nat.zero_le 16)
  have hread := (getSyncBits_spec (readerOk_getDesyncBits hr t.tableBits 0) (Nat.le_trans h16 (by decide))).2
  simpa only [Nat.zero_add] using Consumed.trans hpeek hread

/-- A coded symbol ahead is read, and the decoding goes on with it (41_huffman.md R157). -/
theorem withSymbol_code {t : Tree} {cb : CodeBook} (hcb : CodeReady t cb) {sym : Nat} (h1 : cb.lens.getD sym 0 ≠ 0)
    {r : Reader} {bs : List Bool} (h : Ahead r (symbolBits cb.lens sym ++ bs)) :
    ∃ r', (∀ k, withSymbol t cb r k = k sym r') ∧ Consumed (cb.lens.getD sym 0) r r' ∧ Ahead r' bs := by
  have hb := h.left.bits
  rw [length_symbolBits] at hb
  obtain ⟨r', e, hc, hr⟩ := decodeSymbol_of_code hcb.lengths hcb.fits hcb.built h1 h.ok hb
  refine ⟨r', fun k => ?_, hc, h.after (by rwa [length_symbolBits]) hr⟩
  simp only [withSymbol, hcb.book, e, if_true]

end Sys2Proof.Machine
end

section
/-! Decode of encode on what one decoding reads: the elements of fixed fields, the pretree operations, the raw elements
and the commands; and that all that is fetched has an encoding (30_encoding.md R92 to R97, R102, R105 to R110). -/

namespace Sys2Proof.Machine

open Sys2Proof.Safety

/-! ### The elements of fixed fields -/

/-- A list of fields is its list of values, each at its own width. -/
theorem map_ofNat_toNat {w : Nat} (ls : List (BitVec w)) : (ls.map BitVec.toNat).map (BitVec.ofNat w) = ls := by
  simp [Function.comp_def]

theorem decodePreamble_off {r : Reader} (h : Ahead r [false]) :
    ∃ r', decodePreamble r = .elem .e8PreambleOff r' ∧ Consumed 1 r r' ∧ ReaderOk r' := by
  obtain ⟨r', e, hc, hr⟩ := getSyncBits_field (n := 1) (v := 0) (bs := []) h (by decide) (by decide)
  refine ⟨r', ?_, hc, hr.ok⟩
  simp only [decodePreamble, e, Nat.zero_ne_one, if_false]

theorem decodePreamble_on {r : Reader} (hi lo : BitVec 16)
    (h : Ahead r (true :: (fieldBits 16 hi.toNat ++ fieldBits 16 lo.toNat))) :
    ∃ r', decodePreamble r = .elem (.e8PreambleOn hi lo) r' ∧ Consumed 33 r r' ∧ ReaderOk r' := by
  obtain ⟨r1, e1, hc1, h1⟩ := getSyncBits_field (n := 1) (v := 1) h (by decide) (by decide)
  obtain ⟨r2, e2, hc2, h2⟩ := getSyncBits_field h1 (by decide) hi.isLt
  obtain ⟨r3, e3, hc3, h3⟩ := getSyncBits_field h2.append_nil (by decide) lo.isLt
  refine ⟨r3, ?_, Consumed.trans (Consumed.trans hc1 hc2) hc3, h3.ok⟩
  simp only [decodePreamble, e1, e2, e3, if_true, BitVec.ofNat_toNat, BitVec.setWidth_eq]

theorem decodeHeader_fields {r : Reader} (btype : BitVec 3) (hi : BitVec 16) (lo : BitVec 8)
    (h : Ahead r (fieldBits 3 btype.toNat ++ (fieldBits 16 hi.toNat ++ fieldBits 8 lo.toNat))) :
    ∃ r', decodeHeader r = .elem (.blockHeader btype hi lo) r' ∧ Consumed 27 r r' ∧ ReaderOk r' := by
  obtain ⟨r1, e1, hc1, h1⟩ := getSyncBits_field h (by decide) btype.isLt
  obtain ⟨r2, e2, hc2, h2⟩ := getSyncBits_field h1 (by decide) hi.isLt
  obtain ⟨r3, e3, hc3, h3⟩ := getSyncBits_field h2.append_nil (by decide) lo.isLt
  refine ⟨r3, ?_, Consumed.trans (Consumed.trans hc1 hc2) hc3, h3.ok⟩
  simp only [decodeHeader, e1, e2, e3, BitVec.ofNat_toNat, BitVec.setWidth_eq]

theorem decodeAlignedLengths_fields {r : Reader} {ls : List (BitVec 3)} (hl : ls.length = 8)
    (h : Ahead r (ls.flatMap fun l => fieldBits 3 l.toNat)) :
    ∃ r', decodeAlignedLengths r = .elem (.alignedLengths ls) r' ∧
      Consumed (ls.flatMap fun l => fieldBits 3 l.toNat).length r r' ∧ ReaderOk r' := by
  obtain ⟨r', e, hc, hr⟩ := getFields_fields (by decide) ls h.append_nil
  rw [hl] at e
  refine ⟨r', ?_, hc, hr.ok⟩
  simp only [decodeAlignedLengths, e, map_ofNat_toNat]

theorem decodePretreeLengths_fields {r : Reader} {ps : List (BitVec 4)} (hl : ps.length = 20)
    (h : Ahead r (ps.flatMap fun p => fieldBits 4 p.toNat)) :
    ∃ r', decodePretreeLengths r = .elem (.pretreeLengths ps) r' ∧
      Consumed (ps.flatMap fun p => fieldBits 4 p.toNat).length r r' ∧ ReaderOk r' := by
  obtain ⟨r', e, hc, hr⟩ := getFields_fields (by decide) ps h.append_nil
  rw [hl] at e
  refine ⟨r', ?_, hc, hr.ok⟩
  simp only [decodePretreeLengths, e, map_ofNat_toNat]

/-- Settles O5: each field of the element is read back at its own width, one after the other. -/
theorem fixedFieldElementsRoundTrip : Obligations.FixedFieldElementsRoundTrip := by
  intro at3 lens i r bs hr hw he hb
  have h : Ahead r bs := ⟨hr, hb⟩
  refine ⟨?_, ?_, ?_, ?_⟩
  · rintro hi lo (rfl | rfl) <;> cases he
    · exact decodePreamble_off h
    · exact decodePreamble_on hi lo h
  · rintro btype hi lo rfl
    cases he
    exact decodeHeader_fields btype hi lo h
  · rintro ls rfl
    cases he
    exact decodeAlignedLengths_fields (of_decide_eq_true hw) h
  · rintro ps rfl
    cases he
    exact decodePretreeLengths_fields (of_decide_eq_true hw) h

/-! ### The pretree operations -/

section PretreeOps

variable {cb : CodeBook} (hcb : CodeReady .pre cb) {r : Reader}
include hcb

theorem decodePtop_delta {z : BitVec 5} (hz : z.toNat ≤ 16) (h1 : cb.lens.getD z.toNat 0 ≠ 0)
    (h : Ahead r (symbolBits cb.lens z.toNat)) :
    ∃ r', decodePtop cb r = .elem (.ptDelta z) r' ∧ Consumed (cb.lens.getD z.toNat 0) r r' ∧ ReaderOk r' := by
  obtain ⟨r', e, hc, hr⟩ := withSymbol_code hcb h1 h.append_nil
  refine ⟨r', ?_, hc, hr.ok⟩
  rw [decodePtop, e, if_pos (by omega), BitVec.ofNat_toNat, BitVec.setWidth_eq]

theorem decodePtop_zrun4 {c : BitVec 4} (h1 : cb.lens.getD 17 0 ≠ 0)
    (h : Ahead r (symbolBits cb.lens 17 ++ fieldBits 4 c.toNat)) :
    ∃ r', decodePtop cb r = .elem (.ptZrun4 c) r' ∧ Consumed (cb.lens.getD 17 0 + 4) r r' ∧ ReaderOk r' := by
  obtain ⟨ra, e, hca, ha⟩ := withSymbol_code hcb h1 h
  obtain ⟨r', e', hc, hr⟩ := getSyncBits_field ha.append_nil (by decide) c.isLt
  refine ⟨r', ?_, Consumed.trans hca hc, hr.ok⟩
  rw [decodePtop, e, if_neg (by decide), if_pos rfl]
  simp only [e', BitVec.ofNat_toNat, BitVec.setWidth_eq]

theorem decodePtop_zrun5 {c : BitVec 5} (h1 : cb.lens.getD 18 0 ≠ 0)
    (h : Ahead r (symbolBits cb.lens 18 ++ fieldBits 5 c.toNat)) :
    ∃ r', decodePtop cb r = .elem (.ptZrun5 c) r' ∧ Consumed (cb.lens.getD 18 0 + 5) r r' ∧ ReaderOk r' := by
  obtain ⟨ra, e, hca, ha⟩ := withSymbol_code hcb h1 h
  obtain ⟨r', e', hc, hr⟩ := getSyncBits_field ha.append_nil (by decide) c.isLt
  refine ⟨r', ?_, Consumed.trans hca hc, hr.ok⟩
  rw [decodePtop, e, if_neg (by decide), if_neg (by decide), if_pos rfl]
  simp only [e', BitVec.ofNat_toNat, BitVec.setWidth_eq]

theorem decodePtop_same {c : BitVec 1} {z : BitVec 5} (h1 : cb.lens.getD 19 0 ≠ 0)
    (h2 : cb.lens.getD z.toNat 0 ≠ 0)
    (h : Ahead r (symbolBits cb.lens 19 ++ (fieldBits 1 c.toNat ++ symbolBits cb.lens z.toNat))) :
    ∃ r', decodePtop cb r = .elem (.ptSame c z) r' ∧
      Consumed (cb.lens.getD 19 0 + 1 + cb.lens.getD z.toNat 0) r r' ∧ ReaderOk r' := by
  obtain ⟨ra, e, hca, ha⟩ := withSymbol_code hcb h1 h
  obtain ⟨rb, e', hcb', hb⟩ := getSyncBits_field ha (by decide) c.isLt
  obtain ⟨r', e2, hc, hr⟩ := withSymbol_code hcb h2 hb.append_nil
  refine ⟨r', ?_, Consumed.trans (Consumed.trans hca hcb') hc, hr.ok⟩
  rw [decodePtop, e, if_neg (by decide), if_neg (by decide), if_neg (by decide)]
  simp only [e', e2, BitVec.ofNat_toNat, BitVec.setWidth_eq]

end PretreeOps

/-- Settles O8: the symbols of an operation decode from their codes, its count field at its own width. -/
theorem pretreeOpsRoundTrip : Obligations.PretreeOpsRoundTrip := by
  intro at3 lens cb i r bs hcb hlens hr hi hw ha he hb
  have h : Ahead r bs := ⟨hr, hb⟩
  have hcode : ∀ sym, (Tree.pre, sym) ∈ symbolsOf at3 i → cb.lens.getD sym 0 ≠ 0 := fun sym hs => hlens ▸ ha _ hs
  cases i <;> cases hi
  all_goals
    simp only [encode, hlens, Code.bits.injEq] at he
    subst he
    simp only [List.length_append, length_symbolBits, length_fieldBits, ← Nat.add_assoc]
  case ptDelta z => exact decodePtop_delta hcb (of_decide_eq_true hw) (hcode _ (by simp [symbolsOf])) h
  case ptZrun4 c => exact decodePtop_zrun4 hcb (hcode _ (by simp [symbolsOf])) h
  case ptZrun5 c => exact decodePtop_zrun5 hcb (hcode _ (by simp [symbolsOf])) h
  case ptSame c z => exact decodePtop_same hcb (hcode _ (by simp [symbolsOf])) (hcode _ (by simp [symbolsOf])) h

/-! ### The raw elements -/

/-- The bytes ahead, cut where a read stops. -/
theorem bytesAhead_append {m : Nat} {r r' : Reader} (h : ∀ k, inputByte r' k = inputByte r (m + k)) (n : Nat) :
    bytesAhead r (m + n) = bytesAhead r m ++ bytesAhead r' n := by
  unfold bytesAhead
  rw [List.range_add, List.map_append, List.map_map]
  congr 1
  exact List.map_congr_left fun k _ => (h k).symm

theorem inputByte_readLE32 (r : Reader) (k : Nat) : inputByte (readLE32 r).2 k = inputByte r (4 + k) := by
  simp only [readLE32, inputByte_inByte]
  congr 1
  omega

theorem readLE32_fst (r : Reader) :
    (readLE32 r).1 = inputByte r 3 ++ inputByte r 2 ++ inputByte r 1 ++ inputByte r 0 := by
  simp only [readLE32, inByte_fst, inputByte_inByte]

/-- The four bytes of a word, put together again. -/
theorem append_extractBytes (w : Word) :
    w.extractLsb' 24 8 ++ w.extractLsb' 16 8 ++ w.extractLsb' 8 8 ++ w.extractLsb' 0 8 = w := by
  iterate 3 rw [BitVec.extractLsb'_append_extractLsb'_eq_extractLsb' (by decide)]
  exact BitVec.extractLsb'_eq_self

/-- A raw integer is read back from its four bytes, which the cursor passes (20_memory.md R64; 40_bitreader.md R140). -/
theorem readLE32_wordBytes {r : Reader} {w : Word} {bs : List Byte}
    (h : bytesAhead r (4 + bs.length) = wordBytes w ++ bs) :
    ∃ r', readLE32 r = (w, r') ∧ bytesAhead r' bs.length = bs ∧ ∀ k, inputByte r' k = inputByte r (4 + k) := by
  rw [bytesAhead_append (inputByte_readLE32 r)] at h
  obtain ⟨hw, hbs⟩ := List.append_inj h (by simp [bytesAhead, wordBytes])
  refine ⟨_, Prod.ext ?_ rfl, hbs, inputByte_readLE32 r⟩
  have h4 : [inputByte r 0, inputByte r 1, inputByte r 2, inputByte r 3] = wordBytes w := hw
  simp only [wordBytes, List.cons.injEq, and_true] at h4
  obtain ⟨h0, h1, h2, h3⟩ := h4
  rw [readLE32_fst, h0, h1, h2, h3, append_extractBytes]

/-- UNC_REPEATS is read back after the resynchronisation, and the cursor has passed its twelve bytes (30_encoding.md
R105). -/
theorem decodeUncRepeats_bytes {n : Nat} {r : Reader} {r0 r1 r2 : Word}
    (h : bytesAhead (resync n r) 12 = wordBytes r0 ++ (wordBytes r1 ++ wordBytes r2)) :
    ∃ r', decodeUncRepeats n r = .elem (.uncRepeats r0 r1 r2) r' ∧
      ∀ k, inputByte r' k = inputByte (resync n r) (12 + k) := by
  obtain ⟨ra, ea, ha, hka⟩ := readLE32_wordBytes (bs := wordBytes r1 ++ wordBytes r2) h
  obtain ⟨rb, eb, hb, hkb⟩ := readLE32_wordBytes (bs := wordBytes r2) ha
  obtain ⟨rc, ec, -, hkc⟩ := readLE32_wordBytes (bs := []) (hb.trans (List.append_nil _).symm)
  refine ⟨rc, by simp only [decodeUncRepeats, ea, eb, ec], fun k => ?_⟩
  rw [hkc, hkb, hka, ← Nat.add_assoc, ← Nat.add_assoc]

/-- A raw byte is read back, and the cursor has passed it (20_memory.md R61). -/
theorem inByte_byte {r : Reader} {b : Byte} (h : bytesAhead r 1 = [b]) :
    (inByte r).1 = b ∧ ∀ k, inputByte (inByte r).2 k = inputByte r (1 + k) := by
  refine ⟨?_, fun k => by rw [inputByte_inByte, Nat.add_comm]⟩
  rw [inByte_fst]
  exact (List.cons.inj h).1

/-- Settles O6: the bytes of a raw element are read one after the other from the cursor. -/
theorem rawElementsRoundTrip : Obligations.RawElementsRoundTrip := by
  intro at3 lens i r n bs he
  refine ⟨?_, ?_, ?_⟩
  · rintro r0 r1 r2 rfl hb
    cases he
    exact decodeUncRepeats_bytes hb
  · rintro b rfl hb
    cases he
    obtain ⟨e, hk⟩ := inByte_byte hb
    exact ⟨_, by simp only [decodeUncByte, e], hk⟩
  · rintro x rfl hb
    cases he
    obtain ⟨e, hk⟩ := inByte_byte hb
    exact ⟨_, by simp only [decodeUncPad, e], hk⟩

/-! ### Commands, what is fetched, and the position tables -/

/-- Two words of one OP select one command (30_encoding.md R107). -/
theorem decodeCommand_of_op {v w : Word} (h : w.toNat % 16 = v.toNat % 16) : decodeCommand w = decodeCommand v := by
  simp only [decodeCommand, h]

theorem isCommand_of_reservedOp {i : Instr} {op : Nat} (h : reservedOp? i = some op) : isCommand i = true := by
  cases i <;> cases h <;> rfl

theorem isCommand_decodeCommand (w : Word) : isCommand (decodeCommand w) = true := by
  rcases decodeCommand_cases w with ⟨-, e⟩ | ⟨-, e⟩ | ⟨-, e⟩ | ⟨-, e⟩ | ⟨-, e⟩ | ⟨op, -, e⟩
  case inr.inr.inr.inr.inr => exact isCommand_of_reservedOp e
  all_goals rw [e]; rfl

/-- A command is encoded by the word of its OP alone, and decodes from it (30_encoding.md R107). -/
theorem encode_command {i : Instr} (hi : isCommand i = true) (at3 : Bool) (lens : Tree → List Nat) :
    ∃ c : Word, encode at3 lens i = .command c ∧ c.toNat < 16 ∧ decodeCommand c = i := by
  cases i <;> cases hi <;> exact ⟨_, rfl, by decide, rfl⟩

/-- Settles O3: the table is read off, and a word decodes as the word of its OP. -/
theorem commandWordSelectsByOp : Obligations.CommandWordSelectsByOp := by
  refine ⟨by decide, isCommand_decodeCommand, fun at3 lens i hi => ?_⟩
  obtain ⟨c, he, hc, hd⟩ := encode_command hi at3 lens
  refine ⟨c, he, hc, fun w hw => ?_⟩
  rw [← hd]
  exact decodeCommand_of_op (by rw [hw, Nat.mod_eq_of_lt hc])

theorem wellFormed_of_isCommand {i : Instr} (h : isCommand i = true) : i.wellFormed = true := by
  cases i <;> cases h <;> rfl

/-- Settles O54: a command is well formed, and inside a command the fields that are read, or stand latched, are in
range. -/
theorem fetchedInstructionsAreWellFormed : Obligations.FetchedInstructionsAreWellFormed := by
  intro s u i h hf
  by_cases hp : s.phase = .idle
  · cases hc : s.cmd with
    | none => simp [fetch, hp, hc] at hf
    | some w =>
      rw [fetch_command hp hc] at hf
      cases hf
      exact wellFormed_of_isCommand (isCommand_decodeCommand w)
  · rcases fetch_cases hp with ⟨-, e⟩ | ⟨hm, e⟩ | ⟨d, hd, e⟩ <;> rw [e] at hf
    · cases hf
    · cases hf
      have hph := h.phase
      rw [PhaseOk, hm] at hph
      obtain ⟨-, -, ⟨-, hlen⟩, -, hexp⟩ := hph
      exact Bool.and_eq_true_iff.2 ⟨hlen, hexp⟩
    · cases d with
      | elem i' r =>
        cases hf
        exact (good_of_reads h hd).1
      | _ => cases hf

/-- Settles O60: the tables of R102 and R109, evaluated. -/
theorem positionTablesMatch : Obligations.PositionTablesMatch := ⟨by decide, by decide, by decide⟩

end Sys2Proof.Machine
end

section
/-! Decode of encode on the items of Verbatim and Aligned blocks, whose fields arrive over up to four steps
(30_encoding.md R99, R100, R103, R104; 43_symbols.md R212, R217, R218; logs 1 and 13). -/

namespace Sys2Proof.Machine

open Sys2Proof.Safety

/-! ### Reading an item over several steps -/

/-- `s` with the item under way read as far as `r`: its latched fields, and the place in the grammar. -/
def readTo (s : State) (r : Reader) (p : PendingMatch) (ph : Phase) : State :=
  { s with rd := r, pend := p, phase := ph }

/-- From `u`, an engine whose item has been read as far as `r`, the item `i` is fetched within `n` steps, `len` bits
further on, and nothing but the reader, the latch and the place in the grammar differs from `s`. -/
def FetchesWithin (n : Nat) (i : Instr) (s : State) (len : Nat) (r : Reader) (u : State) : Prop :=
  ∃ m v r' p ph, m ≤ n ∧ Sys2Proof.core.run m u = .next v ∧ fetch v = .elem i (readTo s r' p ph) ∧
    Consumed len r r' ∧ ReaderOk r'

theorem FetchesWithin.mono {n n' len : Nat} {i : Instr} {s u : State} {r : Reader} (h : FetchesWithin n i s len r u)
    (hn : n ≤ n') : FetchesWithin n' i s len r u := by
  obtain ⟨m, v, r', p, ph, hm, h⟩ := h
  exact ⟨m, v, r', p, ph, Nat.le_trans hm hn, h⟩

/-- The item is what the next decoding answers. -/
theorem fetchesWithin_of_elem {n len : Nat} {i : Instr} {s : State} {r0 r r' : Reader} {p : PendingMatch} {ph : Phase}
    (hf : fetch (readTo s r0 p ph) = settle (readTo s r0 p ph) (.elem i r')) (hc : Consumed len r r')
    (hr : ReaderOk r') : FetchesWithin n i s len r (readTo s r0 p ph) :=
  ⟨0, _, r', p, ph, Nat.zero_le n, rfl, hf, hc, hr⟩

/-- The `a` bits before `r1` have been read on the way to `u`. -/
theorem FetchesWithin.after {n a b : Nat} {i : Instr} {s u : State} {r r1 : Reader} (h : FetchesWithin n i s b r1 u)
    (hc : Consumed a r r1) : FetchesWithin n i s (a + b) r u := by
  obtain ⟨m, v, r', p, ph, hm, hrun, hf, hc', hr⟩ := h
  exact ⟨m, v, r', p, ph, hm, hrun, hf, Consumed.trans hc hc', hr⟩

/-- One step leads from `u` to `v`. -/
theorem FetchesWithin.step {n len : Nat} {i : Instr} {s u v : State} {r : Reader} (h : FetchesWithin n i s len r v)
    (hs : Machine.step u = .next v) : FetchesWithin (n + 1) i s len r u := by
  obtain ⟨m, w, r', p, ph, hm, hrun, h⟩ := h
  refine ⟨m + 1, w, r', p, ph, Nat.succ_le_succ hm, ?_, h⟩
  have hstep : Sys2Proof.core.step u = .next v := hs
  rw [← hrun]
  simp only [Host.Core.run, hstep]

theorem step_of_latch {u v : State} (h : fetch u = .latch v) : step u = .next v := by simp only [step, h]

/-! ### The offset fields -/

/-- The aligned value is put together from the parts its encoding splits it into (30_encoding.md R104; 43_symbols.md
R217). -/
theorem alignedExtra_parts (e : BitVec 17) :
    alignedExtra (BitVec.ofNat 14 (e.toNat / 8)) (BitVec.ofNat 3 (e.toNat % 8)) = e := by
  apply BitVec.eq_of_toNat_eq
  have he := e.isLt
  rw [alignedExtra, BitVec.toNat_append, ← Nat.shiftLeft_add_eq_or_of_lt (BitVec.isLt _), Nat.shiftLeft_eq,
    BitVec.toNat_ofNat, BitVec.toNat_ofNat]
  omega

/-- The slots of an explicit match are none of the repeat slots. -/
theorem decodeOffset_explicit {slot : BitVec 6} (h : 3 ≤ slot.toNat) (at3 : Bool) (kind : BlockType)
    (lenHdr : BitVec 3) (footer : BitVec 8) (r : Reader) :
    decodeOffset at3 kind slot lenHdr footer r =
      if kind = .aligned then
        if 3 < extraBits slot.toNat then
          .latchRaw slot lenHdr footer (BitVec.ofNat 14 (getSyncBits (extraBits slot.toNat - 3) r).1)
            (getSyncBits (extraBits slot.toNat - 3) r).2
        else if extraBits slot.toNat = 3 ∧ at3 = true then .latchRaw slot lenHdr footer 0 r
        else
          .elem (.matchExplicitA slot lenHdr footer (BitVec.ofNat 17 (getSyncBits (extraBits slot.toNat) r).1))
            (getSyncBits (extraBits slot.toNat) r).2
      else
        .elem (.matchExplicitV slot lenHdr footer (BitVec.ofNat 17 (getSyncBits (extraBits slot.toNat) r).1))
          (getSyncBits (extraBits slot.toNat) r).2 := by
  have hne : ∀ k : BitVec 6, k.toNat < 3 → slot ≠ k := fun k hk e => by subst e; omega
  rw [decodeOffset, if_neg (hne 0 (by decide)), if_neg (hne 1 (by decide)), if_neg (hne 2 (by decide))]

section Offset

variable {s : State} {r0 r r1 : Reader} {p : PendingMatch} {ph : Phase} {slot : BitVec 6} {lenHdr : BitVec 3}
  {footer : BitVec 8} {e : BitVec 17}

/-- ALIGNED_SYM completes an aligned match (43_symbols.md R217, R218). -/
theorem fetchesWithin_alignedSym {a : BitVec 3} (hcb : CodeReady .aligned (codeBookOf .aligned s))
    (h1 : (lensOf .aligned s).getD a.toNat 0 ≠ 0) (h : Ahead r (symbolBits (lensOf .aligned s) a.toNat)) :
    FetchesWithin 1 (.matchExplicitA p.slot p.lenHdr p.footer (alignedExtra p.raw a)) s
      ((lensOf .aligned s).getD a.toNat 0) r (readTo s r p .alignedSym) := by
  obtain ⟨r', e, hc, hr⟩ := withSymbol_code hcb h1 h.append_nil
  have hf : fetch (readTo s r p .alignedSym) = .elem (.alignedSym a) (readTo s r' p .alignedSym) := by
    show settle _ (withSymbol .aligned (codeBookOf .aligned s) r _) = _
    rw [e, BitVec.ofNat_toNat, BitVec.setWidth_eq]
    rfl
  have hs : step (readTo s r p .alignedSym) =
      .next (readTo s r' { p with extra := alignedExtra p.raw a } .matchReady) := by
    rw [step, hf]
    rfl
  exact FetchesWithin.step ⟨0, _, r', _, _, Nat.le_refl 0, rfl, rfl, hc, hr.ok⟩ hs

/-- The raw part of an aligned offset is latched, and its ALIGNED_SYM is the low three bits (30_encoding.md R104). -/
theorem fetchesWithin_latchRaw {a : Nat} (hcb : CodeReady .aligned (codeBookOf .aligned s))
    (hf : fetch (readTo s r0 p ph) =
      settle (readTo s r0 p ph) (.latchRaw slot lenHdr footer (BitVec.ofNat 14 (e.toNat / 8)) r1))
    (hc : Consumed a r r1) (h1 : (lensOf .aligned s).getD (e.toNat % 8) 0 ≠ 0)
    (h : Ahead r1 (symbolBits (lensOf .aligned s) (e.toNat % 8))) :
    FetchesWithin 2 (.matchExplicitA slot lenHdr footer e) s (a + (lensOf .aligned s).getD (e.toNat % 8) 0) r
      (readTo s r0 p ph) := by
  have hsym : e.toNat % 8 = (BitVec.ofNat 3 (e.toNat % 8)).toNat := by rw [BitVec.toNat_ofNat]; omega
  have hnext := fetchesWithin_alignedSym (r := r1) (a := BitVec.ofNat 3 (e.toNat % 8))
    (p := { slot := slot, lenHdr := lenHdr, footer := footer, raw := BitVec.ofNat 14 (e.toNat / 8), extra := 0 }) hcb
    (by rwa [← hsym]) (by rwa [← hsym])
  rw [alignedExtra_parts, ← hsym] at hnext
  exact (hnext.after hc).step (step_of_latch hf)

/-- The offset fields of an explicit match of a Verbatim block (30_encoding.md R103). -/
theorem fetchesWithin_explicitV (hk : s.blockType ≠ .aligned) (he : explicitWellFormed slot e = true)
    (hf : fetch (readTo s r0 p ph) = settle (readTo s r0 p ph)
      (decodeOffset s.params.alignedAtExtra3 s.blockType slot lenHdr footer r))
    (h : Ahead r (fieldBits (extraBits slot.toNat) e.toNat)) :
    FetchesWithin 2 (.matchExplicitV slot lenHdr footer e) s (fieldBits (extraBits slot.toNat) e.toNat).length r
      (readTo s r0 p ph) := by
  simp only [explicitWellFormed, Bool.and_eq_true, decide_eq_true_eq] at he
  obtain ⟨⟨h3, -⟩, hlt⟩ := he
  obtain ⟨r', ev, hc, hr⟩ := getSyncBits_field h.append_nil (Nat.le_trans (extraBits_le _) (by decide)) hlt
  rw [decodeOffset_explicit h3, if_neg hk, ev, BitVec.ofNat_toNat, BitVec.setWidth_eq] at hf
  exact fetchesWithin_of_elem hf (by rwa [length_fieldBits]) hr.ok

/-- The offset fields of an explicit match of an Aligned block: a raw part and an aligned symbol, an aligned symbol
alone, or a raw part alone (30_encoding.md R104). -/
theorem fetchesWithin_explicitA (hk : s.blockType = .aligned) (hcb : CodeReady .aligned (codeBookOf .aligned s))
    (he : explicitWellFormed slot e = true)
    (h1 : 3 < extraBits slot.toNat ∨ (extraBits slot.toNat = 3 ∧ s.params.alignedAtExtra3 = true) →
      (lensOf .aligned s).getD (e.toNat % 8) 0 ≠ 0)
    (hf : fetch (readTo s r0 p ph) = settle (readTo s r0 p ph)
      (decodeOffset s.params.alignedAtExtra3 s.blockType slot lenHdr footer r))
    (h : Ahead r (alignedOffsetBits s.params.alignedAtExtra3 (lensOf .aligned s) slot.toNat e.toNat)) :
    FetchesWithin 2 (.matchExplicitA slot lenHdr footer e) s
      (alignedOffsetBits s.params.alignedAtExtra3 (lensOf .aligned s) slot.toNat e.toNat).length r
      (readTo s r0 p ph) := by
  simp only [explicitWellFormed, Bool.and_eq_true, decide_eq_true_eq] at he
  obtain ⟨⟨h3, -⟩, hlt⟩ := he
  have hle := extraBits_le slot.toNat
  rw [decodeOffset_explicit h3, if_pos hk] at hf
  simp only [alignedOffsetBits] at h ⊢
  rcases Nat.lt_or_ge 3 (extraBits slot.toNat) with hn | hn
  · have hraw : e.toNat / 8 < 2 ^ (extraBits slot.toNat - 3) := by
      rw [Nat.div_lt_iff_lt_mul (by decide), show 8 = 2 ^ 3 from rfl, ← Nat.pow_add, Nat.sub_add_cancel hn.le]
      exact hlt
    rw [if_pos hn] at hf h ⊢
    obtain ⟨r1, ev, hc, hr⟩ := getSyncBits_field h (by omega) hraw
    rw [ev] at hf
    rw [List.length_append, length_fieldBits, length_symbolBits]
    exact fetchesWithin_latchRaw hcb hf hc (h1 (.inl hn)) hr
  · rw [if_neg (Nat.not_lt.2 hn)] at hf h ⊢
    by_cases h8 : extraBits slot.toNat = 3 ∧ s.params.alignedAtExtra3 = true
    · have hlow : e.toNat < 8 := by rwa [h8.1] at hlt
      rw [if_pos h8] at hf h ⊢
      have hend := fetchesWithin_latchRaw (e := e) (lenHdr := lenHdr) (footer := footer) hcb
        (by rwa [Nat.div_eq_of_lt hlow]) (Consumed.zero r) (h1 (.inr h8)) (by rwa [Nat.mod_eq_of_lt hlow])
      rwa [Nat.zero_add, Nat.mod_eq_of_lt hlow, ← length_symbolBits] at hend
    · rw [if_neg h8] at hf h ⊢
      obtain ⟨r', ev, hc, hr⟩ := getSyncBits_field h.append_nil (by omega) hlt
      rw [ev, BitVec.ofNat_toNat, BitVec.setWidth_eq] at hf
      exact fetchesWithin_of_elem hf (by rwa [length_fieldBits]) hr.ok

end Offset

/-! ### The main symbol and the LEN_FOOTER -/

theorem lenHdr_of_ne_seven {lenHdr : BitVec 3} {footer : BitVec 8} (hw : lengthWellFormed lenHdr footer = true)
    (h : lenHdr ≠ 7) : footer = 0 := by
  simp only [lengthWellFormed, Bool.and_eq_true, Bool.or_eq_true, beq_iff_eq] at hw
  exact hw.2.resolve_left h

/-- The main symbol of a match names its slot and its length header (30_encoding.md R99). -/
theorem decodeItem_match {cb : CodeBook} (hcb : CodeReady .main cb) {slot : BitVec 6} {lenHdr : BitVec 3}
    (h1 : cb.lens.getD (256 + 8 * slot.toNat + lenHdr.toNat) 0 ≠ 0) {r : Reader} {bs : List Bool}
    (h : Ahead r (symbolBits cb.lens (256 + 8 * slot.toNat + lenHdr.toNat) ++ bs)) :
    ∃ r', (∀ at3 kind, decodeItem at3 kind cb r =
        if lenHdr = 7 then .latchMatch slot lenHdr r' else decodeOffset at3 kind slot lenHdr 0 r') ∧
      Consumed (cb.lens.getD (256 + 8 * slot.toNat + lenHdr.toNat) 0) r r' ∧ Ahead r' bs := by
  obtain ⟨r', e, hc, hr⟩ := withSymbol_code hcb h1 h
  refine ⟨r', fun at3 kind => ?_, hc, hr⟩
  have hl := lenHdr.isLt
  have hslot : (256 + 8 * slot.toNat + lenHdr.toNat - 256) / 8 = slot.toNat := by omega
  have hlen : (256 + 8 * slot.toNat + lenHdr.toNat - 256) % 8 = lenHdr.toNat := by omega
  rw [decodeItem, e, if_neg (by omega)]
  simp only [hslot, hlen, BitVec.ofNat_toNat, BitVec.setWidth_eq]

/-- LEN_FOOTER completes the length of a match, and its offset fields follow (43_symbols.md R212). -/
theorem fetchesWithin_footer {s : State} {i : Instr} {r : Reader} {slot : BitVec 6} {lenHdr : BitVec 3}
    {footer : BitVec 8} {tail : List Bool} (hcb : CodeReady .length (codeBookOf .length s))
    (h1 : (lensOf .length s).getD footer.toNat 0 ≠ 0)
    (h : Ahead r (symbolBits (lensOf .length s) footer.toNat ++ tail))
    (hoff : ∀ r', Ahead r' tail → FetchesWithin 2 i s tail.length r'
      (readTo s r' { slot := slot, lenHdr := lenHdr, footer := footer, raw := 0, extra := 0 } .offset)) :
    FetchesWithin 3 i s (symbolBits (lensOf .length s) footer.toNat ++ tail).length r
      (readTo s r { slot := slot, lenHdr := lenHdr, footer := 0, raw := 0, extra := 0 } .footer) := by
  obtain ⟨r', e, hc, hr⟩ := withSymbol_code hcb h1 h
  have hf : fetch (readTo s r { slot := slot, lenHdr := lenHdr, footer := 0, raw := 0, extra := 0 } .footer) =
      .elem (.lenFooter footer)
        (readTo s r' { slot := slot, lenHdr := lenHdr, footer := 0, raw := 0, extra := 0 } .footer) := by
    show settle _ (withSymbol .length (codeBookOf .length s) r _) = _
    rw [e, BitVec.ofNat_toNat, BitVec.setWidth_eq]
    rfl
  rw [List.length_append, length_symbolBits]
  refine ((hoff r' hr).after hc).step ?_
  rw [step, hf]
  rfl

section Match

variable {s : State} (hfill : fetch s =
  settle s (decodeItem s.params.alignedAtExtra3 s.blockType (codeBookOf .main s) s.rd))
include hfill

/-- A literal is fetched at once (30_encoding.md R99; 43_symbols.md R211). -/
theorem fetchesWithin_literal {b : Byte} (hmain : CodeReady .main (codeBookOf .main s))
    (h1 : (lensOf .main s).getD b.toNat 0 ≠ 0) (h : Ahead s.rd (symbolBits (lensOf .main s) b.toNat)) :
    FetchesWithin 4 (.literal b) s ((lensOf .main s).getD b.toNat 0) s.rd s := by
  obtain ⟨r', e, hc, hr⟩ := withSymbol_code hmain h1 h.append_nil
  rw [decodeItem, e, if_pos b.isLt, BitVec.ofNat_toNat, BitVec.setWidth_eq] at hfill
  exact fetchesWithin_of_elem (p := s.pend) (ph := s.phase) hfill hc hr.ok

/-- A match is fetched once its main symbol, its LEN_FOOTER where `lenHdr = 7`, and its offset fields have been read
(43_symbols.md R212). -/
theorem fetchesWithin_match {i : Instr} {slot : BitVec 6} {lenHdr : BitVec 3} {footer : BitVec 8} {tail : List Bool}
    (hmain : CodeReady .main (codeBookOf .main s)) (hlength : CodeReady .length (codeBookOf .length s))
    (hw : lengthWellFormed lenHdr footer = true)
    (hcoded : ∀ q ∈ symbolsOf.matchSymbols slot.toNat lenHdr footer, (lensOf q.1 s).getD q.2 0 ≠ 0)
    (hoff : ∀ r0 p ph r, fetch (readTo s r0 p ph) = settle (readTo s r0 p ph)
        (decodeOffset s.params.alignedAtExtra3 s.blockType slot lenHdr footer r) → Ahead r tail →
      FetchesWithin 2 i s tail.length r (readTo s r0 p ph))
    (h : Ahead s.rd (matchBits (lensOf .main s) (lensOf .length s) slot.toNat lenHdr footer ++ tail)) :
    FetchesWithin 4 i s (matchBits (lensOf .main s) (lensOf .length s) slot.toNat lenHdr footer ++ tail).length s.rd
      s := by
  rw [matchBits, List.append_assoc] at h ⊢
  obtain ⟨r1, e, hc1, ha1⟩ := decodeItem_match hmain (hcoded _ (List.mem_cons_self ..)) h
  rw [e] at hfill
  rw [List.length_append, length_symbolBits]
  by_cases h7 : lenHdr = 7
  · rw [if_pos h7] at hfill ha1 ⊢
    have hfoot : (lensOf .length s).getD footer.toNat 0 ≠ 0 :=
      hcoded (.length, footer.toNat) (by simp [symbolsOf.matchSymbols, h7])
    have hnext := fetchesWithin_footer (slot := slot) (lenHdr := lenHdr) hlength hfoot ha1
      fun r => hoff r _ .offset r rfl
    exact (hnext.after hc1).step (step_of_latch hfill)
  · rw [if_neg h7] at hfill ha1 ⊢
    rw [← lenHdr_of_ne_seven hw h7] at hfill
    exact ((hoff s.rd s.pend s.phase r1 hfill ha1).after hc1).mono (by decide)

/-- A match of a repeat slot has no offset fields (43_symbols.md R213, R214, R215). -/
theorem fetchesWithin_rep {i : Instr} {lenHdr : BitVec 3} {footer : BitVec 8}
    (hmain : CodeReady .main (codeBookOf .main s)) (hlength : CodeReady .length (codeBookOf .length s))
    (hw : lengthWellFormed lenHdr footer = true) (slot : BitVec 6)
    (hcoded : ∀ q ∈ symbolsOf.matchSymbols slot.toNat lenHdr footer, (lensOf q.1 s).getD q.2 0 ≠ 0)
    (hrep : ∀ r, decodeOffset s.params.alignedAtExtra3 s.blockType slot lenHdr footer r = .elem i r)
    (h : Ahead s.rd (matchBits (lensOf .main s) (lensOf .length s) slot.toNat lenHdr footer)) :
    FetchesWithin 4 i s (matchBits (lensOf .main s) (lensOf .length s) slot.toNat lenHdr footer).length s.rd s := by
  have hread := fetchesWithin_match (i := i) (tail := []) hfill hmain hlength hw hcoded
    (fun _ _ _ r hf ha => fetchesWithin_of_elem (hrep r ▸ hf) (Consumed.zero r) ha.ok) h.append_nil
  rwa [List.append_nil] at hread

end Match

/-- A block of one of the kinds with trees, with bytes left and room in `OUT`, reads an item next (43_symbols.md
R210). -/
theorem fetch_item {s : State} (hp : s.phase = .fill) (hroom : s.outPos < s.outLen) (hz : s.blockRemaining ≠ 0)
    (hk : TreeKind s) :
    fetch s = settle s (decodeItem s.params.alignedAtExtra3 s.blockType (codeBookOf .main s) s.rd) := by
  have hu : s.blockType ≠ .uncompressed := by rcases hk with e | e <;> rw [e] <;> decide
  simp only [fetch, hp, if_neg (Nat.not_le.2 hroom), decodeFill, if_neg hz, if_neg hu]

/-- Settles O9: the main symbol, the LEN_FOOTER and the offset fields are read back one after the other. -/
theorem itemsRoundTrip : Obligations.ItemsRoundTrip := by
  intro s i bs hp hroom hz hk hi hw hr hmain hlength haligned hcoded he hb
  have h : Ahead s.rd bs := ⟨hr, hb⟩
  have hfill := fetch_item hp hroom hz hk
  suffices hs : FetchesWithin 4 i s bs.length s.rd s by
    obtain ⟨n, u, r', p, ph, hn, hrun, hf, hc, hr'⟩ := hs
    exact ⟨n, u, _, hn, hrun, hf, hc, hr', rfl⟩
  cases i <;> simp only [isItem, decide_eq_true_eq, reduceCtorEq] at hi
  all_goals
    simp only [encode, Code.bits.injEq] at he
    subst he
  case literal b =>
    rw [length_symbolBits]
    exact fetchesWithin_literal hfill hmain (hcoded (.main, b.toNat) (by simp [symbolsOf])) h
  case matchRep0 lenHdr footer =>
    exact fetchesWithin_rep hfill hmain hlength hw 0 hcoded (fun _ => rfl) h
  case matchRep1 lenHdr footer =>
    exact fetchesWithin_rep hfill hmain hlength hw 1 hcoded (fun _ => rfl) h
  case matchRep2 lenHdr footer =>
    exact fetchesWithin_rep hfill hmain hlength hw 2 hcoded (fun _ => rfl) h
  case matchExplicitV slot lenHdr footer e =>
    obtain ⟨hlen, hexp⟩ := Bool.and_eq_true_iff.1 hw
    exact fetchesWithin_match hfill hmain hlength hlen hcoded
      (fun _ _ _ _ hf ha => fetchesWithin_explicitV (by rw [hi]; decide) hexp hf ha) h
  case matchExplicitA slot lenHdr footer e =>
    obtain ⟨hlen, hexp⟩ := Bool.and_eq_true_iff.1 hw
    exact fetchesWithin_match hfill hmain hlength hlen (fun q hq => hcoded q (List.mem_append_left _ hq))
      (fun _ _ _ _ hf ha => fetchesWithin_explicitA hi (haligned hi) hexp
        (fun hsym => hcoded (.aligned, e.toNat % 8) (by simp [symbolsOf, hsym])) hf ha) h

end Sys2Proof.Machine
end

section
/-! The primitives of the bit reader: what they keep, what they give and consume, and what they do past the end of the
segment (40_bitreader.md R130 to R138). -/

namespace Sys2Proof.Machine

open Sys2Proof.Safety

/-! ### The invariants of the reader -/

theorem sameSegment_refill {r : Reader} (h : ReaderOk r) : SameSegment r (refill r) :=
  ⟨readerOk_refill h, refill_inseg r, refill_segLen r⟩

theorem sameSegment_getDesyncBits {r : Reader} (h : ReaderOk r) (n k : Nat) : SameSegment r (getDesyncBits n k r).2 :=
  ⟨readerOk_getDesyncBits h n k, getDesyncBits_inseg n k r, getDesyncBits_segLen n k r⟩

/-- Settles O10: each primitive keeps the reader well kept on its segment, and `StartSegment` attaches the new one with
an empty accumulator. -/
theorem readerInvariantsKept : Obligations.ReaderInvariantsKept := by
  intro r n k h
  refine ⟨?_, fun hn => ⟨readerOk_startSegment h hn, rfl, rfl⟩⟩
  suffices hall : ∀ r' ∈ [refill r, (getDesyncBits n k r).2, (getSyncBits n r).2, (inByte r).2, (readLE32 r).2,
      resync n r], SameSegment r r' from fun r' hr' => ⟨(hall r' hr').ok, (hall r' hr').inseg, (hall r' hr').segLen⟩
  simp only [List.forall_mem_cons, List.not_mem_nil, false_implies, implies_true, and_true]
  exact ⟨sameSegment_refill h, sameSegment_getDesyncBits h n k, sameSegment_getSyncBits h n, sameSegment_inByte h,
    sameSegment_readLE32 h, sameSegment_resync h n⟩

/-! ### The bits read and consumed -/

/-- Settles O11: one read up to 16 bits, and above them the high part followed by 16 bits. -/
theorem getSyncBitsReadsTheNextBits : Obligations.GetSyncBitsReadsTheNextBits :=
  fun _ _ h hn => getSyncBits_spec h hn

/-- A peek leaves the stream ahead as it is (40_bitreader.md R132). -/
theorem bitAhead_peek {r : Reader} (h : ReaderOk r) (n j : Nat) : bitAhead (getDesyncBits n 0 r).2 j = bitAhead r j := by
  rw [consumed_getDesyncBits h n (Nat.zero_le 16) j, Nat.zero_add]

/-- After a peek at least 16 bits are valid, so `CheckBit` needs no refill (40_bitreader.md R132). -/
theorem sixteen_le_peek_total (n : Nat) (r : Reader) : 16 ≤ (getDesyncBits n 0 r).2.total :=
  sixteen_le_refill_total r

/-- Settles O12: a refill makes 16 bits valid, and neither it nor a peek moves the stream. -/
theorem desyncBitsAndCheckBitReadAhead : Obligations.DesyncBitsAndCheckBitReadAhead := by
  intro r n k i h _ hn hk h1
  refine ⟨getDesyncBits_value h k hn, consumed_getDesyncBits h n (hk.trans hn), checkBit_eq_bitAhead r h1, fun h16 => ?_⟩
  rw [checkBit_eq_bitAhead _ h1 (h16.trans (sixteen_le_peek_total n r)), bitAhead_peek h]

/-- Settles O13: the width 0 is the case that reads nothing. -/
theorem getSyncBitsZeroChangesNothing : Obligations.GetSyncBitsZeroChangesNothing :=
  fun r => getSyncBits_of_le (Nat.zero_le 16) r

/-! ### Past the end of the segment -/

theorem inByte_past_end {r : Reader} (h : r.segLen ≤ r.swath) : inByte r = (0, r) := if_neg (Nat.not_lt.2 h)

theorem inputByte_past_end {r : Reader} (h : r.segLen ≤ r.swath) (k : Nat) : inputByte r k = 0 :=
  if_neg (Nat.not_lt.2 (Nat.le_add_right_of_le h))

/-- Past the end only the valid bits of the accumulator can be set (40_bitreader.md R137). -/
theorem bitAhead_past_end {r : Reader} (h : r.segLen ≤ r.swath) {k : Nat} (hk : r.total ≤ k) : bitAhead r k = false := by
  simp [bitAhead, Nat.not_lt.2 hk, inputByte_past_end h]

theorem refill_swath_past_end {r : Reader} (h : r.segLen ≤ r.swath) : (refill r).swath = r.swath := by
  rcases Nat.lt_or_ge r.total 16 with ht | ht
  · rw [refill_swath ht, inByte_past_end h, inByte_past_end h]
  · rw [refill_of_ge ht]

theorem getSyncBits16_swath_past_end (n : Nat) {r : Reader} (h : r.segLen ≤ r.swath) :
    (getSyncBits16 n r).2.swath = r.swath := by
  unfold getSyncBits16
  split
  · rfl
  · exact refill_swath_past_end h

theorem getSyncBits16_segLen (n : Nat) (r : Reader) : (getSyncBits16 n r).2.segLen = r.segLen := by
  unfold getSyncBits16
  split
  · rfl
  · exact getDesyncBits_segLen n n r

/-- The cursor holds past the end, over both halves of a split read (40_bitreader.md R134, R137). -/
theorem getSyncBits_swath_past_end (n : Nat) {r : Reader} (h : r.segLen ≤ r.swath) :
    (getSyncBits n r).2.swath = r.swath := by
  have hhigh := getSyncBits16_swath_past_end (n - 16) h
  unfold getSyncBits
  split
  · exact getSyncBits16_swath_past_end n h
  · refine (getSyncBits16_swath_past_end 16 ?_).trans hhigh
    rwa [hhigh, getSyncBits16_segLen]

/-- Settles O14: `InByte` and `Refill` leave the cursor, and the words past the end are 0. -/
theorem pastTheEndReadsZero : Obligations.PastTheEndReadsZero :=
  fun _ _ hend => ⟨inByte_past_end hend, fun _ => bitAhead_past_end hend, fun n => getSyncBits_swath_past_end n hend⟩

end Sys2Proof.Machine
end

section
/-! When the table builder raises TABLE_OVERFLOW, what it leaves in the direct slots, and what a completed table decodes
(41_huffman.md R151 to R159; 30_encoding.md R106). -/

namespace Sys2Proof.Machine

open Sys2Proof.Safety

/-- Settles O7: the walk of the next 16 bits ends on the symbol in whose code space they lie. -/
theorem canonicalCodesDecode : Obligations.CanonicalCodesDecode :=
  fun _ _ _ _ hl hf hok h1 hr hb => decodeSymbol_of_code hl hf hok h1 hr hb

/-! ### Where TABLE_OVERFLOW is raised -/

/-- All codes come before the length 17. -/
theorem spaceBefore_all (lens : List Nat) : spaceBefore lens 17 0 = codeSpaceBelow lens 16 := by
  simp [spaceBefore, codeSpaceAt_zero]

/-- The state phase 2 starts from: the slots above the direct codes at 0, `pos` in 16-bit fixed point (41_huffman.md
R152, R153). -/
def phase2Start (tb : Nat) (b : Build) : Build :=
  { b with table := fillSlots b.table b.pos 0 (2 ^ tb - b.pos), pos := b.pos * 2 ^ 16 }

/-- Phase 2 over the lengths `tb + 1 … 16` of a tree (41_huffman.md R153). -/
def phase2 (t : Tree) (lens : List Nat) (b : Build) : Build :=
  threadPasses lens t.tableSize (2 ^ t.tableBits * 2 ^ 16) t.tableBits (16 - t.tableBits) (t.tableBits + 1) (2 ^ 15)
    (phase2Start t.tableBits b)

/-- Direct codes that fit are all placed by phase 1, and a complete direct region is the finished table (41_huffman.md
R152). -/
theorem buildTable_of_direct_fit {t : Tree} {lens : List Nat} (h : LengthsOk t lens)
    (hfit : codeSpaceBelow lens t.tableBits ≤ 2 ^ 16) :
    ∃ b, DirectOk t.tableBits t.maxSymbols t.tableSize lens (t.tableBits + 1) 0 b ∧ b.pos ≤ 2 ^ t.tableBits ∧
      b.pos * 2 ^ (16 - t.tableBits) = codeSpaceBelow lens t.tableBits ∧
      b.next = firstNode t.tableBits t.maxSymbols ∧
      buildTable t lens = if b.pos = 2 ^ t.tableBits then b else phase2 t lens b := by
  have hstart := directPasses_start (treeShape t) (Nat.le_of_eq h.size)
  have hok := hstart.1.2 hfit
  obtain ⟨hd, hp, hspace, hnext⟩ := hstart.2 hok
  refine ⟨_, hd, hp, hspace, hnext, ?_⟩
  unfold buildTable buildTableOf
  exact if_neg (by simpa using hok)

/-- A complete direct region has no slot above it, an incomplete one has. -/
theorem pos_eq_iff_complete {t : Tree} {pos space : Nat} (h : pos * 2 ^ (16 - t.tableBits) = space) :
    pos = 2 ^ t.tableBits ↔ space = 2 ^ 16 := by
  have h16 : 2 ^ t.tableBits * 2 ^ (16 - t.tableBits) = 2 ^ 16 := by cases t <;> rfl
  rw [← h, ← h16]
  exact (Nat.mul_left_inj (Nat.two_pow_pos _).ne').symm

theorem buildTable_of_complete {t : Tree} {lens : List Nat} (h : LengthsOk t lens)
    (hfull : codeSpaceBelow lens t.tableBits = 2 ^ 16) : (buildTable t lens).ok = true := by
  obtain ⟨b, hd, -, hspace, -, e⟩ := buildTable_of_direct_fit h hfull.le
  rw [e, if_pos ((pos_eq_iff_complete hspace).2 hfull)]
  exact hd.ok

theorem buildTable_of_incomplete {t : Tree} {lens : List Nat} (h : LengthsOk t lens)
    (hlt : codeSpaceBelow lens t.tableBits < 2 ^ 16) :
    ∃ b, DirectOk t.tableBits t.maxSymbols t.tableSize lens (t.tableBits + 1) 0 b ∧ b.pos ≤ 2 ^ t.tableBits ∧
      b.pos * 2 ^ (16 - t.tableBits) = codeSpaceBelow lens t.tableBits ∧
      b.next = firstNode t.tableBits t.maxSymbols ∧ buildTable t lens = phase2 t lens b := by
  obtain ⟨b, hd, hp, hspace, hnext, e⟩ := buildTable_of_direct_fit h hlt.le
  rw [if_neg fun hpos => hlt.ne ((pos_eq_iff_complete hspace).1 hpos)] at e
  exact ⟨b, hd, hp, hspace, hnext, e⟩

/-- A tree's table has room for one node pair a symbol above the first node (41_huffman.md R150). -/
theorem firstNode_add_maxSymbols (t : Tree) :
    t.tableSize = 2 * (firstNode t.tableBits t.maxSymbols + t.maxSymbols) := by
  cases t <;> rfl

/-- Of an incomplete direct region whose codes fit, check (b) asks room for the node pairs (41_huffman.md R153, R154). -/
theorem buildTable_ok_iff_nodePairs {t : Tree} {lens : List Nat} (h : LengthsOk t lens)
    (hlt : codeSpaceBelow lens t.tableBits < 2 ^ 16) (hf : CodeFits lens) :
    (buildTable t lens).ok = true ↔ nodePairs lens t.tableBits ≤ t.maxSymbols := by
  obtain ⟨b, hd, hp, hspace, hnext, e⟩ := buildTable_of_incomplete h hlt
  have hs := treeShape t
  obtain ⟨hthread, hsym⟩ := threadOk_start hs hd hp hspace hlt.le
  have htb : t.tableBits < 16 := by cases t <;> decide
  have hmask : 2 ^ 15 = 2 ^ (16 - (t.tableBits + 1 - t.tableBits)) := by rw [Nat.add_sub_cancel_left]
  rw [firstNode_add_maxSymbols] at hs hthread
  have hcount := threadPasses_count hs (Nat.le_of_eq h.size) hf (count := 16 - t.tableBits)
    (by omega) (Nat.lt_succ_self _)
    (countOk_start htb hs.symbols_below hthread hsym hnext (Nat.le_add_right _ _))
  rw [e, phase2, hmask, firstNode_add_maxSymbols]
  exact hcount.trans (Nat.add_le_add_iff_left)

/-- Settles O16: a build without a fault has a complete direct region, or has placed every code; and where the codes fit
the node pairs of phase 2 are counted. -/
theorem overfullCodesOverflow : Obligations.OverfullCodesOverflow := by
  intro t lens h
  have hbuilt := buildTableOf_ok (treeShape t) h.size.le
  refine ⟨fun hover => ?_, fun hlt hover => ?_, buildTable_ok_iff_nodePairs h, buildTable_of_complete h⟩
  · refine Bool.eq_false_iff.2 fun hok => ?_
    rcases hbuilt hok with ⟨hfull, -⟩ | ⟨hlt, -⟩ <;> omega
  · refine Bool.eq_false_iff.2 fun hok => ?_
    rcases hbuilt hok with ⟨hfull, -⟩ | ⟨-, ht⟩
    · omega
    · exact absurd ht.le (by rw [spaceBefore_all]; omega)

/-! ### Arrays of direct codes -/

/-- No code is longer than `n`, so the code space is taken at the length `n` (41_huffman.md R156). -/
theorem codeSpaceBelow_of_le {lens : List Nat} {n m : Nat} (h : ∀ l ∈ lens, l ≤ n) (hm : n ≤ m) :
    codeSpaceBelow lens m = codeSpaceBelow lens n := by
  induction hm with
  | refl => rfl
  | @step m hm ih =>
    have hnone : lens.count (m + 1) = 0 := List.count_eq_zero.2 fun hmem =>
      Nat.not_succ_le_self m ((h _ hmem).trans hm)
    rw [codeSpaceBelow_succ, hnone, Nat.zero_mul, Nat.add_zero, ih]

/-- Direct codes need no node (41_huffman.md R153). -/
theorem nodePairs_of_direct {lens : List Nat} {tb : Nat} (h : ∀ l ∈ lens, l ≤ tb) (htb : tb ≤ 16) :
    nodePairs lens tb = 0 := by
  refine List.sum_eq_zero fun x hx => ?_
  obtain ⟨j, -, rfl⟩ := List.mem_map.1 hx
  rw [codeSpaceBelow_of_le h htb, codeSpaceBelow_of_le h (Nat.le_add_right tb j), Nat.sub_self, Nat.zero_add]
  exact Nat.div_eq_of_lt (Nat.sub_lt (Nat.two_pow_pos _) Nat.one_pos)

/-- Direct codes that fit build without a fault (41_huffman.md R151, R152). -/
theorem buildTable_ok_of_direct {t : Tree} {lens : List Nat} (h : LengthsOk t lens)
    (hd : ∀ l ∈ lens, l ≤ t.tableBits) (hf : CodeFits lens) : (buildTable t lens).ok = true := by
  have htb := (treeShape t).tb_le
  have hle : codeSpaceBelow lens t.tableBits ≤ 2 ^ 16 := (codeSpaceBelow_mono htb).trans hf
  rcases hle.lt_or_eq with hlt | hfull
  · exact (buildTable_ok_iff_nodePairs h hlt hf).2 (by rw [nodePairs_of_direct hd htb]; exact Nat.zero_le _)
  · exact buildTable_of_complete h hfull

theorem threadPasses_none {lens : List Nat} {size tableMask tb count bitNum : Nat} (h : ∀ l ∈ lens, l < bitNum)
    (bitMask : Nat) (b : Build) : threadPasses lens size tableMask tb count bitNum bitMask b = b := by
  induction count generalizing bitNum bitMask with
  | zero => rfl
  | succ count ih =>
    rw [threadPasses, threadPass_none (fun l hl => (h l hl).ne), ih fun l hl => (h l hl).trans (Nat.lt_succ_self _)]

/-- The slots above the direct codes hold 0 where no long code is threaded (41_huffman.md R152, R155). -/
theorem buildTable_getD_above_direct {t : Tree} {lens : List Nat} (h : LengthsOk t lens)
    (hdirect : ∀ l ∈ lens, l ≤ t.tableBits) (hlt : codeSpaceBelow lens t.tableBits < 2 ^ 16) {i : Nat}
    (hi : codeSpaceBelow lens t.tableBits ≤ i * 2 ^ (16 - t.tableBits)) : (buildTable t lens).table.getD i 0 = 0 := by
  obtain ⟨b, hd, hp, hspace, -, e⟩ := buildTable_of_incomplete h hlt
  have hpos : b.pos ≤ i := Nat.le_of_mul_le_mul_right (hspace ▸ hi) (Nat.two_pow_pos _)
  have hroom : b.pos + (2 ^ t.tableBits - b.pos) ≤ b.table.length := by
    rw [hd.nodes.length, Nat.add_sub_cancel' hp]
    exact (treeShape t).slots_le
  rw [e, phase2, threadPasses_none fun l hl => Nat.lt_succ_of_le (hdirect l hl), phase2Start, fillSlots_getD hroom,
    hd.zero i hpos, ite_self]

theorem buildTable_length {t : Tree} {lens : List Nat} (h : LengthsOk t lens) :
    (buildTable t lens).table.length = t.tableSize := (bookOk_buildTable h.size true).size

/-- Settles O17: direct codes need no node pair, and above a code space of nothing every entry is 0. -/
theorem fittingDirectCodesBuild : Obligations.FittingDirectCodesBuild := by
  intro t lens h
  refine ⟨buildTable_ok_of_direct h, fun hz => ?_⟩
  have hdirect : ∀ l ∈ lens, l ≤ t.tableBits := fun l hl => by rw [hz l hl]; exact Nat.zero_le _
  have hspace : ∀ n, codeSpaceBelow lens n = 0 := fun n =>
    codeSpaceBelow_of_le (fun l hl => (hz l hl).le) (Nat.zero_le n)
  refine ⟨buildTable_ok_of_direct h hdirect ?_, List.eq_replicate_iff.2 ⟨buildTable_length h, fun e he => ?_⟩⟩
  · rw [CodeFits, hspace]
    exact Nat.zero_le _
  · obtain ⟨i, hi, rfl⟩ := List.getElem_of_mem he
    have hlt : codeSpaceBelow lens t.tableBits < 2 ^ 16 := by rw [hspace]; decide
    rw [← List.getD_eq_getElem _ 0 hi]
    exact buildTable_getD_above_direct h hdirect hlt (by rw [hspace]; exact Nat.zero_le _)

/-! ### The direct slots -/

theorem getElem?_buildTable {t : Tree} {lens : List Nat} (h : LengthsOk t lens) {p v : Nat} (hp : p < 2 ^ t.tableBits)
    (hv : (buildTable t lens).table.getD p 0 = v) : (buildTable t lens).table[p]? = some v := by
  have hlt : p < (buildTable t lens).table.length := by
    rw [buildTable_length h]
    exact hp.trans_le (treeShape t).slots_le
  rw [List.getElem?_eq_getElem hlt, ← hv, List.getD_eq_getElem _ 0 hlt]

/-- The slots whose top bits equal a direct code stand in its code space (41_huffman.md R151). -/
theorem codeSpace_of_slot {lens : List Nat} {tb sym p : Nat} (htb : tb ≤ 16) (hdirect : lens.getD sym 0 ≤ tb)
    (hp : p / 2 ^ (tb - lens.getD sym 0) = canonicalCode lens sym) :
    codeStart lens sym ≤ p * 2 ^ (16 - tb) ∧
      p * 2 ^ (16 - tb) < codeStart lens sym + 2 ^ (16 - lens.getD sym 0) := by
  have hdvd : 2 ^ (16 - lens.getD sym 0) ∣ codeStart lens sym := spaceBefore_dvd lens _ sym
  have hcode : p * 2 ^ (16 - tb) / 2 ^ (16 - lens.getD sym 0) = codeStart lens sym / 2 ^ (16 - lens.getD sym 0) := by
    have hsplit : 2 ^ (16 - lens.getD sym 0) = 2 ^ (tb - lens.getD sym 0) * 2 ^ (16 - tb) := by
      rw [← Nat.pow_add]
      congr 1
      omega
    calc p * 2 ^ (16 - tb) / 2 ^ (16 - lens.getD sym 0) = p / 2 ^ (tb - lens.getD sym 0) := by
          rw [hsplit, Nat.mul_div_mul_right _ _ (Nat.two_pow_pos _)]
      _ = _ := hp
  obtain ⟨hlo, hhi⟩ := (Nat.div_eq_iff (Nat.two_pow_pos _)).1 hcode
  rw [Nat.div_mul_cancel hdvd] at hlo hhi
  have := Nat.two_pow_pos (16 - lens.getD sym 0)
  omega

/-- Settles O18: the walk of 16 bits that begin with a direct code ends at its slot, and above the direct codes the slots
stay 0. -/
theorem directSlotsHoldTheirSymbols : Obligations.DirectSlotsHoldTheirSymbols := by
  intro t lens h hok
  have htb := (treeShape t).tb_le
  refine ⟨fun sym p h1 hdirect hp hcode => ?_, fun hdirect p hp habove => ?_⟩
  · obtain ⟨hlo, hhi⟩ := codeSpace_of_slot htb hdirect hcode
    obtain ⟨d, hd, hw⟩ := buildTable_codes h hok h1 (.inl hdirect) _ hlo hhi
    obtain rfl : d = 0 := by omega
    have hslot := hw.2
    rw [walkAt, Nat.mul_div_cancel _ (Nat.two_pow_pos _)] at hslot
    exact getElem?_buildTable h hp hslot
  · have hlt : codeSpaceBelow lens t.tableBits < 2 ^ 16 := calc
      _ ≤ p * 2 ^ (16 - t.tableBits) := habove
      _ < 2 ^ t.tableBits * 2 ^ (16 - t.tableBits) := Nat.mul_lt_mul_of_pos_right hp (Nat.two_pow_pos _)
      _ = 2 ^ 16 := by rw [← Nat.pow_add, Nat.add_sub_cancel' htb]
    exact getElem?_buildTable h hp (buildTable_getD_above_direct h hdirect hlt habove)

/-! ### Decoding through a completed table -/

theorem lengthsOk_getD_le {t : Tree} {lens : List Nat} (h : LengthsOk t lens) (sym : Nat) : lens.getD sym 0 ≤ 16 := by
  rw [List.getD_eq_getElem?_getD]
  cases hl : lens[sym]? with
  | none => exact Nat.zero_le _
  | some l => exact h.le l (List.mem_of_getElem? hl)

/-- `DecodeSymbol` answers the symbol on which the walk of the next 16 bits ends, and consumes its length (41_huffman.md
R157). -/
theorem decodeSymbol_consumes {t : Tree} {lens T : List Nat} {r : Reader} (h : LengthsOk t lens) (hr : ReaderOk r)
    {d v : Nat} (hw : WalkEnds t.tableBits (firstNode t.tableBits t.maxSymbols) T (bitsValue (bitsAhead r 16)) d v)
    (hd : d ≤ 16 - t.tableBits) (hv : v < t.maxSymbols) :
    ∃ r', decodeSymbol t lens T r = .ok v r' ∧ Consumed (lens.getD v 0) r r' := by
  refine ⟨_, decodeSymbol_of_walkEnds hr hw hd hv, ?_⟩
  have hpeek := consumed_getDesyncBits hr t.tableBits (Nat.zero_le 16)
  have h32 : lens.getD v 0 ≤ 32 := (lengthsOk_getD_le h v).trans (by decide)
  have hread := (getSyncBits_spec (readerOk_getDesyncBits hr t.tableBits 0) h32).2
  simpa only [Nat.zero_add] using Consumed.trans hpeek hread

/-- Where no code stands ahead, the next 16 bits lie above the code space of all codes. -/
theorem codeSpace_le_of_unassigned {lens : List Nat} {r : Reader} {n : Nat} (hn : n ≤ 16)
    (h : ∀ sym, lens.getD sym 0 ≠ 0 → bitsAhead r (lens.getD sym 0) ≠ symbolBits lens sym) :
    codeSpaceBelow lens n ≤ bitsValue (bitsAhead r 16) := by
  refine Nat.le_of_not_lt fun hX => ?_
  obtain ⟨y, h1, hyn, hlo, hhi⟩ := exists_code hX
  exact h y (Nat.ne_of_gt h1) (bitsAhead_of_codeSpace r (hyn.trans hn) hlo hhi)

/-- Settles O19: every walk through a completed table ends on a symbol, and above all codes on the symbol 0. -/
theorem completedTablesNeverOverrun : Obligations.CompletedTablesNeverOverrun := by
  intro t lens r h hok hr
  have hX := bitsAhead_lt r 16
  refine ⟨?_, fun hnone => ?_⟩
  · obtain ⟨d, v, hd, hv, hw⟩ := buildTable_walks h hok _ hX
    obtain ⟨r', e, hc⟩ := decodeSymbol_consumes h hr hw hd hv
    exact ⟨v, r', e, hv, hc⟩
  · rcases buildTableOf_ok (treeShape t) h.size.le hok with ⟨hfull, -⟩ | ⟨-, ht⟩
    · exact absurd (codeSpace_le_of_unassigned (treeShape t).tb_le hnone) (by rw [hfull]; omega)
    · obtain ⟨d, hd, hw, -⟩ :=
        ht.walks.ahead _ hX ((spaceBefore_all lens).trans_le (codeSpace_le_of_unassigned (Nat.le_refl 16) hnone))
      exact decodeSymbol_consumes h hr hw hd (treeShape t).symbol

end Sys2Proof.Machine
end

section
/-! The length runs: PRETREE_LENGTHS opens one, a pretree operation writes its entries, and the last one ends it
(41_huffman.md R160 to R167; 42_block_header.md R186). -/

namespace Sys2Proof.Machine

open Sys2Proof.Safety

/-! ### Where a run stands -/

/-- The loop of `ReadLengths` goes on below the end of its run (41_huffman.md R160). -/
theorem continueRun_inside {s : State} (h : s.index < s.run.last s.windowBits.toNat) :
    continueRun s = .next { s with phase := .ptop } := if_pos h

theorem continueRun_end {s : State} (h : s.run.last s.windowBits.toNat ≤ s.index) : continueRun s = endRun s :=
  if_neg (Nat.not_lt.2 h)

/-- Every run has an index, for every legal window (42_block_header.md R186). -/
theorem run_first_lt_last (run : Run) {wb : Nat} (h1 : 15 ≤ wb) (h2 : wb ≤ 21) : run.first < run.last wb := by
  cases run with
  | mainLiterals => decide +revert
  | mainMatches => interval_cases wb <;> decide
  | lengths => decide +revert

/-- A build that raises no fault goes on with the valid table (41_huffman.md R151). -/
theorem buildThen_of_ok {t : Tree} (k : State → StepResult) {s : State} (h : (buildTable t (lensOf t s)).ok = true) :
    buildThen t k s = k (setBook t { table := (buildTable t (lensOf t s)).table, valid := true } s) := by
  simp only [buildThen, h, if_true]

/-- A build that overflows raises TABLE_OVERFLOW, with the flag 0 (41_huffman.md R154; log 9). -/
theorem buildThen_of_overflow {t : Tree} (k : State → StepResult) {s : State}
    (h : (buildTable t (lensOf t s)).ok = false) :
    buildThen t k s = .next (raiseFault .tableOverflow (BitVec.ofNat 32 t.infoCode)
      (setBook t { table := (buildTable t (lensOf t s)).table, valid := false } s)) := by
  simp only [buildThen, h, Bool.false_eq_true, if_false]

/-- Settles O25: the build's two outcomes; the run opened has an index to read. -/
theorem pretreeLengthsStartTheRun : Obligations.PretreeLengthsStartTheRun := by
  intro s ps _ hwb1 hwb2
  refine ⟨fun hok => ?_, fun hover => ?_⟩
  · have hfirst : (if s.run = .mainMatches then 256 else 0) = s.run.first := by cases s.run <;> rfl
    rw [hfirst]
    show execPretreeLengths ps s = _
    exact (buildThen_of_ok _ hok).trans (continueRun_inside (run_first_lt_last s.run hwb1 hwb2))
  · show ∃ t, execPretreeLengths ps s = _ ∧ _
    exact ⟨_, buildThen_of_overflow _ hover, rfl, rfl⟩

/-! ### The entries of a run -/

/-- The array of a run once `count` entries from the index on have taken the value `v`, writes past the array dropped
(41_huffman.md R161 to R165). -/
def EntriesWritten (s : State) (v : Fin 17) (count : Nat) (lens : List (Fin 17)) : Prop :=
  ∀ j, lens[j]? =
    if s.index ≤ j ∧ j < s.index + count ∧ j < s.run.tree.maxSymbols then some v else (runLengths s.run s)[j]?

theorem runLengths_main {run : Run} (h : run ≠ .lengths) (s : State) : runLengths run s = s.mainLengths := by
  cases run
  case lengths => exact absurd rfl h
  all_goals rfl

theorem setRunLengths_main {run : Run} (h : run ≠ .lengths) (lens : List (Fin 17)) (s : State) :
    setRunLengths run lens s = { s with mainLengths := lens } := by
  cases run
  case lengths => exact absurd rfl h
  all_goals rfl

theorem setRunLengths_lengths {run : Run} (h : run = .lengths) (lens : List (Fin 17)) (s : State) :
    setRunLengths run lens s = { s with lengthLengths := lens } := by
  rw [h]
  rfl

section Writes

variable {s : State} {v : Fin 17} {count : Nat} {lens : List (Fin 17)}
variable (hm : s.mainLengths.length = 656) (hl : s.lengthLengths.length = 250)
include hm hl

theorem entriesWritten_writeRun :
    EntriesWritten s v count (writeRun s.run.tree.maxSymbols v count s.index (runLengths s.run s)) :=
  writeRun_getElem _ _ _ _ _ (runLengths_length hm hl)

theorem EntriesWritten.writeRun_eq (h : EntriesWritten s v count lens) :
    writeRun s.run.tree.maxSymbols v count s.index (runLengths s.run s) = lens :=
  writeRun_eq_of_getElem (runLengths_length hm hl) h

theorem EntriesWritten.length_eq (h : EntriesWritten s v count lens) : lens.length = s.run.tree.maxSymbols := by
  rw [← h.writeRun_eq hm hl, writeRun_length, runLengths_length hm hl]

/-- In a run over MAIN the entries written determine the state. -/
theorem writeEntries_main (hr : s.run ≠ .lengths) (h : EntriesWritten s v count lens) :
    writeEntries v count s = { s with mainLengths := lens, index := s.index + count } := by
  rw [writeEntries, h.writeRun_eq hm hl, setRunLengths_main hr]

/-- In the run over LENGTH likewise. -/
theorem writeEntries_lengths (hr : s.run = .lengths) (h : EntriesWritten s v count lens) :
    writeEntries v count s = { s with lengthLengths := lens, index := s.index + count } := by
  rw [writeEntries, h.writeRun_eq hm hl, setRunLengths_lengths hr]

end Writes

/-! ### An operation inside its run -/

/-- Settles O26: the entries are written, and the run goes on below its end. -/
theorem pretreeOpsWriteTheirEntries : Obligations.PretreeOpsWriteTheirEntries := by
  intro s i count value hop hm hl hin
  have hw := entriesWritten_writeRun (v := value (currentLength s)) (count := count) hm hl
  refine ⟨_, (exec_pretreeOp hop).trans (continueRun_inside (by simpa using hin)), ?_⟩
  by_cases hr : s.run = .lengths
  · rw [writeEntries_lengths hm hl hr hw]
    exact ⟨rfl, fun _ => rfl, fun h => absurd hr h,
      fun j => (congrArg (fun run => (runLengths run _)[j]?) hr).trans (hw j)⟩
  · rw [writeEntries_main hm hl hr hw]
    exact ⟨rfl, fun h => absurd h hr, fun _ => rfl,
      fun j => (congrArg (·[j]?) (runLengths_main hr _)).trans (hw j)⟩

theorem lessDelta_zero (old : Fin 17) : lessDelta old 0 = old := by
  revert old
  decide

/-- The entry at the index written over itself leaves the array as it was. -/
theorem entriesWritten_self {s : State} (hm : s.mainLengths.length = 656) (hl : s.lengthLengths.length = 250) :
    EntriesWritten s (currentLength s) 1 (runLengths s.run s) := by
  intro j
  rw [runLengths_length hm hl]
  split
  · next h =>
    obtain rfl : j = s.index := by omega
    rw [currentLength, List.getD_eq_getElem _ 0 h.2.2, List.getElem?_eq_getElem h.2.2]
  · rfl

/-- Settles O29: a zero delta writes the entry at the index over itself. -/
theorem zeroDeltaIsIdempotent : Obligations.ZeroDeltaIsIdempotent := by
  intro s hm hl hin
  have hself := entriesWritten_self hm hl
  rw [exec_pretreeOp (i := .ptDelta 0) rfl, lessDelta_zero, continueRun_inside (by simpa using hin)]
  by_cases hr : s.run = .lengths
  · rw [writeEntries_lengths hm hl hr hself, hr]
    rfl
  · rw [writeEntries_main hm hl hr hself, runLengths_main hr]

/-! ### The operation that ends a run -/

/-- After the main runs `intelStarted` is set where symbol 0xE8 has a code (42_block_header.md R186). -/
theorem activateIntel_eq {s : State} (h : 0xE8 < s.mainLengths.length) :
    activateIntel s =
      { s with intelStarted := s.intelStarted || decide (s.mainLengths[0xE8]? ≠ some 0) } := by
  have hget : s.mainLengths[0xE8]? = some (s.mainLengths.getD 0xE8 0) := by
    rw [List.getElem?_eq_getElem h, List.getD_eq_getElem _ 0 h]
  rw [hget, activateIntel]
  generalize s.mainLengths.getD 0xE8 0 = l
  by_cases h0 : l = 0 <;> simp [h0]

section LastOperation

variable {s : State} {i : Instr} {count : Nat} {value : Fin 17 → Fin 17} {lens : List (Fin 17)}
variable (hop : pretreeOp? i = some (count, value))
variable (hm : s.mainLengths.length = 656) (hl : s.lengthLengths.length = 250)
variable (hend : s.run.last s.windowBits.toNat ≤ s.index + count)
variable (hw : EntriesWritten s (value (currentLength s)) count lens)
include hop hm hl hend hw

theorem exec_last_mainLiterals (hr : s.run = .mainLiterals) :
    exec i s =
      .next { s with mainLengths := lens, index := s.index + count, run := .mainMatches, phase := .pretree } := by
  rw [exec_pretreeOp hop, writeEntries_main hm hl (by simp [hr]) hw, continueRun_end hend, endRun, hr]

theorem exec_last_mainMatches (hr : s.run = .mainMatches) :
    exec i s = buildThen .main (fun u => .next { activateIntel u with run := .lengths, phase := .pretree })
      { s with mainLengths := lens, index := s.index + count } := by
  rw [exec_pretreeOp hop, writeEntries_main hm hl (by simp [hr]) hw, continueRun_end hend, endRun, hr]

theorem exec_last_lengths (hr : s.run = .lengths) :
    exec i s = buildThen .length (fun u => .next { u with phase := .fill })
      { s with lengthLengths := lens, index := s.index + count } := by
  rw [exec_pretreeOp hop, writeEntries_lengths hm hl hr hw, continueRun_end hend, endRun, hr]

end LastOperation

/-- Settles O27: the three ends of a run, where the build raises no fault. -/
theorem lastPretreeOpEndsTheRun : Obligations.LastPretreeOpEndsTheRun := by
  intro s i count value hop hm hl _ hend lens hw
  refine ⟨exec_last_mainLiterals hop hm hl hend hw, fun hr hok => ?_, fun hr hok => ?_⟩
  · have hlen : lens.length = 656 := (EntriesWritten.length_eq hm hl hw).trans (by rw [hr]; rfl)
    rw [exec_last_mainMatches hop hm hl hend hw hr]
    refine (buildThen_of_ok _ hok).trans ?_
    rw [activateIntel_eq (hlen.symm ▸ (by decide : 0xE8 < 656))]
    rfl
  · rw [exec_last_lengths hop hm hl hend hw hr]
    exact buildThen_of_ok _ hok

/-- Settles O28: the ends of the last two runs, where the build overflows. -/
theorem overflowingRunFaults : Obligations.OverflowingRunFaults := by
  intro s i count value hop hm hl _ hend lens hw
  refine ⟨fun hr hover => ?_, fun hr hover => ?_⟩
  · rw [exec_last_mainMatches hop hm hl hend hw hr]
    exact ⟨_, buildThen_of_overflow _ hover, rfl, rfl⟩
  · rw [exec_last_lengths hop hm hl hend hw hr]
    exact ⟨_, buildThen_of_overflow _ hover, rfl, rfl⟩

end Sys2Proof.Machine
end

section
/-! The header elements: the file-size hint, the kind and the body of a block, the aligned lengths, and the repeat
registers of an Uncompressed block (42_block_header.md R181 to R189). -/

namespace Sys2Proof.Machine

open Sys2Proof.Safety

/-- Fields side by side weigh like the digits of a number (42_block_header.md R182; 20_memory.md R64). -/
theorem toNat_append_eq_add {m n : Nat} (x : BitVec m) (y : BitVec n) : (x ++ y).toNat = x.toNat * 2 ^ n + y.toNat := by
  rw [BitVec.toNat_append, ← Nat.shiftLeft_add_eq_or_of_lt y.isLt, Nat.shiftLeft_eq]

/-! ### ALIGNED_LENGTHS -/

/-- An ALIGNED length has three bits, so every code is direct (41_huffman.md R150). -/
theorem alignedLengths_direct (ls : List (BitVec 3)) : ∀ l ∈ ls.map BitVec.toNat, l ≤ Tree.aligned.tableBits := by
  intro l hl
  obtain ⟨x, -, rfl⟩ := List.mem_map.1 hl
  exact Nat.le_of_lt_succ x.isLt

/-- Direct codes build exactly where they fit (41_huffman.md R151, R154). -/
theorem buildTable_ok_iff_of_direct {t : Tree} {lens : List Nat} (h : LengthsOk t lens)
    (hd : ∀ l ∈ lens, l ≤ t.tableBits) : (buildTable t lens).ok = true ↔ CodeFits lens := by
  refine ⟨fun hok => Nat.le_of_not_lt fun hover => ?_, buildTable_ok_of_direct h hd⟩
  rw [codeSpaceBelow_of_le hd (treeShape t).tb_le] at hover
  exact absurd hok (Bool.eq_false_iff.1 ((overfullCodesOverflow t lens h).1 hover))

/-- Settles O23: the codes are all direct, so the build succeeds exactly where they fit. -/
theorem alignedLengthsBuildOrOverflow : Obligations.AlignedLengthsBuildOrOverflow := by
  intro s ls hlen
  have hdirect := alignedLengths_direct ls
  have hok : LengthsOk .aligned (ls.map BitVec.toNat) :=
    ⟨(List.length_map _).trans hlen, fun l hl => (hdirect l hl).trans (treeShape .aligned).tb_le⟩
  have hbuild := buildTable_ok_iff_of_direct hok hdirect
  refine ⟨fun hfits => ?_, fun hover => ?_⟩
  · show execAlignedLengths ls s = _
    exact buildThen_of_ok _ (hbuild.2 hfits)
  · show ∃ t, execAlignedLengths ls s = _ ∧ _
    exact ⟨_, buildThen_of_overflow _ (Bool.eq_false_iff.2 (mt hbuild.1 hover)), rfl, rfl⟩

/-! ### E8_PREAMBLE -/

theorem toNat_fileSizeHint (hi lo : BitVec 16) :
    (fileSizeHint hi lo).toNat =
      if hi.toNat * 2 ^ 16 + lo.toNat < 2 ^ 31 then hi.toNat * 2 ^ 16 + lo.toNat else 0 := by
  rw [fileSizeHint, toNat_append_eq_add]
  split
  · next h => exact (BitVec.toNat_ofNat _ _).trans (Nat.mod_eq_of_lt h)
  · rfl

/-- Settles O20: the hint is the two halves as one number, where that is below `2^31`. -/
theorem e8PreambleStoresTheHint : Obligations.E8PreambleStoresTheHint :=
  fun _ hi lo => ⟨rfl, _, rfl, rfl, toNat_fileSizeHint hi lo⟩

/-! ### BLOCK_HEADER -/

/-- The codes that name a kind, under either map (42_block_header.md R183; 30_encoding.md R94). -/
theorem kind_of_code {m : BtypeMap} {c : Nat} {kind : BlockType} (hk : kind ≠ .none)
    (h : (m = .lzx ∧ c = kind.code) ∨ (m = .zeroBased ∧ c + 1 = kind.code)) : m.kind c = some kind := by
  cases kind with
  | none => exact absurd rfl hk
  | verbatim | aligned | uncompressed =>
    rcases h with ⟨rfl, rfl⟩ | ⟨rfl, h⟩
    · rfl
    · rw [Nat.eq_sub_of_add_eq h]
      rfl

/-- The codes that name none, under either map (42_block_header.md R183). -/
theorem kind_of_invalid {m : BtypeMap} {c : Nat}
    (h : (m = .lzx ∧ (c = 0 ∨ 4 ≤ c)) ∨ (m = .zeroBased ∧ 3 ≤ c)) : m.kind c = none := by
  rcases h with ⟨rfl, rfl | h⟩ | ⟨rfl, h⟩
  · rfl
  · obtain ⟨k, rfl⟩ := Nat.exists_eq_add_of_le' h
    rfl
  · obtain ⟨k, rfl⟩ := Nat.exists_eq_add_of_le' h
    rfl

section BlockHeader

variable {s : State} {btype : BitVec 3} (hi : BitVec 16) (lo : BitVec 8)

theorem blockKind_of_kind {kind : BlockType} (h : s.params.btypeMap.kind btype.toNat = some kind) :
    blockKind btype s = some kind := by
  rw [blockKind, h]

/-- A code that names no kind reuses the kind of the block before (42_block_header.md R183). -/
theorem blockKind_of_reused (h : s.params.btypeMap.kind btype.toNat = none) (hs : s.blockType ≠ .none) :
    blockKind btype s = some s.blockType := by
  simp only [blockKind, h, if_neg hs]

theorem blockKind_of_first (h : s.params.btypeMap.kind btype.toNat = none) (hs : s.blockType = .none) :
    blockKind btype s = none := by
  simp only [blockKind, h, if_pos hs]

/-- The kind of a header does not hang on the length stored before it (42_block_header.md R182). -/
theorem blockKind_storeLength : blockKind btype (storeLength hi lo s) = blockKind btype s := rfl

theorem exec_blockHeader_kind {kind : BlockType} (h : blockKind btype s = some kind) :
    exec (.blockHeader btype hi lo) s = .next (startBody kind { storeLength hi lo s with blockType := kind }) := by
  show enterBlock btype (storeLength hi lo s) = _
  rw [enterBlock, blockKind_storeLength, h]

theorem exec_blockHeader_invalid (h : blockKind btype s = none) :
    exec (.blockHeader btype hi lo) s =
      .next (raiseFault .invalidBlockType (btype.setWidth 32) (storeLength hi lo s)) := by
  show enterBlock btype (storeLength hi lo s) = _
  rw [enterBlock, blockKind_storeLength, h]

end BlockHeader

theorem toNat_headerLength (hi : BitVec 16) (lo : BitVec 8) : (headerLength hi lo).toNat = hi.toNat * 256 + lo.toNat :=
  toNat_append_eq_add hi lo

/-- Settles O21: the code's own kind or the one reused, and then the body of that kind. -/
theorem blockHeaderResolvesItsKind : Obligations.BlockHeaderResolvesItsKind := by
  intro s btype hi lo kind hk hcode
  have hkind : blockKind btype s = some kind := by
    rcases hcode with ⟨hm, -, -, hc⟩ | ⟨hm, -, hc⟩ | ⟨hm, hc, rfl⟩ | ⟨hm, hc, rfl⟩
    · exact blockKind_of_kind (kind_of_code hk (.inl ⟨hm, hc⟩))
    · exact blockKind_of_kind (kind_of_code hk (.inr ⟨hm, hc⟩))
    · exact blockKind_of_reused (kind_of_invalid (.inl ⟨hm, hc⟩)) hk
    · exact blockKind_of_reused (kind_of_invalid (.inr ⟨hm, hc⟩)) hk
  refine ⟨_, exec_blockHeader_kind hi lo hkind, ?_⟩
  have hlen := toNat_headerLength hi lo
  cases kind with
  | none => exact absurd rfl hk
  | verbatim => exact ⟨rfl, hlen, rfl, fun _ => ⟨rfl, rfl⟩, nofun, nofun⟩
  | aligned => exact ⟨rfl, hlen, rfl, nofun, fun _ => ⟨rfl, rfl⟩, nofun⟩
  | uncompressed => exact ⟨rfl, hlen, rfl, nofun, nofun, fun _ => ⟨rfl, rfl⟩⟩

/-- Settles O22: the code names no kind and there is none to reuse. -/
theorem invalidFirstBlockTypeFaults : Obligations.InvalidFirstBlockTypeFaults := by
  intro s btype hi lo hs hcode
  exact ⟨_, exec_blockHeader_invalid hi lo (blockKind_of_first (kind_of_invalid hcode) hs), rfl,
    toNat_headerLength hi lo, BitVec.toNat_setWidth_of_le (by decide)⟩

/-! ### UNC_REPEATS -/

@[simp] theorem readLE32_buffer (r : Reader) : (readLE32 r).2.buffer = r.buffer := by simp [readLE32]
@[simp] theorem readLE32_total (r : Reader) : (readLE32 r).2.total = r.total := by simp [readLE32]

/-- The little-endian word `k` bytes past the input cursor (20_memory.md R64). -/
def rawWord (r : Reader) (k : Nat) : Nat :=
  (inputByte r k).toNat + 2 ^ 8 * (inputByte r (k + 1)).toNat + 2 ^ 16 * (inputByte r (k + 2)).toNat +
    2 ^ 24 * (inputByte r (k + 3)).toNat

theorem toNat_readLE32 (r : Reader) : (readLE32 r).1.toNat = rawWord r 0 := by
  simp only [readLE32_fst, toNat_append_eq_add, rawWord, Nat.zero_add]
  omega

theorem rawWord_readLE32 (r : Reader) (k : Nat) : rawWord (readLE32 r).2 k = rawWord r (4 + k) := by
  simp only [rawWord, inputByte_readLE32, Nat.add_assoc]

/-- What UNC_REPEATS reads after the resynchronisation: three words one after the other, whatever the bytes are
(30_encoding.md R105; 40_bitreader.md R140). -/
theorem decodeUncRepeats_rawWords (n : Nat) (r : Reader) :
    ∃ r0 r1 r2 r', decodeUncRepeats n r = .elem (.uncRepeats r0 r1 r2) r' ∧
      (r'.buffer = 0 ∧ r'.total = 0 ∧ r'.inseg = r.inseg ∧ r'.segLen = r.segLen) ∧
      (∀ k, inputByte r' k = inputByte (resync n r) (12 + k)) ∧
      r0.toNat = rawWord (resync n r) 0 ∧ r1.toNat = rawWord (resync n r) 4 ∧
      r2.toNat = rawWord (resync n r) 8 := by
  simp only [decodeUncRepeats]
  refine ⟨_, _, _, _, rfl, by simp [resync], fun k => ?_, toNat_readLE32 _, ?_, ?_⟩
  · simp only [inputByte_readLE32, ← Nat.add_assoc]
  · rw [toNat_readLE32, rawWord_readLE32]
  · rw [toNat_readLE32, rawWord_readLE32, rawWord_readLE32]

theorem fetch_uncRepeats {s : State} (h : s.phase = .uncRepeats) :
    fetch s = settle s (decodeUncRepeats s.params.uncRewindBytes s.rd) := by
  simp only [fetch, h]

/-- Settles O24: a step reads the three words after the resynchronisation and executes UNC_REPEATS on them. -/
theorem uncompressedSetupReadsTheRepeats : Obligations.UncompressedSetupReadsTheRepeats := by
  intro s
  refine ⟨fun _ _ _ => rfl, fun hp => ?_⟩
  obtain ⟨r0, r1, r2, r', hread, ⟨hbuffer, htotal, hinseg, hsegLen⟩, hbytes, h0, h1, h2⟩ :=
    decodeUncRepeats_rawWords s.params.uncRewindBytes s.rd
  have hstep : step s = exec (.uncRepeats r0 r1 r2) { s with rd := r' } := by
    simp only [step, fetch_uncRepeats hp, hread, settle]
  exact ⟨_, hstep, rfl, hbuffer, htotal, hinseg, hsegLen, resync s.params.uncRewindBytes s.rd, rfl,
    fun h => if_pos h, fun h => if_neg (Nat.not_lt.2 h), hbytes, h0, h1, h2⟩

end Sys2Proof.Machine
end

section
/-! What the symbol elements do: a literal, a match and a raw byte produce their bytes, and the sub-elements of a match
fill its latch (43_symbols.md R211 to R221; 44_match_copy.md R241 to R246). -/

namespace Sys2Proof.Machine

open Sys2Proof.Safety

/-! ### One byte -/

/-- Settles O30: `Emit` writes the one byte at both positions, and the count goes down by one. -/
theorem literalProducesItsByte : Obligations.LiteralProducesItsByte := fun b _ hout hwin =>
  ⟨_, rfl, rfl, countProduced_toNat 1 _, read_out_emit hout b, read_win_emit hwin b⟩

/-- A pad is due under `UNC_PAD` after a block of odd length (43_symbols.md R221). -/
theorem padDue_iff (s : State) : padDue s = true ↔ s.params.uncPad = true ∧ s.blockLength.toNat % 2 = 1 := by
  simp [padDue]

/-- Settles O35: `Emit` writes the one byte, the count goes down by one, and the pad is due at its end. -/
theorem uncByteProducesItsByte : Obligations.UncByteProducesItsByte := by
  intro b s hout hwin
  refine ⟨_, rfl, rfl, countProduced_toNat 1 _, ?_, read_out_emit hout b, read_win_emit hwin b⟩
  simp only [afterRawByte_phase, padDue_iff, ← BitVec.toNat_inj]
  rfl

/-! ### Matches -/

theorem legalOffset_iff (off : Nat) (s : State) :
    legalOffset off s = true ↔ 1 ≤ off ∧ off ≤ windowSize s ∧ off ≤ history s := by
  simp [legalOffset, and_assoc]

/-- Under TRUNCATE a match copies what fits in `OUT` (44_match_copy.md R246). -/
theorem copyMatch_of_truncate {s : State} (h : s.params.matchOverrun = .truncate) (off len : Nat) :
    copyMatch off len s = copyBytes off (copyLength len s) s := by
  simp only [copyMatch, h]

/-- The state a match copies from, its offset resolved (43_symbols.md R212). -/
def rotated (reps : Repeats) (s : State) : State := { s with reps := reps, phase := .fill }

/-- A match with a legal offset rotates, copies and counts (43_symbols.md R212; 44_match_copy.md R242, R243). -/
theorem finishMatch_of_legal {off : Word} {s : State} (h : legalOffset off.toNat s = true) (reps : Repeats)
    (len : Nat) :
    finishMatch off reps len s = .next (countProduced len (copyMatch off.toNat len (rotated reps s))) :=
  if_pos h

/-- Settles O31: the match comes down to a copy of what fits, and a copy of at most 264 bytes is shorter than the
window. -/
theorem legalMatchCopies : Obligations.LegalMatchCopies := by
  intro s i off reps len hm hwf htrunc hwb hw _ hout hwin h1 hoff hhist
  have hn : min len (s.outLen - s.outPos) ≤ 2 ^ s.windowBits.toNat := calc
    min len (s.outLen - s.outPos) ≤ len := Nat.min_le_left _ _
    _ ≤ 264 := match_length_le hm
    _ ≤ 2 ^ 15 := by decide
    _ ≤ 2 ^ s.windowBits.toNat := Nat.pow_le_pow_right (by decide) hwb
  have hexec : exec i s = .next (countProduced len
      (copyBytes off.toNat (min len (s.outLen - s.outPos)) (rotated reps s))) := by
    rw [exec_match hm hwf, finishMatch_of_legal ((legalOffset_iff _ _).2 ⟨h1, hoff, hhist⟩),
      copyMatch_of_truncate (s := rotated reps s) htrunc]
    rfl
  refine ⟨_, hexec, ?_, ?_, fun k hk => ⟨?_, ?_⟩, fun a ha => ?_, fun a ha => ?_⟩
  · rw [copyBytes_eq, winPos_copyBytes (s := rotated reps s) hw]
    rfl
  · rw [countProduced_toNat, copyBytes_blockRemaining]
    rfl
  · exact read_out_copyBytes_inside (s := rotated reps s) hout hwin hw hn h1 hoff hk
  · exact read_win_copyBytes_inside (s := rotated reps s) hout hwin hw hn hk
  · exact read_out_copyBytes_outside (s := rotated reps s) hout ha
  · exact read_win_copyBytes_outside (s := rotated reps s) hwin hw ha

/-! ### The sub-elements of a match -/

/-- Settles O34: the extra value is the raw part above the aligned symbol. -/
theorem subElementsCompleteTheMatch : Obligations.SubElementsCompleteTheMatch :=
  fun s _ a => ⟨rfl, _, rfl, rfl, toNat_append_eq_add s.pend.raw a⟩

/-! ### What a step does with what it reads -/

/-- The decoding that stands at the engine's place is what a step fetches (30_encoding.md R90; 43_symbols.md R210). -/
theorem fetch_of_reads {s : State} {d : Decoded} (h : ReadsElement s d) : fetch s = settle s d := by
  have hfill : s.phase = .fill → s.outPos < s.outLen → fetch s = settle s (decodeFill s) := fun hp hroom => by
    simp only [fetch, hp, if_neg (Nat.not_le.2 hroom)]
  rcases h with ⟨hp, hroom, hz, hs, hd⟩ | ⟨hp, hroom, hz, hs, hd⟩ | ⟨hp, hroom, hz, hu, hd⟩ |
    ⟨hp, hroom, hz, hu, hd⟩ | h
  · rw [hfill hp hroom, hd, decodeFill, if_pos hz, if_neg (Bool.eq_false_iff.1 hs)]
  · rw [hfill hp hroom, hd, decodeFill, if_pos hz, if_pos hs]
  · rw [hfill hp hroom, hd, decodeFill, if_neg hz, if_pos hu]
  · rw [hfill hp hroom, hd, decodeFill, if_neg hz, if_neg hu]
  · rcases h with ⟨hp, hd⟩ | ⟨hp, hd⟩ | ⟨hp, hd⟩ | ⟨hp, hd⟩ | ⟨hp, hd⟩ | ⟨hp, hd⟩ | ⟨hp, hd⟩ | ⟨hp, hd⟩ <;>
      simp only [fetch, hp, hd]

theorem step_of_reads {s : State} {d : Decoded} {i : Instr} {r : Reader} (h : ReadsElement s d) (e : d = .elem i r) :
    step s = exec i { s with rd := r } := by
  simp only [step, fetch_of_reads h, e, settle]

theorem reads_uncPad {s : State} (hp : s.phase = .uncPad) : ReadsElement s (decodeUncPad s.rd) := by
  simp [ReadsElement, hp]

/-- Settles O2: what is fetched is the decoding, and `settle` says what becomes of it. -/
theorem stepLatchesRaisesOrStops : Obligations.StepLatchesRaisesOrStops := by
  intro s
  refine ⟨fun _ _ _ h => ?_, fun _ _ _ _ _ h => ?_, fun _ _ h => ?_, fun _ h => ?_⟩ <;>
    simp only [step, fetch_of_reads h, settle, raiseFault]

/-- Settles O36: the byte read is the operand, which UNC_PAD ignores. -/
theorem uncPadDiscardsOneByte : Obligations.UncPadDiscardsOneByte := by
  refine fun s x => ⟨rfl, fun hp => ?_⟩
  rw [step_of_reads (reads_uncPad hp) rfl]
  rfl

end Sys2Proof.Machine
end

section
/-! The command that never ends: with the input used up, each header is a zero-length block of the kind before it, whose
set-up reads zeros and produces nothing (43_symbols.md R222; 42_block_header.md R188; 60_exceptions.md R321). -/

namespace Sys2Proof.Machine

open Sys2Proof.Safety

/-! ### A reader with nothing but zeros ahead -/

/-- No bit of the accumulator and no byte at the cursor is set (40_bitreader.md R137). -/
structure Drained (r : Reader) : Prop where
  bytes : ∀ k, inputByte r k = 0
  buffer : r.buffer = 0

theorem drained_refill {r : Reader} (h : Drained r) : Drained (refill r) := by
  rcases Nat.lt_or_ge r.total 16 with ht | ht
  · simp only [refill, if_pos ht]
    refine ⟨fun k => ?_, ?_⟩
    · show inputByte (inByte (inByte r).2).2 k = 0
      rw [inputByte_inByte, inputByte_inByte, h.bytes]
    · simp only [inByte_fst, inputByte_inByte, h.bytes, h.buffer]
      rfl
  · rwa [refill_of_ge ht]

theorem getDesyncBits_drained {r : Reader} (h : Drained r) (n k : Nat) :
    (getDesyncBits n k r).1 = 0 ∧ Drained (getDesyncBits n k r).2 := by
  have hr := drained_refill h
  refine ⟨?_, hr.bytes, ?_⟩ <;> simp [getDesyncBits, hr.buffer]

theorem getSyncBits16_drained {r : Reader} (h : Drained r) (n : Nat) :
    (getSyncBits16 n r).1 = 0 ∧ Drained (getSyncBits16 n r).2 := by
  unfold getSyncBits16
  split
  · exact ⟨rfl, h⟩
  · exact getDesyncBits_drained h n n

/-- A read gives 0 and leaves zeros ahead, over both halves of a split read (40_bitreader.md R134, R137). -/
theorem getSyncBits_drained {r : Reader} (h : Drained r) (n : Nat) :
    (getSyncBits n r).1 = 0 ∧ Drained (getSyncBits n r).2 := by
  unfold getSyncBits
  split
  · exact getSyncBits16_drained h n
  · obtain ⟨hhi, h1⟩ := getSyncBits16_drained h (n - 16)
    obtain ⟨hlo, h2⟩ := getSyncBits16_drained h1 16
    exact ⟨by simp only [hhi, hlo, Nat.zero_mul, Nat.add_zero], h2⟩

theorem getFields_drained {r : Reader} (h : Drained r) (n count : Nat) :
    (getFields n count r).1 = List.replicate count 0 ∧ Drained (getFields n count r).2 := by
  induction count generalizing r with
  | zero => exact ⟨rfl, h⟩
  | succ count ih =>
    obtain ⟨hv, h1⟩ := getSyncBits_drained h n
    obtain ⟨hvs, h2⟩ := ih h1
    exact ⟨by simp only [getFields, hv, hvs, List.replicate_succ], h2⟩

/-- Through a table that begins with 0 the symbol 0 is decoded, whatever its length (41_huffman.md R157). -/
theorem decodeSymbol_drained {t : Tree} {T : List Nat} {r : Reader} (h : Drained r) (hT : T.getD 0 0 = 0)
    (lens : List Nat) : ∃ r', decodeSymbol t lens T r = .ok 0 r' ∧ Drained r' := by
  obtain ⟨hp, h1⟩ := getDesyncBits_drained h t.tableBits 0
  have hms : 0 < t.maxSymbols := by cases t <;> decide
  exact ⟨_, by simp only [decodeSymbol, decodeSymbolOf, hp, hT, if_pos hms]; rfl, (getSyncBits_drained h1 _).2⟩

/-- The raw words of UNC_REPEATS take the cursor back to where it stood before the resynchronisation, or past it
(42_block_header.md R187). -/
theorem inputByte_rewound {r r' : Reader} (hi : r'.inseg = r.inseg) (hl : r'.segLen = r.segLen) {m : Nat}
    (h : r.swath ≤ r'.swath + m) (k : Nat) : inputByte r' (m + k) = inputByte r (r'.swath + m - r.swath + k) := by
  unfold inputByte
  rw [hi, hl, show r'.swath + (m + k) = r.swath + (r'.swath + m - r.swath + k) by omega]

/-! ### The elements read from zeros -/

theorem decodeHeader_drained {r : Reader} (h : Drained r) :
    ∃ r', decodeHeader r = .elem (.blockHeader 0 0 0) r' ∧ Drained r' := by
  obtain ⟨hb, h1⟩ := getSyncBits_drained h 3
  obtain ⟨hhi, h2⟩ := getSyncBits_drained h1 16
  obtain ⟨hlo, h3⟩ := getSyncBits_drained h2 8
  exact ⟨_, by simp only [decodeHeader, hb, hhi, hlo, BitVec.ofNat_eq_ofNat], h3⟩

theorem decodeAlignedLengths_drained {r : Reader} (h : Drained r) :
    ∃ r', decodeAlignedLengths r = .elem (.alignedLengths (List.replicate 8 0)) r' ∧ Drained r' := by
  obtain ⟨hls, h1⟩ := getFields_drained h 3 8
  exact ⟨_, by simp only [decodeAlignedLengths, hls, List.map_replicate, BitVec.ofNat_eq_ofNat], h1⟩

theorem decodePretreeLengths_drained {r : Reader} (h : Drained r) :
    ∃ r', decodePretreeLengths r = .elem (.pretreeLengths (List.replicate 20 0)) r' ∧ Drained r' := by
  obtain ⟨hps, h1⟩ := getFields_drained h 4 20
  exact ⟨_, by simp only [decodePretreeLengths, hps, List.map_replicate, BitVec.ofNat_eq_ofNat], h1⟩

theorem decodePtop_drained {cb : CodeBook} {r : Reader} (h : Drained r) (hv : cb.book.valid = true)
    (hT : cb.book.table.getD 0 0 = 0) : ∃ r', decodePtop cb r = .elem (.ptDelta 0) r' ∧ Drained r' := by
  obtain ⟨r', e, h1⟩ := decodeSymbol_drained (t := .pre) h hT cb.lens
  exact ⟨r', by simp only [decodePtop, withSymbol, hv, e]; rfl, h1⟩

/-- An array of zeros builds, and its table begins with 0 (41_huffman.md R155). -/
theorem buildTable_zeros {t : Tree} {lens : List Nat} (h : lens = List.replicate t.maxSymbols 0) :
    (buildTable t lens).ok = true ∧ (buildTable t lens).table.getD 0 0 = 0 := by
  have hzero : ∀ l ∈ lens, l = 0 := fun l hl => List.eq_of_mem_replicate (h ▸ hl)
  have hlens : LengthsOk t lens :=
    ⟨h ▸ List.length_replicate, fun l hl => (hzero l hl).trans_le (Nat.zero_le 16)⟩
  obtain ⟨hok, htable⟩ := (fittingDirectCodesBuild t lens hlens).2 hzero
  refine ⟨hok, ?_⟩
  rw [htable]
  cases t <;> rfl

/-! ### Where the loop of zero headers stands -/

/-- Nothing is left of the block before, code 0 names no kind, and `OUT` has room at the positions given. -/
def BetweenBlocks (outPos outLen : Nat) (s : State) : Prop :=
  s.started = true ∧ s.blockRemaining = 0 ∧ s.params.btypeMap = .lzx ∧ s.outPos = outPos ∧ s.outLen = outLen ∧
    s.outPos < s.outLen

/-- The block before was Uncompressed, and its resynchronisation goes back over no more than the twelve bytes of the
repeat registers. -/
def RawBefore (s : State) : Prop := s.blockType = .uncompressed ∧ s.params.uncRewindBytes ≤ 12

/-- The block before had trees, and the lengths that stand build again. -/
def TreesBefore (s : State) : Prop :=
  TreeKind s ∧ 15 ≤ s.windowBits.toNat ∧ s.windowBits.toNat ≤ 21 ∧ s.mainLengths.length = 656 ∧
    s.lengthLengths.length = 250 ∧ (buildTable .main (lensOf .main s)).ok = true ∧
    (buildTable .length (lensOf .length s)).ok = true

/-- The places of the grammar the loop passes. -/
inductive LoopPlace (s : State) : Prop
  | header (hp : s.phase = .fill) (hk : RawBefore s ∨ TreesBefore s)
  | repeats (hp : s.phase = .uncRepeats) (hk : RawBefore s)
  | aligned (hp : s.phase = .alignedLengths) (hk : TreesBefore s)
  | pretree (hp : s.phase = .pretree) (hk : TreesBefore s)
  | delta (hp : s.phase = .ptop) (hk : TreesBefore s) (hin : s.index < s.run.last s.windowBits.toNat)
      (hv : s.preBook.valid = true) (hT : s.preBook.table.getD 0 0 = 0)

/-- The loop of zero headers, at positions of `OUT` that stay. -/
structure ZeroLoop (outPos outLen : Nat) (s : State) : Prop where
  input : Drained s.rd
  between : BetweenBlocks outPos outLen s
  place : LoopPlace s

theorem LoopPlace.phase_ne_idle {s : State} (h : LoopPlace s) : s.phase ≠ .idle := by
  cases h with
  | header hp | repeats hp | aligned hp | pretree hp | delta hp => rw [hp]; decide

/-! ### A step of the loop -/

section Loop

variable {outPos outLen : Nat} {s : State}

theorem reads_header (hp : s.phase = .fill) (hb : BetweenBlocks outPos outLen s) :
    ReadsElement s (decodeHeader s.rd) := by
  obtain ⟨hstarted, hzero, -, -, -, hroom⟩ := hb
  exact .inr (.inl ⟨hp, hroom, hzero, hstarted, rfl⟩)

theorem reads_alignedLengths (hp : s.phase = .alignedLengths) : ReadsElement s (decodeAlignedLengths s.rd) := by
  simp [ReadsElement, hp]

theorem reads_pretreeLengths (hp : s.phase = .pretree) : ReadsElement s (decodePretreeLengths s.rd) := by
  simp [ReadsElement, hp]

theorem reads_ptop (hp : s.phase = .ptop) : ReadsElement s (decodePtop (codeBookOf .pre s) s.rd) := by
  simp [ReadsElement, hp]

/-- A header of zeros begins a block of the kind before it (42_block_header.md R183, R188). -/
theorem exec_zeroHeader (hb : BetweenBlocks outPos outLen s) (hk : s.blockType ≠ .none) :
    exec (.blockHeader 0 0 0) s = .next (startBody s.blockType (storeLength 0 0 s)) := by
  obtain ⟨-, -, hmap, -⟩ := hb
  exact exec_blockHeader_kind 0 0 (blockKind_of_reused (kind_of_invalid (.inl ⟨hmap, .inl rfl⟩)) hk)

/-- The block of a zero header is empty, and its body begins as that of the block before did (42_block_header.md
R189). -/
theorem zeroLoop_startBody (hr : Drained s.rd) (hb : BetweenBlocks outPos outLen s) (hk : RawBefore s ∨ TreesBefore s) :
    s.blockType ≠ .none ∧ ZeroLoop outPos outLen (startBody s.blockType (storeLength 0 0 s)) := by
  obtain ⟨hstarted, -, hrest⟩ := hb
  rcases hk with hraw | htrees
  · rw [hraw.1]
    exact ⟨nofun, hr, ⟨hstarted, rfl, hrest⟩, .repeats rfl hraw⟩
  · rcases htrees.1 with hkind | hkind <;> rw [hkind]
    · exact ⟨nofun, hr, ⟨hstarted, rfl, hrest⟩, .pretree rfl htrees⟩
    · exact ⟨nofun, hr, ⟨hstarted, rfl, hrest⟩, .aligned rfl htrees⟩

theorem zeroLoop_header (h : ZeroLoop outPos outLen s) (hp : s.phase = .fill) (hk : RawBefore s ∨ TreesBefore s) :
    ∃ t, step s = .next t ∧ ZeroLoop outPos outLen t := by
  obtain ⟨r, e, hr⟩ := decodeHeader_drained h.input
  obtain ⟨hkind, hloop⟩ := zeroLoop_startBody (s := { s with rd := r }) hr h.between hk
  rw [step_of_reads (reads_header hp h.between) e]
  exact ⟨_, exec_zeroHeader (s := { s with rd := r }) h.between hkind, hloop⟩

/-- The twelve bytes of the repeat registers reach at least as far as the input did (42_block_header.md R187). -/
theorem zeroLoop_repeats (h : ZeroLoop outPos outLen s) (hp : s.phase = .uncRepeats) (hk : RawBefore s) :
    ∃ t, step s = .next t ∧ ZeroLoop outPos outLen t := by
  obtain ⟨t, hstep, ht, hbuffer, -, -, -, r, hr, hback, hstay, hbytes, -⟩ := (uncompressedSetupReadsTheRepeats s).2 hp
  have hswath : s.rd.swath ≤ r.swath + 12 := by
    have := hk.2
    rcases Nat.lt_or_ge 16 s.rd.total with h16 | h16
    · rw [hback h16]; omega
    · rw [hstay h16]; omega
  have hzeros : Drained t.rd := by
    refine ⟨fun k => ?_, hbuffer⟩
    rw [hbytes, inputByte_rewound (r := s.rd) (by rw [hr]) (by rw [hr]) hswath, h.input.bytes]
  refine ⟨t, hstep, ?_⟩
  rw [ht]
  exact ⟨hzeros, h.between, .header rfl (.inl hk)⟩

theorem zeroLoop_aligned (h : ZeroLoop outPos outLen s) (hp : s.phase = .alignedLengths) (hk : TreesBefore s) :
    ∃ t, step s = .next t ∧ ZeroLoop outPos outLen t := by
  obtain ⟨r, e, hr⟩ := decodeAlignedLengths_drained h.input
  have hfits : CodeFits ((List.replicate 8 (0 : BitVec 3)).map BitVec.toNat) := by
    unfold CodeFits
    decide
  rw [step_of_reads (reads_alignedLengths hp) e]
  exact ⟨_, (alignedLengthsBuildOrOverflow _ _ List.length_replicate).1 hfits, hr, h.between, .pretree rfl hk⟩

/-- Lengths of zeros build the pretree, and the run is opened at its first index (41_huffman.md R155, R160). -/
theorem exec_zeroPretree (h1 : 15 ≤ s.windowBits.toNat) (h2 : s.windowBits.toNat ≤ 21) :
    ∃ T : List Nat, T.getD 0 0 = 0 ∧ exec (.pretreeLengths (List.replicate 20 0)) s = .next { s with
      preLengths := List.replicate 20 0
      preBook := { table := T, valid := true }
      index := s.run.first
      phase := .ptop } := by
  obtain ⟨hok, hT⟩ := buildTable_zeros (t := .pre)
    (lens := lensOf .pre { s with preLengths := List.replicate 20 0 }) List.map_replicate
  refine ⟨_, hT, ?_⟩
  show execPretreeLengths (List.replicate 20 0) s = _
  rw [execPretreeLengths, buildThen_of_ok _ hok]
  exact continueRun_inside (run_first_lt_last s.run h1 h2)

theorem zeroLoop_pretree (h : ZeroLoop outPos outLen s) (hp : s.phase = .pretree) (hk : TreesBefore s) :
    ∃ t, step s = .next t ∧ ZeroLoop outPos outLen t := by
  obtain ⟨r, e, hr⟩ := decodePretreeLengths_drained h.input
  have ⟨_, hwb1, hwb2, _⟩ := hk
  obtain ⟨T, hT, hexec⟩ := exec_zeroPretree (s := { s with rd := r }) hwb1 hwb2
  rw [step_of_reads (reads_pretreeLengths hp) e]
  exact ⟨_, hexec, hr, h.between, .delta rfl hk (run_first_lt_last s.run hwb1 hwb2) rfl hT⟩

/-- A zero delta at the last index of a run ends it with every length as it was, and the tables build as they did
(42_block_header.md R186). -/
theorem exec_lastZeroDelta (hk : TreesBefore s) (hin : s.index < s.run.last s.windowBits.toNat)
    (hend : s.run.last s.windowBits.toNat ≤ s.index + 1) :
    ∃ (p : Phase) (run : Run) (main length : Book) (c : Bool), (p = .pretree ∨ p = .fill) ∧
      exec (.ptDelta 0) s = .next { s with
        mainBook := main
        lengthBook := length
        index := s.index + 1
        intelStarted := c
        run := run
        phase := p } := by
  obtain ⟨-, -, -, hm, hl, hmain, hlength⟩ := hk
  have hself := entriesWritten_self hm hl
  rw [← lessDelta_zero (currentLength s)] at hself
  have hlast := lastPretreeOpEndsTheRun s (.ptDelta 0) 1 (lessDelta · 0) rfl hm hl hin hend
  cases hr : s.run with
  | mainLiterals =>
    rw [runLengths_main (by simp [hr])] at hself
    exact ⟨_, _, _, _, _, .inl rfl, (hlast _ hself).1 hr⟩
  | mainMatches =>
    rw [runLengths_main (by simp [hr])] at hself
    exact ⟨_, _, _, _, _, .inl rfl, (hlast _ hself).2.1 hr hmain⟩
  | lengths =>
    rw [show runLengths s.run s = s.lengthLengths by rw [hr]; rfl] at hself
    exact ⟨_, _, _, _, _, .inr rfl, (hlast _ hself).2.2 hr hlength⟩

theorem zeroLoop_delta (h : ZeroLoop outPos outLen s) (hp : s.phase = .ptop) (hk : TreesBefore s)
    (hin : s.index < s.run.last s.windowBits.toNat) (hv : s.preBook.valid = true)
    (hT : s.preBook.table.getD 0 0 = 0) : ∃ t, step s = .next t ∧ ZeroLoop outPos outLen t := by
  obtain ⟨r, e, hr⟩ := decodePtop_drained (cb := codeBookOf .pre s) h.input hv hT
  rw [step_of_reads (reads_ptop hp) e]
  rcases Nat.lt_or_ge (s.index + 1) (s.run.last s.windowBits.toNat) with hnext | hend
  · have ⟨_, _, _, hm, hl, _⟩ := hk
    exact ⟨_, zeroDeltaIsIdempotent { s with rd := r } hm hl hnext, hr, h.between, .delta rfl hk hnext hv hT⟩
  · obtain ⟨p, run, main, length, c, rfl | rfl, hexec⟩ := exec_lastZeroDelta (s := { s with rd := r }) hk hin hend
    · exact ⟨_, hexec, hr, h.between, .pretree rfl hk⟩
    · exact ⟨_, hexec, hr, h.between, .header rfl (.inr hk)⟩

theorem zeroLoop_step (h : ZeroLoop outPos outLen s) : ∃ t, step s = .next t ∧ ZeroLoop outPos outLen t := by
  cases h.place with
  | header hp hk => exact zeroLoop_header h hp hk
  | repeats hp hk => exact zeroLoop_repeats h hp hk
  | aligned hp hk => exact zeroLoop_aligned h hp hk
  | pretree hp hk => exact zeroLoop_pretree h hp hk
  | delta hp hk hin hv hT => exact zeroLoop_delta h hp hk hin hv hT

end Loop

/-- What every step answers a next state with and keeps holds after any number of steps. -/
theorem run_keeps {P : State → Prop} (hstep : ∀ s, P s → ∃ t, step s = .next t ∧ P t) (n : Nat) {s : State} (h : P s) :
    ∃ t, Sys2Proof.core.run n s = .next t ∧ P t := by
  induction n generalizing s with
  | zero => exact ⟨s, rfl, h⟩
  | succ n ih =>
    obtain ⟨u, hu, hPu⟩ := hstep s h
    have hcore : Sys2Proof.core.step s = .next u := hu
    simpa only [Host.Core.run, hcore] using ih hPu

/-- Settles O59: the loop of zero headers is kept by every step, and it leaves the positions of `OUT`. -/
theorem zeroHeadersNeverEnd : Obligations.ZeroHeadersNeverEnd := by
  intro s n hp hstarted hzero hroom hmap _ hend hbuffer hk
  have hloop : ZeroLoop s.outPos s.outLen s :=
    ⟨⟨inputByte_past_end hend.ge, hbuffer⟩, ⟨hstarted, hzero, hmap, rfl, rfl, hroom⟩, .header hp hk⟩
  obtain ⟨t, hrun, ht⟩ := run_keeps (fun _ => zeroLoop_step) n hloop
  obtain ⟨-, -, -, hpos, hlen, hlt⟩ := ht.between
  exact ⟨t, hrun, ht.place.phase_ne_idle, hpos, hlen, hlt⟩

end Sys2Proof.Machine
end

section
/-! The match copy at its borders: illegal offsets, and the surplus of a match under CARRY (44_match_copy.md R242 to
R246). -/

namespace Sys2Proof.Machine

open Sys2Proof.Safety

/-! ### Illegal offsets -/

/-- A match with an illegal offset raises BAD_MATCH_OFFSET after the rotation (44_match_copy.md R243). -/
theorem finishMatch_of_illegal {off : Word} {s : State} (h : ¬ legalOffset off.toNat s = true) (reps : Repeats)
    (len : Nat) : finishMatch off reps len s = .next (raiseFault .badMatchOffset off (rotated reps s)) :=
  if_neg h

/-- Settles O32: the offset is outside the legal range, so the match ends in the raise, the rotation done. -/
theorem illegalMatchOffsetFaults : Obligations.IllegalMatchOffsetFaults := by
  intro s i off reps len hm hwf hoff
  have hbad : ¬ legalOffset off.toNat s = true := by
    rw [legalOffset_iff, windowSize, history]
    omega
  rw [exec_match hm hwf, finishMatch_of_illegal hbad]
  rfl

/-! ### The surplus of a match -/

/-- Under CARRY a match copies what fits in `OUT`, and then its surplus (44_match_copy.md R246; log 14). -/
theorem copyMatch_of_carry {s : State} (h : s.params.matchOverrun = .carry) (off len : Nat) :
    copyMatch off len s = copyCarry off (len - copyLength len s) (copyBytes off (copyLength len s) s) := by
  simp only [copyMatch, h]

/-- A match is shorter than every window a stream can have. -/
theorem match_length_le_windowSize {s : State} {i : Instr} {off : Word} {reps : Repeats} {len : Nat}
    (hm : match? s i = some (off, reps, len)) (hwb : 15 ≤ s.windowBits.toNat) : len ≤ windowSize s := calc
  len ≤ 264 := match_length_le hm
  _ ≤ 2 ^ 15 := by decide
  _ ≤ windowSize s := Nat.pow_le_pow_right (by decide) hwb

theorem copyLength_le_len (len : Nat) (s : State) : copyLength len s ≤ len := Nat.min_le_left _ _

/-- The bytes a match of length `len` makes, as a copy with room for all of them puts them in `OUT`. -/
def matchBytes (off len : Nat) (s : State) : List Byte :=
  (List.range len).map fun k => Memory.read (copyBytes off len s).out (s.outPos + k)

@[simp] theorem matchBytes_length (off len : Nat) (s : State) : (matchBytes off len s).length = len := by
  simp [matchBytes]

theorem matchBytes_getElem? {off len k : Nat} (hk : k < len) (s : State) :
    (matchBytes off len s)[k]? = some (Memory.read (copyBytes off len s).out (s.outPos + k)) := by
  simp [matchBytes, hk]

/-- Each byte of a match is the one `off` positions before it (44_match_copy.md R242, R244, R245). -/
theorem matchBytes_back {off len : Nat} {s : State} (hout : Memory.wf s.out = true) (hwin : Memory.wf s.win = true)
    (hw : s.winPos < windowSize s) (hlen : len ≤ windowSize s) (h1 : 1 ≤ off) (hoff : off ≤ windowSize s) {k : Nat}
    (hk : k < len) :
    (matchBytes off len s)[k]? =
      if k < off then some (Memory.read s.win ((s.winPos + k + windowSize s - off) % windowSize s))
      else (matchBytes off len s)[k - off]? := by
  rw [matchBytes_getElem? hk, read_out_copyBytes_inside hout hwin hw hlen h1 hoff hk]
  split
  · rfl
  · rw [matchBytes_getElem? (by omega), Nat.add_sub_assoc (by omega)]

section
variable {off len : Nat} {s : State} (hc : s.params.matchOverrun = .carry)
include hc

/-- The window after a match under CARRY is that of a copy with room for the whole match. -/
theorem window_copyMatch_of_carry :
    (copyMatch off len s).win = (copyBytes off len s).win ∧
      (copyMatch off len s).winPos = (copyBytes off len s).winPos := by
  have h := window_copyCarry off (len - copyLength len s) (copyBytes off (copyLength len s) s)
  rwa [copyBytes_add, Nat.add_sub_cancel' (copyLength_le_len len s), ← copyMatch_of_carry hc] at h

/-- The bytes that fit stand in `OUT`. -/
theorem out_copyMatch_of_carry : (copyMatch off len s).out = (copyBytes off (copyLength len s) s).out := by
  rw [copyMatch_of_carry hc, copyCarry_eq]

/-- A byte that fits is the one a copy with room for the whole match puts there. -/
theorem read_out_copyMatch_of_carry (hout : Memory.wf s.out = true) {k : Nat} (hk : k < copyLength len s) :
    Memory.read (copyMatch off len s).out (s.outPos + k) = Memory.read (copyBytes off len s).out (s.outPos + k) := by
  have hrest := read_out_copyBytes_outside (off := off) (n := len - copyLength len s)
    (wf_out_copyBytes (off := off) (n := copyLength len s) hout) (a := s.outPos + k)
    (.inl (by rw [outPos_copyBytes]; omega))
  rw [copyBytes_add, Nat.add_sub_cancel' (copyLength_le_len len s)] at hrest
  rw [out_copyMatch_of_carry hc, hrest]

/-- The bytes past `outLen` are kept (log 14). -/
theorem carry_copyMatch_of_carry (hout : Memory.wf s.out = true) :
    (copyMatch off len s).carry = s.carry ++ (matchBytes off len s).drop (s.outLen - s.outPos) := by
  rw [copyMatch_of_carry hc, carry_copyCarry (wf_out_copyBytes hout), copyBytes_carry, copyBytes_add,
    Nat.add_sub_cancel' (copyLength_le_len len s), outPos_copyBytes]
  refine congrArg (s.carry ++ ·) (List.ext_getElem ?_ fun k hk _ => ?_)
  · rw [List.length_map, List.length_range, List.length_drop, matchBytes_length, copyLength]
    omega
  · rw [List.length_map, List.length_range] at hk
    have hn : copyLength len s = s.outLen - s.outPos := by
      rw [copyLength] at hk ⊢
      omega
    simp [matchBytes, hn, Nat.add_assoc]

/-- A match under CARRY changes `OUT`, `WIN`, the two positions and the surplus only. -/
theorem copyMatch_eq_of_carry (hout : Memory.wf s.out = true) (hw : s.winPos < windowSize s) :
    copyMatch off len s = { s with
      out := (copyMatch off len s).out
      win := (copyMatch off len s).win
      winPos := (s.winPos + len) % windowSize s
      outPos := s.outPos + copyLength len s
      carry := s.carry ++ (matchBytes off len s).drop (s.outLen - s.outPos) } := by
  rw [← carry_copyMatch_of_carry hc hout, ← winPos_copyBytes hw, ← (window_copyMatch_of_carry hc).2,
    copyMatch_of_carry hc, copyCarry_eq, copyBytes_eq]

end

/-- Settles O33: the match makes the bytes of a copy with room for all of them, and the positions say where each
goes. -/
theorem carriedMatchKeepsItsSurplus : Obligations.CarriedMatchKeepsItsSurplus := by
  intro s i off reps len hm hwf hcarry hwb hw _ hout hwin h1 hoff hhist
  have hlen : len ≤ windowSize s := match_length_le_windowSize hm hwb
  have hc : (rotated reps s).params.matchOverrun = .carry := hcarry
  have hexec : exec i s = .next (countProduced len (copyMatch off.toNat len (rotated reps s))) := by
    rw [exec_match hm hwf, finishMatch_of_legal ((legalOffset_iff _ _).2 ⟨h1, hoff, hhist⟩)]
  obtain ⟨hwinEq, -⟩ := window_copyMatch_of_carry (off := off.toNat) (len := len) hc
  refine ⟨_, matchBytes off.toNat len (rotated reps s), hexec, ?_, ?_, matchBytes_length _ _ _, fun k hk => ?_,
    fun k hk => ?_, fun a ha => ?_, fun k hk => ?_, fun a ha => ?_⟩
  · rw [copyMatch_eq_of_carry hc hout hw]
    rfl
  · rw [countProduced_toNat, copyMatch_blockRemaining]
    rfl
  · exact matchBytes_back (s := rotated reps s) hout hwin hw hlen h1 hoff hk
  · rw [matchBytes_getElem? (by omega), countProduced_out]
    exact congrArg some (read_out_copyMatch_of_carry hc hout hk).symm
  · rw [countProduced_out, out_copyMatch_of_carry hc]
    exact read_out_copyBytes_outside (s := rotated reps s) hout ha
  · rw [matchBytes_getElem? hk, countProduced_win, hwinEq]
    exact congrArg some (read_win_copyBytes_inside (s := rotated reps s) hout hwin hw hlen hk).symm
  · rw [countProduced_win, hwinEq]
    exact read_win_copyBytes_outside (s := rotated reps s) hwin hw ha

end Sys2Proof.Machine
end

section
/-! The window as a mirror of the output: what a stream element does to the output, and each case of a step
(44_match_copy.md R240, R249). -/

namespace Sys2Proof.Machine

open Sys2Proof.Safety

/-! ### What an element does to the output -/

theorem SameOutput.trans {s t u : State} (h : SameOutput s t) (h' : SameOutput t u) : SameOutput s u := by
  obtain ⟨hwin, hwinPos, hout, houtPos⟩ := h
  obtain ⟨hwin', hwinPos', hout', houtPos'⟩ := h'
  exact ⟨hwin'.trans hwin, hwinPos'.trans hwinPos, hout'.trans hout, houtPos'.trans houtPos⟩

theorem sameOutput_buildThen {tree : Tree} {k : State → StepResult} {s t : State}
    (hk : ∀ u, k u = .next t → SameOutput u t) (he : buildThen tree k s = .next t) : SameOutput s t := by
  have hbook : ∀ b, SameOutput s (setBook tree b s) := fun b => by simp [SameOutput]
  rcases buildThen_cases tree k s with ⟨_, e⟩ | ⟨_, e⟩ <;> rw [e] at he
  · exact (hbook _).trans (hk _ he)
  · cases he
    exact hbook _

theorem sameOutput_endRun {s t : State} (he : endRun s = .next t) : SameOutput s t := by
  unfold endRun at he
  split at he
  · cases he
    exact ⟨rfl, rfl, rfl, rfl⟩
  · refine sameOutput_buildThen (fun u hu => ?_) he
    cases hu
    simp [SameOutput]
  · refine sameOutput_buildThen (fun u hu => ?_) he
    cases hu
    exact ⟨rfl, rfl, rfl, rfl⟩

theorem sameOutput_continueRun {s t : State} (he : continueRun s = .next t) : SameOutput s t := by
  unfold continueRun at he
  split at he
  · cases he
    exact ⟨rfl, rfl, rfl, rfl⟩
  · exact sameOutput_endRun he

theorem sameOutput_pretreeOp {v : Fin 17} {count : Nat} {s t : State}
    (he : continueRun (writeEntries v count s) = .next t) : SameOutput s t :=
  SameOutput.trans (by simp [SameOutput]) (sameOutput_continueRun he)

theorem sameOutput_execBlockHeader {btype : BitVec 3} {hi : BitVec 16} {lo : BitVec 8} {s t : State}
    (he : execBlockHeader btype hi lo s = .next t) : SameOutput s t := by
  unfold execBlockHeader enterBlock at he
  split at he
  case h_1 kind _ => cases he; cases kind <;> exact ⟨rfl, rfl, rfl, rfl⟩
  case h_2 => cases he; exact ⟨rfl, rfl, rfl, rfl⟩

theorem sameOutput_execAlignedLengths {ls : List (BitVec 3)} {s t : State} (he : execAlignedLengths ls s = .next t) :
    SameOutput s t := by
  refine sameOutput_buildThen (s := { s with alignedLengths := ls }) (fun u hu => ?_) he
  cases hu
  exact ⟨rfl, rfl, rfl, rfl⟩

theorem sameOutput_execPretreeLengths {ps : List (BitVec 4)} {s t : State} (he : execPretreeLengths ps s = .next t) :
    SameOutput s t :=
  sameOutput_buildThen (s := { s with preLengths := ps })
    (fun u hu => sameOutput_continueRun (s := { u with index := u.run.first }) hu) he

/-- A stream element produces nothing, emits one byte, or ends a match (44_match_copy.md R240). -/
theorem output_exec {i : Instr} {s t : State} (hc : isCommand i = false) (he : exec i s = .next t) :
    SameOutput s t ∨ (∃ b, SameOutput (emit b s) t) ∨ ∃ off reps len, finishMatch off reps len s = .next t := by
  cases i <;> simp only [isCommand, reduceCtorEq] at hc
  case e8PreambleOff | e8PreambleOn | lenFooter | alignedSym | uncRepeats | uncPad =>
    cases he
    exact .inl ⟨rfl, rfl, rfl, rfl⟩
  case blockHeader => exact .inl (sameOutput_execBlockHeader he)
  case alignedLengths => exact .inl (sameOutput_execAlignedLengths he)
  case pretreeLengths => exact .inl (sameOutput_execPretreeLengths he)
  case ptDelta | ptZrun4 | ptZrun5 | ptSame => exact .inl (sameOutput_pretreeOp he)
  case literal b | uncByte b =>
    cases he
    exact .inr (.inl ⟨b, rfl, rfl, rfl, rfl⟩)
  case matchRep0 | matchRep1 | matchRep2 | matchExplicitV | matchExplicitA =>
    exact .inr (.inr ⟨_, _, _, he⟩)

/-! ### The window mirrors the output -/

theorem mirror_of_sameOutput {s t : State} (h : SameOutput s t) (hwb : t.windowBits = s.windowBits) (hm : Mirror s) :
    Mirror t := by
  obtain ⟨hwin, hwinPos, hout, houtPos⟩ := h
  unfold Mirror windowByte windowSize at *
  rwa [hwin, hwinPos, hout, houtPos, hwb]

theorem mirror_finishMatch {off : Word} {reps : Repeats} {len : Nat} {s t : State} (hout : Memory.wf s.out = true)
    (hwin : Memory.wf s.win = true) (hw : s.winPos < windowSize s) (htrunc : s.params.matchOverrun = .truncate)
    (hm : Mirror s) (he : finishMatch off reps len s = .next t) : Mirror t := by
  by_cases hoff : legalOffset off.toNat s = true
  · rw [finishMatch_of_legal hoff, copyMatch_of_truncate (s := rotated reps s) htrunc] at he
    cases he
    exact mirror_copyBytes (s := rotated reps s) hout hwin hw hm
  · rw [finishMatch_of_illegal hoff] at he
    cases he
    exact hm

/-- Under TRUNCATE every stream element keeps the mirror: each byte it produces goes to both memories
(44_match_copy.md R240). -/
theorem mirror_exec {i : Instr} {s t : State} (hi : Inv s) (htrunc : s.params.matchOverrun = .truncate) (hm : Mirror s)
    (hc : isCommand i = false) (he : exec i s = .next t) : Mirror t := by
  have hwb := (frame_exec hc he).windowBits
  have hout := hi.storage.out_wf
  have hwin := hi.storage.win_wf
  have hw := hi.registers.winPos_lt
  rcases output_exec hc he with h | ⟨b, h⟩ | ⟨off, reps, len, h⟩
  · exact mirror_of_sameOutput h hwb hm
  · exact mirror_of_sameOutput h hwb (mirror_emit hout hwin hw hm b)
  · exact mirror_finishMatch hout hwin hw htrunc hm h

/-- A state at rest mirrors, whatever its memories hold. -/
theorem windowMirrorsOut_of_idle {s : State} (h : s.phase = .idle) : WindowMirrorsOut s := fun hp => absurd h hp

theorem phase_execInit {s t : State} (he : execInit s = .next t) : t.phase = .idle := by
  unfold execInit at he
  split at he <;> cases he <;> rfl

/-- With nothing carried a new command starts with an empty `OUT`. -/
theorem windowMirrorsOut_execDecodeBlock {s t : State} (hcarry : s.carry = []) (he : execDecodeBlock s = .next t) :
    WindowMirrorsOut t := by
  unfold execDecodeBlock at he
  split at he
  · cases he
    exact windowMirrorsOut_of_idle rfl
  · split at he <;> cases he
    have hpos : (beginBlock s).outPos = 0 := by simp [beginBlock, hcarry]
    exact fun _ k h1 _ hk => absurd (hpos ▸ hk) (by omega)

/-- DECODE_BLOCK is the one command that leaves the engine inside a command. -/
theorem windowMirrorsOut_exec_command {w : Word} {s t : State} (hp : s.phase = .idle) (hcarry : s.carry = [])
    (he : exec (decodeCommand w) s = .next t) : WindowMirrorsOut t := by
  rcases decodeCommand_cases w with ⟨-, e⟩ | ⟨-, e⟩ | ⟨-, e⟩ | ⟨-, e⟩ | ⟨-, e⟩ | ⟨op, -, e⟩
  case' inr.inr.inr.inr.inr =>
    rw [exec_reserved e] at he
    cases he
    exact windowMirrorsOut_of_idle rfl
  all_goals rw [e] at he
  · exact windowMirrorsOut_of_idle (phase_execInit he)
  · exact windowMirrorsOut_execDecodeBlock hcarry he
  all_goals
    cases he
    exact windowMirrorsOut_of_idle hp

/-- Settles O55: inside a command each case of a step is an element, which keeps the mirror, or touches neither memory; a
command opens an empty `OUT`; and every end of a command leaves the engine idle. -/
theorem stepKeepsTheWindowMirror : Obligations.StepKeepsTheWindowMirror := by
  intro s t hi htrunc hm he
  cases stepped_of_step he with
  | waited _ _ ht => exact ht ▸ hm
  | command w hp _ he =>
    exact windowMirrorsOut_exec_command (s := { s with cmd := none }) hp (hi.registers.carry_empty htrunc) he
  | completed _ ht => exact ht ▸ windowMirrorsOut_of_idle rfl
  | matched hp he => exact fun _ => mirror_exec hi htrunc (hm (by rw [hp]; decide)) rfl he
  | element i r hd he =>
    obtain ⟨-, hr⟩ := good_of_reads hi hd
    exact fun _ => mirror_exec (s := { s with rd := r }) (inv_setReader hi hr) htrunc (hm (phase_ne_idle_of_reads hd))
      (readsAt_of_reads hd).1.not_command he
  | latchedMatch _ _ _ hd ht => exact ht ▸ fun _ => hm (phase_ne_idle_of_reads hd)
  | latchedRaw _ _ _ _ _ hd ht => exact ht ▸ fun _ => hm (phase_ne_idle_of_reads hd)
  | overran _ _ _ ht => exact ht ▸ windowMirrorsOut_of_idle rfl

end Sys2Proof.Machine
end

section
/-! The end of a DECODE_BLOCK: what completion does to the state, where the E8 stage may rewrite `OUT`, and what it
writes there (45_e8_transform.md R260 to R268). -/

namespace Sys2Proof.Machine

open Sys2Proof.Safety

/-! ### The completing step -/

/-- A full `OUT` completes the command at the next step (43_symbols.md R210). -/
theorem step_of_outFull {s : State} (h : OutFull s) : step s = .next (finishBlock s) := by
  obtain ⟨hp, hfull⟩ := h
  simp only [step, fetch, hp, if_pos hfull]

/-- Completion changes `OUT`, the counters, `OUT`'s validity and the phase, and nothing else (45_e8_transform.md R265). -/
theorem finishBlock_eq (s : State) :
    finishBlock s = { s with
      out := (finishBlock s).out
      frames := s.frames + 1
      streamPos := s.streamPos + s.outLen
      nextBlockNo := s.nextBlockNo + 1
      outValid := true
      phase := .idle } := by
  unfold finishBlock e8Stage
  split <;> rfl

/-- With the stage off `OUT` is left whole. -/
theorem finishBlock_out_of_disabled {s : State} (h : ¬ E8Conditions s) : (finishBlock s).out = s.out := by
  rw [← e8Enabled_iff] at h
  simp only [finishBlock, e8Stage, if_neg h]

/-- With the stage on `OUT` is scanned up to `outLen - 10` (45_e8_transform.md R261). -/
theorem finishBlock_out_of_enabled {s : State} (h : E8Conditions s) :
    (finishBlock s).out =
      e8Scan s.streamPos s.intelFileSize.toNat (s.outLen - e8ScanTail) (s.outLen - e8ScanTail) 0 s.out := by
  rw [← e8Enabled_iff] at h
  simp only [finishBlock, e8Stage, if_pos h]

/-- The bounds of the scan: it covers the positions `j` with `j + 10 < outLen`. -/
theorem lt_scanLimit_iff {n j : Nat} : j < n - e8ScanTail ↔ j + 10 < n := Nat.lt_sub_iff_add_lt

/-- No operand reaches the first byte or the last six. A scan with no room before its limit reads nothing. -/
theorem read_finishBlock_ends {s : State} (hwf : Memory.wf s.out = true) {a : Nat} (ha : a = 0 ∨ s.outLen ≤ a + 6) :
    Memory.read (finishBlock s).out a = Memory.read s.out a := by
  by_cases h : E8Conditions s
  · rw [finishBlock_out_of_enabled h]
    by_cases hshort : s.outLen ≤ 10
    · rw [e8ScanTail, Nat.sub_eq_zero_of_le hshort]
      rfl
    · exact read_e8Scan_outside hwf _ _ _ _ _ (by unfold e8ScanTail; omega)
  · rw [finishBlock_out_of_disabled h]

/-- Settles O37: a full `OUT` runs `finishBlock`. -/
theorem completionAdvancesTheCounters : Obligations.CompletionAdvancesTheCounters := fun s hfull hwf =>
  ⟨finishBlock s, step_of_outFull hfull, finishBlock_eq s, finishBlock_out_of_disabled,
    fun _ ha => read_finishBlock_ends hwf ha⟩

/-! ### The stops of the scan -/

/-- Settles O38: the laws of the scan from 0 up to `outLen - 10`: its stops, a scan that meets no E8 byte, and one that
meets a single one. -/
theorem e8BoundaryIsExclusive : Obligations.E8BoundaryIsExclusive := by
  intro s hfull hcond hwf
  have hstep := step_of_outFull hfull
  have hout := finishBlock_out_of_enabled hcond
  refine ⟨?_, fun hnone => ⟨_, hstep, ?_⟩, fun i hi hone => ⟨_, hstep, ?_⟩⟩
  · obtain ⟨stops, hpair, hmem, hscan⟩ := e8Scan_stops hwf s.streamPos s.intelFileSize.toNat
      (s.outLen - e8ScanTail) (s.outLen - e8ScanTail) 0 (by omega)
    refine ⟨_, stops, hstep, hpair, fun j => ?_, hout.trans hscan⟩
    simpa only [Nat.zero_le, true_and, lt_scanLimit_iff] using hmem j
  · exact hout.trans (e8Scan_none _ _ _ fun j _ hj => hnone j (lt_scanLimit_iff.1 hj))
  · exact hout.trans (e8Scan_single _ _ _ hwf (Nat.zero_le i) (lt_scanLimit_iff.2 hi) (by omega)
      ((hone i hi).2 rfl) fun j _ hj hne h8 => hne ((hone j (lt_scanLimit_iff.1 hj)).1 h8))

/-! ### The rewrite of an operand -/

/-- The operand, as its four bytes in falling order of significance (45_e8_transform.md R262). -/
theorem e8Operand_eq_append (out : Memory) (i : Nat) :
    e8Operand out i =
      Memory.read out (i + 4) ++ Memory.read out (i + 3) ++ Memory.read out (i + 2) ++ Memory.read out (i + 1) := by
  have hbytes : Memory.readLE out (i + 1) 4 = (Memory.read out (i + 1)).toNat + 256 * ((Memory.read out (i + 2)).toNat +
      256 * ((Memory.read out (i + 3)).toNat + 256 * (Memory.read out (i + 4)).toNat)) := rfl
  refine BitVec.eq_of_toNat_eq ?_
  simp only [e8Operand, hbytes, BitVec.toNat_ofNat, toNat_append_eq_add]
  omega

theorem e8InRange_iff {cp fileSize : Nat} {abs : Int} :
    e8InRange cp fileSize abs = true ↔ -(cp : Int) ≤ abs ∧ abs < (fileSize : Int) := by
  simp only [e8InRange, Bool.and_eq_true, decide_eq_true_eq]

/-- An operand in range is replaced by the bytes of the relative value modulo 2^32 (45_e8_transform.md R263). -/
theorem read_e8Rewrite_operand {out : Memory} (hwf : Memory.wf out = true) {streamPos fileSize i : Nat}
    (hr : e8InRange (streamPos + i) fileSize (e8Operand out i).toInt = true) {k : Nat} (hk : k < 4) :
    (Memory.read (e8Rewrite streamPos fileSize i out) (i + 1 + k)).toNat =
      ((e8Relative (streamPos + i) fileSize (e8Operand out i).toInt % 2 ^ 32).toNat / 256 ^ k) % 256 := by
  rw [e8Rewrite, if_pos hr, Memory.read_writeLE_inside hwf _ _ _ hk, BitVec.toNat_ofNat, BitVec.toNat_ofInt]
  rfl

/-- Settles O39: the operand is in range, and its four bytes are those of the relative value, or it is not, and stays. -/
theorem e8OperandIsRewritten : Obligations.E8OperandIsRewritten := by
  intro streamPos fileSize i out abs hwf habs
  obtain rfl : abs = (e8Operand out i).toInt := habs.trans (congrArg BitVec.toInt (e8Operand_eq_append out i).symm)
  refine ⟨fun hr => ⟨_, rfl, fun k hk => ?_, fun a ha => ?_⟩, fun hr => ?_⟩
  · exact read_e8Rewrite_operand hwf (e8InRange_iff.2 hr) hk
  · exact read_e8Rewrite_outside hwf streamPos fileSize i ha
  · exact if_neg fun h => by
      obtain ⟨hlow, hhigh⟩ := e8InRange_iff.1 h
      omega

end Sys2Proof.Machine
end

section
/-! The host commands: what a step takes, what each command answers (46_host_commands.md R280 to R286). -/

namespace Sys2Proof.Machine

open Sys2Proof.Safety

/-! ### Reading the content -/

/-- A null `OUT` is read as the single byte 00 (46_host_commands.md R283). -/
theorem contentRange_of_null {s : State} (h : s.outValid = false) (a b : Nat) : contentRange a b s = [0] := by
  simp only [contentRange, h, Bool.false_eq_true, if_false]

/-- A valid `OUT` is read from `a` up to `b`. -/
theorem contentRange_of_valid {s : State} (h : s.outValid = true) (a b : Nat) :
    contentRange a b s = Memory.bytes s.out a (b - a) := if_pos h

/-- A range end given as a number is the clamped argument. -/
theorem toNat_clamp {x lo hi : Int} {n : Nat} (h : (n : Int) = min (max x lo) hi) : (clamp x lo hi).toNat = n := by
  rw [clamp, ← h, Int.toNat_natCast]

/-- The clamped range of `OUT` that a GET_CONTENT reads (46_host_commands.md R283 to R285). -/
def ContentBounds (s : State) (i : Instr) (a b : Nat) : Prop :=
  (i = .getContent ∧ a = 0 ∧ b = s.outLen) ∨
  (i = .getContentFrom ∧ (a : Int) = min (max s.argStart.toInt 0) s.outLen ∧ b = s.outLen) ∨
  (i = .getContentRange ∧ (a : Int) = min (max s.argStart.toInt 0) s.outLen ∧
    (b : Int) = min (max s.argEnd.toInt a) s.outLen)

/-- Each GET_CONTENT stores the range it reads, and nothing else. -/
theorem exec_content {s : State} {i : Instr} {a b : Nat} (h : ContentBounds s i a b) :
    exec i s = .next { s with result := contentRange a b s } := by
  rcases h with ⟨rfl, rfl, rfl⟩ | ⟨rfl, ha, rfl⟩ | ⟨rfl, ha, hb⟩
  · rfl
  · simp only [exec, execGetContentFrom, toNat_clamp ha]
  · have hstart : clamp s.argStart.toInt 0 s.outLen = a := ha.symm
    simp only [exec, execGetContentRange, hstart, Int.toNat_natCast, toNat_clamp hb]

/-- Settles O44: each of the three stores the content range of its bounds, the bytes of `OUT` or the byte 00. -/
theorem getContentReadsOut : Obligations.GetContentReadsOut := by
  intro s i a b h
  refine ⟨_, exec_content h, rfl, rfl, fun hnull => contentRange_of_null hnull a b, fun hvalid => ?_⟩
  simp only [contentRange_of_valid hvalid a b]
  exact ⟨Memory.bytes_length _ _ _, fun k hk => Memory.bytes_getElem _ _ _ hk⟩

/-! ### What a step runs -/

/-- An idle engine waits for the host (46_host_commands.md R280; log 2). -/
theorem step_of_waiting {s : State} (hp : s.phase = .idle) (hc : s.cmd = none) : step s = .next s := by
  simp only [step, fetch, hp, hc]

/-- An idle engine runs the command its written word selects (46_host_commands.md R280). -/
theorem step_of_command {s : State} {w : Word} (hp : s.phase = .idle) (hc : s.cmd = some w) :
    step s = exec (decodeCommand w) { s with cmd := none } := by
  simp only [step, fetch_command hp hc]

/-- A match whose last field has been read is executed (43_symbols.md R217; log 13). -/
theorem step_of_matchReady {s : State} (hp : s.phase = .matchReady) :
    step s = exec (.matchExplicitA s.pend.slot s.pend.lenHdr s.pend.footer s.pend.extra) s := by
  simp only [step, fetch, hp]

/-- Settles O1: one clause per place of the engine. -/
theorem stepRunsTheDecodedInstruction : Obligations.StepRunsTheDecodedInstruction := fun _ =>
  ⟨step_of_waiting, fun _ => step_of_command, step_of_outFull, fun _ _ h => step_of_reads h rfl, step_of_matchReady⟩

/-! ### INIT -/

theorem legalWindow_iff (wb : BitVec 5) : legalWindow wb = true ↔ 15 ≤ wb.toNat ∧ wb.toNat ≤ 21 := by
  simp only [legalWindow, Bool.and_eq_true, decide_eq_true_eq]

/-- The stream that INIT opens with a legal window (46_host_commands.md R281). -/
def openedStream (s : State) : State :=
  { clearContext s with windowBits := s.argWBits, live := true, reps := { r0 := 1, r1 := 1, r2 := 1 } }

/-- With a legal window INIT opens a stream. -/
theorem exec_init_of_legal {s : State} (h : legalWindow s.argWBits = true) : exec .init s = .next (openedStream s) :=
  if_pos h

/-- With any other window INIT raises BAD_WINDOW over the power-on values (46_host_commands.md R281). -/
theorem exec_init_of_illegal {s : State} (h : ¬ legalWindow s.argWBits = true) :
    exec .init s = .next (raiseFault .badWindow (s.argWBits.setWidth 32) (powerOn s)) :=
  if_neg h

/-- No table of an opened stream is built. -/
theorem bookOf_openedStream_valid (tree : Tree) (s : State) : (bookOf tree (openedStream s)).valid = false := by
  cases tree <;> rfl

/-- No table is built after a raise over the power-on values. -/
theorem bookOf_raiseFault_powerOn_valid (tree : Tree) (f : FaultCode) (info : Word) (s : State) :
    (bookOf tree (raiseFault f info (powerOn s))).valid = false := by
  cases tree <;> rfl

/-- Settles O40: the window is legal, and each field of the opened stream is the INIT value or the argument kept. -/
theorem initSetsTheInitValues : Obligations.InitSetsTheInitValues := by
  intro s h1 h2
  refine ⟨openedStream s, exec_init_of_legal ((legalWindow_iff _).2 ⟨h1, h2⟩), ?_⟩
  simp only [bookOf_openedStream_valid, implies_true, true_and]
  and_intros <;> rfl

/-- Settles O41: the window is not legal, and each field is that of power-on or a field of the raise. -/
theorem initRejectsOtherWindows : Obligations.InitRejectsOtherWindows := by
  intro s h
  have hbad : ¬ legalWindow s.argWBits = true := by
    rw [legalWindow_iff]
    omega
  have hinfo : (s.argWBits.setWidth 32).toNat = s.argWBits.toNat := BitVec.toNat_setWidth_of_le (by decide)
  refine ⟨_, exec_init_of_illegal hbad, ?_⟩
  simp only [bookOf_raiseFault_powerOn_valid, raiseFault_faultInfo, hinfo, implies_true, true_and]
  and_intros <;> rfl

/-! ### DECODE_BLOCK -/

/-- `outLen > MAX_OUT_LEN`, where the parameter bounds it (46_host_commands.md R282). -/
theorem exceedsMaxOutLen_iff (s : State) :
    exceedsMaxOutLen s = true ↔ ∃ m, s.params.maxOutLen = some m ∧ (m : Int) < s.argOutLen.toInt := by
  unfold exceedsMaxOutLen argOutLenInt
  cases s.params.maxOutLen <;> simp

/-- An output length of at least 1 and within the bound passes its check. -/
theorem outLen_passes {s : State} (h1 : 1 ≤ s.argOutLen.toInt)
    (hmax : ∀ m, s.params.maxOutLen = some m → s.argOutLen.toInt ≤ (m : Int)) :
    ¬ (s.argOutLen.toInt ≤ 0 ∨ exceedsMaxOutLen s = true) := by
  rw [exceedsMaxOutLen_iff]
  rintro (h0 | ⟨m, hm, hlt⟩)
  · omega
  · exact absurd (hmax m hm) (by omega)

/-- DECODE_BLOCK raises the first check that fails (60_exceptions.md R310). -/
theorem exec_decodeBlock_of_fault {s : State} {f : FaultCode} {info : Word} (h : structuralFault s = some (f, info)) :
    exec .decodeBlock s = .next (raiseFault f info s) := by
  simp only [exec, execDecodeBlock, h]

/-- Settles O42: in each case the checks before it pass, so its own is the first to fail. -/
theorem structuralChecksInOrder : Obligations.StructuralChecksInOrder := by
  intro s code info h
  refine exec_decodeBlock_of_fault ?_
  unfold structuralFault argOutLenInt argBlockNoInt
  rcases h with ⟨hf, rfl, rfl⟩ | ⟨hf, hl, rfl, rfl⟩ | ⟨hf, hl, hseg, rfl, rfl⟩ | ⟨hf, hl, hseg, hout, rfl, rfl⟩ |
    ⟨hf, hl, hseg, h1, hmax, hneg, rfl, rfl⟩ | ⟨hf, hl, hseg, h1, hmax, hpos, hseq, hne, rfl, rfl⟩
  · rw [if_pos hf]
  · rw [if_neg (ne_true_of_eq_false hf), if_pos hl]
  · rw [if_neg (ne_true_of_eq_false hf), if_neg (ne_false_of_eq_true hl), if_pos hseg]
  · rw [← exceedsMaxOutLen_iff] at hout
    rw [if_neg (ne_true_of_eq_false hf), if_neg (ne_false_of_eq_true hl), if_neg hseg, if_pos hout]
  · rw [if_neg (ne_true_of_eq_false hf), if_neg (ne_false_of_eq_true hl), if_neg hseg,
      if_neg (outLen_passes h1 hmax), if_pos hneg]
  · rw [if_neg (ne_true_of_eq_false hf), if_neg (ne_false_of_eq_true hl), if_neg hseg,
      if_neg (outLen_passes h1 hmax), if_neg (Int.not_lt.2 hpos), if_pos ⟨hseq, hne⟩]

/-- The six checks pass (46_host_commands.md R282). -/
theorem structuralFault_eq_none {s : State} (hf : s.faulted = false) (hl : s.live = true) (hseg : s.argSegLen ≠ 0)
    (h1 : 1 ≤ s.argOutLen.toInt) (hmax : ∀ m, s.params.maxOutLen = some m → s.argOutLen.toInt ≤ (m : Int))
    (hpos : 0 ≤ s.argBlockNo.toInt)
    (hseq : s.params.checkSequence = true → s.argBlockNo.toInt = (s.nextBlockNo : Int)) :
    structuralFault s = none := by
  have horder : ¬ (s.params.checkSequence = true ∧ s.argBlockNo.toInt ≠ (s.nextBlockNo : Int)) :=
    fun ⟨hc, hne⟩ => hne (hseq hc)
  unfold structuralFault argOutLenInt argBlockNoInt
  rw [if_neg (ne_true_of_eq_false hf), if_neg (ne_false_of_eq_true hl), if_neg hseg, if_neg (outLen_passes h1 hmax),
    if_neg (Int.not_lt.2 hpos), if_neg horder]

/-- A signed output length that is not negative is the unsigned one. -/
theorem toNat_argOutLenInt {s : State} (h : 0 ≤ s.argOutLen.toInt) : (argOutLenInt s).toNat = s.argOutLen.toNat :=
  BitVec.toNat_toInt_of_sle (BitVec.sle_iff_toInt_le.2 (by simpa using h))

/-- A new block opens `OUT` with the carried bytes that fit (93_implementation_defined.md section 2; log 14). -/
theorem out_beginBlock (s : State) :
    (beginBlock s).out = Memory.writeBytes [] 0 (s.carry.take (argOutLenInt s).toNat) := rfl

/-- The opened `OUT` holds the carried bytes that fit (log 14). -/
theorem read_openedOut {carry : List Byte} {n k : Nat} (hk : k < min carry.length n) :
    carry[k]? = some (Memory.read (Memory.writeBytes [] 0 (carry.take n)) k) := by
  obtain ⟨hcarry, hn⟩ := Nat.lt_min.1 hk
  rw [Memory.read_writeBytes rfl, if_pos (by rw [List.length_take]; omega)]
  simp [hcarry, hn]

/-- Past the carried bytes the opened `OUT` is unwritten. -/
theorem read_openedOut_rest {carry : List Byte} {n k : Nat} (hk : min carry.length n ≤ k) :
    Memory.read (Memory.writeBytes [] 0 (carry.take n)) k = Memory.read [] k := by
  rw [Memory.read_writeBytes rfl, if_neg (by rw [List.length_take]; omega)]

/-- Settles O43: the checks pass, so the block is begun or, under PER_SYMBOL, refused. -/
theorem decodeBlockOpensTheSegment : Obligations.DecodeBlockOpensTheSegment := by
  intro s hf hl hseg h1 hmax hpos hseq
  have hnone := structuralFault_eq_none hf hl hseg h1 hmax hpos hseq
  have hlen := toNat_argOutLenInt (s := s) (by omega)
  refine ⟨fun htrig => ⟨beginBlock s, ?_, ?_, fun hc => ?_, fun k hk => ?_, fun k hk => ?_⟩, fun htrig => ?_⟩
  · simp only [exec, execDecodeBlock, hnone, htrig]
  · simp only [beginBlock, openOut, hlen, List.length_take, Nat.min_comm, startSegment]
  · rw [out_beginBlock, hc, List.take_nil, Memory.writeBytes]
  · rw [out_beginBlock, hlen]
    exact read_openedOut hk
  · rw [out_beginBlock, hlen]
    exact read_openedOut_rest hk
  · simp only [exec, execDecodeBlock, hnone, htrig]

/-! ### The reserved OPs -/

/-- Settles O45: a reserved OP is a raise of BAD_COMMAND, whatever the state. -/
theorem reservedOpsRaiseBadCommand : Obligations.ReservedOpsRaiseBadCommand := fun s _ _ h => exec_reserved h s

end Sys2Proof.Machine
end

section
/-! The faulted state: a fault ends the command where it is raised, and only INIT leaves it (60_exceptions.md R300,
R312). -/

namespace Sys2Proof.Machine

open Sys2Proof.Safety

/-! ### What a transition may do about a fault -/

/-- The engine a fault leaves behind, raised at `s`: idle, `OUT` null, the counters and the history as at `s`
(60_exceptions.md R300). -/
def EndedByFault (s t : State) : Prop :=
  t.phase = .idle ∧ t.outValid = false ∧ t.faultCode ≠ .none ∧ t.frames = s.frames ∧ t.streamPos = s.streamPos ∧
    t.nextBlockNo = s.nextBlockNo ∧ t.win = s.win ∧ t.winPos = s.winPos ∧ t.out = s.out ∧ t.outPos = s.outPos

/-- A fault at `s` stands at `t`, and a fault new at `t` has ended the command. -/
structure FaultRule (s t : State) : Prop where
  stands : s.faulted = true → t.faulted = true
  raised : s.faulted = false → t.faulted = true → EndedByFault s t

theorem faultRule_of_faulted_eq {s t : State} (h : t.faulted = s.faulted) : FaultRule s t where
  stands hs := h.trans hs
  raised hs ht := by
    rw [h, hs] at ht
    cases ht

theorem faultRule_raiseFault {f : FaultCode} (hf : f ≠ .none) (info : Word) (s : State) :
    FaultRule s (raiseFault f info s) where
  stands _ := rfl
  raised _ _ := ⟨rfl, rfl, hf, rfl, rfl, rfl, rfl, rfl, rfl, rfl⟩

/-- A stream element obeys the rule, whatever reader it was read into. -/
theorem faultRule_of_frame {s t : State} {r : Reader} (h : Frame { s with rd := r } t) : FaultRule s t where
  stands := h.faulted
  raised hs ht := by
    obtain ⟨hphase, hvalid, hcode, houtput⟩ := h.fault hs ht
    exact ⟨hphase, hvalid, hcode, h.frames, h.streamPos, h.nextBlockNo, houtput⟩

/-! ### Commands and steps -/

theorem faultRule_execDecodeBlock {s t : State} (he : execDecodeBlock s = .next t) : FaultRule s t := by
  unfold execDecodeBlock at he
  split at he
  · rename_i f info hfault
    cases he
    exact faultRule_raiseFault (structuralFault_ne_none hfault) info s
  · split at he
    · cases he
      exact faultRule_of_faulted_eq rfl
    · cases he

/-- Every command but INIT obeys the rule. -/
theorem faultRule_exec_command {w : Word} {s t : State} (hinit : w.toNat % 16 ≠ 1)
    (he : exec (decodeCommand w) s = .next t) : FaultRule s t := by
  rcases decodeCommand_cases w with ⟨hw, -⟩ | ⟨-, e⟩ | ⟨-, e⟩ | ⟨-, e⟩ | ⟨-, e⟩ | ⟨op, -, e⟩
  · exact absurd hw hinit
  · rw [e] at he
    exact faultRule_execDecodeBlock he
  iterate 3
    rw [e] at he
    cases he
    exact faultRule_of_faulted_eq rfl
  · rw [exec_reserved e] at he
    cases he
    exact faultRule_raiseFault (by decide) _ s

/-- Every step that takes no INIT obeys the rule. -/
theorem faultRule_step {s t : State} (he : step s = .next t) (hinit : ¬ TakesInit s) : FaultRule s t := by
  cases stepped_of_step he with
  | waited _ _ ht => exact faultRule_of_faulted_eq (by rw [ht])
  | command w hp hc he =>
    have hrule := faultRule_exec_command (fun hw => hinit ⟨hp, w, hc, hw⟩) he
    exact ⟨hrule.stands, hrule.raised⟩
  | completed _ ht => exact faultRule_of_faulted_eq (by simp [ht, finishBlock])
  | matched _ he => exact faultRule_of_frame (r := s.rd) (frame_exec rfl he)
  | element i r hd he => exact faultRule_of_frame (frame_exec (readsAt_of_reads hd).1.not_command he)
  | latchedMatch _ _ _ _ ht => exact faultRule_of_faulted_eq (by rw [ht])
  | latchedRaw _ _ _ _ _ _ ht => exact faultRule_of_faulted_eq (by rw [ht])
  | overran _ r _ ht =>
    rw [ht]
    exact faultRule_of_frame (r := r) (.raise (by decide) (.refl _) ⟨rfl, rfl, rfl, rfl⟩)

/-- Settles O56: every other step lets the fault stand. -/
theorem onlyInitLeavesAFault : Obligations.OnlyInitLeavesAFault := by
  intro s t he hs ht
  by_contra hinit
  exact absurd ((faultRule_step he hinit).stands hs) (ne_true_of_eq_false ht)

/-- Settles O57: a step that takes no INIT raises a fault only by ending the command. -/
theorem aFaultEndsTheCommand : Obligations.AFaultEndsTheCommand := fun _ _ he hs ht hinit =>
  (faultRule_step he hinit).raised hs ht

end Sys2Proof.Machine
end

section
/-! The engine at power-on and under a command, and the vectors of the spec as instances of the read-back lemmas
(70_reset_and_hazards.md R330, R331, R334; 95_test_vectors.md). -/

namespace Sys2Proof.Machine

open Sys2Proof.Safety

/-! ### Power-on -/

/-- No table is built at power-on (70_reset_and_hazards.md R331). -/
theorem bookOf_reset_valid (tree : Tree) : (bookOf tree State.reset).valid = false := by
  cases tree <;> rfl

/-- The engine at power-on is at rest: no command waits or runs. -/
theorem busy_reset : busy State.reset = false := (busy_eq_false_iff _).2 ⟨rfl, rfl⟩

/-- Settles O46: the engine is at rest, so a read answers what the map shows of a power-on value, which is 0. -/
theorem powerOnReadsZero : Obligations.PowerOnReadsZero := by
  refine ⟨rfl, rfl, rfl, rfl, rfl, bookOf_reset_valid, fun offset ho => hostRead_of_rest busy_reset ?_⟩
  fin_cases ho <;> rfl

theorem phaseOk_reset : PhaseOk State.reset := fun _ hn => absurd rfl hn

/-- Settles O50: power-on keeps the storage and the registers as any `powerOn` does, and no block is under way. -/
theorem resetIsWellKept : Obligations.ResetIsWellKept where
  storage := storageOk_powerOn (s := State.reset) rfl
  registers := registersOk_powerOn State.reset
  phase := phaseOk_reset

/-! ### Under a command -/

theorem busy_iff (s : State) : busy s = true ↔ (∃ w, s.cmd = some w) ∨ s.phase ≠ .idle := by
  simp [busy, Option.isSome_iff_exists]

/-- Settles O49: the engine is busy, and each of the four accesses asks that first. -/
theorem busyEngineRefusesTheHost : Obligations.BusyEngineRefusesTheHost := by
  intro s offset a v b h
  have hb : busy s = true := (busy_iff s).2 h
  exact ⟨if_pos hb, if_pos hb, if_pos hb, if_pos hb⟩

/-! ### The vectors of the spec -/

/-- A fresh reader has the bits its bytes write ahead of it (40_bitreader.md R138). -/
theorem ahead_freshReader {bytes : List Byte} {bs : List Bool} (hlen : bytes.length < 2 ^ 32)
    (hb : bitsAhead (freshReader bytes) bs.length = bs) : Ahead (freshReader bytes) bs where
  ok := ⟨Nat.zero_le _, Nat.one_pos, Nat.zero_le _, hlen, Memory.wf_writeBytes rfl 0 bytes⟩
  bits := hb

theorem instr?_of_elem {d : Decoded} {i : Instr} {P : Reader → Prop} (h : ∃ r, d = .elem i r ∧ P r) :
    d.instr? = some i := by
  obtain ⟨r, rfl, -⟩ := h
  rfl

/-- The pretree lengths of vectors V-B4 and V-B10. -/
def vectorLens : List Nat := [1, 2, 3, 4, 5, 6, 7, 7, 0, 0, 0, 0, 0, 0, 0, 0, 0, 0, 0, 0]

/-- The pretree of vectors V-B4 and V-B10, as the builder leaves it. -/
def vectorBook : CodeBook where
  lens := vectorLens
  book := { table := (buildTable .pre vectorLens).table, valid := true }

theorem codeReady_vectorBook : CodeReady .pre vectorBook where
  lengths := ⟨rfl, by decide⟩
  fits := show codeSpaceBelow vectorLens 16 ≤ 2 ^ 16 by decide
  built := by decide
  book := rfl

/-- Settles O4: each vector lays the fields of its element, the raw words, or the code of its symbol ahead of the reader,
and what is laid ahead is read back. -/
theorem specWordsDecode : Obligations.SpecWordsDecode := by
  refine ⟨instr?_of_elem (decodePreamble_on 1 0 ?_), instr?_of_elem (decodeHeader_fields 3 0 5 ?_),
    instr?_of_elem (decodeAlignedLengths_fields rfl ?_), instr?_of_elem (decodeUncRepeats_bytes ?_),
    instr?_of_elem (decodePtop_delta (z := 7) codeReady_vectorBook ?_ ?_ ?_)⟩
  · exact ahead_freshReader (by decide) (by decide)
  · exact ahead_freshReader (by decide) (by decide)
  · exact ahead_freshReader (by decide) (by decide)
  · decide
  · decide
  · decide
  · exact ahead_freshReader (by decide) (by decide)

end Sys2Proof.Machine
end
